-- ==== Sys2Proof/Word.lean ====
section
/-!
DEFINITION. The two data widths of the HC11: the byte and the 16-bit word (00_scope.md R5, R12).
-/

namespace Sys2Proof

/-- An 8-bit value: an accumulator, a memory byte, an operand byte. -/
abbrev Byte := BitVec 8

/-- A 16-bit value: an index register, SP, PC, an address, the double accumulator D. -/
abbrev Word := BitVec 16

end Sys2Proof
end

