-- ==== Sys2Proof/Config.lean ====
section
/-!
DEFINITION. What an implementation fixes: the parameters of 00_scope.md R5 that a rule reads, and the free values.

The parameters the spec leaves to the part (92_eei_decisions.md D2, D3, D5, D7, 93 U20) are the fields of `Config`. A
`Config` is carried by the machine's state and no step changes it, so a statement about every state is a statement about
every part. `PART` and `E_HZ` have no field: no rule depends on them (R5). `CCR_EFFECTS` and `DEVICE_TIMING` have none:
92 D1 and D22 decide each of them (10_state.md R34, 60_exceptions.md R429; notes/assumptions/24.md,
notes/assumptions/25.md); the table of `CCR_EFFECTS` stands in one place, `Machine.ccrEffect`.
-/

namespace Sys2Proof

/-- The two operating modes of this spec, `MODE` of 00_scope.md R5: single-chip and expanded. -/
inductive Mode where
  | singleChip
  | expanded
deriving DecidableEq, Repr

/-- `ILLEGAL_OPCODE` of 00_scope.md R5: what an unassigned encoding does (92 D7). -/
inductive IllegalOpcode where
  /-- The illegal-opcode trap of 60_exceptions.md R415, the default. -/
  | trap
  /-- Execution stops with a fault. -/
  | fault
deriving DecidableEq, Repr

/-- What stands behind a region of `MEM_MAP` (20_memory.md R70). The device block is not listed: its place is
`Config.regBase`, and an address in no region and not in the block is of kind NONE. -/
inductive RegionKind where
  | ram
  | rom
deriving DecidableEq, Repr

/-- One region of `MEM_MAP`: the addresses from `first` to `last`, both included (20_memory.md R70). -/
structure Region where
  first : Word
  last : Word
  kind : RegionKind
deriving DecidableEq, Repr

/-- `VECTOR_TABLE` of 00_scope.md R5: the addresses of the vectors the source does not give (60_exceptions.md R404,
92 D5). Those of SCI and SPI are the source's, and no parameter. -/
structure VectorTable where
  reset : Word
  xirq : Word
  irq : Word
  swi : Word
  illop : Word
deriving DecidableEq, Repr

/-- The family's table, the default (60_exceptions.md R404, 92 D5; notes/assumptions/24.md). -/
def VectorTable.family : VectorTable where
  reset := 0xFFFE
  xirq := 0xFFF4
  irq := 0xFFF2
  swi := 0xFFF6
  illop := 0xFFF8

/-- The parameters of a machine (00_scope.md R5). -/
structure Config where
  /-- `MODE`. -/
  mode : Mode
  /-- `REG_BASE`: the address of device-register offset $00 (92 D2). -/
  regBase : Word
  /-- `MEM_MAP`: the regions of RAM and ROM (92 D3). -/
  regions : List Region
  /-- `VECTOR_TABLE` (92 D5). -/
  vectors : VectorTable
  /-- `ILLEGAL_OPCODE` (92 D7). -/
  illegalOpcode : IllegalOpcode
  /-- `SCCR2_RWU_RESET`: bit 1 of SCCR2 after reset (93 U20). -/
  rwuReset : Bool
deriving DecidableEq, Repr

/-- The configuration of `State.reset`. `REG_BASE` $1000, the trap and RWU = 0 are the spec's own defaults
(R5, D7, U20), and the vectors its table R404; the map of RAM at every address outside the device block is a DESIGN CHOICE, unsafe
(notes/assumptions/3.md). -/
def Config.standard : Config where
  mode := .expanded
  regBase := 0x1000
  regions := [{ first := 0x0000, last := 0xFFFF, kind := .ram }]
  vectors := .family
  illegalOpcode := .trap
  rwuReset := false

/-- The free values: the value drawn at the n-th draw. It has no body, so no proof can know a value of it
(00_scope.md R12 `undefined(n)`, 92 D35; notes/assumptions/1.md). -/
opaque Config.freeWord : Nat → BitVec 16

end Sys2Proof
end

