-- ==== Sys2Proof/Syntax.lean ====
section
/-!
DEFINITION. The instructions of spec/opcode_table.json: one constructor per mnemonic (145), and in its operand every
addressing mode the table lists for it and no other (30_encoding.md R102), so that each of the table's 316 rows is one
constructor with one form of its operand.
-/

namespace Sys2Proof

/-- The operand of an 8-bit instruction with the modes IMM, DIR, EXT, IND,X and IND,Y (30_encoding.md R100, R101). -/
inductive Operand8 where
  | imm (ii : Byte)
  | dir (dd : Byte)
  | ext (hhll : Word)
  | indX (ff : Byte)
  | indY (ff : Byte)
deriving DecidableEq, Repr

/-- The operand of a 16-bit instruction with the modes IMM, DIR, EXT, IND,X and IND,Y (30_encoding.md R100, R101). -/
inductive Operand16 where
  | imm (jjkk : Word)
  | dir (dd : Byte)
  | ext (hhll : Word)
  | indX (ff : Byte)
  | indY (ff : Byte)
deriving DecidableEq, Repr

/-- The address operand of the stores and of JSR: DIR, EXT, IND,X, IND,Y (30_encoding.md R102). -/
inductive EaFull where
  | dir (dd : Byte)
  | ext (hhll : Word)
  | indX (ff : Byte)
  | indY (ff : Byte)
deriving DecidableEq, Repr

/-- The address operand of the read-modify-write group and of JMP: EXT, IND,X, IND,Y (30_encoding.md R102). -/
inductive EaExt where
  | ext (hhll : Word)
  | indX (ff : Byte)
  | indY (ff : Byte)
deriving DecidableEq, Repr

/-- The address operand of BCLR, BSET, BRCLR and BRSET: DIR, IND,X, IND,Y (30_encoding.md R102). -/
inductive EaBit where
  | dir (dd : Byte)
  | indX (ff : Byte)
  | indY (ff : Byte)
deriving DecidableEq, Repr

/-- The instructions, in the table's order. `lsl`, `lsla`, `lslb`, `lsld`, `bhs` and `blo` are the six second names of
30_encoding.md R99: they have rows and rules of their own, and the decoder answers the canonical name (92 D25). -/
inductive Instr where
  | aba
  | abx
  | aby
  | adca (m : Operand8)
  | adcb (m : Operand8)
  | adda (m : Operand8)
  | addb (m : Operand8)
  | addd (m : Operand16)
  | anda (m : Operand8)
  | andb (m : Operand8)
  | asl (ea : EaExt)
  | asla
  | aslb
  | asld
  | asr (ea : EaExt)
  | asra
  | asrb
  | bcc (rr : Byte)
  | bclr (ea : EaBit) (mm : Byte)
  | bcs (rr : Byte)
  | beq (rr : Byte)
  | bge (rr : Byte)
  | bgt (rr : Byte)
  | bhi (rr : Byte)
  | bhs (rr : Byte)
  | bita (m : Operand8)
  | bitb (m : Operand8)
  | ble (rr : Byte)
  | blo (rr : Byte)
  | bls (rr : Byte)
  | blt (rr : Byte)
  | bmi (rr : Byte)
  | bne (rr : Byte)
  | bpl (rr : Byte)
  | bra (rr : Byte)
  | brclr (ea : EaBit) (mm rr : Byte)
  | brn (rr : Byte)
  | brset (ea : EaBit) (mm rr : Byte)
  | bset (ea : EaBit) (mm : Byte)
  | bsr (rr : Byte)
  | bvc (rr : Byte)
  | bvs (rr : Byte)
  | cba
  | clc
  | cli
  | clr (ea : EaExt)
  | clra
  | clrb
  | clv
  | cmpa (m : Operand8)
  | cmpb (m : Operand8)
  | com (ea : EaExt)
  | coma
  | comb
  | cpd (m : Operand16)
  | cpx (m : Operand16)
  | cpy (m : Operand16)
  | daa
  | dec (ea : EaExt)
  | deca
  | decb
  | des
  | dex
  | dey
  | eora (m : Operand8)
  | eorb (m : Operand8)
  | fdiv
  | idiv
  | inc (ea : EaExt)
  | inca
  | incb
  | ins
  | inx
  | iny
  | jmp (ea : EaExt)
  | jsr (ea : EaFull)
  | ldaa (m : Operand8)
  | ldab (m : Operand8)
  | ldd (m : Operand16)
  | lds (m : Operand16)
  | ldx (m : Operand16)
  | ldy (m : Operand16)
  | lsl (ea : EaExt)
  | lsla
  | lslb
  | lsld
  | lsr (ea : EaExt)
  | lsra
  | lsrb
  | lsrd
  | mul
  | neg (ea : EaExt)
  | nega
  | negb
  | nop
  | oraa (m : Operand8)
  | orab (m : Operand8)
  | psha
  | pshb
  | pshx
  | pshy
  | pula
  | pulb
  | pulx
  | puly
  | rol (ea : EaExt)
  | rola
  | rolb
  | ror (ea : EaExt)
  | rora
  | rorb
  | rti
  | rts
  | sba
  | sbca (m : Operand8)
  | sbcb (m : Operand8)
  | sec
  | sei
  | sev
  | staa (ea : EaFull)
  | stab (ea : EaFull)
  | std (ea : EaFull)
  | stop
  | sts (ea : EaFull)
  | stx (ea : EaFull)
  | sty (ea : EaFull)
  | suba (m : Operand8)
  | subb (m : Operand8)
  | subd (m : Operand16)
  | swi
  | tab
  | tap
  | tba
  | test
  | tpa
  | tst (ea : EaExt)
  | tsta
  | tstb
  | tsx
  | tsy
  | txs
  | tys
  | wai
  | xgdx
  | xgdy
deriving DecidableEq, Repr

end Sys2Proof
end

