-- ==== Sys2Proof/WellFormed.lean ====
section
/-!
DEFINITION. Which instruction terms a decoder can answer.

Every operand byte of this machine is used whole and no bit of it is reserved (30_encoding.md R91), and the operand
types admit exactly the modes the table lists, so the one check is that the term carries the canonical name of its
words (30_encoding.md R99, 92_eei_decisions.md D25).
-/

namespace Sys2Proof

/-- The canonical name of an instruction: ASL, ASLA, ASLB, ASLD, BCC, BCS for their second names (30_encoding.md R99). -/
def Instr.canonical : Instr → Instr
  | .lsl ea => .asl ea
  | .lsla => .asla
  | .lslb => .aslb
  | .lsld => .asld
  | .bhs rr => .bcc rr
  | .blo rr => .bcs rr
  | i => i

/-- The term is the canonical name of its words (92_eei_decisions.md D25: "A decoder must return one"). -/
abbrev WellFormed (i : Instr) : Prop := i.canonical = i

end Sys2Proof
end

