-- ==== Sys2Proof/Decode.lean ====
section
/-!
DEFINITION. The decoder (30_encoding.md R90 to R98), total on any bytes, and after it the encoder.

The decoder is the opcode map read byte by byte (R94, R95, R97). The encoder is written from the regularities of the
table instead (R96 P1 to P4), so that their agreement says something about both.
-/

namespace Sys2Proof

/-! ### Byte order and sign -/

/-- The more significant byte of a word, the one at the lower address (20_memory.md R60). -/
def highByte (w : Word) : Byte := w.extractLsb' 8 8

/-- The less significant byte of a word (20_memory.md R60). -/
def lowByte (w : Word) : Byte := w.extractLsb' 0 8

/-- The word whose more significant byte is `h` (20_memory.md R60). -/
def joinBytes (h l : Byte) : Word := (h ++ l : BitVec (8 + 8))

/-! ### The opcode map -/

/-- What an opcode says of its operand bytes: how many follow, and the instruction they complete
(30_encoding.md R91, R94). -/
inductive Shape where
  /-- The encoding is in no row of the table (30_encoding.md R98). -/
  | illegal
  | inh (i : Instr)
  | one (f : Byte → Instr)
  | two (f : Byte → Byte → Instr)
  | three (f : Byte → Byte → Byte → Instr)

/-- Row 0x of the page-1 map (30_encoding.md R95). -/
def page1Row0 (lo : Nat) : Shape :=
  match lo with
  | 0x0 => .inh .test
  | 0x1 => .inh .nop
  | 0x2 => .inh .idiv
  | 0x3 => .inh .fdiv
  | 0x4 => .inh .lsrd
  | 0x5 => .inh .asld
  | 0x6 => .inh .tap
  | 0x7 => .inh .tpa
  | 0x8 => .inh .inx
  | 0x9 => .inh .dex
  | 0xA => .inh .clv
  | 0xB => .inh .sev
  | 0xC => .inh .clc
  | 0xD => .inh .sec
  | 0xE => .inh .cli
  | 0xF => .inh .sei
  | _ => .illegal

/-- Row 1x of the page-1 map (30_encoding.md R95). -/
def page1Row1 (lo : Nat) : Shape :=
  match lo with
  | 0x0 => .inh .sba
  | 0x1 => .inh .cba
  | 0x2 => .three fun dd mm rr => .brset (.dir dd) mm rr
  | 0x3 => .three fun dd mm rr => .brclr (.dir dd) mm rr
  | 0x4 => .two fun dd mm => .bset (.dir dd) mm
  | 0x5 => .two fun dd mm => .bclr (.dir dd) mm
  | 0x6 => .inh .tab
  | 0x7 => .inh .tba
  | 0x9 => .inh .daa
  | 0xB => .inh .aba
  | 0xC => .two fun ff mm => .bset (.indX ff) mm
  | 0xD => .two fun ff mm => .bclr (.indX ff) mm
  | 0xE => .three fun ff mm rr => .brset (.indX ff) mm rr
  | 0xF => .three fun ff mm rr => .brclr (.indX ff) mm rr
  | _ => .illegal

/-- Row 2x of the page-1 map (30_encoding.md R95). -/
def page1Row2 (lo : Nat) : Shape :=
  match lo with
  | 0x0 => .one fun rr => .bra rr
  | 0x1 => .one fun rr => .brn rr
  | 0x2 => .one fun rr => .bhi rr
  | 0x3 => .one fun rr => .bls rr
  | 0x4 => .one fun rr => .bcc rr
  | 0x5 => .one fun rr => .bcs rr
  | 0x6 => .one fun rr => .bne rr
  | 0x7 => .one fun rr => .beq rr
  | 0x8 => .one fun rr => .bvc rr
  | 0x9 => .one fun rr => .bvs rr
  | 0xA => .one fun rr => .bpl rr
  | 0xB => .one fun rr => .bmi rr
  | 0xC => .one fun rr => .bge rr
  | 0xD => .one fun rr => .blt rr
  | 0xE => .one fun rr => .bgt rr
  | 0xF => .one fun rr => .ble rr
  | _ => .illegal

/-- Row 3x of the page-1 map (30_encoding.md R95). -/
def page1Row3 (lo : Nat) : Shape :=
  match lo with
  | 0x0 => .inh .tsx
  | 0x1 => .inh .ins
  | 0x2 => .inh .pula
  | 0x3 => .inh .pulb
  | 0x4 => .inh .des
  | 0x5 => .inh .txs
  | 0x6 => .inh .psha
  | 0x7 => .inh .pshb
  | 0x8 => .inh .pulx
  | 0x9 => .inh .rts
  | 0xA => .inh .abx
  | 0xB => .inh .rti
  | 0xC => .inh .pshx
  | 0xD => .inh .mul
  | 0xE => .inh .wai
  | 0xF => .inh .swi
  | _ => .illegal

/-- Row 4x of the page-1 map (30_encoding.md R95). -/
def page1Row4 (lo : Nat) : Shape :=
  match lo with
  | 0x0 => .inh .nega
  | 0x3 => .inh .coma
  | 0x4 => .inh .lsra
  | 0x6 => .inh .rora
  | 0x7 => .inh .asra
  | 0x8 => .inh .asla
  | 0x9 => .inh .rola
  | 0xA => .inh .deca
  | 0xC => .inh .inca
  | 0xD => .inh .tsta
  | 0xF => .inh .clra
  | _ => .illegal

/-- Row 5x of the page-1 map (30_encoding.md R95). -/
def page1Row5 (lo : Nat) : Shape :=
  match lo with
  | 0x0 => .inh .negb
  | 0x3 => .inh .comb
  | 0x4 => .inh .lsrb
  | 0x6 => .inh .rorb
  | 0x7 => .inh .asrb
  | 0x8 => .inh .aslb
  | 0x9 => .inh .rolb
  | 0xA => .inh .decb
  | 0xC => .inh .incb
  | 0xD => .inh .tstb
  | 0xF => .inh .clrb
  | _ => .illegal

/-- Row 6x of the page-1 map (30_encoding.md R95). -/
def page1Row6 (lo : Nat) : Shape :=
  match lo with
  | 0x0 => .one fun ff => .neg (.indX ff)
  | 0x3 => .one fun ff => .com (.indX ff)
  | 0x4 => .one fun ff => .lsr (.indX ff)
  | 0x6 => .one fun ff => .ror (.indX ff)
  | 0x7 => .one fun ff => .asr (.indX ff)
  | 0x8 => .one fun ff => .asl (.indX ff)
  | 0x9 => .one fun ff => .rol (.indX ff)
  | 0xA => .one fun ff => .dec (.indX ff)
  | 0xC => .one fun ff => .inc (.indX ff)
  | 0xD => .one fun ff => .tst (.indX ff)
  | 0xE => .one fun ff => .jmp (.indX ff)
  | 0xF => .one fun ff => .clr (.indX ff)
  | _ => .illegal

/-- Row 7x of the page-1 map (30_encoding.md R95). -/
def page1Row7 (lo : Nat) : Shape :=
  match lo with
  | 0x0 => .two fun hh ll => .neg (.ext (joinBytes hh ll))
  | 0x3 => .two fun hh ll => .com (.ext (joinBytes hh ll))
  | 0x4 => .two fun hh ll => .lsr (.ext (joinBytes hh ll))
  | 0x6 => .two fun hh ll => .ror (.ext (joinBytes hh ll))
  | 0x7 => .two fun hh ll => .asr (.ext (joinBytes hh ll))
  | 0x8 => .two fun hh ll => .asl (.ext (joinBytes hh ll))
  | 0x9 => .two fun hh ll => .rol (.ext (joinBytes hh ll))
  | 0xA => .two fun hh ll => .dec (.ext (joinBytes hh ll))
  | 0xC => .two fun hh ll => .inc (.ext (joinBytes hh ll))
  | 0xD => .two fun hh ll => .tst (.ext (joinBytes hh ll))
  | 0xE => .two fun hh ll => .jmp (.ext (joinBytes hh ll))
  | 0xF => .two fun hh ll => .clr (.ext (joinBytes hh ll))
  | _ => .illegal

/-- Row 8x of the page-1 map (30_encoding.md R95). -/
def page1Row8 (lo : Nat) : Shape :=
  match lo with
  | 0x0 => .one fun ii => .suba (.imm ii)
  | 0x1 => .one fun ii => .cmpa (.imm ii)
  | 0x2 => .one fun ii => .sbca (.imm ii)
  | 0x3 => .two fun jj kk => .subd (.imm (joinBytes jj kk))
  | 0x4 => .one fun ii => .anda (.imm ii)
  | 0x5 => .one fun ii => .bita (.imm ii)
  | 0x6 => .one fun ii => .ldaa (.imm ii)
  | 0x8 => .one fun ii => .eora (.imm ii)
  | 0x9 => .one fun ii => .adca (.imm ii)
  | 0xA => .one fun ii => .oraa (.imm ii)
  | 0xB => .one fun ii => .adda (.imm ii)
  | 0xC => .two fun jj kk => .cpx (.imm (joinBytes jj kk))
  | 0xD => .one fun rr => .bsr rr
  | 0xE => .two fun jj kk => .lds (.imm (joinBytes jj kk))
  | 0xF => .inh .xgdx
  | _ => .illegal

/-- Row 9x of the page-1 map (30_encoding.md R95). -/
def page1Row9 (lo : Nat) : Shape :=
  match lo with
  | 0x0 => .one fun dd => .suba (.dir dd)
  | 0x1 => .one fun dd => .cmpa (.dir dd)
  | 0x2 => .one fun dd => .sbca (.dir dd)
  | 0x3 => .one fun dd => .subd (.dir dd)
  | 0x4 => .one fun dd => .anda (.dir dd)
  | 0x5 => .one fun dd => .bita (.dir dd)
  | 0x6 => .one fun dd => .ldaa (.dir dd)
  | 0x7 => .one fun dd => .staa (.dir dd)
  | 0x8 => .one fun dd => .eora (.dir dd)
  | 0x9 => .one fun dd => .adca (.dir dd)
  | 0xA => .one fun dd => .oraa (.dir dd)
  | 0xB => .one fun dd => .adda (.dir dd)
  | 0xC => .one fun dd => .cpx (.dir dd)
  | 0xD => .one fun dd => .jsr (.dir dd)
  | 0xE => .one fun dd => .lds (.dir dd)
  | 0xF => .one fun dd => .sts (.dir dd)
  | _ => .illegal

/-- Row Ax of the page-1 map (30_encoding.md R95). -/
def page1RowA (lo : Nat) : Shape :=
  match lo with
  | 0x0 => .one fun ff => .suba (.indX ff)
  | 0x1 => .one fun ff => .cmpa (.indX ff)
  | 0x2 => .one fun ff => .sbca (.indX ff)
  | 0x3 => .one fun ff => .subd (.indX ff)
  | 0x4 => .one fun ff => .anda (.indX ff)
  | 0x5 => .one fun ff => .bita (.indX ff)
  | 0x6 => .one fun ff => .ldaa (.indX ff)
  | 0x7 => .one fun ff => .staa (.indX ff)
  | 0x8 => .one fun ff => .eora (.indX ff)
  | 0x9 => .one fun ff => .adca (.indX ff)
  | 0xA => .one fun ff => .oraa (.indX ff)
  | 0xB => .one fun ff => .adda (.indX ff)
  | 0xC => .one fun ff => .cpx (.indX ff)
  | 0xD => .one fun ff => .jsr (.indX ff)
  | 0xE => .one fun ff => .lds (.indX ff)
  | 0xF => .one fun ff => .sts (.indX ff)
  | _ => .illegal

/-- Row Bx of the page-1 map (30_encoding.md R95). -/
def page1RowB (lo : Nat) : Shape :=
  match lo with
  | 0x0 => .two fun hh ll => .suba (.ext (joinBytes hh ll))
  | 0x1 => .two fun hh ll => .cmpa (.ext (joinBytes hh ll))
  | 0x2 => .two fun hh ll => .sbca (.ext (joinBytes hh ll))
  | 0x3 => .two fun hh ll => .subd (.ext (joinBytes hh ll))
  | 0x4 => .two fun hh ll => .anda (.ext (joinBytes hh ll))
  | 0x5 => .two fun hh ll => .bita (.ext (joinBytes hh ll))
  | 0x6 => .two fun hh ll => .ldaa (.ext (joinBytes hh ll))
  | 0x7 => .two fun hh ll => .staa (.ext (joinBytes hh ll))
  | 0x8 => .two fun hh ll => .eora (.ext (joinBytes hh ll))
  | 0x9 => .two fun hh ll => .adca (.ext (joinBytes hh ll))
  | 0xA => .two fun hh ll => .oraa (.ext (joinBytes hh ll))
  | 0xB => .two fun hh ll => .adda (.ext (joinBytes hh ll))
  | 0xC => .two fun hh ll => .cpx (.ext (joinBytes hh ll))
  | 0xD => .two fun hh ll => .jsr (.ext (joinBytes hh ll))
  | 0xE => .two fun hh ll => .lds (.ext (joinBytes hh ll))
  | 0xF => .two fun hh ll => .sts (.ext (joinBytes hh ll))
  | _ => .illegal

/-- Row Cx of the page-1 map (30_encoding.md R95). -/
def page1RowC (lo : Nat) : Shape :=
  match lo with
  | 0x0 => .one fun ii => .subb (.imm ii)
  | 0x1 => .one fun ii => .cmpb (.imm ii)
  | 0x2 => .one fun ii => .sbcb (.imm ii)
  | 0x3 => .two fun jj kk => .addd (.imm (joinBytes jj kk))
  | 0x4 => .one fun ii => .andb (.imm ii)
  | 0x5 => .one fun ii => .bitb (.imm ii)
  | 0x6 => .one fun ii => .ldab (.imm ii)
  | 0x8 => .one fun ii => .eorb (.imm ii)
  | 0x9 => .one fun ii => .adcb (.imm ii)
  | 0xA => .one fun ii => .orab (.imm ii)
  | 0xB => .one fun ii => .addb (.imm ii)
  | 0xC => .two fun jj kk => .ldd (.imm (joinBytes jj kk))
  | 0xE => .two fun jj kk => .ldx (.imm (joinBytes jj kk))
  | 0xF => .inh .stop
  | _ => .illegal

/-- Row Dx of the page-1 map (30_encoding.md R95). -/
def page1RowD (lo : Nat) : Shape :=
  match lo with
  | 0x0 => .one fun dd => .subb (.dir dd)
  | 0x1 => .one fun dd => .cmpb (.dir dd)
  | 0x2 => .one fun dd => .sbcb (.dir dd)
  | 0x3 => .one fun dd => .addd (.dir dd)
  | 0x4 => .one fun dd => .andb (.dir dd)
  | 0x5 => .one fun dd => .bitb (.dir dd)
  | 0x6 => .one fun dd => .ldab (.dir dd)
  | 0x7 => .one fun dd => .stab (.dir dd)
  | 0x8 => .one fun dd => .eorb (.dir dd)
  | 0x9 => .one fun dd => .adcb (.dir dd)
  | 0xA => .one fun dd => .orab (.dir dd)
  | 0xB => .one fun dd => .addb (.dir dd)
  | 0xC => .one fun dd => .ldd (.dir dd)
  | 0xD => .one fun dd => .std (.dir dd)
  | 0xE => .one fun dd => .ldx (.dir dd)
  | 0xF => .one fun dd => .stx (.dir dd)
  | _ => .illegal

/-- Row Ex of the page-1 map (30_encoding.md R95). -/
def page1RowE (lo : Nat) : Shape :=
  match lo with
  | 0x0 => .one fun ff => .subb (.indX ff)
  | 0x1 => .one fun ff => .cmpb (.indX ff)
  | 0x2 => .one fun ff => .sbcb (.indX ff)
  | 0x3 => .one fun ff => .addd (.indX ff)
  | 0x4 => .one fun ff => .andb (.indX ff)
  | 0x5 => .one fun ff => .bitb (.indX ff)
  | 0x6 => .one fun ff => .ldab (.indX ff)
  | 0x7 => .one fun ff => .stab (.indX ff)
  | 0x8 => .one fun ff => .eorb (.indX ff)
  | 0x9 => .one fun ff => .adcb (.indX ff)
  | 0xA => .one fun ff => .orab (.indX ff)
  | 0xB => .one fun ff => .addb (.indX ff)
  | 0xC => .one fun ff => .ldd (.indX ff)
  | 0xD => .one fun ff => .std (.indX ff)
  | 0xE => .one fun ff => .ldx (.indX ff)
  | 0xF => .one fun ff => .stx (.indX ff)
  | _ => .illegal

/-- Row Fx of the page-1 map (30_encoding.md R95). -/
def page1RowF (lo : Nat) : Shape :=
  match lo with
  | 0x0 => .two fun hh ll => .subb (.ext (joinBytes hh ll))
  | 0x1 => .two fun hh ll => .cmpb (.ext (joinBytes hh ll))
  | 0x2 => .two fun hh ll => .sbcb (.ext (joinBytes hh ll))
  | 0x3 => .two fun hh ll => .addd (.ext (joinBytes hh ll))
  | 0x4 => .two fun hh ll => .andb (.ext (joinBytes hh ll))
  | 0x5 => .two fun hh ll => .bitb (.ext (joinBytes hh ll))
  | 0x6 => .two fun hh ll => .ldab (.ext (joinBytes hh ll))
  | 0x7 => .two fun hh ll => .stab (.ext (joinBytes hh ll))
  | 0x8 => .two fun hh ll => .eorb (.ext (joinBytes hh ll))
  | 0x9 => .two fun hh ll => .adcb (.ext (joinBytes hh ll))
  | 0xA => .two fun hh ll => .orab (.ext (joinBytes hh ll))
  | 0xB => .two fun hh ll => .addb (.ext (joinBytes hh ll))
  | 0xC => .two fun hh ll => .ldd (.ext (joinBytes hh ll))
  | 0xD => .two fun hh ll => .std (.ext (joinBytes hh ll))
  | 0xE => .two fun hh ll => .ldx (.ext (joinBytes hh ll))
  | 0xF => .two fun hh ll => .stx (.ext (joinBytes hh ll))
  | _ => .illegal

/-- Page 1, no prebyte, by the high and the low digit of the opcode (30_encoding.md R95). -/
def page1 (op : Nat) : Shape :=
  match op / 16 with
  | 0x0 => page1Row0 (op % 16)
  | 0x1 => page1Row1 (op % 16)
  | 0x2 => page1Row2 (op % 16)
  | 0x3 => page1Row3 (op % 16)
  | 0x4 => page1Row4 (op % 16)
  | 0x5 => page1Row5 (op % 16)
  | 0x6 => page1Row6 (op % 16)
  | 0x7 => page1Row7 (op % 16)
  | 0x8 => page1Row8 (op % 16)
  | 0x9 => page1Row9 (op % 16)
  | 0xA => page1RowA (op % 16)
  | 0xB => page1RowB (op % 16)
  | 0xC => page1RowC (op % 16)
  | 0xD => page1RowD (op % 16)
  | 0xE => page1RowE (op % 16)
  | 0xF => page1RowF (op % 16)
  | _ => .illegal

/-- The second bytes after prebyte $18 (30_encoding.md R97). -/
def page18 (op : Nat) : Shape :=
  match op with
  | 0x08 => .inh .iny
  | 0x09 => .inh .dey
  | 0x1C => .two fun ff mm => .bset (.indY ff) mm
  | 0x1D => .two fun ff mm => .bclr (.indY ff) mm
  | 0x1E => .three fun ff mm rr => .brset (.indY ff) mm rr
  | 0x1F => .three fun ff mm rr => .brclr (.indY ff) mm rr
  | 0x30 => .inh .tsy
  | 0x35 => .inh .tys
  | 0x38 => .inh .puly
  | 0x3A => .inh .aby
  | 0x3C => .inh .pshy
  | 0x60 => .one fun ff => .neg (.indY ff)
  | 0x63 => .one fun ff => .com (.indY ff)
  | 0x64 => .one fun ff => .lsr (.indY ff)
  | 0x66 => .one fun ff => .ror (.indY ff)
  | 0x67 => .one fun ff => .asr (.indY ff)
  | 0x68 => .one fun ff => .asl (.indY ff)
  | 0x69 => .one fun ff => .rol (.indY ff)
  | 0x6A => .one fun ff => .dec (.indY ff)
  | 0x6C => .one fun ff => .inc (.indY ff)
  | 0x6D => .one fun ff => .tst (.indY ff)
  | 0x6E => .one fun ff => .jmp (.indY ff)
  | 0x6F => .one fun ff => .clr (.indY ff)
  | 0x8C => .two fun jj kk => .cpy (.imm (joinBytes jj kk))
  | 0x8F => .inh .xgdy
  | 0x9C => .one fun dd => .cpy (.dir dd)
  | 0xA0 => .one fun ff => .suba (.indY ff)
  | 0xA1 => .one fun ff => .cmpa (.indY ff)
  | 0xA2 => .one fun ff => .sbca (.indY ff)
  | 0xA3 => .one fun ff => .subd (.indY ff)
  | 0xA4 => .one fun ff => .anda (.indY ff)
  | 0xA5 => .one fun ff => .bita (.indY ff)
  | 0xA6 => .one fun ff => .ldaa (.indY ff)
  | 0xA7 => .one fun ff => .staa (.indY ff)
  | 0xA8 => .one fun ff => .eora (.indY ff)
  | 0xA9 => .one fun ff => .adca (.indY ff)
  | 0xAA => .one fun ff => .oraa (.indY ff)
  | 0xAB => .one fun ff => .adda (.indY ff)
  | 0xAC => .one fun ff => .cpy (.indY ff)
  | 0xAD => .one fun ff => .jsr (.indY ff)
  | 0xAE => .one fun ff => .lds (.indY ff)
  | 0xAF => .one fun ff => .sts (.indY ff)
  | 0xBC => .two fun hh ll => .cpy (.ext (joinBytes hh ll))
  | 0xCE => .two fun jj kk => .ldy (.imm (joinBytes jj kk))
  | 0xDE => .one fun dd => .ldy (.dir dd)
  | 0xDF => .one fun dd => .sty (.dir dd)
  | 0xE0 => .one fun ff => .subb (.indY ff)
  | 0xE1 => .one fun ff => .cmpb (.indY ff)
  | 0xE2 => .one fun ff => .sbcb (.indY ff)
  | 0xE3 => .one fun ff => .addd (.indY ff)
  | 0xE4 => .one fun ff => .andb (.indY ff)
  | 0xE5 => .one fun ff => .bitb (.indY ff)
  | 0xE6 => .one fun ff => .ldab (.indY ff)
  | 0xE7 => .one fun ff => .stab (.indY ff)
  | 0xE8 => .one fun ff => .eorb (.indY ff)
  | 0xE9 => .one fun ff => .adcb (.indY ff)
  | 0xEA => .one fun ff => .orab (.indY ff)
  | 0xEB => .one fun ff => .addb (.indY ff)
  | 0xEC => .one fun ff => .ldd (.indY ff)
  | 0xED => .one fun ff => .std (.indY ff)
  | 0xEE => .one fun ff => .ldy (.indY ff)
  | 0xEF => .one fun ff => .sty (.indY ff)
  | 0xFE => .two fun hh ll => .ldy (.ext (joinBytes hh ll))
  | 0xFF => .two fun hh ll => .sty (.ext (joinBytes hh ll))
  | _ => .illegal

/-- The second bytes after prebyte $1A (30_encoding.md R97). -/
def page1A (op : Nat) : Shape :=
  match op with
  | 0x83 => .two fun jj kk => .cpd (.imm (joinBytes jj kk))
  | 0x93 => .one fun dd => .cpd (.dir dd)
  | 0xA3 => .one fun ff => .cpd (.indX ff)
  | 0xAC => .one fun ff => .cpy (.indX ff)
  | 0xB3 => .two fun hh ll => .cpd (.ext (joinBytes hh ll))
  | 0xEE => .one fun ff => .ldy (.indX ff)
  | 0xEF => .one fun ff => .sty (.indX ff)
  | _ => .illegal

/-- The second bytes after prebyte $CD (30_encoding.md R97). -/
def pageCD (op : Nat) : Shape :=
  match op with
  | 0xA3 => .one fun ff => .cpd (.indY ff)
  | 0xAC => .one fun ff => .cpx (.indY ff)
  | 0xEE => .one fun ff => .ldx (.indY ff)
  | 0xEF => .one fun ff => .stx (.indY ff)
  | _ => .illegal

/-- The page a first byte selects, where it is a prebyte (30_encoding.md R92). -/
def prebytePage (b : Byte) : Option (Nat → Shape) :=
  if b = 0x18 then some page18
  else if b = 0x1A then some page1A
  else if b = 0xCD then some pageCD
  else none

/-! ### Decoding -/

/-- The answer of the decoder. -/
inductive Decoded where
  /-- The bytes begin with this instruction; `rest` follows it. -/
  | instr (i : Instr) (rest : List Byte)
  /-- The bytes begin with an encoding in no row of the table (30_encoding.md R98). -/
  | illegal
  /-- The bytes end before the instruction does. -/
  | truncated
deriving DecidableEq, Repr

/-- Read the operand bytes an opcode asks for, in increasing order (30_encoding.md R94). -/
def Shape.complete : Shape → List Byte → Decoded
  | .illegal, _ => .illegal
  | .inh i, rest => .instr i rest
  | .one f, b :: rest => .instr (f b) rest
  | .two f, b :: c :: rest => .instr (f b c) rest
  | .three f, b :: c :: d :: rest => .instr (f b c d) rest
  | _, _ => .truncated

/-- Decode the instruction at the head of a list of bytes (30_encoding.md R94): the length is fixed by the prebyte and
the opcode alone, and an illegal encoding has no operand bytes (R98). -/
def decode : List Byte → Decoded
  | [] => .truncated
  | b :: rest =>
    match prebytePage b, rest with
    | none, _ => (page1 b.toNat).complete rest
    | some _, [] => .truncated
    | some page, c :: rest' => (page c.toNat).complete rest'

/-! ### Encoding -/

/-- The accumulator group, 8-bit, from its IMM opcode (30_encoding.md R96 P1, P3). -/
def encode8 (op : Byte) : Operand8 → List Byte
  | .imm ii => [op, ii]
  | .dir dd => [op + 0x10, dd]
  | .indX ff => [op + 0x20, ff]
  | .indY ff => [0x18, op + 0x20, ff]
  | .ext hhll => [op + 0x30, highByte hhll, lowByte hhll]

/-- The accumulator group, 16-bit, from its IMM opcode, with the prebytes of the IMM, DIR and EXT forms, of the IND,X
form and of the IND,Y form (30_encoding.md R92, R96 P1, P3, P4). -/
def encode16 (pre preX preY : List Byte) (op : Byte) : Operand16 → List Byte
  | .imm jjkk => pre ++ [op, highByte jjkk, lowByte jjkk]
  | .dir dd => pre ++ [op + 0x10, dd]
  | .indX ff => preX ++ [op + 0x20, ff]
  | .indY ff => preY ++ [op + 0x20, ff]
  | .ext hhll => pre ++ [op + 0x30, highByte hhll, lowByte hhll]

/-- The stores and JSR, from the DIR opcode, with the prebytes of the DIR and EXT forms, of IND,X and of IND,Y
(30_encoding.md R92, R96 P1, P3, P4). -/
def encodeFull (pre preX preY : List Byte) (op : Byte) : EaFull → List Byte
  | .dir dd => pre ++ [op, dd]
  | .indX ff => preX ++ [op + 0x10, ff]
  | .indY ff => preY ++ [op + 0x10, ff]
  | .ext hhll => pre ++ [op + 0x20, highByte hhll, lowByte hhll]

/-- The read-modify-write group and JMP, from the IND,X opcode (30_encoding.md R96 P2, P3). -/
def encodeExt (op : Byte) : EaExt → List Byte
  | .indX ff => [op, ff]
  | .indY ff => [0x18, op, ff]
  | .ext hhll => [op + 0x10, highByte hhll, lowByte hhll]

/-- The bit instructions, from the DIR and the IND,X opcode and the bytes after the address byte
(30_encoding.md R91, R95, R96 P3). -/
def encodeBit (opDir opInd : Byte) (tail : List Byte) : EaBit → List Byte
  | .dir dd => opDir :: dd :: tail
  | .indX ff => opInd :: ff :: tail
  | .indY ff => 0x18 :: opInd :: ff :: tail

/-- The bytes of an instruction, first byte first (30_encoding.md R91, R95, R97). A second name has the bytes of its
canonical name (R99). -/
def encode : Instr → List Byte
  | .aba => [0x1B]
  | .abx => [0x3A]
  | .aby => [0x18, 0x3A]
  | .adca m => encode8 0x89 m
  | .adcb m => encode8 0xC9 m
  | .adda m => encode8 0x8B m
  | .addb m => encode8 0xCB m
  | .addd m => encode16 [] [] [0x18] 0xC3 m
  | .anda m => encode8 0x84 m
  | .andb m => encode8 0xC4 m
  | .asl ea => encodeExt 0x68 ea
  | .asla => [0x48]
  | .aslb => [0x58]
  | .asld => [0x05]
  | .asr ea => encodeExt 0x67 ea
  | .asra => [0x47]
  | .asrb => [0x57]
  | .bcc rr => [0x24, rr]
  | .bclr ea mm => encodeBit 0x15 0x1D [mm] ea
  | .bcs rr => [0x25, rr]
  | .beq rr => [0x27, rr]
  | .bge rr => [0x2C, rr]
  | .bgt rr => [0x2E, rr]
  | .bhi rr => [0x22, rr]
  | .bhs rr => [0x24, rr]
  | .bita m => encode8 0x85 m
  | .bitb m => encode8 0xC5 m
  | .ble rr => [0x2F, rr]
  | .blo rr => [0x25, rr]
  | .bls rr => [0x23, rr]
  | .blt rr => [0x2D, rr]
  | .bmi rr => [0x2B, rr]
  | .bne rr => [0x26, rr]
  | .bpl rr => [0x2A, rr]
  | .bra rr => [0x20, rr]
  | .brclr ea mm rr => encodeBit 0x13 0x1F [mm, rr] ea
  | .brn rr => [0x21, rr]
  | .brset ea mm rr => encodeBit 0x12 0x1E [mm, rr] ea
  | .bset ea mm => encodeBit 0x14 0x1C [mm] ea
  | .bsr rr => [0x8D, rr]
  | .bvc rr => [0x28, rr]
  | .bvs rr => [0x29, rr]
  | .cba => [0x11]
  | .clc => [0x0C]
  | .cli => [0x0E]
  | .clr ea => encodeExt 0x6F ea
  | .clra => [0x4F]
  | .clrb => [0x5F]
  | .clv => [0x0A]
  | .cmpa m => encode8 0x81 m
  | .cmpb m => encode8 0xC1 m
  | .com ea => encodeExt 0x63 ea
  | .coma => [0x43]
  | .comb => [0x53]
  | .cpd m => encode16 [0x1A] [0x1A] [0xCD] 0x83 m
  | .cpx m => encode16 [] [] [0xCD] 0x8C m
  | .cpy m => encode16 [0x18] [0x1A] [0x18] 0x8C m
  | .daa => [0x19]
  | .dec ea => encodeExt 0x6A ea
  | .deca => [0x4A]
  | .decb => [0x5A]
  | .des => [0x34]
  | .dex => [0x09]
  | .dey => [0x18, 0x09]
  | .eora m => encode8 0x88 m
  | .eorb m => encode8 0xC8 m
  | .fdiv => [0x03]
  | .idiv => [0x02]
  | .inc ea => encodeExt 0x6C ea
  | .inca => [0x4C]
  | .incb => [0x5C]
  | .ins => [0x31]
  | .inx => [0x08]
  | .iny => [0x18, 0x08]
  | .jmp ea => encodeExt 0x6E ea
  | .jsr ea => encodeFull [] [] [0x18] 0x9D ea
  | .ldaa m => encode8 0x86 m
  | .ldab m => encode8 0xC6 m
  | .ldd m => encode16 [] [] [0x18] 0xCC m
  | .lds m => encode16 [] [] [0x18] 0x8E m
  | .ldx m => encode16 [] [] [0xCD] 0xCE m
  | .ldy m => encode16 [0x18] [0x1A] [0x18] 0xCE m
  | .lsl ea => encodeExt 0x68 ea
  | .lsla => [0x48]
  | .lslb => [0x58]
  | .lsld => [0x05]
  | .lsr ea => encodeExt 0x64 ea
  | .lsra => [0x44]
  | .lsrb => [0x54]
  | .lsrd => [0x04]
  | .mul => [0x3D]
  | .neg ea => encodeExt 0x60 ea
  | .nega => [0x40]
  | .negb => [0x50]
  | .nop => [0x01]
  | .oraa m => encode8 0x8A m
  | .orab m => encode8 0xCA m
  | .psha => [0x36]
  | .pshb => [0x37]
  | .pshx => [0x3C]
  | .pshy => [0x18, 0x3C]
  | .pula => [0x32]
  | .pulb => [0x33]
  | .pulx => [0x38]
  | .puly => [0x18, 0x38]
  | .rol ea => encodeExt 0x69 ea
  | .rola => [0x49]
  | .rolb => [0x59]
  | .ror ea => encodeExt 0x66 ea
  | .rora => [0x46]
  | .rorb => [0x56]
  | .rti => [0x3B]
  | .rts => [0x39]
  | .sba => [0x10]
  | .sbca m => encode8 0x82 m
  | .sbcb m => encode8 0xC2 m
  | .sec => [0x0D]
  | .sei => [0x0F]
  | .sev => [0x0B]
  | .staa ea => encodeFull [] [] [0x18] 0x97 ea
  | .stab ea => encodeFull [] [] [0x18] 0xD7 ea
  | .std ea => encodeFull [] [] [0x18] 0xDD ea
  | .stop => [0xCF]
  | .sts ea => encodeFull [] [] [0x18] 0x9F ea
  | .stx ea => encodeFull [] [] [0xCD] 0xDF ea
  | .sty ea => encodeFull [0x18] [0x1A] [0x18] 0xDF ea
  | .suba m => encode8 0x80 m
  | .subb m => encode8 0xC0 m
  | .subd m => encode16 [] [] [0x18] 0x83 m
  | .swi => [0x3F]
  | .tab => [0x16]
  | .tap => [0x06]
  | .tba => [0x17]
  | .test => [0x00]
  | .tpa => [0x07]
  | .tst ea => encodeExt 0x6D ea
  | .tsta => [0x4D]
  | .tstb => [0x5D]
  | .tsx => [0x30]
  | .tsy => [0x18, 0x30]
  | .txs => [0x35]
  | .tys => [0x18, 0x35]
  | .wai => [0x3E]
  | .xgdx => [0x8F]
  | .xgdy => [0x18, 0x8F]

/-- The length of an instruction in bytes, the table's "taille" (30_encoding.md R90). -/
def Instr.size (i : Instr) : Nat := (encode i).length

/-! ### The table's words -/

/-- The `n` bytes of the number `w`, the first byte the most significant, as spec/opcode_table.json writes an encoding
(30_encoding.md, opening paragraph: `match` is "one big-endian number"; notes/assumptions/2.md). -/
def tableBytes : Nat → Nat → List Byte
  | 0, _ => []
  | n + 1, w => tableBytes n (w / 256) ++ [BitVec.ofNat 8 w]

/-- The instruction the decoder reads from the `nbits` bits `w` of a table row, the bytes after them zero
(notes/assumptions/2.md). -/
def decodeTableWord (nbits w : Nat) : Option Instr :=
  match decode (tableBytes (nbits / 8) w ++ List.replicate 5 0) with
  | .instr i _ => some i
  | .illegal => none
  | .truncated => none

end Sys2Proof
end

