-- ==== Sys2Proof/Machine/State.lean ====
section
/-!
DEFINITION. The state of the machine, the reasons a step can stop, and the state after reset
(10_state.md R20 to R51; INVENTORY.md lists every field with its rule and its reset value).
-/

namespace Sys2Proof.Machine

/-! ### The CPU -/

/-- The condition-code register, one field per flag, bit 7 first (10_state.md R27). -/
structure Ccr where
  /-- Stop disable, bit 7. -/
  s : Bool
  /-- XIRQ mask, bit 6. -/
  x : Bool
  /-- Half carry, bit 5. -/
  h : Bool
  /-- Interrupt mask, bit 4. -/
  i : Bool
  /-- Negative, bit 3. -/
  n : Bool
  /-- Zero, bit 2. -/
  z : Bool
  /-- Overflow, bit 1. -/
  v : Bool
  /-- Carry or borrow, bit 0. -/
  c : Bool
deriving DecidableEq, Repr

/-- `RUN_STATE` (10_state.md R49 a, 60_exceptions.md R420). -/
inductive RunState where
  | run
  | wait
  | stop
deriving DecidableEq, Repr

/-- The bytes of RAM and ROM that are not what an unlisted address reads as, at strictly rising addresses
(10_state.md R35; notes/assumptions/4.md). -/
abbrev Memory := List Host.Cell

/-- A set of addresses, strictly rising (notes/assumptions/4.md). -/
abbrev Addresses := List Nat

/-! ### The devices -/

/-- The A/D converter (10_state.md R37 to R39, R49 e; 60_exceptions.md R430 to R434). -/
structure Adc where
  /-- OPTION: ADPU 7, CSEL 6, IRQE 5, DLY 4, CME 3, CR1 1, CR0 0. -/
  option : Byte
  /-- ADCTL: CCF 7, SCAN 5, MULT 4, CD CC CB CA 3 to 0. -/
  adctl : Byte
  adr1 : Byte
  adr2 : Byte
  adr3 : Byte
  adr4 : Byte
  /-- `adc_k`: conversions done in the cycle, 0 to 3. -/
  k : BitVec 2
  /-- `adc_active`: a cycle is in progress. -/
  active : Bool
deriving DecidableEq, Repr

/-- The content of an SCI shift register: 8 data bits, and a ninth when M = 1 (60_exceptions.md R439). -/
structure SciFrame where
  ninth : Option Bool
  data : Byte
deriving DecidableEq, Repr

/-- What leaves on TXD: a character, or a break of 10 or 11 zero bits (60_exceptions.md R439; notes/assumptions/19.md). -/
inductive SciOut where
  | frame (f : SciFrame)
  | brk
deriving DecidableEq, Repr

/-- The asynchronous serial interface (10_state.md R43 to R47, R49 b c; 60_exceptions.md R436 to R444). -/
structure Sci where
  /-- BAUD: TCLR 7, SCP1 SCP0 5 and 4, RCKB 3, SCR2 to SCR0 2 to 0. -/
  baud : Byte
  /-- SCCR1: R8 7, T8 6, M 4, WAKE 3. -/
  sccr1 : Byte
  /-- SCCR2: TIE 7, TCIE 6, RIE 5, ILIE 4, TE 3, RE 2, RWU 1, SBK 0. -/
  sccr2 : Byte
  /-- SCSR: TDRE 7, TC 6, RDRF 5, IDLE 4, OR 3, NF 2, FE 1. -/
  scsr : Byte
  /-- `armed(flag)` of each SCSR flag, at the flag's place. -/
  armed : Byte
  /-- The receive data register. -/
  rdr : Byte
  /-- The transmit data register. -/
  tdr : Byte
  /-- `tx_shift`. -/
  txShift : SciFrame
  /-- `tx_busy`. -/
  txBusy : Bool
  /-- The receive shift register. -/
  rxShift : SciFrame
  /-- The present gap on RXD has been reported (R443, one IDLE per gap; notes/assumptions/18.md). -/
  idleDone : Bool
  /-- TDR was written while TDRE = 1 was not armed, and the character may be sent or not
  (93_implementation_defined.md U14; notes/assumptions/16.md). -/
  tdrLoose : Bool
  /-- What has left on TXD, oldest first. -/
  out : List SciOut
deriving DecidableEq, Repr

/-- The synchronous serial interface (10_state.md R40 to R42, R49 b d; 60_exceptions.md R446 to R453). -/
structure Spi where
  /-- SPCR: SPIE 7, SPE 6, DWOM 5, MSTR 4, CPOL 3, CPHA 2, SPR1 SPR0 1 and 0. -/
  spcr : Byte
  /-- SPSR: SPIF 7, WCOL 6, MODF 4. -/
  spsr : Byte
  /-- `armed(flag)` of each SPSR flag, at the flag's place. -/
  armed : Byte
  /-- `spi_shift`. -/
  shift : Byte
  /-- `spi_rbuf`. -/
  rbuf : Byte
  /-- `spi_busy`. -/
  busy : Bool
  /-- The bytes that have left on MOSI, oldest first. -/
  mosi : List Byte
  /-- The bytes that have left on MISO, oldest first. -/
  miso : List Byte
deriving DecidableEq, Repr

/-- Port D: the latch a write to PORTD loads, and the direction register (10_state.md R48; notes/assumptions/11.md). -/
structure PortD where
  data : Byte
  ddr : Byte
deriving DecidableEq, Repr

/-! ### The outside world -/

/-- The levels of the pins the rules read, true when the pin is asserted (00_scope.md R15, 60_exceptions.md R405, R448,
R451, 70_reset_and_hazards.md R460; notes/assumptions/9.md). -/
structure Pins where
  reset : Bool
  irq : Bool
  xirq : Bool
  /-- SS is low. -/
  ss : Bool
deriving DecidableEq, Repr

/-- One turn: which agent moves next and what the outside world supplies with it
(00_scope.md R15, 60_exceptions.md R429; notes/assumptions/8.md). -/
inductive Turn where
  /-- One CPU step. -/
  | cpu
  /-- The pins take these levels. -/
  | pins (p : Pins)
  /-- `ADC.convert(s)` (R433). -/
  | adcConvert (s : Byte)
  /-- `SCI.tx_load` (R439). -/
  | sciTxLoad
  /-- The shifter takes a character whose write had not armed TDRE (U14). -/
  | sciTxLoadLoose
  /-- `SCI.tx_done` (R439). -/
  | sciTxDone
  /-- A break frame goes out (R439, SBK). -/
  | sciBreak
  /-- `SCI.rx_char(c, b8, noisy, badstop)` (R441). -/
  | sciRxChar (c : Byte) (b8 noisy badstop : Bool)
  /-- `SCI.rx_idle` (R443). -/
  | sciRxIdle
  /-- `SPI.master_done(d)` (R448). -/
  | spiMasterDone (d : Byte)
  /-- `SPI.slave_begin` (R448). -/
  | spiSlaveBegin
  /-- `SPI.slave_done(d)` (R448). -/
  | spiSlaveDone (d : Byte)
  /-- `SPI.mode_fault` (R451). -/
  | spiModeFault
deriving DecidableEq, Repr

/-! ### The whole machine -/

/-- Everything the spec gives the machine, the pins and the turns to come, the count of free values drawn, and the
parameters. -/
structure State where
  a : Byte
  b : Byte
  ix : Word
  iy : Word
  sp : Word
  /-- SP has been written by LDS, TXS or TYS since the last reset (70_reset_and_hazards.md R465, 92 D28;
  notes/assumptions/5.md). -/
  spWritten : Bool
  pc : Word
  ccr : Ccr
  /-- `I_DELAY` (10_state.md R49 g). -/
  iDelay : Bool
  runState : RunState
  mem : Memory
  /-- The addresses of RAM whose byte the memory image or a write has given (60_exceptions.md R418,
  70_reset_and_hazards.md R461, R466; notes/assumptions/4.md). -/
  written : Addresses
  adc : Adc
  sci : Sci
  spi : Spi
  portD : PortD
  pins : Pins
  /-- The turns to come; the CPU moves when there is none (notes/assumptions/8.md). -/
  turns : List Turn
  /-- How many free values have been drawn (notes/assumptions/1.md). -/
  draws : Nat
  cfg : Config
deriving DecidableEq, Repr

/-- Why a run ends in an error state. -/
inductive Fault where
  /-- An illegal encoding, or TEST, under `ILLEGAL_OPCODE` = fault (30_encoding.md R98, 46_system.md R315, D7, D8).
  Raised by the shared operation `illegalOpcode`. Safe: the spec names this outcome. -/
  | illegalOpcode
deriving DecidableEq, Repr

/-- What the model declines to give a meaning. -/
inductive Refusal where
  /-- The instruction of this mnemonic has no meaning yet; raised by an arm of `exec` only. Safe: the model stops. -/
  | notModelled (mnemonic : String)
  /-- An instruction byte would be fetched from the device block (20_memory.md R76, 92 D9, 93 U9: "refuse").
  Raised by the fetch. Safe: the model stops. -/
  | fetchFromDevice
  /-- An instruction byte would be fetched from an address of kind NONE (20_memory.md R76, 92 D9, 93 U9: "refuse").
  Raised by the fetch. Safe: the model stops. -/
  | fetchFromNone
  /-- A data access to an offset of the device block that has no rule (20_memory.md R70, 93 U10: "refuse").
  Raised by the byte accesses. Safe: the model stops. -/
  | deviceOffset
  /-- A write of 1 to TCLR or RCKB of BAUD (10_state.md R43, 93 U17: "refuse"). Raised by the byte write.
  Safe: the model stops. -/
  | baudTestBits
deriving DecidableEq, Repr

/-- The machine after reset: every field at the value 10_state.md R51 states; the values it leaves unspecified are zero,
a DESIGN CHOICE that is unsafe (notes/assumptions/5.md, notes/assumptions/6.md, notes/assumptions/11.md). `pc` is the
reset vector of a memory that lists nothing (R461; notes/assumptions/7.md). -/
def State.reset : State where
  a := 0x00
  b := 0x00
  ix := 0x0000
  iy := 0x0000
  sp := 0x0000
  spWritten := false
  pc := 0x0000
  ccr := { s := true, x := true, h := false, i := true, n := false, z := false, v := false, c := false }
  iDelay := false
  runState := .run
  mem := []
  written := []
  adc := { option := 0x10, adctl := 0x00, adr1 := 0x00, adr2 := 0x00, adr3 := 0x00, adr4 := 0x00, k := 0
           active := false }
  sci := { baud := 0x00, sccr1 := 0x00, sccr2 := 0x00, scsr := 0xC0, armed := 0x00, rdr := 0x00, tdr := 0x00
           txShift := { ninth := none, data := 0x00 }, txBusy := false
           rxShift := { ninth := none, data := 0x00 }, idleDone := false, tdrLoose := false, out := [] }
  spi := { spcr := 0x04, spsr := 0x00, armed := 0x00, shift := 0x00, rbuf := 0x00, busy := false
           mosi := [], miso := [] }
  portD := { data := 0x00, ddr := 0x00 }
  pins := { reset := false, irq := false, xirq := false, ss := false }
  turns := []
  draws := 0
  cfg := Config.standard

end Sys2Proof.Machine
end

