-- ==== Sys2Proof/Machine/Memory.lean ====
section
/-!
DEFINITION. Memory as a list of (address, byte) pairs in one canonical form, sets of addresses, the kinds of
address, and the free values (10_state.md R35, 20_memory.md R60 to R70).
-/

namespace Sys2Proof.Machine

/-! ### The list -/

/-- What a byte reads as that nothing has written (DESIGN CHOICE, unsafe: notes/assumptions/4.md; 93 U7). -/
def Memory.blank : Byte := 0x00

/-- The byte at an address (20_memory.md R73: the most recent write). -/
def Memory.get : Memory → Nat → Byte
  | [], _ => Memory.blank
  | (a, v) :: rest, n => if a = n then v else Memory.get rest n

/-- Store a byte, keeping the canonical form: writing what an unlisted address reads as removes the entry. -/
def Memory.set : Memory → Nat → Byte → Memory
  | [], n, v => if v = Memory.blank then [] else [(n, v)]
  | (a, w) :: rest, n, v =>
    if n < a then
      if v = Memory.blank then (a, w) :: rest else (n, v) :: (a, w) :: rest
    else if n = a then
      if v = Memory.blank then rest else (n, v) :: rest
    else
      (a, w) :: Memory.set rest n v

/-- The canonical form from a least address on: addresses strictly rising and inside the 2^16 of R35, no entry blank. -/
def Memory.wfFrom : Nat → Memory → Bool
  | _, [] => true
  | lo, (a, v) :: rest => decide (lo ≤ a ∧ a < 65536 ∧ v ≠ Memory.blank) && Memory.wfFrom (a + 1) rest

/-- The canonical form of a memory. -/
def Memory.wf (m : Memory) : Bool := Memory.wfFrom 0 m

/-! ### Sets of addresses -/

/-- Add an address, keeping the order. -/
def Addresses.add : Addresses → Nat → Addresses
  | [], n => [n]
  | a :: rest, n =>
    if n < a then n :: a :: rest
    else if n = a then a :: rest
    else a :: Addresses.add rest n

/-- The canonical form from a least address on: strictly rising and inside the 2^16 of 10_state.md R35. -/
def Addresses.wfFrom : Nat → Addresses → Bool
  | _, [] => true
  | lo, a :: rest => decide (lo ≤ a ∧ a < 65536) && Addresses.wfFrom (a + 1) rest

/-- The canonical form of a set of addresses. -/
def Addresses.wf (w : Addresses) : Bool := Addresses.wfFrom 0 w

/-! ### Kinds of address -/

/-- The four kinds of `MEM_MAP` (20_memory.md R70). -/
inductive Kind where
  | ram
  | rom
  | device
  | none
deriving DecidableEq, Repr

/-- Some region of this kind holds the address. -/
def inRegion (k : RegionKind) (cfg : Config) (a : Word) : Bool :=
  cfg.regions.any fun r => r.kind == k && decide (r.first ≤ a) && decide (a ≤ r.last)

/-- The offset of an address in the device block (10_state.md R36; modulo 2^16, R61). -/
def blockOffset (cfg : Config) (a : Word) : Nat := (a - cfg.regBase).toNat

/-- The kind of an address: the block wins over RAM, and RAM over ROM (20_memory.md R70). -/
def kindOf (cfg : Config) (a : Word) : Kind :=
  if blockOffset cfg a < 64 then .device
  else if inRegion .ram cfg a then .ram
  else if inRegion .rom cfg a then .rom
  else .none

/-! ### Free values -/

/-- The free byte of the n-th draw (00_scope.md R12 `undefined(8)`; notes/assumptions/1.md). -/
def freeByte (n : Nat) : Byte := (Config.freeWord n).extractLsb' 0 8

/-- The free bit of the n-th draw (00_scope.md R12 `undefined(1)`; notes/assumptions/1.md). -/
def freeBit (n : Nat) : Bool := (Config.freeWord n).getLsbD 0

/-- One free value has been drawn. -/
def State.drew (s : State) : State := { s with draws := s.draws + 1 }

end Sys2Proof.Machine
end

