-- ==== Sys2Proof/Machine/Devices.lean ====
section
/-!
DEFINITION. The device registers as the CPU reads and writes them: the access rules of 60_exceptions.md R430, R432,
R437, R438, R440, R447, R449 to R451 and 20_memory.md R71.
-/

namespace Sys2Proof.Machine

/-! ### The bits -/

/-- OPTION.ADPU (10_state.md R37). -/
def Adc.adpu (d : Adc) : Bool := d.option.getLsbD 7
/-- ADCTL.SCAN (10_state.md R38). -/
def Adc.scan (d : Adc) : Bool := d.adctl.getLsbD 5
/-- ADCTL.MULT (10_state.md R38). -/
def Adc.mult (d : Adc) : Bool := d.adctl.getLsbD 4

/-- SCCR1.M: nine data bits (10_state.md R44). -/
def Sci.m (d : Sci) : Bool := d.sccr1.getLsbD 4
/-- SCCR1.WAKE (10_state.md R44). -/
def Sci.wake (d : Sci) : Bool := d.sccr1.getLsbD 3
/-- SCCR1.T8 (10_state.md R44). -/
def Sci.t8 (d : Sci) : Bool := d.sccr1.getLsbD 6
/-- SCCR2.TIE (10_state.md R45). -/
def Sci.tie (d : Sci) : Bool := d.sccr2.getLsbD 7
/-- SCCR2.TCIE (10_state.md R45). -/
def Sci.tcie (d : Sci) : Bool := d.sccr2.getLsbD 6
/-- SCCR2.RIE (10_state.md R45). -/
def Sci.rie (d : Sci) : Bool := d.sccr2.getLsbD 5
/-- SCCR2.ILIE (10_state.md R45). -/
def Sci.ilie (d : Sci) : Bool := d.sccr2.getLsbD 4
/-- SCCR2.TE (10_state.md R45). -/
def Sci.te (d : Sci) : Bool := d.sccr2.getLsbD 3
/-- SCCR2.RE (10_state.md R45). -/
def Sci.re (d : Sci) : Bool := d.sccr2.getLsbD 2
/-- SCCR2.RWU (10_state.md R45). -/
def Sci.rwu (d : Sci) : Bool := d.sccr2.getLsbD 1
/-- SCCR2.SBK (10_state.md R45). -/
def Sci.sbk (d : Sci) : Bool := d.sccr2.getLsbD 0
/-- SCSR.TDRE (10_state.md R46). -/
def Sci.tdre (d : Sci) : Bool := d.scsr.getLsbD 7
/-- SCSR.TC (10_state.md R46). -/
def Sci.tc (d : Sci) : Bool := d.scsr.getLsbD 6
/-- SCSR.RDRF (10_state.md R46). -/
def Sci.rdrf (d : Sci) : Bool := d.scsr.getLsbD 5
/-- SCSR.IDLE (10_state.md R46). -/
def Sci.idle (d : Sci) : Bool := d.scsr.getLsbD 4
/-- SCSR.OR (10_state.md R46). -/
def Sci.overrun (d : Sci) : Bool := d.scsr.getLsbD 3

/-- SPCR.SPIE (10_state.md R40). -/
def Spi.spie (d : Spi) : Bool := d.spcr.getLsbD 7
/-- SPCR.SPE (10_state.md R40). -/
def Spi.spe (d : Spi) : Bool := d.spcr.getLsbD 6
/-- SPCR.MSTR (10_state.md R40). -/
def Spi.mstr (d : Spi) : Bool := d.spcr.getLsbD 4
/-- SPSR.SPIF (10_state.md R41). -/
def Spi.spif (d : Spi) : Bool := d.spsr.getLsbD 7
/-- SPSR.MODF (10_state.md R41). -/
def Spi.modf (d : Spi) : Bool := d.spsr.getLsbD 4

/-! ### The registers and their offsets -/

/-- The device registers the spec gives a rule (10_state.md R36, R48). -/
inductive DeviceReg where
  | portd | ddrd | spcr | spsr | spdr | baud | sccr1 | sccr2 | scsr | scdr | adctl | adr1 | adr2 | adr3 | adr4 | option
deriving DecidableEq, Repr

/-- The register at an offset of the block (10_state.md R36; PORTD and DDRD PRESUMED at $08 and $09 as R48 says,
notes/assumptions/11.md); the other offsets have no rule (93 U10). -/
def deviceReg (offset : Nat) : Option DeviceReg :=
  match offset with
  | 0x08 => some .portd
  | 0x09 => some .ddrd
  | 0x28 => some .spcr
  | 0x29 => some .spsr
  | 0x2A => some .spdr
  | 0x2B => some .baud
  | 0x2C => some .sccr1
  | 0x2D => some .sccr2
  | 0x2E => some .scsr
  | 0x2F => some .scdr
  | 0x30 => some .adctl
  | 0x31 => some .adr1
  | 0x32 => some .adr2
  | 0x33 => some .adr3
  | 0x34 => some .adr4
  | 0x39 => some .option
  | _ => none

/-! ### Reading a register -/

/-- An A/D result register: while the converter is off a read is a free value (10_state.md R39, 93 U12;
notes/assumptions/15.md). -/
def adrValue (adr : Byte) (s : State) : Byte := if s.adc.adpu then adr else freeByte s.draws

/-- The state after reading an A/D result register (10_state.md R39, 93 U12). -/
def afterAdr (s : State) : State := if s.adc.adpu then s else s.drew

/-- The byte a read of the register returns (10_state.md R36 to R48; 60_exceptions.md R432, R437, R440, R449). -/
def regValue (r : DeviceReg) (s : State) : Byte :=
  match r with
  | .portd => freeByte s.draws
  | .ddrd => s.portD.ddr
  | .spcr => s.spi.spcr
  | .spsr => s.spi.spsr
  | .spdr => s.spi.rbuf
  | .baud => s.sci.baud
  | .sccr1 => s.sci.sccr1
  | .sccr2 => s.sci.sccr2
  | .scsr => s.sci.scsr
  | .scdr => s.sci.rdr
  | .adctl => s.adc.adctl
  | .adr1 => adrValue s.adc.adr1 s
  | .adr2 => adrValue s.adc.adr2 s
  | .adr3 => adrValue s.adc.adr3 s
  | .adr4 => adrValue s.adc.adr4 s
  | .option => s.adc.option

/-- Arm the clear of every SCSR flag that is 1 (60_exceptions.md R437). -/
def Sci.arm (d : Sci) : Sci := { d with armed := d.armed ||| (d.scsr &&& 0xFE) }

/-- Clear each armed SCSR flag of a mask, and its latch (60_exceptions.md R429, R438, R440). -/
def Sci.acknowledge (mask : Byte) (d : Sci) : Sci :=
  { d with scsr := d.scsr &&& ~~~(d.armed &&& mask), armed := d.armed &&& ~~~mask }

/-- Arm the clear of every SPSR flag that is 1 (60_exceptions.md R449). -/
def Spi.arm (d : Spi) : Spi := { d with armed := d.armed ||| (d.spsr &&& 0xD0) }

/-- Clear each armed SPSR flag of a mask, and its latch (60_exceptions.md R429, R447, R449, R451). -/
def Spi.acknowledge (mask : Byte) (d : Spi) : Spi :=
  { d with spsr := d.spsr &&& ~~~(d.armed &&& mask), armed := d.armed &&& ~~~mask }

/-- What a read of the register does beyond returning its byte (20_memory.md R71; 60_exceptions.md R437, R440, R449). -/
def regAfterRead (r : DeviceReg) (s : State) : State :=
  match r with
  | .portd => s.drew
  | .spsr => { s with spi := s.spi.arm }
  | .spdr => { s with spi := s.spi.acknowledge 0xC0 }
  | .scsr => { s with sci := s.sci.arm }
  | .scdr => { s with sci := s.sci.acknowledge 0x3E }
  | .adr1 => afterAdr s
  | .adr2 => afterAdr s
  | .adr3 => afterAdr s
  | .adr4 => afterAdr s
  | .ddrd => s
  | .spcr => s
  | .baud => s
  | .sccr1 => s
  | .sccr2 => s
  | .adctl => s
  | .option => s

/-! ### Writing a register -/

/-- Write SCDR (60_exceptions.md R438). TDRE and TC are cleared if armed; a character written while TDRE stays 1 may or
may not be sent (93 U14; notes/assumptions/16.md). -/
def Sci.writeData (v : Byte) (d : Sci) : Sci :=
  let d' := d.acknowledge 0xC0
  { d' with tdr := v, tdrLoose := d'.tdre }

/-- Write SPDR (60_exceptions.md R447): clear SPIF and WCOL if armed; then collide with a transfer in progress (R450),
or load the shifter and, on a master that is on, start the transfer. -/
def Spi.writeData (v : Byte) (d : Spi) : Spi :=
  let d' := d.acknowledge 0xC0
  if d'.busy then { d' with spsr := d'.spsr ||| 0x40 }
  else { d' with shift := v, busy := d'.spe && d'.mstr }

/-- Write SPCR (60_exceptions.md R451): all eight bits, and clear MODF if armed. -/
def Spi.writeControl (v : Byte) (d : Spi) : Spi := { d.acknowledge 0x10 with spcr := v }

/-- Write ADCTL (60_exceptions.md R432): CCF is cleared, a cycle in progress is abandoned and a new one starts. -/
def Adc.writeControl (v : Byte) (d : Adc) : Adc := { d with adctl := v &&& 0x3F, k := 0, active := true }

/-- A write to the register. A bit drawn as 0 ignores writes (10_state.md R36, D27), and so do SCSR, SPSR and ADR1 to
ADR4 (R39, R437, R449, D27). -/
def regWrite (r : DeviceReg) (v : Byte) (s : State) : State :=
  match r with
  | .portd => { s with portD := { s.portD with data := v } }
  | .ddrd => { s with portD := { s.portD with ddr := v &&& 0x3F } }
  | .spcr => { s with spi := s.spi.writeControl v }
  | .spsr => s
  | .spdr => { s with spi := s.spi.writeData v }
  | .baud => { s with sci := { s.sci with baud := v &&& 0xBF } }
  | .sccr1 => { s with sci := { s.sci with sccr1 := v &&& 0xD8 } }
  | .sccr2 => { s with sci := { s.sci with sccr2 := v } }
  | .scsr => s
  | .scdr => { s with sci := s.sci.writeData v }
  | .adctl => { s with adc := s.adc.writeControl v }
  | .adr1 => s
  | .adr2 => s
  | .adr3 => s
  | .adr4 => s
  | .option => { s with adc := { s.adc with option := v &&& 0xFB } }

/-- A write the spec says to refuse: TCLR or RCKB of BAUD written 1 (93 U17; notes/assumptions/12.md). -/
def refusedWrite (r : DeviceReg) (v : Byte) : Bool :=
  match r with
  | .baud => v.getLsbD 7 || v.getLsbD 3
  | .portd => false
  | .ddrd => false
  | .spcr => false
  | .spsr => false
  | .spdr => false
  | .sccr1 => false
  | .sccr2 => false
  | .scsr => false
  | .scdr => false
  | .adctl => false
  | .adr1 => false
  | .adr2 => false
  | .adr3 => false
  | .adr4 => false
  | .option => false

end Sys2Proof.Machine
end

