-- ==== Sys2Proof/Machine/Flags.lean ====
section
/-!
DEFINITION. The results of the arithmetic, logic and shift operations with the condition codes they leave
(10_state.md R27 to R33 and the Operation and Flags lines of 40_arithmetic.md, 41_logic_compare.md and
42_shift_rotate.md). Each takes the condition codes of before, so that a flag an operation does not write is kept.
-/

namespace Sys2Proof.Machine

/-! ### The register as a byte -/

/-- The flags as a byte, S in bit 7 to C in bit 0 (10_state.md R27). -/
def Ccr.toByte (f : Ccr) : Byte :=
  BitVec.ofNat 8 (128 * f.s.toNat + 64 * f.x.toNat + 32 * f.h.toNat + 16 * f.i.toNat
    + 8 * f.n.toNat + 4 * f.z.toNat + 2 * f.v.toNat + f.c.toNat)

/-- The flags of a byte (10_state.md R27). -/
def Ccr.ofByte (v : Byte) : Ccr where
  s := v.getLsbD 7
  x := v.getLsbD 6
  h := v.getLsbD 5
  i := v.getLsbD 4
  n := v.getLsbD 3
  z := v.getLsbD 2
  v := v.getLsbD 1
  c := v.getLsbD 0

/-- Load the register from a byte: X can go from 1 to 0, never from 0 to 1 (44_bit_ccr.md R269, 46_system.md R312). -/
def Ccr.load (v : Byte) (f : Ccr) : Ccr := { Ccr.ofByte v with x := f.x && v.getLsbD 6 }

/-! ### N and Z -/

/-- `NZ8` (10_state.md R29). -/
def nz8 (r : Byte) (f : Ccr) : Ccr := { f with n := r.getLsbD 7, z := decide (r = 0) }

/-- `NZ16` (10_state.md R29). -/
def nz16 (r : Word) (f : Ccr) : Ccr := { f with n := r.getLsbD 15, z := decide (r = 0) }

/-- The flags of a logic operation, a load, a store or a transfer of 8 bits: `NZ8` and V cleared
(41_logic_compare.md R171, 45_load_store_stack.md R276, R290). -/
def logic8 (r : Byte) (f : Ccr) : Ccr := { nz8 r f with v := false }

/-- The flags of a load or a store of 16 bits: `NZ16` and V cleared (45_load_store_stack.md R278, R292). -/
def logic16 (r : Word) (f : Ccr) : Ccr := { nz16 r f with v := false }

/-! ### Addition and subtraction -/

/-- `ADD8(a, m, cin)` (10_state.md R30). -/
def add8 (a m : Byte) (cin : Bool) (f : Ccr) : Byte × Ccr :=
  let t := a.toNat + m.toNat + cin.toNat
  let r := BitVec.ofNat 8 t
  (r, { nz8 r f with
    h := decide (a.toNat % 16 + m.toNat % 16 + cin.toNat > 15)
    v := decide (a.getLsbD 7 = m.getLsbD 7 ∧ r.getLsbD 7 ≠ a.getLsbD 7)
    c := decide (t > 255) })

/-- `SUB8(a, m, bin)` (10_state.md R31). -/
def sub8 (a m : Byte) (bin : Bool) (f : Ccr) : Byte × Ccr :=
  let t : Int := (a.toNat : Int) - m.toNat - bin.toNat
  let r := BitVec.ofInt 8 t
  (r, { nz8 r f with
    v := decide (a.getLsbD 7 ≠ m.getLsbD 7 ∧ r.getLsbD 7 ≠ a.getLsbD 7)
    c := decide (t < 0) })

/-- `ADD16(a, m)` (10_state.md R32). -/
def add16 (a m : Word) (f : Ccr) : Word × Ccr :=
  let t := a.toNat + m.toNat
  let r := BitVec.ofNat 16 t
  (r, { nz16 r f with
    v := decide (a.getLsbD 15 = m.getLsbD 15 ∧ r.getLsbD 15 ≠ a.getLsbD 15)
    c := decide (t > 65535) })

/-- `SUB16(a, m)` (10_state.md R32). -/
def sub16 (a m : Word) (f : Ccr) : Word × Ccr :=
  let t : Int := (a.toNat : Int) - m.toNat
  let r := BitVec.ofInt 16 t
  (r, { nz16 r f with
    v := decide (a.getLsbD 15 ≠ m.getLsbD 15 ∧ r.getLsbD 15 ≠ a.getLsbD 15)
    c := decide (t < 0) })

/-! ### Operations on one byte -/

/-- INC, INCA, INCB: C is not written (40_arithmetic.md R148). -/
def inc8 (v : Byte) (f : Ccr) : Byte × Ccr :=
  let r := v + 1
  (r, { nz8 r f with v := decide (v = 0x7F) })

/-- DEC, DECA, DECB: C is not written (40_arithmetic.md R140). -/
def dec8 (v : Byte) (f : Ccr) : Byte × Ccr :=
  let r := v - 1
  (r, { nz8 r f with v := decide (v = 0x80) })

/-- NEG, NEGA, NEGB (40_arithmetic.md R155). -/
def neg8 (v : Byte) (f : Ccr) : Byte × Ccr :=
  let r := 0 - v
  (r, { nz8 r f with v := decide (r = 0x80), c := decide (r ≠ 0) })

/-- COM, COMA, COMB (41_logic_compare.md R181). -/
def com8 (v : Byte) (f : Ccr) : Byte × Ccr :=
  let r := 0xFF - v
  (r, { nz8 r f with v := false, c := true })

/-- CLR, CLRA, CLRB, whatever the byte was (41_logic_compare.md R176). -/
def clr8 (f : Ccr) : Byte × Ccr := (0x00, { f with n := false, z := true, v := false, c := false })

/-- TST, TSTA, TSTB (41_logic_compare.md R191). -/
def tst8 (v : Byte) (f : Ccr) : Ccr := { nz8 v f with v := false, c := false }

/-! ### Shifts and rotates -/

/-- The shift law on a byte: C is the bit shifted out, V is the new N xor the new C (10_state.md R33). -/
def shifted8 (r : Byte) (out : Bool) (f : Ccr) : Byte × Ccr :=
  (r, { nz8 r f with v := r.getLsbD 7 ^^ out, c := out })

/-- The shift law on a word (10_state.md R33). -/
def shifted16 (r : Word) (out : Bool) (f : Ccr) : Word × Ccr :=
  (r, { nz16 r f with v := r.getLsbD 15 ^^ out, c := out })

/-- ASL, LSL and their accumulator forms (42_shift_rotate.md R201). -/
def asl8 (v : Byte) (f : Ccr) : Byte × Ccr := shifted8 (v <<< 1) (v.getLsbD 7) f

/-- ASR and its accumulator forms: bit 7 keeps its value (42_shift_rotate.md R205). -/
def asr8 (v : Byte) (f : Ccr) : Byte × Ccr := shifted8 ((v >>> 1) ||| (v &&& 0x80)) (v.getLsbD 0) f

/-- LSR and its accumulator forms (42_shift_rotate.md R212). -/
def lsr8 (v : Byte) (f : Ccr) : Byte × Ccr := shifted8 (v >>> 1) (v.getLsbD 0) f

/-- ROL and its accumulator forms: the old C enters bit 0 (42_shift_rotate.md R216). -/
def rol8 (v : Byte) (f : Ccr) : Byte × Ccr :=
  shifted8 ((v <<< 1) ||| (if f.c then 0x01 else 0x00)) (v.getLsbD 7) f

/-- ROR and its accumulator forms: the old C enters bit 7 (42_shift_rotate.md R219). -/
def ror8 (v : Byte) (f : Ccr) : Byte × Ccr :=
  shifted8 ((v >>> 1) ||| (if f.c then 0x80 else 0x00)) (v.getLsbD 0) f

/-- ASLD, LSLD (42_shift_rotate.md R204). -/
def asl16 (v : Word) (f : Ccr) : Word × Ccr := shifted16 (v <<< 1) (v.getLsbD 15) f

/-- LSRD (42_shift_rotate.md R215). -/
def lsr16 (v : Word) (f : Ccr) : Word × Ccr := shifted16 (v >>> 1) (v.getLsbD 0) f

/-! ### Decimal adjust, multiply, divide -/

/-- DAA on any A, H and C; `open_` is the value of V, which the rule leaves undefined (40_arithmetic.md R139;
notes/assumptions/22.md). -/
def daa8 (a : Byte) (open_ : Bool) (f : Ccr) : Byte × Ccr :=
  let low : Byte := if f.h || decide (a.toNat % 16 > 9) then 0x06 else 0x00
  let carry := f.c || decide (a.toNat > 0x99)
  let r := a + (low + if carry then 0x60 else 0x00)
  (r, { nz8 r f with v := open_, c := carry })

/-- MUL: the unsigned product, and its bit 7 in C (40_arithmetic.md R154). -/
def mul8 (a b : Byte) (f : Ccr) : Word × Ccr :=
  let d := BitVec.ofNat 16 (a.toNat * b.toNat)
  (d, { f with c := d.getLsbD 7 })

/-- IDIV of `n` by `d`: the quotient, the remainder and the flags; `open_` is the remainder of a division by zero,
which is undefined (40_arithmetic.md R147; notes/assumptions/22.md). -/
def idiv16 (n d : Word) (open_ : Word) (f : Ccr) : Word × Word × Ccr :=
  let q := if d = 0 then 0xFFFF else BitVec.ofNat 16 (n.toNat / d.toNat)
  let r := if d = 0 then open_ else BitVec.ofNat 16 (n.toNat % d.toNat)
  (q, r, { f with z := decide (q = 0), v := false, c := decide (d = 0) })

/-- FDIV of `n` by `d`: the quotient, the remainder and the flags; `open_` is the remainder where `d` is zero or not
above `n`, which is undefined (40_arithmetic.md R146; notes/assumptions/22.md). -/
def fdiv16 (n d : Word) (open_ : Word) (f : Ccr) : Word × Word × Ccr :=
  let large := decide (d.toNat ≤ n.toNat)
  let q := if large then 0xFFFF else BitVec.ofNat 16 (n.toNat * 65536 / d.toNat)
  let r := if large then open_ else BitVec.ofNat 16 (n.toNat * 65536 % d.toNat)
  (q, r, { f with z := decide (q = 0), v := large, c := decide (d = 0) })

end Sys2Proof.Machine
end

