-- ==== Sys2Proof/Machine/Ops.lean ====
section
/-!
DEFINITION. The named operations over registers and memory: byte and word accesses (20_memory.md R60 to R70), the stack
(10_state.md R25), trap entry and return (60_exceptions.md R404 to R415, R421) and reset (70_reset_and_hazards.md R462).
An access is refused as a whole before it has any effect.
-/

namespace Sys2Proof.Machine

/-- The outcome of an instruction or of a step. -/
abbrev StepOutcome := Host.Outcome State Fault Refusal

/-! ### Registers -/

/-- The double accumulator, A the high byte (10_state.md R21). -/
def State.d (s : State) : Word := joinBytes s.a s.b

/-- Write the double accumulator (00_scope.md R11). -/
def State.withD (s : State) (v : Word) : State := { s with a := highByte v, b := lowByte v }

/-- Write A and the condition codes. -/
def State.putA (s : State) (r : Byte × Ccr) : State := { s with a := r.1, ccr := r.2 }

/-- Write B and the condition codes. -/
def State.putB (s : State) (r : Byte × Ccr) : State := { s with b := r.1, ccr := r.2 }

/-- Write D and the condition codes. -/
def State.putD (s : State) (r : Word × Ccr) : State := { s.withD r.1 with ccr := r.2 }

/-! ### Byte accesses -/

/-- Why a read of the address is refused, if it is (93 U10). -/
def readRefusal (cfg : Config) (a : Word) : Option Refusal :=
  if kindOf cfg a = .device ∧ deviceReg (blockOffset cfg a) = none then some .deviceOffset else none

/-- Why a write of the byte to the address is refused, if it is (93 U10, U17). -/
def writeRefusal (cfg : Config) (a : Word) (v : Byte) : Option Refusal :=
  match kindOf cfg a, deviceReg (blockOffset cfg a) with
  | .device, none => some .deviceOffset
  | .device, some r => if refusedWrite r v then some .baudTestBits else none
  | _, _ => none

/-- The byte a read of the address returns (20_memory.md R70): memory, a device register, or a free value for NONE. -/
def peek (a : Word) (s : State) : Byte :=
  match kindOf s.cfg a with
  | .ram => s.mem.get a.toNat
  | .rom => s.mem.get a.toNat
  | .none => freeByte s.draws
  | .device =>
    match deviceReg (blockOffset s.cfg a) with
    | some r => regValue r s
    | none => 0

/-- The state after a read of the address (20_memory.md R70, R71). -/
def touch (a : Word) (s : State) : State :=
  match kindOf s.cfg a with
  | .ram => s
  | .rom => s
  | .none => s.drew
  | .device =>
    match deviceReg (blockOffset s.cfg a) with
    | some r => regAfterRead r s
    | none => s

/-- The state after a write of the byte to the address (20_memory.md R70, R71): RAM stores it and counts as
initialised there, ROM and NONE drop it. -/
def poke (a : Word) (v : Byte) (s : State) : State :=
  match kindOf s.cfg a with
  | .ram => { s with mem := s.mem.set a.toNat v, written := s.written.add a.toNat }
  | .rom => s
  | .none => s
  | .device =>
    match deviceReg (blockOffset s.cfg a) with
    | some r => regWrite r v s
    | none => s

/-- `MemRead(a, 1)` (20_memory.md R64, R66). -/
def readByte (a : Word) (s : State) : Except Refusal (Byte × State) :=
  match readRefusal s.cfg a with
  | some r => .error r
  | none => .ok (peek a s, touch a s)

/-- `MemWrite(a, 1, v)` (20_memory.md R64, R66). -/
def writeByte (a : Word) (v : Byte) (s : State) : Except Refusal State :=
  match writeRefusal s.cfg a v with
  | some r => .error r
  | none => .ok (poke a v s)

/-! ### Word accesses -/

/-- `MemRead(a, 2)`: the high byte, at the lower address, first (20_memory.md R64). -/
def readWord (a : Word) (s : State) : Except Refusal (Word × State) := do
  let (h, s1) ← readByte a s
  let (l, s2) ← readByte (a + 1) s1
  return (joinBytes h l, s2)

/-- `MemWrite(a, 2, v)`: the high byte, at the lower address, first (20_memory.md R64). -/
def writeWord (a : Word) (v : Word) (s : State) : Except Refusal State := do
  let s1 ← writeByte a (highByte v) s
  writeByte (a + 1) (lowByte v) s1

/-! ### The stack -/

/-- `Push8(v)`: write at SP, then decrement (10_state.md R25). -/
def push8 (v : Byte) (s : State) : Except Refusal State := do
  let s1 ← writeByte s.sp v s
  return { s1 with sp := s1.sp - 1 }

/-- `Pull8()`: increment SP, then read (10_state.md R25). -/
def pull8 (s : State) : Except Refusal (Byte × State) :=
  readByte (s.sp + 1) { s with sp := s.sp + 1 }

/-- `Push16(v)`: the low byte first (10_state.md R25). -/
def push16 (v : Word) (s : State) : Except Refusal State := do
  let s1 ← push8 (lowByte v) s
  push8 (highByte v) s1

/-- `Pull16()`: the high byte first (10_state.md R25). -/
def pull16 (s : State) : Except Refusal (Word × State) := do
  let (h, s1) ← pull8 s
  let (l, s2) ← pull8 s1
  return (joinBytes h l, s2)

/-! ### Instructions -/

/-- `NEXT`: the address after the last byte of the instruction at PC (10_state.md R26). -/
def next (i : Instr) (s : State) : Word := s.pc + BitVec.ofNat 16 i.size

/-- The outcome of a computation that has set PC itself. -/
def finish : Except Refusal State → StepOutcome
  | .ok s => .next s
  | .error r => .refused r

/-- The outcome of a computation after which PC takes the value given (10_state.md R24). -/
def complete (pc : Word) : Except Refusal State → StepOutcome
  | .ok s => .next { s with pc := pc }
  | .error r => .refused r

/-! ### Taking an exception and returning from one -/

/-- The traps that stack a frame (60_exceptions.md R400, R410). -/
inductive TrapName where
  | xirq
  | irq
  | spi
  | sci
  | swi
  | illop
deriving DecidableEq, Repr

/-- The part of the vector table that is a parameter: it holds in the two modes of the spec (00_scope.md R5,
60_exceptions.md R404). -/
def vectorTable (cfg : Config) : VectorTable :=
  match cfg.mode with
  | .singleChip => cfg.vectors
  | .expanded => cfg.vectors

/-- `VectorOf(name)` (60_exceptions.md R404): SCI and SPI at the source's addresses, the others where `VECTOR_TABLE`
says (92 D5; notes/assumptions/24.md for its default). -/
def vectorOf (cfg : Config) (name : TrapName) : Word :=
  match name with
  | .sci => 0xFFD6
  | .spi => 0xFFD8
  | .irq => (vectorTable cfg).irq
  | .xirq => (vectorTable cfg).xirq
  | .swi => (vectorTable cfg).swi
  | .illop => (vectorTable cfg).illop

/-- The reset vector (60_exceptions.md R404, 70_reset_and_hazards.md R461). -/
def resetVector (cfg : Config) : Word := (vectorTable cfg).reset

/-- The nine pushes of trap entry and of WAI (60_exceptions.md R410, R411; 46_system.md R316). -/
def pushFrame (ret : Word) (s : State) : Except Refusal State := do
  let s1 ← push16 ret s
  let s2 ← push16 s.iy s1
  let s3 ← push16 s.ix s2
  let s4 ← push8 s.a s3
  let s5 ← push8 s.b s4
  push8 s.ccr.toByte s5

/-- The masks after entry: I is set, and X too for XIRQ (60_exceptions.md R402, R410, R421). -/
def maskFor (name : TrapName) (f : Ccr) : Ccr := { f with i := true, x := f.x || decide (name = .xirq) }

/-- Set the masks and go to the handler: the vector is read now, and nothing about its value is checked; that it is
initialised is a hypothesis on the memory image, `VectorsReady` of Safety.lean (60_exceptions.md R410, R418, R421). -/
def takeVector (name : TrapName) (s : State) : Except Refusal State := do
  let (target, s1) ← readWord (vectorOf s.cfg name) { s with ccr := maskFor name s.ccr }
  return { s1 with pc := target }

/-- `Enter(name, ret)` (60_exceptions.md R410). -/
def enter (name : TrapName) (ret : Word) (s : State) : Except Refusal State := do
  let s1 ← pushFrame ret s
  let s2 ← takeVector name s1
  return { s2 with iDelay := false }

/-- `Resume(name)`, the end of a wait: nothing is stacked again (60_exceptions.md R421). -/
def resume (name : TrapName) (s : State) : Except Refusal State := do
  let s1 ← takeVector name s
  return { s1 with runState := .run }

/-- The return from a trap: nine pulls in the reverse order of entry (46_system.md R312, 60_exceptions.md R412). -/
def returnFromTrap (s : State) : Except Refusal State := do
  let (c, s1) ← pull8 s
  let (b, s2) ← pull8 s1
  let (a, s3) ← pull8 s2
  let (ix, s4) ← pull16 s3
  let (iy, s5) ← pull16 s4
  let (pc, s6) ← pull16 s5
  return { s6 with ccr := s.ccr.load c, b := b, a := a, ix := ix, iy := iy, pc := pc }

/-- An illegal encoding whose first byte is at PC, or TEST: the trap ILLOP with the address of that byte, or a fault,
as ILLEGAL_OPCODE says (30_encoding.md R98, 60_exceptions.md R415, 46_system.md R315, D7, D8). -/
def illegalOpcode (s : State) : StepOutcome :=
  match s.cfg.illegalOpcode with
  | .trap => finish (enter .illop s.pc s)
  | .fault => .fault .illegalOpcode

/-! ### Reset -/

/-- The A/D converter after reset; the bits the rules leave unspecified come from `free`
(10_state.md R51, 70_reset_and_hazards.md R462). -/
def Adc.afterReset (free : Nat → Byte) : Adc :=
  { option := 0x10, adctl := free 0 &&& 0x3F, adr1 := free 1, adr2 := free 2, adr3 := free 3, adr4 := free 4
    k := 0, active := false }

/-- The SCI after reset (10_state.md R51, 70_reset_and_hazards.md R462, 93 U20); what has left on TXD is kept. -/
def Sci.afterReset (rwu : Bool) (free : Nat → Byte) (d : Sci) : Sci :=
  { baud := free 0 &&& 0x07, sccr1 := free 1 &&& 0xC0, sccr2 := if rwu then 0x02 else 0x00, scsr := 0xC0, armed := 0x00
    rdr := free 2, tdr := free 3
    txShift := { ninth := if (free 4).getLsbD 0 then some ((free 4).getLsbD 1) else none, data := free 5 }
    txBusy := false
    rxShift := { ninth := if (free 6).getLsbD 0 then some ((free 6).getLsbD 1) else none, data := free 7 }
    idleDone := false, tdrLoose := false, out := d.out }

/-- The SPI after reset (10_state.md R51, 70_reset_and_hazards.md R462); what has left on MOSI and MISO is kept. -/
def Spi.afterReset (free : Nat → Byte) (d : Spi) : Spi :=
  { spcr := 0x04 ||| (free 0 &&& 0x03), spsr := 0x00, armed := 0x00, shift := free 1, rbuf := free 2, busy := false
    mosi := d.mosi, miso := d.miso }

/-- Reset as an event of a running machine (70_reset_and_hazards.md R460 to R464): memory and which of it is
initialised, the parameters and the outside world are kept, and every value the rules leave unspecified is a free
value (notes/assumptions/10.md). -/
def resetMachine (s : State) : Except Refusal State := do
  let free := fun k => freeByte (s.draws + k)
  let word := fun k => Config.freeWord (s.draws + k)
  let flag := fun k => freeBit (s.draws + k)
  let s1 : State :=
    { s with
      a := free 0, b := free 1, ix := word 2, iy := word 3, sp := word 4, spWritten := false
      ccr := { s := true, x := true, h := flag 5, i := true, n := flag 6, z := flag 7, v := flag 8, c := flag 9 }
      iDelay := false, runState := .run
      adc := Adc.afterReset fun k => free (10 + k)
      sci := s.sci.afterReset s.cfg.rwuReset fun k => free (15 + k)
      spi := s.spi.afterReset fun k => free (23 + k)
      portD := { data := free 26, ddr := 0x00 }
      draws := s.draws + 27 }
  let (target, s2) ← readWord (resetVector s.cfg) s1
  return { s2 with pc := target }

end Sys2Proof.Machine
end

