-- ==== Sys2Proof/Machine/Agents.lean ====
section
/-!
DEFINITION. The steps the devices and the outside world take on their own, and the interrupt requests of the devices
(60_exceptions.md R429 to R453). A device step whose guard fails changes nothing (notes/assumptions/8.md).
-/

namespace Sys2Proof.Machine

/-! ### The A/D converter -/

/-- The input chosen for the conversion in hand, as a row of the table of R431 (60_exceptions.md R433). -/
def Adc.channel (d : Adc) : BitVec 4 :=
  if d.mult then d.adctl.extractLsb' 2 2 ++ d.k else d.adctl.extractLsb' 0 4

/-- `Sample(Chan(c))`, where the outside world offers the byte `v`: VRH gives $FF, VRL $00, VRH/2 one of $7F and $80,
a reserved input and PE0 to PE7 any byte (60_exceptions.md R431, R434, D31; notes/assumptions/15.md). -/
def sample (c : BitVec 4) (v : Byte) : Byte :=
  match c.toNat with
  | 12 => 0xFF
  | 13 => 0x00
  | 14 => if v.getLsbD 0 then 0x80 else 0x7F
  | _ => v

/-- Store a result in ADR(k+1) (60_exceptions.md R433). -/
def Adc.storeResult (d : Adc) (v : Byte) : Adc :=
  match d.k.toNat with
  | 0 => { d with adr1 := v }
  | 1 => { d with adr2 := v }
  | 2 => { d with adr3 := v }
  | _ => { d with adr4 := v }

/-- After a conversion: the next of the cycle, or CCF and then the next cycle or idle (60_exceptions.md R433). -/
def Adc.advance (d : Adc) : Adc :=
  if d.k.toNat < 3 then { d with k := d.k + 1 }
  else
    let d' := { d with adctl := d.adctl ||| 0x80 }
    if d.scan then { d' with k := 0 } else { d' with active := false }

/-- `ADC.convert(v)` (60_exceptions.md R433). With ADPU = 0 the result is a free value and CCF follows the rules
(R430, 93 U12; notes/assumptions/15.md). -/
def adcConvert (v : Byte) (s : State) : State :=
  if s.adc.active then
    if s.adc.adpu then { s with adc := (s.adc.storeResult (sample s.adc.channel v)).advance }
    else { s.drew with adc := (s.adc.storeResult (freeByte s.draws)).advance }
  else s

/-! ### The SCI -/

/-- The character in TDR with its ninth bit T8 when M = 1 (60_exceptions.md R439). -/
def Sci.waiting (d : Sci) : SciFrame := { ninth := if d.m then some d.t8 else none, data := d.tdr }

/-- `SCI.tx_load` (60_exceptions.md R439). -/
def Sci.txLoad (d : Sci) : Sci :=
  if d.te && !d.tdre && !d.txBusy then
    { d with txShift := d.waiting, txBusy := true, scsr := d.scsr ||| 0x80, tdrLoose := false }
  else d

/-- The shifter takes a character whose write had not armed TDRE; no flag changes (93 U14; notes/assumptions/16.md). -/
def Sci.txLoadLoose (d : Sci) : Sci :=
  if d.te && d.tdrLoose && !d.txBusy then { d with txShift := d.waiting, txBusy := true, tdrLoose := false } else d

/-- `SCI.tx_done` (60_exceptions.md R439). -/
def Sci.txDone (d : Sci) : Sci :=
  if d.txBusy then
    { d with
      out := d.out ++ [.frame d.txShift]
      txBusy := false
      scsr := if d.tdre then d.scsr ||| 0x40 else d.scsr }
  else d

/-- A break frame goes out while SBK = 1; no flag changes (60_exceptions.md R439; notes/assumptions/19.md). -/
def Sci.sendBreak (d : Sci) : Sci :=
  if d.te && d.sbk && !d.txBusy then { d with out := d.out ++ [.brk] } else d

/-- The character reaches RDR, or OR is set where the one before is unread (60_exceptions.md R441). -/
def Sci.accept (c : Byte) (b8 noisy badstop : Bool) (d : Sci) : Sci :=
  if d.rdrf then { d with scsr := d.scsr ||| 0x08 }
  else
    { d with
      rdr := c
      sccr1 := if d.m then (d.sccr1 &&& 0x7F) ||| (if b8 then 0x80 else 0x00) else d.sccr1
      scsr := d.scsr ||| 0x20 ||| (if noisy then 0x04 else 0x00) ||| (if badstop then 0x02 else 0x00) }

/-- `SCI.rx_char(c, b8, noisy, badstop)` (60_exceptions.md R441). A receiver asleep drops the frame, unless WAKE = 1 and
the most significant bit of the character is 1. -/
def Sci.rxChar (c : Byte) (b8 noisy badstop : Bool) (d : Sci) : Sci :=
  if d.re then
    let d' := { d with rxShift := { ninth := if d.m then some b8 else none, data := c }, idleDone := false }
    let msb := if d.m then b8 else c.getLsbD 7
    if d.rwu then
      if d.wake && msb then Sci.accept c b8 noisy badstop { d' with sccr2 := d.sccr2 &&& 0xFD } else d'
    else Sci.accept c b8 noisy badstop d'
  else d

/-- `SCI.rx_idle` (60_exceptions.md R443): an idle line wakes a sleeping receiver when WAKE = 0, and otherwise sets IDLE
once per gap (notes/assumptions/18.md). -/
def Sci.rxIdle (d : Sci) : Sci :=
  if d.re then
    if d.rwu then
      if d.wake then d else { d with sccr2 := d.sccr2 &&& 0xFD, idleDone := true }
    else if d.idleDone then d
    else { d with scsr := d.scsr ||| 0x10, idleDone := true }
  else d

/-- `req(SCI)` (60_exceptions.md R444). -/
def Sci.request (d : Sci) : Bool :=
  (d.tie && d.tdre) || (d.tcie && d.tc) || (d.rie && (d.rdrf || d.overrun)) || (d.ilie && d.idle)

/-! ### The SPI -/

/-- The end of a transfer: the received byte is in the shifter and in the read buffer, and SPIF is set
(60_exceptions.md R448). Where SPIF was still 1, `old` says whether the buffer keeps the byte before
(93 U15; notes/assumptions/17.md). -/
def Spi.received (v : Byte) (old : Bool) (d : Spi) : Spi :=
  { d with
    shift := v
    rbuf := if d.spif && old then d.rbuf else v
    busy := false
    spsr := d.spsr ||| 0x80 }

/-- `SPI.master_done(v)`: the byte has gone out on MOSI if DDRD3 = 1 (60_exceptions.md R448, R452). -/
def spiMasterDone (v : Byte) (s : State) : State :=
  if s.spi.busy && s.spi.mstr && s.spi.spe then
    let sent := if s.portD.ddr.getLsbD 3 then s.spi.mosi ++ [s.spi.shift] else s.spi.mosi
    { s.drew with spi := { s.spi.received v (freeBit s.draws) with mosi := sent } }
  else s

/-- `SPI.slave_begin`, while SS is low (60_exceptions.md R448). -/
def spiSlaveBegin (s : State) : State :=
  if s.spi.spe && !s.spi.mstr && !s.spi.busy && s.pins.ss then { s with spi := { s.spi with busy := true } } else s

/-- `SPI.slave_done(v)`: the byte has gone out on MISO if DDRD2 = 1 (60_exceptions.md R448, R452). -/
def spiSlaveDone (v : Byte) (s : State) : State :=
  if s.spi.busy && !s.spi.mstr && s.spi.spe then
    let sent := if s.portD.ddr.getLsbD 2 then s.spi.miso ++ [s.spi.shift] else s.spi.miso
    { s.drew with spi := { s.spi.received v (freeBit s.draws) with miso := sent } }
  else s

/-- `SPI.mode_fault`: MODF is set, SPE, MSTR and DDRD5 to DDRD2 are cleared and a transfer is abandoned
(60_exceptions.md R451). -/
def spiModeFault (s : State) : State :=
  if s.spi.spe && s.spi.mstr && !s.portD.ddr.getLsbD 5 && s.pins.ss then
    { s with
      spi := { s.spi with spsr := s.spi.spsr ||| 0x10, spcr := s.spi.spcr &&& 0xAF, busy := false }
      portD := { s.portD with ddr := s.portD.ddr &&& 0xC3 } }
  else s

/-- `req(SPI)` (60_exceptions.md R453). -/
def Spi.request (d : Spi) : Bool := d.spie && (d.spif || d.modf)

/-! ### One turn -/

/-- The turn of a device while the clocks run (60_exceptions.md R429). A turn of the CPU or of the pins is none. -/
def deviceStep (t : Turn) (s : State) : State :=
  match t with
  | .cpu => s
  | .pins _ => s
  | .adcConvert v => adcConvert v s
  | .sciTxLoad => { s with sci := s.sci.txLoad }
  | .sciTxLoadLoose => { s with sci := s.sci.txLoadLoose }
  | .sciTxDone => { s with sci := s.sci.txDone }
  | .sciBreak => { s with sci := s.sci.sendBreak }
  | .sciRxChar c b8 noisy badstop => { s with sci := s.sci.rxChar c b8 noisy badstop }
  | .sciRxIdle => { s with sci := s.sci.rxIdle }
  | .spiMasterDone v => spiMasterDone v s
  | .spiSlaveBegin => spiSlaveBegin s
  | .spiSlaveDone v => spiSlaveDone v s
  | .spiModeFault => spiModeFault s

/-- One turn of an agent that is not the CPU: the pins take their levels in any run state, and a device moves unless
every clock is stopped (60_exceptions.md R420, R429). -/
def agentStep (t : Turn) (s : State) : State :=
  match t with
  | .pins p => { s with pins := p }
  | t => if s.runState = .stop then s else deviceStep t s

end Sys2Proof.Machine
end

