-- ==== Sys2Proof/Machine/Operands.lean ====
section
/-!
DEFINITION. Effective addresses, the delivery of memory operands, and the shared forms of the instructions over them
(30_encoding.md R93, R100, R101; 20_memory.md R65).
-/

namespace Sys2Proof.Machine

/-! ### Effective addresses -/

/-- The address of direct mode (30_encoding.md R100, 20_memory.md R67). -/
def directAddress (dd : Byte) : Word := dd.zeroExtend 16

/-- The address of an indexed mode: the offset is unsigned and the sum is modulo 2^16 (30_encoding.md R93, R100). -/
def indexedAddress (base : Word) (ff : Byte) : Word := base + ff.zeroExtend 16

/-- `EA` of an address operand of a store or of JSR (30_encoding.md R100). -/
def addressFull (ea : EaFull) (s : State) : Word :=
  match ea with
  | .dir dd => directAddress dd
  | .ext hhll => hhll
  | .indX ff => indexedAddress s.ix ff
  | .indY ff => indexedAddress s.iy ff

/-- `EA` of an address operand of the read-modify-write group or of JMP (30_encoding.md R100). -/
def addressExt (ea : EaExt) (s : State) : Word :=
  match ea with
  | .ext hhll => hhll
  | .indX ff => indexedAddress s.ix ff
  | .indY ff => indexedAddress s.iy ff

/-- `EA` of an address operand of a bit instruction (30_encoding.md R100). -/
def addressBit (ea : EaBit) (s : State) : Word :=
  match ea with
  | .dir dd => directAddress dd
  | .indX ff => indexedAddress s.ix ff
  | .indY ff => indexedAddress s.iy ff

/-! ### Operands -/

/-- `M8`, and the state after the one read that delivers it (30_encoding.md R101). -/
def operand8 (m : Operand8) (s : State) : Except Refusal (Byte × State) :=
  match m with
  | .imm ii => .ok (ii, s)
  | .dir dd => readByte (directAddress dd) s
  | .ext hhll => readByte hhll s
  | .indX ff => readByte (indexedAddress s.ix ff) s
  | .indY ff => readByte (indexedAddress s.iy ff) s

/-- `M16`, and the state after the one 16-bit read that delivers it (30_encoding.md R101). -/
def operand16 (m : Operand16) (s : State) : Except Refusal (Word × State) :=
  match m with
  | .imm jjkk => .ok (jjkk, s)
  | .dir dd => readWord (directAddress dd) s
  | .ext hhll => readWord hhll s
  | .indX ff => readWord (indexedAddress s.ix ff) s
  | .indY ff => readWord (indexedAddress s.iy ff) s

/-! ### Shared forms -/

/-- Read `M8`, then update the state with it (20_memory.md R65 a). -/
def withOperand8 (m : Operand8) (f : Byte → State → State) (s : State) : Except Refusal State := do
  let (v, s1) ← operand8 m s
  return f v s1

/-- Read `M16`, then update the state with it (20_memory.md R65 a). -/
def withOperand16 (m : Operand16) (f : Word → State → State) (s : State) : Except Refusal State := do
  let (v, s1) ← operand16 m s
  return f v s1

/-- Store a byte, then write the condition codes (20_memory.md R65 b). -/
def storeByte (a : Word) (v : Byte) (f : Ccr) (s : State) : Except Refusal State := do
  let s1 ← writeByte a v s
  return { s1 with ccr := f }

/-- Store a word, then write the condition codes (20_memory.md R65 b). -/
def storeWord (a : Word) (v : Word) (f : Ccr) (s : State) : Except Refusal State := do
  let s1 ← writeWord a v s
  return { s1 with ccr := f }

/-- Read a byte, write its new value at the same address, and write the condition codes (20_memory.md R65 c, d). -/
def modifyByte (a : Word) (f : Byte → Ccr → Byte × Ccr) (s : State) : Except Refusal State := do
  let (v, s1) ← readByte a s
  let s2 ← writeByte a (f v s.ccr).1 s1
  return { s2 with ccr := (f v s.ccr).2 }

/-- The target of a relative branch (43_branch_jump.md R230). -/
def branchTarget (next : Word) (rr : Byte) : Word := next + rr.signExtend 16

/-- Go to the target if the condition holds, else to NEXT (43_branch_jump.md R230). -/
def branchIf (taken : Bool) (next : Word) (rr : Byte) (s : State) : State :=
  { s with pc := if taken then branchTarget next rr else next }

end Sys2Proof.Machine
end

