-- ==== Sys2Proof/Machine/Arithmetic.lean ====
section
/-!
DEFINITION. Add, subtract, increment, decrement, negate, multiply, divide, decimal adjust (spec/40_arithmetic.md).
-/

namespace Sys2Proof.Machine

/-- ABA: A plus B to A (40_arithmetic.md R131). -/
def execAba (s : State) : StepOutcome :=
  complete (next .aba s) (.ok (s.putA (add8 s.a s.b false s.ccr)))

/-- ABX: IX plus B (40_arithmetic.md R132). -/
def execAbx (s : State) : StepOutcome :=
  complete (next .abx s) (.ok { s with ix := s.ix + s.b.zeroExtend 16 })

/-- ABY: IY plus B (40_arithmetic.md R133). -/
def execAby (s : State) : StepOutcome :=
  complete (next .aby s) (.ok { s with iy := s.iy + s.b.zeroExtend 16 })

/-- ADCA: A plus the operand plus C (40_arithmetic.md R134). -/
def execAdca (m : Operand8) (s : State) : StepOutcome :=
  complete (next (.adca m) s) (withOperand8 m (fun v s => s.putA (add8 s.a v s.ccr.c s.ccr)) s)

/-- ADCB: B plus the operand plus C (40_arithmetic.md R135). -/
def execAdcb (m : Operand8) (s : State) : StepOutcome :=
  complete (next (.adcb m) s) (withOperand8 m (fun v s => s.putB (add8 s.b v s.ccr.c s.ccr)) s)

/-- ADDA: A plus the operand (40_arithmetic.md R136). -/
def execAdda (m : Operand8) (s : State) : StepOutcome :=
  complete (next (.adda m) s) (withOperand8 m (fun v s => s.putA (add8 s.a v false s.ccr)) s)

/-- ADDB: B plus the operand (40_arithmetic.md R137). -/
def execAddb (m : Operand8) (s : State) : StepOutcome :=
  complete (next (.addb m) s) (withOperand8 m (fun v s => s.putB (add8 s.b v false s.ccr)) s)

/-- ADDD: D plus the operand (40_arithmetic.md R138). -/
def execAddd (m : Operand16) (s : State) : StepOutcome :=
  complete (next (.addd m) s) (withOperand16 m (fun v s => s.putD (add16 s.d v s.ccr)) s)

/-- DAA: decimal adjust A; V is a free value (40_arithmetic.md R139). -/
def execDaa (s : State) : StepOutcome :=
  complete (next .daa s) (.ok { s.putA (daa8 s.a (freeBit s.draws) s.ccr) with draws := s.draws + 1 })

/-- DEC: decrement the memory byte (40_arithmetic.md R140). -/
def execDec (ea : EaExt) (s : State) : StepOutcome :=
  complete (next (.dec ea) s) (modifyByte (addressExt ea s) dec8 s)

/-- DECA: decrement A (40_arithmetic.md R141). -/
def execDeca (s : State) : StepOutcome :=
  complete (next .deca s) (.ok (s.putA (dec8 s.a s.ccr)))

/-- DECB: decrement B (40_arithmetic.md R142). -/
def execDecb (s : State) : StepOutcome :=
  complete (next .decb s) (.ok (s.putB (dec8 s.b s.ccr)))

/-- DES: decrement SP (40_arithmetic.md R143). -/
def execDes (s : State) : StepOutcome :=
  complete (next .des s) (.ok { s with sp := s.sp - 1 })

/-- DEX: decrement IX; only Z is written (40_arithmetic.md R144). -/
def execDex (s : State) : StepOutcome :=
  complete (next .dex s) (.ok { s with ix := s.ix - 1, ccr := { s.ccr with z := decide (s.ix - 1 = 0) } })

/-- DEY: decrement IY; only Z is written (40_arithmetic.md R145). -/
def execDey (s : State) : StepOutcome :=
  complete (next .dey s) (.ok { s with iy := s.iy - 1, ccr := { s.ccr with z := decide (s.iy - 1 = 0) } })

/-- FDIV: D by IX as a fraction, quotient to IX, remainder to D; the remainder of a division by zero or of an
overflow is a free value (40_arithmetic.md R146). -/
def execFdiv (s : State) : StepOutcome :=
  let (q, r, f) := fdiv16 s.d s.ix (Config.freeWord s.draws) s.ccr
  complete (next .fdiv s) (.ok { s.withD r with ix := q, ccr := f, draws := s.draws + 1 })

/-- IDIV: D by IX, quotient to IX, remainder to D; the remainder of a division by zero is a free value
(40_arithmetic.md R147). -/
def execIdiv (s : State) : StepOutcome :=
  let (q, r, f) := idiv16 s.d s.ix (Config.freeWord s.draws) s.ccr
  complete (next .idiv s) (.ok { s.withD r with ix := q, ccr := f, draws := s.draws + 1 })

/-- INC: increment the memory byte (40_arithmetic.md R148). -/
def execInc (ea : EaExt) (s : State) : StepOutcome :=
  complete (next (.inc ea) s) (modifyByte (addressExt ea s) inc8 s)

/-- INCA: increment A (40_arithmetic.md R149). -/
def execInca (s : State) : StepOutcome :=
  complete (next .inca s) (.ok (s.putA (inc8 s.a s.ccr)))

/-- INCB: increment B (40_arithmetic.md R150). -/
def execIncb (s : State) : StepOutcome :=
  complete (next .incb s) (.ok (s.putB (inc8 s.b s.ccr)))

/-- INS: increment SP (40_arithmetic.md R151). -/
def execIns (s : State) : StepOutcome :=
  complete (next .ins s) (.ok { s with sp := s.sp + 1 })

/-- INX: increment IX; only Z is written (40_arithmetic.md R152). -/
def execInx (s : State) : StepOutcome :=
  complete (next .inx s) (.ok { s with ix := s.ix + 1, ccr := { s.ccr with z := decide (s.ix + 1 = 0) } })

/-- INY: increment IY; only Z is written (40_arithmetic.md R153). -/
def execIny (s : State) : StepOutcome :=
  complete (next .iny s) (.ok { s with iy := s.iy + 1, ccr := { s.ccr with z := decide (s.iy + 1 = 0) } })

/-- MUL: the unsigned product of A and B to D (40_arithmetic.md R154). -/
def execMul (s : State) : StepOutcome :=
  complete (next .mul s) (.ok (s.putD (mul8 s.a s.b s.ccr)))

/-- NEG: two's complement of the memory byte (40_arithmetic.md R155). -/
def execNeg (ea : EaExt) (s : State) : StepOutcome :=
  complete (next (.neg ea) s) (modifyByte (addressExt ea s) neg8 s)

/-- NEGA: two's complement of A (40_arithmetic.md R156). -/
def execNega (s : State) : StepOutcome :=
  complete (next .nega s) (.ok (s.putA (neg8 s.a s.ccr)))

/-- NEGB: two's complement of B (40_arithmetic.md R157). -/
def execNegb (s : State) : StepOutcome :=
  complete (next .negb s) (.ok (s.putB (neg8 s.b s.ccr)))

/-- SBA: A minus B to A (40_arithmetic.md R158). -/
def execSba (s : State) : StepOutcome :=
  complete (next .sba s) (.ok (s.putA (sub8 s.a s.b false s.ccr)))

/-- SBCA: A minus the operand minus C (40_arithmetic.md R159). -/
def execSbca (m : Operand8) (s : State) : StepOutcome :=
  complete (next (.sbca m) s) (withOperand8 m (fun v s => s.putA (sub8 s.a v s.ccr.c s.ccr)) s)

/-- SBCB: B minus the operand minus C (40_arithmetic.md R160). -/
def execSbcb (m : Operand8) (s : State) : StepOutcome :=
  complete (next (.sbcb m) s) (withOperand8 m (fun v s => s.putB (sub8 s.b v s.ccr.c s.ccr)) s)

/-- SUBA: A minus the operand (40_arithmetic.md R161). -/
def execSuba (m : Operand8) (s : State) : StepOutcome :=
  complete (next (.suba m) s) (withOperand8 m (fun v s => s.putA (sub8 s.a v false s.ccr)) s)

/-- SUBB: B minus the operand (40_arithmetic.md R162). -/
def execSubb (m : Operand8) (s : State) : StepOutcome :=
  complete (next (.subb m) s) (withOperand8 m (fun v s => s.putB (sub8 s.b v false s.ccr)) s)

/-- SUBD: D minus the operand (40_arithmetic.md R163). -/
def execSubd (m : Operand16) (s : State) : StepOutcome :=
  complete (next (.subd m) s) (withOperand16 m (fun v s => s.putD (sub16 s.d v s.ccr)) s)

end Sys2Proof.Machine
end

