-- ==== Sys2Proof/Machine/BitCcr.lean ====
section
/-!
DEFINITION. Bit set and clear in memory, and the condition-code instructions (spec/44_bit_ccr.md).
-/

namespace Sys2Proof.Machine

/-- BCLR: clear the bits of the mask in the memory byte (44_bit_ccr.md R261). -/
def execBclr (ea : EaBit) (mm : Byte) (s : State) : StepOutcome :=
  complete (next (.bclr ea mm) s)
    (modifyByte (addressBit ea s) (fun v f => (v &&& ~~~mm, logic8 (v &&& ~~~mm) f)) s)

/-- BSET: set the bits of the mask in the memory byte (44_bit_ccr.md R262). -/
def execBset (ea : EaBit) (mm : Byte) (s : State) : StepOutcome :=
  complete (next (.bset ea mm) s)
    (modifyByte (addressBit ea s) (fun v f => (v ||| mm, logic8 (v ||| mm) f)) s)

/-- CLC: clear C (44_bit_ccr.md R263). -/
def execClc (s : State) : StepOutcome :=
  complete (next .clc s) (.ok { s with ccr := { s.ccr with c := false } })

/-- CLI: clear I; I_DELAY is set where I was 1 (44_bit_ccr.md R264). -/
def execCli (s : State) : StepOutcome :=
  complete (next .cli s) (.ok { s with ccr := { s.ccr with i := false }, iDelay := s.iDelay || s.ccr.i })

/-- CLV: clear V (44_bit_ccr.md R265). -/
def execClv (s : State) : StepOutcome :=
  complete (next .clv s) (.ok { s with ccr := { s.ccr with v := false } })

/-- SEC: set C (44_bit_ccr.md R266). -/
def execSec (s : State) : StepOutcome :=
  complete (next .sec s) (.ok { s with ccr := { s.ccr with c := true } })

/-- SEI: set I (44_bit_ccr.md R267). -/
def execSei (s : State) : StepOutcome :=
  complete (next .sei s) (.ok { s with ccr := { s.ccr with i := true } })

/-- SEV: set V (44_bit_ccr.md R268). -/
def execSev (s : State) : StepOutcome :=
  complete (next .sev s) (.ok { s with ccr := { s.ccr with v := true } })

/-- TAP: A to the condition codes; X can only be cleared, and I_DELAY is set where I goes from 1 to 0
(44_bit_ccr.md R269). -/
def execTap (s : State) : StepOutcome :=
  complete (next .tap s) (.ok { s with ccr := s.ccr.load s.a, iDelay := s.iDelay || (s.ccr.i && !s.a.getLsbD 4) })

/-- TPA: the condition codes to A (44_bit_ccr.md R270). -/
def execTpa (s : State) : StepOutcome :=
  complete (next .tpa s) (.ok { s with a := s.ccr.toByte })

end Sys2Proof.Machine
end

