-- ==== Sys2Proof/Machine/Branch.lean ====
section
/-!
DEFINITION. Branches, jumps, call and return (spec/43_branch_jump.md).
-/

namespace Sys2Proof.Machine

/-- BCC: branch if C = 0 (43_branch_jump.md R232). -/
def execBcc (rr : Byte) (s : State) : StepOutcome :=
  .next (branchIf (!s.ccr.c) (next (.bcc rr) s) rr s)

/-- BCS: branch if C = 1 (43_branch_jump.md R233). -/
def execBcs (rr : Byte) (s : State) : StepOutcome :=
  .next (branchIf s.ccr.c (next (.bcs rr) s) rr s)

/-- BEQ: branch if Z = 1 (43_branch_jump.md R234). -/
def execBeq (rr : Byte) (s : State) : StepOutcome :=
  .next (branchIf s.ccr.z (next (.beq rr) s) rr s)

/-- BGE: branch if N xor V = 0 (43_branch_jump.md R235). -/
def execBge (rr : Byte) (s : State) : StepOutcome :=
  .next (branchIf (!(s.ccr.n ^^ s.ccr.v)) (next (.bge rr) s) rr s)

/-- BGT: branch if Z or (N xor V) = 0 (43_branch_jump.md R236). -/
def execBgt (rr : Byte) (s : State) : StepOutcome :=
  .next (branchIf (!(s.ccr.z || (s.ccr.n ^^ s.ccr.v))) (next (.bgt rr) s) rr s)

/-- BHI: branch if C or Z = 0 (43_branch_jump.md R237). -/
def execBhi (rr : Byte) (s : State) : StepOutcome :=
  .next (branchIf (!(s.ccr.c || s.ccr.z)) (next (.bhi rr) s) rr s)

/-- BHS: branch if C = 0 (43_branch_jump.md R238). -/
def execBhs (rr : Byte) (s : State) : StepOutcome :=
  .next (branchIf (!s.ccr.c) (next (.bhs rr) s) rr s)

/-- BLE: branch if Z or (N xor V) = 1 (43_branch_jump.md R239). -/
def execBle (rr : Byte) (s : State) : StepOutcome :=
  .next (branchIf (s.ccr.z || (s.ccr.n ^^ s.ccr.v)) (next (.ble rr) s) rr s)

/-- BLO: branch if C = 1 (43_branch_jump.md R240). -/
def execBlo (rr : Byte) (s : State) : StepOutcome :=
  .next (branchIf s.ccr.c (next (.blo rr) s) rr s)

/-- BLS: branch if C or Z = 1 (43_branch_jump.md R241). -/
def execBls (rr : Byte) (s : State) : StepOutcome :=
  .next (branchIf (s.ccr.c || s.ccr.z) (next (.bls rr) s) rr s)

/-- BLT: branch if N xor V = 1 (43_branch_jump.md R242). -/
def execBlt (rr : Byte) (s : State) : StepOutcome :=
  .next (branchIf (s.ccr.n ^^ s.ccr.v) (next (.blt rr) s) rr s)

/-- BMI: branch if N = 1 (43_branch_jump.md R243). -/
def execBmi (rr : Byte) (s : State) : StepOutcome :=
  .next (branchIf s.ccr.n (next (.bmi rr) s) rr s)

/-- BNE: branch if Z = 0 (43_branch_jump.md R244). -/
def execBne (rr : Byte) (s : State) : StepOutcome :=
  .next (branchIf (!s.ccr.z) (next (.bne rr) s) rr s)

/-- BPL: branch if N = 0 (43_branch_jump.md R245). -/
def execBpl (rr : Byte) (s : State) : StepOutcome :=
  .next (branchIf (!s.ccr.n) (next (.bpl rr) s) rr s)

/-- BRA: branch always (43_branch_jump.md R246). -/
def execBra (rr : Byte) (s : State) : StepOutcome :=
  .next (branchIf true (next (.bra rr) s) rr s)

/-- BRCLR: branch if every bit of the mask is 0 in the memory byte (43_branch_jump.md R247). -/
def execBrclr (ea : EaBit) (mm : Byte) (rr : Byte) (s : State) : StepOutcome :=
  finish do
    let (v, s1) ← readByte (addressBit ea s) s
    return branchIf (decide (v &&& mm = 0)) (next (.brclr ea mm rr) s) rr s1

/-- BRN: branch never (43_branch_jump.md R248). -/
def execBrn (rr : Byte) (s : State) : StepOutcome :=
  .next (branchIf false (next (.brn rr) s) rr s)

/-- BRSET: branch if every bit of the mask is 1 in the memory byte (43_branch_jump.md R249). -/
def execBrset (ea : EaBit) (mm : Byte) (rr : Byte) (s : State) : StepOutcome :=
  finish do
    let (v, s1) ← readByte (addressBit ea s) s
    return branchIf (decide (~~~v &&& mm = 0)) (next (.brset ea mm rr) s) rr s1

/-- BSR: push NEXT, then branch (43_branch_jump.md R250). -/
def execBsr (rr : Byte) (s : State) : StepOutcome :=
  complete (branchTarget (next (.bsr rr) s) rr) (push16 (next (.bsr rr) s) s)

/-- BVC: branch if V = 0 (43_branch_jump.md R251). -/
def execBvc (rr : Byte) (s : State) : StepOutcome :=
  .next (branchIf (!s.ccr.v) (next (.bvc rr) s) rr s)

/-- BVS: branch if V = 1 (43_branch_jump.md R252). -/
def execBvs (rr : Byte) (s : State) : StepOutcome :=
  .next (branchIf s.ccr.v (next (.bvs rr) s) rr s)

/-- JMP: jump to the effective address, which is not read (43_branch_jump.md R253). -/
def execJmp (ea : EaExt) (s : State) : StepOutcome :=
  .next { s with pc := addressExt ea s }

/-- JSR: push NEXT, then go to the effective address as computed before the push (43_branch_jump.md R254). -/
def execJsr (ea : EaFull) (s : State) : StepOutcome :=
  complete (addressFull ea s) (push16 (next (.jsr ea) s) s)

/-- RTS: pull PC (43_branch_jump.md R255). -/
def execRts (s : State) : StepOutcome :=
  finish do
    let (pc, s1) ← pull16 s
    return { s1 with pc := pc }

end Sys2Proof.Machine
end

