-- ==== Sys2Proof/Machine/LoadStore.lean ====
section
/-!
DEFINITION. Loads, stores, transfers, exchanges and the stack (spec/45_load_store_stack.md).
-/

namespace Sys2Proof.Machine

/-- LDAA: load A (45_load_store_stack.md R276). -/
def execLdaa (m : Operand8) (s : State) : StepOutcome :=
  complete (next (.ldaa m) s) (withOperand8 m (fun v s => s.putA ((v, logic8 v s.ccr))) s)

/-- LDAB: load B (45_load_store_stack.md R277). -/
def execLdab (m : Operand8) (s : State) : StepOutcome :=
  complete (next (.ldab m) s) (withOperand8 m (fun v s => s.putB ((v, logic8 v s.ccr))) s)

/-- LDD: load D (45_load_store_stack.md R278). -/
def execLdd (m : Operand16) (s : State) : StepOutcome :=
  complete (next (.ldd m) s) (withOperand16 m (fun v s => s.putD (v, logic16 v s.ccr)) s)

/-- LDS: load SP, which then is written (45_load_store_stack.md R279, 70_reset_and_hazards.md R465). -/
def execLds (m : Operand16) (s : State) : StepOutcome :=
  complete (next (.lds m) s)
    (withOperand16 m (fun v s => { s with sp := v, spWritten := true, ccr := logic16 v s.ccr }) s)

/-- LDX: load IX; the address is computed with the old IX (45_load_store_stack.md R280). -/
def execLdx (m : Operand16) (s : State) : StepOutcome :=
  complete (next (.ldx m) s) (withOperand16 m (fun v s => { s with ix := v, ccr := logic16 v s.ccr }) s)

/-- LDY: load IY; the address is computed with the old IY (45_load_store_stack.md R281). -/
def execLdy (m : Operand16) (s : State) : StepOutcome :=
  complete (next (.ldy m) s) (withOperand16 m (fun v s => { s with iy := v, ccr := logic16 v s.ccr }) s)

/-- PSHA: push A (45_load_store_stack.md R282). -/
def execPsha (s : State) : StepOutcome :=
  complete (next .psha s) (push8 s.a s)

/-- PSHB: push B (45_load_store_stack.md R283). -/
def execPshb (s : State) : StepOutcome :=
  complete (next .pshb s) (push8 s.b s)

/-- PSHX: push IX, low byte first (45_load_store_stack.md R284). -/
def execPshx (s : State) : StepOutcome :=
  complete (next .pshx s) (push16 s.ix s)

/-- PSHY: push IY, low byte first (45_load_store_stack.md R285). -/
def execPshy (s : State) : StepOutcome :=
  complete (next .pshy s) (push16 s.iy s)

/-- PULA: pull A; no flag is written (45_load_store_stack.md R286). -/
def execPula (s : State) : StepOutcome :=
  complete (next .pula s) do
    let (v, s1) ← pull8 s
    return { s1 with a := v }

/-- PULB: pull B; no flag is written (45_load_store_stack.md R287). -/
def execPulb (s : State) : StepOutcome :=
  complete (next .pulb s) do
    let (v, s1) ← pull8 s
    return { s1 with b := v }

/-- PULX: pull IX, high byte first (45_load_store_stack.md R288). -/
def execPulx (s : State) : StepOutcome :=
  complete (next .pulx s) do
    let (v, s1) ← pull16 s
    return { s1 with ix := v }

/-- PULY: pull IY, high byte first (45_load_store_stack.md R289). -/
def execPuly (s : State) : StepOutcome :=
  complete (next .puly s) do
    let (v, s1) ← pull16 s
    return { s1 with iy := v }

/-- STAA: store A (45_load_store_stack.md R290). -/
def execStaa (ea : EaFull) (s : State) : StepOutcome :=
  complete (next (.staa ea) s) (storeByte (addressFull ea s) s.a (logic8 s.a s.ccr) s)

/-- STAB: store B (45_load_store_stack.md R291). -/
def execStab (ea : EaFull) (s : State) : StepOutcome :=
  complete (next (.stab ea) s) (storeByte (addressFull ea s) s.b (logic8 s.b s.ccr) s)

/-- STD: store D (45_load_store_stack.md R292). -/
def execStd (ea : EaFull) (s : State) : StepOutcome :=
  complete (next (.std ea) s) (storeWord (addressFull ea s) s.d (logic16 s.d s.ccr) s)

/-- STS: store SP (45_load_store_stack.md R293). -/
def execSts (ea : EaFull) (s : State) : StepOutcome :=
  complete (next (.sts ea) s) (storeWord (addressFull ea s) s.sp (logic16 s.sp s.ccr) s)

/-- STX: store IX (45_load_store_stack.md R294). -/
def execStx (ea : EaFull) (s : State) : StepOutcome :=
  complete (next (.stx ea) s) (storeWord (addressFull ea s) s.ix (logic16 s.ix s.ccr) s)

/-- STY: store IY (45_load_store_stack.md R295). -/
def execSty (ea : EaFull) (s : State) : StepOutcome :=
  complete (next (.sty ea) s) (storeWord (addressFull ea s) s.iy (logic16 s.iy s.ccr) s)

/-- TAB: A to B (45_load_store_stack.md R296). -/
def execTab (s : State) : StepOutcome :=
  complete (next .tab s) (.ok (s.putB (s.a, logic8 s.a s.ccr)))

/-- TBA: B to A (45_load_store_stack.md R297). -/
def execTba (s : State) : StepOutcome :=
  complete (next .tba s) (.ok (s.putA (s.b, logic8 s.b s.ccr)))

/-- TSX: SP plus 1 to IX (45_load_store_stack.md R298). -/
def execTsx (s : State) : StepOutcome :=
  complete (next .tsx s) (.ok { s with ix := s.sp + 1 })

/-- TSY: SP plus 1 to IY (45_load_store_stack.md R299). -/
def execTsy (s : State) : StepOutcome :=
  complete (next .tsy s) (.ok { s with iy := s.sp + 1 })

/-- TXS: IX minus 1 to SP, which then is written (45_load_store_stack.md R300, 70_reset_and_hazards.md R465). -/
def execTxs (s : State) : StepOutcome :=
  complete (next .txs s) (.ok { s with sp := s.ix - 1, spWritten := true })

/-- TYS: IY minus 1 to SP, which then is written (45_load_store_stack.md R301, 70_reset_and_hazards.md R465). -/
def execTys (s : State) : StepOutcome :=
  complete (next .tys s) (.ok { s with sp := s.iy - 1, spWritten := true })

/-- XGDX: exchange D and IX (45_load_store_stack.md R302). -/
def execXgdx (s : State) : StepOutcome :=
  complete (next .xgdx s) (.ok { s.withD s.ix with ix := s.d })

/-- XGDY: exchange D and IY (45_load_store_stack.md R303). -/
def execXgdy (s : State) : StepOutcome :=
  complete (next .xgdy s) (.ok { s.withD s.iy with iy := s.d })

end Sys2Proof.Machine
end

