-- ==== Sys2Proof/Machine/Logic.lean ====
section
/-!
DEFINITION. Logic, clear, complement, compare and test (spec/41_logic_compare.md).
-/

namespace Sys2Proof.Machine

/-- ANDA: A AND the operand (41_logic_compare.md R171). -/
def execAnda (m : Operand8) (s : State) : StepOutcome :=
  complete (next (.anda m) s) (withOperand8 m (fun v s => s.putA ((s.a &&& v, logic8 (s.a &&& v) s.ccr))) s)

/-- ANDB: B AND the operand (41_logic_compare.md R172). -/
def execAndb (m : Operand8) (s : State) : StepOutcome :=
  complete (next (.andb m) s) (withOperand8 m (fun v s => s.putB ((s.b &&& v, logic8 (s.b &&& v) s.ccr))) s)

/-- BITA: the flags of A AND the operand (41_logic_compare.md R173). -/
def execBita (m : Operand8) (s : State) : StepOutcome :=
  complete (next (.bita m) s) (withOperand8 m (fun v s => { s with ccr := logic8 (s.a &&& v) s.ccr }) s)

/-- BITB: the flags of B AND the operand (41_logic_compare.md R174). -/
def execBitb (m : Operand8) (s : State) : StepOutcome :=
  complete (next (.bitb m) s) (withOperand8 m (fun v s => { s with ccr := logic8 (s.b &&& v) s.ccr }) s)

/-- CBA: the flags of A minus B (41_logic_compare.md R175). -/
def execCba (s : State) : StepOutcome :=
  complete (next .cba s) (.ok { s with ccr := (sub8 s.a s.b false s.ccr).2 })

/-- CLR: clear the memory byte, which is read and then written (41_logic_compare.md R176). -/
def execClr (ea : EaExt) (s : State) : StepOutcome :=
  complete (next (.clr ea) s) (modifyByte (addressExt ea s) (fun _ f => clr8 f) s)

/-- CLRA: clear A (41_logic_compare.md R177). -/
def execClra (s : State) : StepOutcome :=
  complete (next .clra s) (.ok (s.putA (clr8 s.ccr)))

/-- CLRB: clear B (41_logic_compare.md R178). -/
def execClrb (s : State) : StepOutcome :=
  complete (next .clrb s) (.ok (s.putB (clr8 s.ccr)))

/-- CMPA: the flags of A minus the operand (41_logic_compare.md R179). -/
def execCmpa (m : Operand8) (s : State) : StepOutcome :=
  complete (next (.cmpa m) s) (withOperand8 m (fun v s => { s with ccr := (sub8 s.a v false s.ccr).2 }) s)

/-- CMPB: the flags of B minus the operand (41_logic_compare.md R180). -/
def execCmpb (m : Operand8) (s : State) : StepOutcome :=
  complete (next (.cmpb m) s) (withOperand8 m (fun v s => { s with ccr := (sub8 s.b v false s.ccr).2 }) s)

/-- COM: ones' complement of the memory byte (41_logic_compare.md R181). -/
def execCom (ea : EaExt) (s : State) : StepOutcome :=
  complete (next (.com ea) s) (modifyByte (addressExt ea s) com8 s)

/-- COMA: ones' complement of A (41_logic_compare.md R182). -/
def execComa (s : State) : StepOutcome :=
  complete (next .coma s) (.ok (s.putA (com8 s.a s.ccr)))

/-- COMB: ones' complement of B (41_logic_compare.md R183). -/
def execComb (s : State) : StepOutcome :=
  complete (next .comb s) (.ok (s.putB (com8 s.b s.ccr)))

/-- CPD: the flags of D minus the operand (41_logic_compare.md R184). -/
def execCpd (m : Operand16) (s : State) : StepOutcome :=
  complete (next (.cpd m) s) (withOperand16 m (fun v s => { s with ccr := (sub16 s.d v s.ccr).2 }) s)

/-- CPX: the flags of IX minus the operand (41_logic_compare.md R185). -/
def execCpx (m : Operand16) (s : State) : StepOutcome :=
  complete (next (.cpx m) s) (withOperand16 m (fun v s => { s with ccr := (sub16 s.ix v s.ccr).2 }) s)

/-- CPY: the flags of IY minus the operand (41_logic_compare.md R186). -/
def execCpy (m : Operand16) (s : State) : StepOutcome :=
  complete (next (.cpy m) s) (withOperand16 m (fun v s => { s with ccr := (sub16 s.iy v s.ccr).2 }) s)

/-- EORA: A exclusive OR the operand (41_logic_compare.md R187). -/
def execEora (m : Operand8) (s : State) : StepOutcome :=
  complete (next (.eora m) s) (withOperand8 m (fun v s => s.putA ((s.a ^^^ v, logic8 (s.a ^^^ v) s.ccr))) s)

/-- EORB: B exclusive OR the operand (41_logic_compare.md R188). -/
def execEorb (m : Operand8) (s : State) : StepOutcome :=
  complete (next (.eorb m) s) (withOperand8 m (fun v s => s.putB ((s.b ^^^ v, logic8 (s.b ^^^ v) s.ccr))) s)

/-- ORAA: A inclusive OR the operand (41_logic_compare.md R189). -/
def execOraa (m : Operand8) (s : State) : StepOutcome :=
  complete (next (.oraa m) s) (withOperand8 m (fun v s => s.putA ((s.a ||| v, logic8 (s.a ||| v) s.ccr))) s)

/-- ORAB: B inclusive OR the operand (41_logic_compare.md R190). -/
def execOrab (m : Operand8) (s : State) : StepOutcome :=
  complete (next (.orab m) s) (withOperand8 m (fun v s => s.putB ((s.b ||| v, logic8 (s.b ||| v) s.ccr))) s)

/-- TST: the flags of the memory byte, which is read and not written (41_logic_compare.md R191). -/
def execTst (ea : EaExt) (s : State) : StepOutcome :=
  complete (next (.tst ea) s) do
    let (v, s1) ← readByte (addressExt ea s) s
    return { s1 with ccr := tst8 v s.ccr }

/-- TSTA: the flags of A (41_logic_compare.md R192). -/
def execTsta (s : State) : StepOutcome :=
  complete (next .tsta s) (.ok { s with ccr := tst8 s.a s.ccr })

/-- TSTB: the flags of B (41_logic_compare.md R193). -/
def execTstb (s : State) : StepOutcome :=
  complete (next .tstb s) (.ok { s with ccr := tst8 s.b s.ccr })

end Sys2Proof.Machine
end

