-- ==== Sys2Proof/Machine/Shift.lean ====
section
/-!
DEFINITION. Shifts and rotates (spec/42_shift_rotate.md).
-/

namespace Sys2Proof.Machine

/-- ASL: shift left the memory byte (42_shift_rotate.md R201). -/
def execAsl (ea : EaExt) (s : State) : StepOutcome :=
  complete (next (.asl ea) s) (modifyByte (addressExt ea s) asl8 s)

/-- ASLA: shift left A (42_shift_rotate.md R202). -/
def execAsla (s : State) : StepOutcome :=
  complete (next .asla s) (.ok (s.putA (asl8 s.a s.ccr)))

/-- ASLB: shift left B (42_shift_rotate.md R203). -/
def execAslb (s : State) : StepOutcome :=
  complete (next .aslb s) (.ok (s.putB (asl8 s.b s.ccr)))

/-- ASLD: shift left D (42_shift_rotate.md R204). -/
def execAsld (s : State) : StepOutcome :=
  complete (next .asld s) (.ok (s.putD (asl16 s.d s.ccr)))

/-- ASR: arithmetic shift right of the memory byte (42_shift_rotate.md R205). -/
def execAsr (ea : EaExt) (s : State) : StepOutcome :=
  complete (next (.asr ea) s) (modifyByte (addressExt ea s) asr8 s)

/-- ASRA: arithmetic shift right of A (42_shift_rotate.md R206). -/
def execAsra (s : State) : StepOutcome :=
  complete (next .asra s) (.ok (s.putA (asr8 s.a s.ccr)))

/-- ASRB: arithmetic shift right of B (42_shift_rotate.md R207). -/
def execAsrb (s : State) : StepOutcome :=
  complete (next .asrb s) (.ok (s.putB (asr8 s.b s.ccr)))

/-- LSL: shift left the memory byte (42_shift_rotate.md R208). -/
def execLsl (ea : EaExt) (s : State) : StepOutcome :=
  complete (next (.lsl ea) s) (modifyByte (addressExt ea s) asl8 s)

/-- LSLA: shift left A (42_shift_rotate.md R209). -/
def execLsla (s : State) : StepOutcome :=
  complete (next .lsla s) (.ok (s.putA (asl8 s.a s.ccr)))

/-- LSLB: shift left B (42_shift_rotate.md R210). -/
def execLslb (s : State) : StepOutcome :=
  complete (next .lslb s) (.ok (s.putB (asl8 s.b s.ccr)))

/-- LSLD: shift left D (42_shift_rotate.md R211). -/
def execLsld (s : State) : StepOutcome :=
  complete (next .lsld s) (.ok (s.putD (asl16 s.d s.ccr)))

/-- LSR: logical shift right of the memory byte (42_shift_rotate.md R212). -/
def execLsr (ea : EaExt) (s : State) : StepOutcome :=
  complete (next (.lsr ea) s) (modifyByte (addressExt ea s) lsr8 s)

/-- LSRA: logical shift right of A (42_shift_rotate.md R213). -/
def execLsra (s : State) : StepOutcome :=
  complete (next .lsra s) (.ok (s.putA (lsr8 s.a s.ccr)))

/-- LSRB: logical shift right of B (42_shift_rotate.md R214). -/
def execLsrb (s : State) : StepOutcome :=
  complete (next .lsrb s) (.ok (s.putB (lsr8 s.b s.ccr)))

/-- LSRD: logical shift right of D (42_shift_rotate.md R215). -/
def execLsrd (s : State) : StepOutcome :=
  complete (next .lsrd s) (.ok (s.putD (lsr16 s.d s.ccr)))

/-- ROL: rotate left through C of the memory byte (42_shift_rotate.md R216). -/
def execRol (ea : EaExt) (s : State) : StepOutcome :=
  complete (next (.rol ea) s) (modifyByte (addressExt ea s) rol8 s)

/-- ROLA: rotate left through C of A (42_shift_rotate.md R217). -/
def execRola (s : State) : StepOutcome :=
  complete (next .rola s) (.ok (s.putA (rol8 s.a s.ccr)))

/-- ROLB: rotate left through C of B (42_shift_rotate.md R218). -/
def execRolb (s : State) : StepOutcome :=
  complete (next .rolb s) (.ok (s.putB (rol8 s.b s.ccr)))

/-- ROR: rotate right through C of the memory byte (42_shift_rotate.md R219). -/
def execRor (ea : EaExt) (s : State) : StepOutcome :=
  complete (next (.ror ea) s) (modifyByte (addressExt ea s) ror8 s)

/-- RORA: rotate right through C of A (42_shift_rotate.md R220). -/
def execRora (s : State) : StepOutcome :=
  complete (next .rora s) (.ok (s.putA (ror8 s.a s.ccr)))

/-- RORB: rotate right through C of B (42_shift_rotate.md R221). -/
def execRorb (s : State) : StepOutcome :=
  complete (next .rorb s) (.ok (s.putB (ror8 s.b s.ccr)))

end Sys2Proof.Machine
end

