-- ==== Sys2Proof/Machine/System.lean ====
section
/-!
DEFINITION. The system instructions (spec/46_system.md).
-/

namespace Sys2Proof.Machine

/-- NOP: nothing but the advance of PC (46_system.md R311). -/
def execNop (s : State) : StepOutcome :=
  complete (next .nop s) (.ok s)

/-- RTI: return from a trap (46_system.md R312). -/
def execRti (s : State) : StepOutcome :=
  finish (returnFromTrap s)

/-- STOP: nothing but the advance of PC where S = 1; else enter STOP (46_system.md R313). -/
def execStop (s : State) : StepOutcome :=
  if s.ccr.s then complete (next .stop s) (.ok s)
  else complete (next .stop s) (.ok { s with runState := .stop })

/-- SWI: the trap SWI, with NEXT as the return address (46_system.md R314). -/
def execSwi (s : State) : StepOutcome :=
  finish (enter .swi (next .swi s) s)

/-- TEST: outside the test modes, an illegal opcode (46_system.md R315). -/
def execTest (s : State) : StepOutcome :=
  illegalOpcode s

/-- WAI: stack the nine bytes, then enter WAIT (46_system.md R316). -/
def execWai (s : State) : StepOutcome :=
  complete (next .wai s) do
    let s1 ← pushFrame (next .wai s) s
    return { s1 with runState := .wait }

end Sys2Proof.Machine
end

