-- ==== Sys2Proof/Machine/Dispatch.lean ====
section
/-!
DEFINITION. The meaning of each instruction, one arm per constructor.
-/

namespace Sys2Proof.Machine

def exec (i : Instr) (s : State) : Host.Outcome State Fault Refusal :=
  match i with
  | .aba => Sys2Proof.Machine.execAba s
  | .abx => Sys2Proof.Machine.execAbx s
  | .aby => Sys2Proof.Machine.execAby s
  | .adca m => Sys2Proof.Machine.execAdca m s
  | .adcb m => Sys2Proof.Machine.execAdcb m s
  | .adda m => Sys2Proof.Machine.execAdda m s
  | .addb m => Sys2Proof.Machine.execAddb m s
  | .addd m => Sys2Proof.Machine.execAddd m s
  | .anda m => Sys2Proof.Machine.execAnda m s
  | .andb m => Sys2Proof.Machine.execAndb m s
  | .asl ea => Sys2Proof.Machine.execAsl ea s
  | .asla => Sys2Proof.Machine.execAsla s
  | .aslb => Sys2Proof.Machine.execAslb s
  | .asld => Sys2Proof.Machine.execAsld s
  | .asr ea => Sys2Proof.Machine.execAsr ea s
  | .asra => Sys2Proof.Machine.execAsra s
  | .asrb => Sys2Proof.Machine.execAsrb s
  | .bcc rr => Sys2Proof.Machine.execBcc rr s
  | .bclr ea mm => Sys2Proof.Machine.execBclr ea mm s
  | .bcs rr => Sys2Proof.Machine.execBcs rr s
  | .beq rr => Sys2Proof.Machine.execBeq rr s
  | .bge rr => Sys2Proof.Machine.execBge rr s
  | .bgt rr => Sys2Proof.Machine.execBgt rr s
  | .bhi rr => Sys2Proof.Machine.execBhi rr s
  | .bhs rr => Sys2Proof.Machine.execBhs rr s
  | .bita m => Sys2Proof.Machine.execBita m s
  | .bitb m => Sys2Proof.Machine.execBitb m s
  | .ble rr => Sys2Proof.Machine.execBle rr s
  | .blo rr => Sys2Proof.Machine.execBlo rr s
  | .bls rr => Sys2Proof.Machine.execBls rr s
  | .blt rr => Sys2Proof.Machine.execBlt rr s
  | .bmi rr => Sys2Proof.Machine.execBmi rr s
  | .bne rr => Sys2Proof.Machine.execBne rr s
  | .bpl rr => Sys2Proof.Machine.execBpl rr s
  | .bra rr => Sys2Proof.Machine.execBra rr s
  | .brclr ea mm rr => Sys2Proof.Machine.execBrclr ea mm rr s
  | .brn rr => Sys2Proof.Machine.execBrn rr s
  | .brset ea mm rr => Sys2Proof.Machine.execBrset ea mm rr s
  | .bset ea mm => Sys2Proof.Machine.execBset ea mm s
  | .bsr rr => Sys2Proof.Machine.execBsr rr s
  | .bvc rr => Sys2Proof.Machine.execBvc rr s
  | .bvs rr => Sys2Proof.Machine.execBvs rr s
  | .cba => Sys2Proof.Machine.execCba s
  | .clc => Sys2Proof.Machine.execClc s
  | .cli => Sys2Proof.Machine.execCli s
  | .clr ea => Sys2Proof.Machine.execClr ea s
  | .clra => Sys2Proof.Machine.execClra s
  | .clrb => Sys2Proof.Machine.execClrb s
  | .clv => Sys2Proof.Machine.execClv s
  | .cmpa m => Sys2Proof.Machine.execCmpa m s
  | .cmpb m => Sys2Proof.Machine.execCmpb m s
  | .com ea => Sys2Proof.Machine.execCom ea s
  | .coma => Sys2Proof.Machine.execComa s
  | .comb => Sys2Proof.Machine.execComb s
  | .cpd m => Sys2Proof.Machine.execCpd m s
  | .cpx m => Sys2Proof.Machine.execCpx m s
  | .cpy m => Sys2Proof.Machine.execCpy m s
  | .daa => Sys2Proof.Machine.execDaa s
  | .dec ea => Sys2Proof.Machine.execDec ea s
  | .deca => Sys2Proof.Machine.execDeca s
  | .decb => Sys2Proof.Machine.execDecb s
  | .des => Sys2Proof.Machine.execDes s
  | .dex => Sys2Proof.Machine.execDex s
  | .dey => Sys2Proof.Machine.execDey s
  | .eora m => Sys2Proof.Machine.execEora m s
  | .eorb m => Sys2Proof.Machine.execEorb m s
  | .fdiv => Sys2Proof.Machine.execFdiv s
  | .idiv => Sys2Proof.Machine.execIdiv s
  | .inc ea => Sys2Proof.Machine.execInc ea s
  | .inca => Sys2Proof.Machine.execInca s
  | .incb => Sys2Proof.Machine.execIncb s
  | .ins => Sys2Proof.Machine.execIns s
  | .inx => Sys2Proof.Machine.execInx s
  | .iny => Sys2Proof.Machine.execIny s
  | .jmp ea => Sys2Proof.Machine.execJmp ea s
  | .jsr ea => Sys2Proof.Machine.execJsr ea s
  | .ldaa m => Sys2Proof.Machine.execLdaa m s
  | .ldab m => Sys2Proof.Machine.execLdab m s
  | .ldd m => Sys2Proof.Machine.execLdd m s
  | .lds m => Sys2Proof.Machine.execLds m s
  | .ldx m => Sys2Proof.Machine.execLdx m s
  | .ldy m => Sys2Proof.Machine.execLdy m s
  | .lsl ea => Sys2Proof.Machine.execLsl ea s
  | .lsla => Sys2Proof.Machine.execLsla s
  | .lslb => Sys2Proof.Machine.execLslb s
  | .lsld => Sys2Proof.Machine.execLsld s
  | .lsr ea => Sys2Proof.Machine.execLsr ea s
  | .lsra => Sys2Proof.Machine.execLsra s
  | .lsrb => Sys2Proof.Machine.execLsrb s
  | .lsrd => Sys2Proof.Machine.execLsrd s
  | .mul => Sys2Proof.Machine.execMul s
  | .neg ea => Sys2Proof.Machine.execNeg ea s
  | .nega => Sys2Proof.Machine.execNega s
  | .negb => Sys2Proof.Machine.execNegb s
  | .nop => Sys2Proof.Machine.execNop s
  | .oraa m => Sys2Proof.Machine.execOraa m s
  | .orab m => Sys2Proof.Machine.execOrab m s
  | .psha => Sys2Proof.Machine.execPsha s
  | .pshb => Sys2Proof.Machine.execPshb s
  | .pshx => Sys2Proof.Machine.execPshx s
  | .pshy => Sys2Proof.Machine.execPshy s
  | .pula => Sys2Proof.Machine.execPula s
  | .pulb => Sys2Proof.Machine.execPulb s
  | .pulx => Sys2Proof.Machine.execPulx s
  | .puly => Sys2Proof.Machine.execPuly s
  | .rol ea => Sys2Proof.Machine.execRol ea s
  | .rola => Sys2Proof.Machine.execRola s
  | .rolb => Sys2Proof.Machine.execRolb s
  | .ror ea => Sys2Proof.Machine.execRor ea s
  | .rora => Sys2Proof.Machine.execRora s
  | .rorb => Sys2Proof.Machine.execRorb s
  | .rti => Sys2Proof.Machine.execRti s
  | .rts => Sys2Proof.Machine.execRts s
  | .sba => Sys2Proof.Machine.execSba s
  | .sbca m => Sys2Proof.Machine.execSbca m s
  | .sbcb m => Sys2Proof.Machine.execSbcb m s
  | .sec => Sys2Proof.Machine.execSec s
  | .sei => Sys2Proof.Machine.execSei s
  | .sev => Sys2Proof.Machine.execSev s
  | .staa ea => Sys2Proof.Machine.execStaa ea s
  | .stab ea => Sys2Proof.Machine.execStab ea s
  | .std ea => Sys2Proof.Machine.execStd ea s
  | .stop => Sys2Proof.Machine.execStop s
  | .sts ea => Sys2Proof.Machine.execSts ea s
  | .stx ea => Sys2Proof.Machine.execStx ea s
  | .sty ea => Sys2Proof.Machine.execSty ea s
  | .suba m => Sys2Proof.Machine.execSuba m s
  | .subb m => Sys2Proof.Machine.execSubb m s
  | .subd m => Sys2Proof.Machine.execSubd m s
  | .swi => Sys2Proof.Machine.execSwi s
  | .tab => Sys2Proof.Machine.execTab s
  | .tap => Sys2Proof.Machine.execTap s
  | .tba => Sys2Proof.Machine.execTba s
  | .test => Sys2Proof.Machine.execTest s
  | .tpa => Sys2Proof.Machine.execTpa s
  | .tst ea => Sys2Proof.Machine.execTst ea s
  | .tsta => Sys2Proof.Machine.execTsta s
  | .tstb => Sys2Proof.Machine.execTstb s
  | .tsx => Sys2Proof.Machine.execTsx s
  | .tsy => Sys2Proof.Machine.execTsy s
  | .txs => Sys2Proof.Machine.execTxs s
  | .tys => Sys2Proof.Machine.execTys s
  | .wai => Sys2Proof.Machine.execWai s
  | .xgdx => Sys2Proof.Machine.execXgdx s
  | .xgdy => Sys2Proof.Machine.execXgdy s

end Sys2Proof.Machine
end

