-- ==== Sys2Proof/Machine/Cycle.lean ====
section
/-!
DEFINITION. One step of the CPU: recognition of reset and interrupts, fetch, decode and execution
(60_exceptions.md R403 to R406, R420 to R422; 20_memory.md R76; 30_encoding.md R94).
-/

namespace Sys2Proof.Machine

/-! ### Fetch -/

/-- Instruction bytes can be fetched from RAM and ROM only (20_memory.md R76, D9). -/
def fetchable (cfg : Config) (a : Word) : Bool :=
  match kindOf cfg a with
  | .ram => true
  | .rom => true
  | .device => false
  | .none => false

/-- The bytes at an address and after it, at most `n`, as far as they can be fetched (20_memory.md R61, R76). -/
def fetchBytes (cfg : Config) (mem : Memory) : Nat → Word → List Byte
  | 0, _ => []
  | n + 1, a => if fetchable cfg a then mem.get a.toNat :: fetchBytes cfg mem n (a + 1) else []

/-- The bytes the instruction at PC can have: none is longer than five (30_encoding.md R90). -/
def fetchWindow (s : State) : List Byte := fetchBytes s.cfg s.mem 5 s.pc

/-- Why the byte the decoder needs next cannot be fetched (20_memory.md R76, D9, 93 U9; notes/assumptions/13.md). -/
def fetchRefusal (s : State) : Refusal :=
  match kindOf s.cfg (s.pc + BitVec.ofNat 16 (fetchWindow s).length) with
  | .device => .fetchFromDevice
  | _ => .fetchFromNone

/-- Fetch, decode and execute the instruction at PC: every byte of it is fetched before it makes a data access
(20_memory.md R76, 30_encoding.md R94, R98). -/
def execute (s : State) : StepOutcome :=
  match decode (fetchWindow s) with
  | .instr i _ => exec i s
  | .illegal => illegalOpcode s
  | .truncated => .refused (fetchRefusal s)

/-! ### Recognition -/

/-- The first of IRQ, SPI, SCI that is requested (60_exceptions.md R403, R405). -/
def maskableRequest (s : State) : Option TrapName :=
  if s.pins.irq then some .irq
  else if s.spi.request then some .spi
  else if s.sci.request then some .sci
  else none

/-- The interrupt taken at the boundary before the next instruction, if one is (60_exceptions.md R403, R406). -/
def recognised (s : State) : Option TrapName :=
  if s.pins.xirq && !s.ccr.x then some .xirq
  else if !s.ccr.i && !s.iDelay then maskableRequest s
  else none

/-- Clear I_DELAY after an instruction that began with it set (60_exceptions.md R406). -/
def settle (delayed : Bool) (o : StepOutcome) : StepOutcome :=
  match o with
  | .next s => .next { s with iDelay := !delayed && s.iDelay }
  | .fault r => .fault r
  | .refused r => .refused r

/-! ### The three run states -/

/-- The CPU step while RUN_STATE = RUN (60_exceptions.md R406). -/
def runStep (s : State) : StepOutcome :=
  if s.pins.reset then finish (resetMachine s)
  else
    match recognised s with
    | some name => finish (enter name s.pc s)
    | none => settle s.iDelay (execute s)

/-- The interrupt that ends a wait, if one does: I_DELAY is not looked at (60_exceptions.md R421). -/
def awakens (s : State) : Option TrapName :=
  if s.pins.xirq && !s.ccr.x then some .xirq
  else if !s.ccr.i then maskableRequest s
  else none

/-- The CPU step while RUN_STATE = WAIT (60_exceptions.md R421). -/
def waitStep (s : State) : StepOutcome :=
  if s.pins.reset then finish (resetMachine s)
  else
    match awakens s with
    | some name => finish (resume name s)
    | none => .next s

/-- The CPU step while RUN_STATE = STOP (60_exceptions.md R422). -/
def stopStep (s : State) : StepOutcome :=
  if s.pins.reset then finish (resetMachine s)
  else if s.pins.xirq && !s.ccr.x then finish (enter .xirq s.pc { s with runState := .run })
  else if s.pins.xirq then .next { s with runState := .run }
  else if s.pins.irq && !s.ccr.i then finish (enter .irq s.pc { s with runState := .run })
  else .next s

/-- One step of the CPU (60_exceptions.md R406, R421, R422). -/
def cpuStep (s : State) : StepOutcome :=
  match s.runState with
  | .run => runStep s
  | .wait => waitStep s
  | .stop => stopStep s

/-! ### Placing an instruction -/

/-- Store bytes one after the other from an address, in memory only. -/
def placeBytes : List Byte → Word → Memory → Memory
  | [], _, m => m
  | v :: rest, a, m => placeBytes rest (a + 1) (m.set a.toNat v)

/-- The addresses of `n` bytes from an address on, added to a set. -/
def placeAddresses : Nat → Word → Addresses → Addresses
  | 0, _, w => w
  | n + 1, a, w => placeAddresses n (a + 1) (w.add a.toNat)

/-- The state whose next step fetches and runs the instruction of a table word: its bytes and zeros up to the longest
instruction at PC, which then are initialised, the CPU running and about to move, and no reset or interrupt recognised
first (notes/assumptions/7.md). -/
def placeInstruction (nbits w : Nat) (s : State) : State :=
  { s with
    mem := placeBytes ((tableBytes (nbits / 8) w ++ List.replicate 5 0).take 5) s.pc s.mem
    written := placeAddresses 5 s.pc s.written
    runState := .run
    turns := []
    pins := { s.pins with reset := false, xirq := s.pins.xirq && s.ccr.x }
    iDelay := s.iDelay || (!s.ccr.i && (maskableRequest s).isSome) }

end Sys2Proof.Machine
end

