-- ==== Sys2Proof/Machine/Step.lean ====
section
/-!
DEFINITION. One step of the machine: the agent whose turn it is moves.
-/

namespace Sys2Proof.Machine

/-- One step: the first turn of `turns` is taken, and the CPU moves when there is none
(00_scope.md R15, 60_exceptions.md R429; notes/assumptions/8.md). -/
def step (s : State) : Host.Outcome State Fault Refusal :=
  match s.turns with
  | [] => cpuStep s
  | .cpu :: rest => cpuStep { s with turns := rest }
  | t :: rest => .next (agentStep t { s with turns := rest })

/-- `s` with the instruction of a table word where the next step fetches it (notes/assumptions/7.md). -/
def State.withFetchWord (s : State) (nbits w : Nat) : State := placeInstruction nbits w s

end Sys2Proof.Machine
end

