-- ==== Sys2Proof/Safety.lean ====
section
/-!
DEFINITION. The terms the claims use: what counts as a safe run, the invariant of the machine, what an instruction may
read and write, and the flag rules in the family's boolean form.
-/

namespace Sys2Proof.Machine

/-! ### Runs -/

/-- The machine makes `n` steps from `s` without a fault or a refusal. -/
def RunsFor (n : Nat) (s : State) : Prop := ∃ t, Host.Core.run core n s = .next t

/-- The CPU makes no further progress by itself: a legal final state (60_exceptions.md R421, R422, 93 U21). -/
def Stuck (s : State) : Prop := cpuStep s = .next s

/-! ### The invariant -/

/-- What holds of every state the machine can reach: the memory and the record of its initialised addresses are in
canonical form, every byte that differs from an unwritten one is recorded or in ROM (R418), every bit drawn as 0 reads 0
(10_state.md R36, D27), TCLR and RCKB are 0 (93 U17), and a latch is set only while its flag is 1
(60_exceptions.md R429). -/
structure State.Inv (s : State) : Prop where
  mem : s.mem.wf = true
  written : s.written.wf = true
  listed : ∀ n, s.mem.get n ≠ Memory.blank → n ∈ s.written ∨ kindOf s.cfg (BitVec.ofNat 16 n) = .rom
  option : s.adc.option &&& 0x04 = 0
  adctl : s.adc.adctl &&& 0x40 = 0
  baud : s.sci.baud &&& 0xC8 = 0
  sccr1 : s.sci.sccr1 &&& 0x27 = 0
  scsr : s.sci.scsr &&& 0x01 = 0
  sciArmed : s.sci.armed &&& ~~~s.sci.scsr = 0
  spsr : s.spi.spsr &&& 0x2F = 0
  spiArmed : s.spi.armed &&& ~~~s.spi.spsr = 0
  ddr : s.portD.ddr &&& 0xC0 = 0

/-! ### Accesses -/

/-- A read of the address has a meaning (20_memory.md R70, 93 U10). -/
def canRead (cfg : Config) (a : Word) : Bool := (readRefusal cfg a).isNone

/-- A write of the byte to the address has a meaning (20_memory.md R70, 93 U10, U17). -/
def canWrite (cfg : Config) (a : Word) (v : Byte) : Bool := (writeRefusal cfg a v).isNone

/-- A 16-bit read at the address has a meaning. -/
def canReadWord (cfg : Config) (a : Word) : Bool := canRead cfg a && canRead cfg (a + 1)

/-- A 16-bit write at the address has a meaning. -/
def canWriteWord (cfg : Config) (a v : Word) : Bool :=
  canWrite cfg a (highByte v) && canWrite cfg (a + 1) (lowByte v)

/-- The value of a 16-bit read: the high byte is read first (20_memory.md R64). -/
def peekWord (a : Word) (s : State) : Word := joinBytes (peek a s) (peek (a + 1) (touch a s))

/-- The state after a 16-bit read (20_memory.md R64). -/
def touchWord (a : Word) (s : State) : State := touch (a + 1) (touch a s)

/-- The state after a 16-bit write: the high byte is written first (20_memory.md R64). -/
def pokeWord (a v : Word) (s : State) : State := poke (a + 1) (lowByte v) (poke a (highByte v) s)

/-! ### Operands -/

/-- The address an 8-bit operand is read from, none for an immediate (30_encoding.md R100, R101). -/
def operandAddress8 (m : Operand8) (s : State) : Option Word :=
  match m with
  | .imm _ => none
  | .dir dd => some (directAddress dd)
  | .ext hhll => some hhll
  | .indX ff => some (indexedAddress s.ix ff)
  | .indY ff => some (indexedAddress s.iy ff)

/-- The address a 16-bit operand is read from, none for an immediate (30_encoding.md R100, R101). -/
def operandAddress16 (m : Operand16) (s : State) : Option Word :=
  match m with
  | .imm _ => none
  | .dir dd => some (directAddress dd)
  | .ext hhll => some hhll
  | .indX ff => some (indexedAddress s.ix ff)
  | .indY ff => some (indexedAddress s.iy ff)

/-- The 8-bit operand is an immediate or can be read. -/
def readable8 (m : Operand8) (s : State) : Bool := (operandAddress8 m s).all (canRead s.cfg)

/-- The 16-bit operand is an immediate or can be read. -/
def readable16 (m : Operand16) (s : State) : Bool := (operandAddress16 m s).all (canReadWord s.cfg)

/-- `M8` (30_encoding.md R101). -/
def value8 (m : Operand8) (s : State) : Byte :=
  match m, operandAddress8 m s with
  | .imm ii, _ => ii
  | _, some a => peek a s
  | _, none => 0

/-- The state after `M8` is delivered (30_encoding.md R101). -/
def after8 (m : Operand8) (s : State) : State :=
  match operandAddress8 m s with
  | some a => touch a s
  | none => s

/-- `M16` (30_encoding.md R101). -/
def value16 (m : Operand16) (s : State) : Word :=
  match m, operandAddress16 m s with
  | .imm jjkk, _ => jjkk
  | _, some a => peekWord a s
  | _, none => 0

/-- The state after `M16` is delivered (30_encoding.md R101). -/
def after16 (m : Operand16) (s : State) : State :=
  match operandAddress16 m s with
  | some a => touchWord a s
  | none => s

/-! ### The stack -/

/-- The bytes can be pushed one after the other from this SP. -/
def canPush (cfg : Config) : List Byte → Word → Bool
  | [], _ => true
  | v :: rest, sp => canWrite cfg sp v && canPush cfg rest (sp - 1)

/-- The state after pushing the bytes one after the other (10_state.md R25). -/
def pushed : List Byte → State → State
  | [], s => s
  | v :: rest, s => pushed rest { poke s.sp v s with sp := s.sp - 1 }

/-- `n` bytes can be pulled one after the other from this SP. -/
def canPull (cfg : Config) : Nat → Word → Bool
  | 0, _ => true
  | n + 1, sp => canRead cfg (sp + 1) && canPull cfg n (sp + 1)

/-- The state after pulling `n` bytes (10_state.md R25). -/
def pulled : Nat → State → State
  | 0, s => s
  | n + 1, s => pulled n (touch (s.sp + 1) { s with sp := s.sp + 1 })

/-- The byte pulled after `n` others (10_state.md R25). -/
def pulledByte (n : Nat) (s : State) : Byte := peek ((pulled n s).sp + 1) { pulled n s with sp := (pulled n s).sp + 1 }

/-- The bytes of a 16-bit push, in the order they are pushed (10_state.md R25). -/
def wordBytes (v : Word) : List Byte := [lowByte v, highByte v]

/-- The nine bytes of the frame in the order they are pushed (60_exceptions.md R410). -/
def frameBytes (ret : Word) (s : State) : List Byte :=
  wordBytes ret ++ wordBytes s.iy ++ wordBytes s.ix ++ [s.a, s.b, s.ccr.toByte]

/-- The state after trap entry (60_exceptions.md R410). -/
def entered (name : TrapName) (ret : Word) (s : State) : State :=
  let framed := { pushed (frameBytes ret s) s with ccr := maskFor name s.ccr }
  let vector := vectorOf s.cfg name
  { touchWord vector framed with pc := peekWord vector framed, iDelay := false }

/-- Trap entry has a meaning: its nine pushes and its vector fetch do. -/
def canEnter (name : TrapName) (ret : Word) (s : State) : Bool :=
  canPush s.cfg (frameBytes ret s) s.sp && canReadWord s.cfg (vectorOf s.cfg name)

/-- The state after the end of a wait (60_exceptions.md R421). -/
def resumed (name : TrapName) (s : State) : State :=
  let masked := { s with ccr := maskFor name s.ccr }
  let vector := vectorOf s.cfg name
  { touchWord vector masked with pc := peekWord vector masked, runState := .run }

/-- The state after the return from a trap (60_exceptions.md R412). -/
def returned (s : State) : State :=
  { pulled 9 s with
    ccr := s.ccr.load (pulledByte 0 s)
    b := pulledByte 1 s
    a := pulledByte 2 s
    ix := joinBytes (pulledByte 3 s) (pulledByte 4 s)
    iy := joinBytes (pulledByte 5 s) (pulledByte 6 s)
    pc := joinBytes (pulledByte 7 s) (pulledByte 8 s) }

/-- The bytes at the `n` addresses from `a` on are RAM. -/
def ramFrom (cfg : Config) : Nat → Word → Bool
  | 0, _ => true
  | n + 1, a => decide (kindOf cfg a = .ram) && ramFrom cfg n (a + 1)

/-- Both bytes of a 16-bit read are in memory, so that the read has no side effect. -/
def wordInMemory (cfg : Config) (a : Word) : Bool :=
  decide (kindOf cfg a = .ram ∨ kindOf cfg a = .rom) && decide (kindOf cfg (a + 1) = .ram ∨ kindOf cfg (a + 1) = .rom)

/-- The word in memory at an address (20_memory.md R60). -/
def wordAt (m : Memory) (a : Word) : Word := joinBytes (m.get a.toNat) (m.get (a + 1).toNat)

/-! ### The flag rules in boolean form -/

/-- H, N, Z, V and C of an 8-bit addition of `m` to `a` with the result `r`, in the family's boolean form
(10_state.md R30). -/
def addFlags8 (a m r : Byte) (f : Ccr) : Ccr :=
  { f with
    h := (a.getLsbD 3 && m.getLsbD 3) || (m.getLsbD 3 && !r.getLsbD 3) || (!r.getLsbD 3 && a.getLsbD 3)
    n := r.getLsbD 7
    z := r == 0
    v := (a.getLsbD 7 && m.getLsbD 7 && !r.getLsbD 7) || (!a.getLsbD 7 && !m.getLsbD 7 && r.getLsbD 7)
    c := (a.getLsbD 7 && m.getLsbD 7) || (m.getLsbD 7 && !r.getLsbD 7) || (!r.getLsbD 7 && a.getLsbD 7) }

/-- N, Z, V and C of an 8-bit subtraction of `m` from `a` with the result `r`, in the family's boolean form
(10_state.md R31). -/
def subFlags8 (a m r : Byte) (f : Ccr) : Ccr :=
  { f with
    n := r.getLsbD 7
    z := r == 0
    v := (a.getLsbD 7 && !m.getLsbD 7 && !r.getLsbD 7) || (!a.getLsbD 7 && m.getLsbD 7 && r.getLsbD 7)
    c := (!a.getLsbD 7 && m.getLsbD 7) || (m.getLsbD 7 && r.getLsbD 7) || (r.getLsbD 7 && !a.getLsbD 7) }

/-- N, Z, V and C of the 16-bit addition of `m` to `a`, as comparisons of the exact sum with the two ranges of 16 bits
(10_state.md R32). -/
def addFlags16 (a m : Word) (f : Ccr) : Ccr :=
  { f with
    n := (a + m).msb
    z := a + m == 0
    v := decide (a.toInt + m.toInt < -32768 ∨ 32767 < a.toInt + m.toInt)
    c := decide (65536 ≤ a.toNat + m.toNat) }

/-- N, Z, V and C of the 16-bit subtraction of `m` from `a`, as comparisons of the exact difference with the two ranges
of 16 bits (10_state.md R32). -/
def subFlags16 (a m : Word) (f : Ccr) : Ccr :=
  { f with
    n := (a - m).msb
    z := a == m
    v := decide (a.toInt - m.toInt < -32768 ∨ 32767 < a.toInt - m.toInt)
    c := decide (a.toNat < m.toNat) }

/-- N and Z of a byte, and V = 0. -/
def logicFlags8 (r : Byte) (f : Ccr) : Ccr := { f with n := r.msb, z := r == 0, v := false }

/-- N and Z of a word, and V = 0. -/
def logicFlags16 (r : Word) (f : Ccr) : Ccr := { f with n := r.msb, z := r == 0, v := false }

/-- N, Z, V and C after a shift whose result is `r` and whose bit shifted out is `out` (10_state.md R33). -/
def shiftFlags8 (r : Byte) (out : Bool) (f : Ccr) : Ccr := { f with n := r.msb, z := r == 0, v := r.msb != out, c := out }

/-- N, Z, V and C after a 16-bit shift (10_state.md R33). -/
def shiftFlags16 (r : Word) (out : Bool) (f : Ccr) : Ccr := { f with n := r.msb, z := r == 0, v := r.msb != out, c := out }

/-! ### Branches -/

/-- `(NEXT + sext_16(rr)) mod 2^16`, as a sum of integers (43_branch_jump.md R230). -/
def relativeTarget (next : Word) (rr : Byte) : Word := BitVec.ofInt 16 (next.toNat + rr.toInt)

/-- The state after a two-byte branch that is taken when the condition holds. -/
def branched (taken : Bool) (rr : Byte) (s : State) : State :=
  { s with pc := if taken then relativeTarget (s.pc + 2) rr else s.pc + 2 }

/-- The branches read the condition codes as the unsigned and signed order of two numbers: `below` and `less` say that
the first is lower, unsigned and signed, and `same` that they are equal (43_branch_jump.md R231). -/
def BranchesAgree (below same less : Bool) (s : State) : Prop :=
  ∀ rr, exec (.bhi rr) s = .next (branched (!below && !same) rr s)
    ∧ exec (.bhs rr) s = .next (branched (!below) rr s)
    ∧ exec (.bcc rr) s = .next (branched (!below) rr s)
    ∧ exec (.bls rr) s = .next (branched (below || same) rr s)
    ∧ exec (.blo rr) s = .next (branched below rr s)
    ∧ exec (.bcs rr) s = .next (branched below rr s)
    ∧ exec (.bgt rr) s = .next (branched (!less && !same) rr s)
    ∧ exec (.bge rr) s = .next (branched (!less) rr s)
    ∧ exec (.ble rr) s = .next (branched (less || same) rr s)
    ∧ exec (.blt rr) s = .next (branched less rr s)
    ∧ exec (.beq rr) s = .next (branched same rr s)
    ∧ exec (.bne rr) s = .next (branched (!same) rr s)

/-! ### Encodings -/

/-- The twenty byte values that page 1 leaves unassigned (30_encoding.md R98). -/
def unassigned1 : List Byte := [
  0x41, 0x42, 0x45, 0x4B, 0x4E, 0x51, 0x52, 0x55, 0x5B, 0x5E, 0x61, 0x62, 0x65, 0x6B, 0x71, 0x72, 0x75, 0x7B, 0x87,
  0xC7]

/-- The second bytes that have a meaning after the prebyte $18 (30_encoding.md R97). -/
def assigned18 : List Byte := [
  0x08, 0x09, 0x1C, 0x1D, 0x1E, 0x1F, 0x30, 0x35, 0x38, 0x3A, 0x3C, 0x60, 0x63, 0x64, 0x66, 0x67, 0x68, 0x69, 0x6A,
  0x6C, 0x6D, 0x6E, 0x6F, 0x8C, 0x8F, 0x9C, 0xA0, 0xA1, 0xA2, 0xA3, 0xA4, 0xA5, 0xA6, 0xA7, 0xA8, 0xA9, 0xAA, 0xAB,
  0xAC, 0xAD, 0xAE, 0xAF, 0xBC, 0xCE, 0xDE, 0xDF, 0xE0, 0xE1, 0xE2, 0xE3, 0xE4, 0xE5, 0xE6, 0xE7, 0xE8, 0xE9, 0xEA,
  0xEB, 0xEC, 0xED, 0xEE, 0xEF, 0xFE, 0xFF]

/-- The second bytes that have a meaning after the prebyte $1A (30_encoding.md R97). -/
def assigned1A : List Byte := [0x83, 0x93, 0xA3, 0xAC, 0xB3, 0xEE, 0xEF]

/-- The second bytes that have a meaning after the prebyte $CD (30_encoding.md R97). -/
def assignedCD : List Byte := [0xA3, 0xAC, 0xEE, 0xEF]

/-! ### Turns -/

/-- It is the CPU's turn, it runs, and reset is not asserted (60_exceptions.md R406). -/
structure State.Running (s : State) : Prop where
  turns : s.turns = []
  run : s.runState = .run
  reset : s.pins.reset = false

/-! ### Carries and decimal numbers -/

/-- The flag as a byte, 0 or 1. -/
def bitByte (c : Bool) : Byte := if c then 1 else 0

/-- The byte is two decimal digits (40_arithmetic.md R139). -/
def isDecimal (v : Byte) : Bool := decide (v.toNat / 16 ≤ 9 ∧ v.toNat % 16 ≤ 9)

/-- The number two decimal digits stand for. -/
def decimalValue (v : Byte) : Nat := v.toNat / 16 * 10 + v.toNat % 16

/-! ### What an instruction may write -/

/-- What an instruction does to one flag, in the notation of 10_state.md R34. -/
inductive FlagEffect where
  /-- `-`: not written. -/
  | kept
  /-- `^`: written from the result. -/
  | written
  /-- `0`: cleared. -/
  | cleared
  /-- `1`: set. -/
  | raised
  /-- `?`: left undefined. -/
  | undefined
  /-- `v`: written, only from 1 to 0. -/
  | onlyCleared
deriving DecidableEq, Repr

/-- The flag after agrees with its effect. -/
def FlagEffect.holds (e : FlagEffect) (before after : Bool) : Prop :=
  match e with
  | .kept => after = before
  | .written => True
  | .cleared => after = false
  | .raised => after = true
  | .undefined => True
  | .onlyCleared => after = true → before = true

/-- A row of the table of 10_state.md R34. -/
structure CcrEffect where
  s : FlagEffect
  x : FlagEffect
  h : FlagEffect
  i : FlagEffect
  n : FlagEffect
  z : FlagEffect
  v : FlagEffect
  c : FlagEffect
deriving DecidableEq, Repr

/-- The condition codes after agree with the row. -/
def CcrEffect.holds (e : CcrEffect) (before after : Ccr) : Prop :=
  e.s.holds before.s after.s ∧ e.x.holds before.x after.x ∧ e.h.holds before.h after.h ∧ e.i.holds before.i after.i
    ∧ e.n.holds before.n after.n ∧ e.z.holds before.z after.z ∧ e.v.holds before.v after.v ∧ e.c.holds before.c after.c

/-- `- - ^ - ^ ^ ^ ^`: 8-bit additions: H, N, Z, V and C are written. -/
def CcrEffect.addition : CcrEffect := ⟨.kept, .kept, .written, .kept, .written, .written, .written, .written⟩

/-- `- - - - - - - -`: no flag is written. -/
def CcrEffect.none : CcrEffect := ⟨.kept, .kept, .kept, .kept, .kept, .kept, .kept, .kept⟩

/-- `- - - - ^ ^ ^ ^`: N, Z, V and C are written. -/
def CcrEffect.arith : CcrEffect := ⟨.kept, .kept, .kept, .kept, .written, .written, .written, .written⟩

/-- `- - - - ^ ^ 0 -`: N and Z are written and V is cleared. -/
def CcrEffect.logic : CcrEffect := ⟨.kept, .kept, .kept, .kept, .written, .written, .cleared, .kept⟩

/-- `- - - - - - - 0`: C is cleared. -/
def CcrEffect.clearC : CcrEffect := ⟨.kept, .kept, .kept, .kept, .kept, .kept, .kept, .cleared⟩

/-- `- - - 0 - - - -`: I is cleared. -/
def CcrEffect.clearI : CcrEffect := ⟨.kept, .kept, .kept, .cleared, .kept, .kept, .kept, .kept⟩

/-- `- - - - 0 1 0 0`: N, V and C are cleared and Z is set. -/
def CcrEffect.clear : CcrEffect := ⟨.kept, .kept, .kept, .kept, .cleared, .raised, .cleared, .cleared⟩

/-- `- - - - - - 0 -`: V is cleared. -/
def CcrEffect.clearV : CcrEffect := ⟨.kept, .kept, .kept, .kept, .kept, .kept, .cleared, .kept⟩

/-- `- - - - ^ ^ 0 1`: N and Z are written, V is cleared and C is set. -/
def CcrEffect.complement : CcrEffect := ⟨.kept, .kept, .kept, .kept, .written, .written, .cleared, .raised⟩

/-- `- - - - ^ ^ ? ^`: N, Z and C are written and V is undefined. -/
def CcrEffect.decimal : CcrEffect := ⟨.kept, .kept, .kept, .kept, .written, .written, .undefined, .written⟩

/-- `- - - - ^ ^ ^ -`: N, Z and V are written. -/
def CcrEffect.count : CcrEffect := ⟨.kept, .kept, .kept, .kept, .written, .written, .written, .kept⟩

/-- `- - - - - ^ - -`: Z alone is written. -/
def CcrEffect.zero : CcrEffect := ⟨.kept, .kept, .kept, .kept, .kept, .written, .kept, .kept⟩

/-- `- - - - - ^ ^ ^`: Z, V and C are written. -/
def CcrEffect.fraction : CcrEffect := ⟨.kept, .kept, .kept, .kept, .kept, .written, .written, .written⟩

/-- `- - - - - ^ 0 ^`: Z and C are written and V is cleared. -/
def CcrEffect.quotient : CcrEffect := ⟨.kept, .kept, .kept, .kept, .kept, .written, .cleared, .written⟩

/-- `- - - - 0 ^ ^ ^`: N is cleared and Z, V and C are written. -/
def CcrEffect.shiftRight : CcrEffect := ⟨.kept, .kept, .kept, .kept, .cleared, .written, .written, .written⟩

/-- `- - - - - - - ^`: C alone is written. -/
def CcrEffect.product : CcrEffect := ⟨.kept, .kept, .kept, .kept, .kept, .kept, .kept, .written⟩

/-- `^ v ^ ^ ^ ^ ^ ^`: every flag is written, X only from 1 to 0. -/
def CcrEffect.load : CcrEffect := ⟨.written, .onlyCleared, .written, .written, .written, .written, .written, .written⟩

/-- `- - - - - - - 1`: C is set. -/
def CcrEffect.setC : CcrEffect := ⟨.kept, .kept, .kept, .kept, .kept, .kept, .kept, .raised⟩

/-- `- - - 1 - - - -`: I is set. -/
def CcrEffect.setI : CcrEffect := ⟨.kept, .kept, .kept, .raised, .kept, .kept, .kept, .kept⟩

/-- `- - - - - - 1 -`: V is set. -/
def CcrEffect.setV : CcrEffect := ⟨.kept, .kept, .kept, .kept, .kept, .kept, .raised, .kept⟩

/-- `- - - - ^ ^ 0 0`: N and Z are written and V and C are cleared. -/
def CcrEffect.test : CcrEffect := ⟨.kept, .kept, .kept, .kept, .written, .written, .cleared, .cleared⟩

/-- The table of 10_state.md R34, which `CCR_EFFECTS` of 00_scope.md R5 names (92 D1). -/
def ccrEffect : Instr → CcrEffect
  | .aba => .addition
  | .abx => .none
  | .aby => .none
  | .adca _ => .addition
  | .adcb _ => .addition
  | .adda _ => .addition
  | .addb _ => .addition
  | .addd _ => .arith
  | .anda _ => .logic
  | .andb _ => .logic
  | .asl _ => .arith
  | .asla => .arith
  | .aslb => .arith
  | .asld => .arith
  | .asr _ => .arith
  | .asra => .arith
  | .asrb => .arith
  | .bcc _ => .none
  | .bclr _ _ => .logic
  | .bcs _ => .none
  | .beq _ => .none
  | .bge _ => .none
  | .bgt _ => .none
  | .bhi _ => .none
  | .bhs _ => .none
  | .bita _ => .logic
  | .bitb _ => .logic
  | .ble _ => .none
  | .blo _ => .none
  | .bls _ => .none
  | .blt _ => .none
  | .bmi _ => .none
  | .bne _ => .none
  | .bpl _ => .none
  | .bra _ => .none
  | .brclr _ _ _ => .none
  | .brn _ => .none
  | .brset _ _ _ => .none
  | .bset _ _ => .logic
  | .bsr _ => .none
  | .bvc _ => .none
  | .bvs _ => .none
  | .cba => .arith
  | .clc => .clearC
  | .cli => .clearI
  | .clr _ => .clear
  | .clra => .clear
  | .clrb => .clear
  | .clv => .clearV
  | .cmpa _ => .arith
  | .cmpb _ => .arith
  | .com _ => .complement
  | .coma => .complement
  | .comb => .complement
  | .cpd _ => .arith
  | .cpx _ => .arith
  | .cpy _ => .arith
  | .daa => .decimal
  | .dec _ => .count
  | .deca => .count
  | .decb => .count
  | .des => .none
  | .dex => .zero
  | .dey => .zero
  | .eora _ => .logic
  | .eorb _ => .logic
  | .fdiv => .fraction
  | .idiv => .quotient
  | .inc _ => .count
  | .inca => .count
  | .incb => .count
  | .ins => .none
  | .inx => .zero
  | .iny => .zero
  | .jmp _ => .none
  | .jsr _ => .none
  | .ldaa _ => .logic
  | .ldab _ => .logic
  | .ldd _ => .logic
  | .lds _ => .logic
  | .ldx _ => .logic
  | .ldy _ => .logic
  | .lsl _ => .arith
  | .lsla => .arith
  | .lslb => .arith
  | .lsld => .arith
  | .lsr _ => .shiftRight
  | .lsra => .shiftRight
  | .lsrb => .shiftRight
  | .lsrd => .shiftRight
  | .mul => .product
  | .neg _ => .arith
  | .nega => .arith
  | .negb => .arith
  | .nop => .none
  | .oraa _ => .logic
  | .orab _ => .logic
  | .psha => .none
  | .pshb => .none
  | .pshx => .none
  | .pshy => .none
  | .pula => .none
  | .pulb => .none
  | .pulx => .none
  | .puly => .none
  | .rol _ => .arith
  | .rola => .arith
  | .rolb => .arith
  | .ror _ => .arith
  | .rora => .arith
  | .rorb => .arith
  | .rti => .load
  | .rts => .none
  | .sba => .arith
  | .sbca _ => .arith
  | .sbcb _ => .arith
  | .sec => .setC
  | .sei => .setI
  | .sev => .setV
  | .staa _ => .logic
  | .stab _ => .logic
  | .std _ => .logic
  | .stop => .none
  | .sts _ => .logic
  | .stx _ => .logic
  | .sty _ => .logic
  | .suba _ => .arith
  | .subb _ => .arith
  | .subd _ => .arith
  | .swi => .setI
  | .tab => .logic
  | .tap => .load
  | .tba => .logic
  | .test => .setI
  | .tpa => .none
  | .tst _ => .test
  | .tsta => .test
  | .tstb => .test
  | .tsx => .none
  | .tsy => .none
  | .txs => .none
  | .tys => .none
  | .wai => .none
  | .xgdx => .none
  | .xgdy => .none

/-- The registers an instruction writes: A, B, IX, IY, SP. -/
structure Writes where
  a : Bool
  b : Bool
  ix : Bool
  iy : Bool
  sp : Bool
deriving DecidableEq, Repr

/-- A. -/
def Writes.onlyA : Writes := ⟨true, false, false, false, false⟩

/-- IX. -/
def Writes.onlyIx : Writes := ⟨false, false, true, false, false⟩

/-- IY. -/
def Writes.onlyIy : Writes := ⟨false, false, false, true, false⟩

/-- B. -/
def Writes.onlyB : Writes := ⟨false, true, false, false, false⟩

/-- A, B. -/
def Writes.onlyD : Writes := ⟨true, true, false, false, false⟩

/-- No register. -/
def Writes.none : Writes := ⟨false, false, false, false, false⟩

/-- SP. -/
def Writes.onlySp : Writes := ⟨false, false, false, false, true⟩

/-- A, B, IX. -/
def Writes.dAndIx : Writes := ⟨true, true, true, false, false⟩

/-- A, SP. -/
def Writes.aAndSp : Writes := ⟨true, false, false, false, true⟩

/-- B, SP. -/
def Writes.bAndSp : Writes := ⟨false, true, false, false, true⟩

/-- IX, SP. -/
def Writes.ixAndSp : Writes := ⟨false, false, true, false, true⟩

/-- IY, SP. -/
def Writes.iyAndSp : Writes := ⟨false, false, false, true, true⟩

/-- A, B, IX, IY, SP. -/
def Writes.every : Writes := ⟨true, true, true, true, true⟩

/-- A, B, IY. -/
def Writes.dAndIy : Writes := ⟨true, true, false, true, false⟩

/-- The registers each instruction writes, as its own rule says (files 40 to 46). -/
def registersWritten : Instr → Writes
  | .aba => .onlyA
  | .abx => .onlyIx
  | .aby => .onlyIy
  | .adca _ => .onlyA
  | .adcb _ => .onlyB
  | .adda _ => .onlyA
  | .addb _ => .onlyB
  | .addd _ => .onlyD
  | .anda _ => .onlyA
  | .andb _ => .onlyB
  | .asl _ => .none
  | .asla => .onlyA
  | .aslb => .onlyB
  | .asld => .onlyD
  | .asr _ => .none
  | .asra => .onlyA
  | .asrb => .onlyB
  | .bcc _ => .none
  | .bclr _ _ => .none
  | .bcs _ => .none
  | .beq _ => .none
  | .bge _ => .none
  | .bgt _ => .none
  | .bhi _ => .none
  | .bhs _ => .none
  | .bita _ => .none
  | .bitb _ => .none
  | .ble _ => .none
  | .blo _ => .none
  | .bls _ => .none
  | .blt _ => .none
  | .bmi _ => .none
  | .bne _ => .none
  | .bpl _ => .none
  | .bra _ => .none
  | .brclr _ _ _ => .none
  | .brn _ => .none
  | .brset _ _ _ => .none
  | .bset _ _ => .none
  | .bsr _ => .onlySp
  | .bvc _ => .none
  | .bvs _ => .none
  | .cba => .none
  | .clc => .none
  | .cli => .none
  | .clr _ => .none
  | .clra => .onlyA
  | .clrb => .onlyB
  | .clv => .none
  | .cmpa _ => .none
  | .cmpb _ => .none
  | .com _ => .none
  | .coma => .onlyA
  | .comb => .onlyB
  | .cpd _ => .none
  | .cpx _ => .none
  | .cpy _ => .none
  | .daa => .onlyA
  | .dec _ => .none
  | .deca => .onlyA
  | .decb => .onlyB
  | .des => .onlySp
  | .dex => .onlyIx
  | .dey => .onlyIy
  | .eora _ => .onlyA
  | .eorb _ => .onlyB
  | .fdiv => .dAndIx
  | .idiv => .dAndIx
  | .inc _ => .none
  | .inca => .onlyA
  | .incb => .onlyB
  | .ins => .onlySp
  | .inx => .onlyIx
  | .iny => .onlyIy
  | .jmp _ => .none
  | .jsr _ => .onlySp
  | .ldaa _ => .onlyA
  | .ldab _ => .onlyB
  | .ldd _ => .onlyD
  | .lds _ => .onlySp
  | .ldx _ => .onlyIx
  | .ldy _ => .onlyIy
  | .lsl _ => .none
  | .lsla => .onlyA
  | .lslb => .onlyB
  | .lsld => .onlyD
  | .lsr _ => .none
  | .lsra => .onlyA
  | .lsrb => .onlyB
  | .lsrd => .onlyD
  | .mul => .onlyD
  | .neg _ => .none
  | .nega => .onlyA
  | .negb => .onlyB
  | .nop => .none
  | .oraa _ => .onlyA
  | .orab _ => .onlyB
  | .psha => .onlySp
  | .pshb => .onlySp
  | .pshx => .onlySp
  | .pshy => .onlySp
  | .pula => .aAndSp
  | .pulb => .bAndSp
  | .pulx => .ixAndSp
  | .puly => .iyAndSp
  | .rol _ => .none
  | .rola => .onlyA
  | .rolb => .onlyB
  | .ror _ => .none
  | .rora => .onlyA
  | .rorb => .onlyB
  | .rti => .every
  | .rts => .onlySp
  | .sba => .onlyA
  | .sbca _ => .onlyA
  | .sbcb _ => .onlyB
  | .sec => .none
  | .sei => .none
  | .sev => .none
  | .staa _ => .none
  | .stab _ => .none
  | .std _ => .none
  | .stop => .none
  | .sts _ => .none
  | .stx _ => .none
  | .sty _ => .none
  | .suba _ => .onlyA
  | .subb _ => .onlyB
  | .subd _ => .onlyD
  | .swi => .onlySp
  | .tab => .onlyB
  | .tap => .none
  | .tba => .onlyA
  | .test => .onlySp
  | .tpa => .onlyA
  | .tst _ => .none
  | .tsta => .none
  | .tstb => .none
  | .tsx => .onlyIx
  | .tsy => .onlyIy
  | .txs => .onlySp
  | .tys => .onlySp
  | .wai => .onlySp
  | .xgdx => .dAndIx
  | .xgdy => .dAndIy

/-- The cells the bytes pushed from an SP go to, in the order they are pushed (10_state.md R25). -/
def pushedCells : List Byte → Word → List (Word × Byte)
  | [], _ => []
  | v :: rest, sp => (sp, v) :: pushedCells rest (sp - 1)

/-- The two cells of a 16-bit write (20_memory.md R64). -/
def wordCells (a v : Word) : List (Word × Byte) := [(a, highByte v), (a + 1, lowByte v)]

/-- The cell a read-modify-write stores (20_memory.md R65 c, d). -/
def modifiedCell (a : Word) (f : Byte → Ccr → Byte × Ccr) (s : State) : List (Word × Byte) :=
  [(a, (f (peek a s) s.ccr).1)]

/-- The addresses of `n` bytes pulled from an SP, in the order they are pulled (10_state.md R25). -/
def pullAddresses : Nat → Word → List Word
  | 0, _ => []
  | n + 1, sp => (sp + 1) :: pullAddresses n (sp + 1)

/-- The two addresses of a 16-bit access (20_memory.md R64). -/
def wordAddresses (a : Word) : List Word := [a, a + 1]

/-- The bytes an instruction stores and the addresses they go to, in the order of its writes and computed with the
functions its meaning uses (20_memory.md R65). -/
def storedBytes (i : Instr) (s : State) : List (Word × Byte) :=
  match i with
  | .aba => []
  | .abx => []
  | .aby => []
  | .adca _ => []
  | .adcb _ => []
  | .adda _ => []
  | .addb _ => []
  | .addd _ => []
  | .anda _ => []
  | .andb _ => []
  | .asl ea => modifiedCell (addressExt ea s) asl8 s
  | .asla => []
  | .aslb => []
  | .asld => []
  | .asr ea => modifiedCell (addressExt ea s) asr8 s
  | .asra => []
  | .asrb => []
  | .bcc _ => []
  | .bclr ea mm => [(addressBit ea s, peek (addressBit ea s) s &&& ~~~mm)]
  | .bcs _ => []
  | .beq _ => []
  | .bge _ => []
  | .bgt _ => []
  | .bhi _ => []
  | .bhs _ => []
  | .bita _ => []
  | .bitb _ => []
  | .ble _ => []
  | .blo _ => []
  | .bls _ => []
  | .blt _ => []
  | .bmi _ => []
  | .bne _ => []
  | .bpl _ => []
  | .bra _ => []
  | .brclr _ _ _ => []
  | .brn _ => []
  | .brset _ _ _ => []
  | .bset ea mm => [(addressBit ea s, peek (addressBit ea s) s ||| mm)]
  | .bsr rr => pushedCells (wordBytes (next (.bsr rr) s)) s.sp
  | .bvc _ => []
  | .bvs _ => []
  | .cba => []
  | .clc => []
  | .cli => []
  | .clr ea => [(addressExt ea s, 0x00)]
  | .clra => []
  | .clrb => []
  | .clv => []
  | .cmpa _ => []
  | .cmpb _ => []
  | .com ea => modifiedCell (addressExt ea s) com8 s
  | .coma => []
  | .comb => []
  | .cpd _ => []
  | .cpx _ => []
  | .cpy _ => []
  | .daa => []
  | .dec ea => modifiedCell (addressExt ea s) dec8 s
  | .deca => []
  | .decb => []
  | .des => []
  | .dex => []
  | .dey => []
  | .eora _ => []
  | .eorb _ => []
  | .fdiv => []
  | .idiv => []
  | .inc ea => modifiedCell (addressExt ea s) inc8 s
  | .inca => []
  | .incb => []
  | .ins => []
  | .inx => []
  | .iny => []
  | .jmp _ => []
  | .jsr ea => pushedCells (wordBytes (next (.jsr ea) s)) s.sp
  | .ldaa _ => []
  | .ldab _ => []
  | .ldd _ => []
  | .lds _ => []
  | .ldx _ => []
  | .ldy _ => []
  | .lsl ea => modifiedCell (addressExt ea s) asl8 s
  | .lsla => []
  | .lslb => []
  | .lsld => []
  | .lsr ea => modifiedCell (addressExt ea s) lsr8 s
  | .lsra => []
  | .lsrb => []
  | .lsrd => []
  | .mul => []
  | .neg ea => modifiedCell (addressExt ea s) neg8 s
  | .nega => []
  | .negb => []
  | .nop => []
  | .oraa _ => []
  | .orab _ => []
  | .psha => pushedCells [s.a] s.sp
  | .pshb => pushedCells [s.b] s.sp
  | .pshx => pushedCells (wordBytes s.ix) s.sp
  | .pshy => pushedCells (wordBytes s.iy) s.sp
  | .pula => []
  | .pulb => []
  | .pulx => []
  | .puly => []
  | .rol ea => modifiedCell (addressExt ea s) rol8 s
  | .rola => []
  | .rolb => []
  | .ror ea => modifiedCell (addressExt ea s) ror8 s
  | .rora => []
  | .rorb => []
  | .rti => []
  | .rts => []
  | .sba => []
  | .sbca _ => []
  | .sbcb _ => []
  | .sec => []
  | .sei => []
  | .sev => []
  | .staa ea => [(addressFull ea s, s.a)]
  | .stab ea => [(addressFull ea s, s.b)]
  | .std ea => wordCells (addressFull ea s) s.d
  | .stop => []
  | .sts ea => wordCells (addressFull ea s) s.sp
  | .stx ea => wordCells (addressFull ea s) s.ix
  | .sty ea => wordCells (addressFull ea s) s.iy
  | .suba _ => []
  | .subb _ => []
  | .subd _ => []
  | .swi => pushedCells (frameBytes (next .swi s) s) s.sp
  | .tab => []
  | .tap => []
  | .tba => []
  | .test => pushedCells (frameBytes s.pc s) s.sp
  | .tpa => []
  | .tst _ => []
  | .tsta => []
  | .tstb => []
  | .tsx => []
  | .tsy => []
  | .txs => []
  | .tys => []
  | .wai => pushedCells (frameBytes (next .wai s) s) s.sp
  | .xgdx => []
  | .xgdy => []

/-- The addresses an instruction stores to (20_memory.md R65). -/
def storedAddresses (i : Instr) (s : State) : List Word := (storedBytes i s).map Prod.fst

/-- The addresses an instruction reads as data, computed with the functions its meaning uses (20_memory.md R65). -/
def readAddresses (i : Instr) (s : State) : List Word :=
  match i with
  | .aba => []
  | .abx => []
  | .aby => []
  | .adca m => (operandAddress8 m s).toList
  | .adcb m => (operandAddress8 m s).toList
  | .adda m => (operandAddress8 m s).toList
  | .addb m => (operandAddress8 m s).toList
  | .addd m => (operandAddress16 m s).toList.flatMap wordAddresses
  | .anda m => (operandAddress8 m s).toList
  | .andb m => (operandAddress8 m s).toList
  | .asl ea => [addressExt ea s]
  | .asla => []
  | .aslb => []
  | .asld => []
  | .asr ea => [addressExt ea s]
  | .asra => []
  | .asrb => []
  | .bcc _ => []
  | .bclr ea _ => [addressBit ea s]
  | .bcs _ => []
  | .beq _ => []
  | .bge _ => []
  | .bgt _ => []
  | .bhi _ => []
  | .bhs _ => []
  | .bita m => (operandAddress8 m s).toList
  | .bitb m => (operandAddress8 m s).toList
  | .ble _ => []
  | .blo _ => []
  | .bls _ => []
  | .blt _ => []
  | .bmi _ => []
  | .bne _ => []
  | .bpl _ => []
  | .bra _ => []
  | .brclr ea _ _ => [addressBit ea s]
  | .brn _ => []
  | .brset ea _ _ => [addressBit ea s]
  | .bset ea _ => [addressBit ea s]
  | .bsr _ => []
  | .bvc _ => []
  | .bvs _ => []
  | .cba => []
  | .clc => []
  | .cli => []
  | .clr ea => [addressExt ea s]
  | .clra => []
  | .clrb => []
  | .clv => []
  | .cmpa m => (operandAddress8 m s).toList
  | .cmpb m => (operandAddress8 m s).toList
  | .com ea => [addressExt ea s]
  | .coma => []
  | .comb => []
  | .cpd m => (operandAddress16 m s).toList.flatMap wordAddresses
  | .cpx m => (operandAddress16 m s).toList.flatMap wordAddresses
  | .cpy m => (operandAddress16 m s).toList.flatMap wordAddresses
  | .daa => []
  | .dec ea => [addressExt ea s]
  | .deca => []
  | .decb => []
  | .des => []
  | .dex => []
  | .dey => []
  | .eora m => (operandAddress8 m s).toList
  | .eorb m => (operandAddress8 m s).toList
  | .fdiv => []
  | .idiv => []
  | .inc ea => [addressExt ea s]
  | .inca => []
  | .incb => []
  | .ins => []
  | .inx => []
  | .iny => []
  | .jmp _ => []
  | .jsr _ => []
  | .ldaa m => (operandAddress8 m s).toList
  | .ldab m => (operandAddress8 m s).toList
  | .ldd m => (operandAddress16 m s).toList.flatMap wordAddresses
  | .lds m => (operandAddress16 m s).toList.flatMap wordAddresses
  | .ldx m => (operandAddress16 m s).toList.flatMap wordAddresses
  | .ldy m => (operandAddress16 m s).toList.flatMap wordAddresses
  | .lsl ea => [addressExt ea s]
  | .lsla => []
  | .lslb => []
  | .lsld => []
  | .lsr ea => [addressExt ea s]
  | .lsra => []
  | .lsrb => []
  | .lsrd => []
  | .mul => []
  | .neg ea => [addressExt ea s]
  | .nega => []
  | .negb => []
  | .nop => []
  | .oraa m => (operandAddress8 m s).toList
  | .orab m => (operandAddress8 m s).toList
  | .psha => []
  | .pshb => []
  | .pshx => []
  | .pshy => []
  | .pula => pullAddresses 1 s.sp
  | .pulb => pullAddresses 1 s.sp
  | .pulx => pullAddresses 2 s.sp
  | .puly => pullAddresses 2 s.sp
  | .rol ea => [addressExt ea s]
  | .rola => []
  | .rolb => []
  | .ror ea => [addressExt ea s]
  | .rora => []
  | .rorb => []
  | .rti => pullAddresses 9 s.sp
  | .rts => pullAddresses 2 s.sp
  | .sba => []
  | .sbca m => (operandAddress8 m s).toList
  | .sbcb m => (operandAddress8 m s).toList
  | .sec => []
  | .sei => []
  | .sev => []
  | .staa _ => []
  | .stab _ => []
  | .std _ => []
  | .stop => []
  | .sts _ => []
  | .stx _ => []
  | .sty _ => []
  | .suba m => (operandAddress8 m s).toList
  | .subb m => (operandAddress8 m s).toList
  | .subd m => (operandAddress16 m s).toList.flatMap wordAddresses
  | .swi => wordAddresses (vectorOf s.cfg .swi)
  | .tab => []
  | .tap => []
  | .tba => []
  | .test => wordAddresses (vectorOf s.cfg .illop)
  | .tpa => []
  | .tst ea => [addressExt ea s]
  | .tsta => []
  | .tstb => []
  | .tsx => []
  | .tsy => []
  | .txs => []
  | .tys => []
  | .wai => []
  | .xgdx => []
  | .xgdy => []

/-- The instruction stores the byte to BAUD with TCLR or RCKB at 1 (10_state.md R43, 93 U17). -/
def writesTestBits (i : Instr) (s : State) : Prop :=
  ∃ c ∈ storedBytes i s, kindOf s.cfg c.1 = .device ∧ deviceReg (blockOffset s.cfg c.1) = some .baud
    ∧ (c.2.getLsbD 7 = true ∨ c.2.getLsbD 3 = true)

/-- The instruction reads or stores to an offset of the device block that has no rule (20_memory.md R70, 93 U10). -/
def reachesNoRegister (i : Instr) (s : State) : Prop :=
  ∃ a ∈ readAddresses i s ++ storedAddresses i s, kindOf s.cfg a = .device ∧ deviceReg (blockOffset s.cfg a) = none

/-! ### The precondition of the stack -/

/-- The instructions that write SP as 70_reset_and_hazards.md R465 asks: LDS, TXS and TYS. -/
def writesSp : Instr → Bool
  | .lds _ => true
  | .txs => true
  | .tys => true
  | _ => false

/-- The instructions that push or pull: those that change SP and neither load it nor count it up or down
(10_state.md R25, 70_reset_and_hazards.md R465). -/
def usesStack (i : Instr) : Bool := (registersWritten i).sp && !writesSp i && i != .des && i != .ins

/-- It is the CPU's turn. -/
def cpuMoves (s : State) : Bool :=
  match s.turns with
  | [] => true
  | .cpu :: _ => true
  | _ :: _ => false

/-- The step of the CPU pushes or pulls: an instruction that does, an illegal encoding that traps, or an interrupt entry
(70_reset_and_hazards.md R465). The end of a wait stacks nothing (60_exceptions.md R421). -/
def stepUsesStack (s : State) : Bool :=
  cpuMoves s && !s.pins.reset &&
    match s.runState with
    | .run =>
      match recognised s, decode (fetchWindow s) with
      | some _, _ => true
      | none, .instr i _ => usesStack i
      | none, .illegal => decide (s.cfg.illegalOpcode = .trap)
      | none, .truncated => false
    | .wait => false
    | .stop => if s.pins.xirq then !s.ccr.x else s.pins.irq && !s.ccr.i

/-- The precondition of every stack-using step: SP has been written by LDS, TXS or TYS since reset
(70_reset_and_hazards.md R465, 92 D28). -/
def StackReady (s : State) : Prop := stepUsesStack s = true → s.spWritten = true

/-! ### The hypothesis on the memory image -/

/-- The address is initialised memory: ROM, which holds its image, or RAM whose byte the memory image or a write has
given (70_reset_and_hazards.md R461, 60_exceptions.md R418). -/
def State.initialised (s : State) (a : Word) : Bool :=
  match kindOf s.cfg a with
  | .ram => s.written.contains a.toNat
  | .rom => true
  | .device => false
  | .none => false

/-- Both bytes of a vector are initialised (60_exceptions.md R418). -/
def vectorInitialised (s : State) (vector : Word) : Bool := s.initialised vector && s.initialised (vector + 1)

/-- Every vector of the spec (60_exceptions.md R404). -/
def everyVector (cfg : Config) : List Word :=
  [resetVector cfg, vectorOf cfg .xirq, vectorOf cfg .irq, vectorOf cfg .spi, vectorOf cfg .sci, vectorOf cfg .swi,
    vectorOf cfg .illop]

/-- The instruction at PC is SWI. -/
def atSwi (s : State) : Bool :=
  match decode (fetchWindow s) with
  | .instr i _ => i == .swi
  | .illegal => false
  | .truncated => false

/-- The vectors that can be used from the state, source by source as 70_reset_and_hazards.md R466 lists them: reset
always, XIRQ while X = 0, IRQ while I = 0, SPI and SCI while I = 0 and a local enable bit is set, SWI where the program
executes it, and the illegal opcode where the model traps it. -/
def usableVectors (s : State) : List Word :=
  [resetVector s.cfg]
    ++ (if s.ccr.x then [] else [vectorOf s.cfg .xirq])
    ++ (if s.ccr.i then [] else [vectorOf s.cfg .irq])
    ++ (if !s.ccr.i && s.spi.spie then [vectorOf s.cfg .spi] else [])
    ++ (if !s.ccr.i && (s.sci.tie || s.sci.tcie || s.sci.rie || s.sci.ilie) then [vectorOf s.cfg .sci] else [])
    ++ (if atSwi s then [vectorOf s.cfg .swi] else [])
    ++ (if s.cfg.illegalOpcode = .trap then [vectorOf s.cfg .illop] else [])

/-- The hypothesis of 60_exceptions.md R418 at one state: every vector that can be used is initialised (R466,
93 U19). -/
def VectorsReady (s : State) : Prop := ∀ v ∈ usableVectors s, vectorInitialised s v = true

/-- The same for the memory image as a whole: every vector is initialised. -/
def VectorsInitialised (s : State) : Prop := ∀ v ∈ everyVector s.cfg, vectorInitialised s v = true

/-- `n` steps without a fault, a refusal, the program error of 92 D28 (70_reset_and_hazards.md R465) or a usable vector
that is not initialised (R466, 60_exceptions.md R418, 93 U19). -/
def SafeFor : Nat → State → Prop
  | 0, _ => True
  | n + 1, s => StackReady s ∧ VectorsReady s ∧ ∃ t, step s = .next t ∧ SafeFor n t

end Sys2Proof.Machine
end

