-- ==== Sys2Proof/Certificates/Slice0/Obligations.lean ====
section
/-!
DEFINITION. The statements for the provers, from the numbered rules of spec/. A statement that rests on the spec's
general-knowledge supplement, on a decision of 92_eei_decisions.md or on a choice of the model says so and names the
log entry.
-/

open Sys2Proof Sys2Proof.Machine

/-- Decoding the encoding of any canonical instruction gives the instruction back. Decoder and encoder agree on every
instruction, every operand and any bytes that follow (30_encoding.md R90 to R99). The canonical names are decision
D25. -/
def Obligations.DecodeUndoesEncode : Prop :=
  ∀ (i : Instr) (rest : List Byte), WellFormed i → decode (encode i ++ rest) = .instr i rest

/-- Bytes that decode are the encoding of the instruction they decode to. Every encoding has one meaning and no bit of it
is dropped (30_encoding.md R90 to R99). The canonical names are decision D25. -/
def Obligations.EncodeUndoesDecode : Prop :=
  ∀ (bytes rest : List Byte) (i : Instr), decode bytes = .instr i rest → WellFormed i ∧ bytes = encode i ++ rest

/-- The decoder refuses exactly the encodings the spec lists as illegal. The illegal encodings, against the lists of
30_encoding.md R97 and R98. -/
def Obligations.IllegalEncodingsAreExactlyTheListed : Prop :=
  ∀ bytes : List Byte, decode bytes = .illegal ↔
    ∃ (b : Byte) (rest : List Byte), (bytes = b :: rest ∧ b ∈ unassigned1)
      ∨ (bytes = 0x18 :: b :: rest ∧ b ∉ assigned18)
      ∨ (bytes = 0x1A :: b :: rest ∧ b ∉ assigned1A)
      ∨ (bytes = 0xCD :: b :: rest ∧ b ∉ assignedCD)

/-- Words written out from the table decode to their instructions. One word of each family, from the table of
30_encoding.md R107. -/
def Obligations.SampleEncodingsDecode : Prop :=
  decode [0x89, 0x7F] = .instr (.adca (.imm 0x7F)) []
    ∧ decode [0x1A, 0xB3, 0x12, 0x34] = .instr (.cpd (.ext 0x1234)) []
    ∧ decode [0xCD, 0xEE, 0x05] = .instr (.ldx (.indY 0x05)) []
    ∧ decode [0x18, 0x68, 0x03] = .instr (.asl (.indY 0x03)) []
    ∧ decode [0x18, 0x1F, 0x01, 0x80, 0xFC] = .instr (.brclr (.indY 0x01) 0x80 0xFC) []
    ∧ decode [0x1C, 0x39, 0x80] = .instr (.bset (.indX 0x39) 0x80) []
    ∧ decode [0x9F, 0x40] = .instr (.sts (.dir 0x40)) []
    ∧ decode [0x3B] = .instr .rti []

/-- Second names share encoding and effect with the first names, and NEXT is past the one to five bytes. Aliases
(30_encoding.md R99), NEXT and the length of an instruction (10_state.md R26, 30_encoding.md R90). -/
def Obligations.SecondNamesAndLengthsOfEncodings : Prop :=
  ∀ (i : Instr) (s : State), encode i.canonical = encode i ∧ exec i.canonical s = exec i s
    ∧ next i s = s.pc + BitVec.ofNat 16 (encode i).length ∧ 1 ≤ (encode i).length ∧ (encode i).length ≤ 5

/-- A step at which no interrupt is recognised runs the decoded instruction. A step runs the decoded instruction
(60_exceptions.md R406, 30_encoding.md R94). The list of turns is the model's own (notes/assumptions/8.md). Rests on
the spec's general-knowledge supplement (notes/assumptions/24.md). -/
def Obligations.StepRunsTheDecodedInstruction : Prop :=
  ∀ (s : State) (i : Instr) (rest : List Byte),
    s.runState = .run → s.pins.reset = false → recognised s = none → decode (fetchWindow s) = .instr i rest →
    ∀ u : State, ((s.turns = [] ∧ u = s) ∨ ∃ ts, s.turns = .cpu :: ts ∧ u = { s with turns := ts }) →
      WellFormed i
        ∧ (∀ t, exec i u = .next t → step s = .next { t with iDelay := !s.iDelay && t.iDelay })
        ∧ (∀ f, exec i u = .fault f → step s = .fault f)
        ∧ (∀ r, exec i u = .refused r → step s = .refused r)

/-- An illegal encoding is trapped at its own address or faults; a fetch that runs outside memory is refused. The
illegal-opcode trap (60_exceptions.md R415, 30_encoding.md R98; notes/assumptions/14.md) and the refused fetch
(20_memory.md R76, decision D9; notes/assumptions/13.md). Rests on the spec's general-knowledge supplement
(notes/assumptions/24.md). -/
def Obligations.BytesThatAreNoInstruction : Prop :=
  ∀ s : State, s.Running → recognised s = none →
    (decode (fetchWindow s) = .illegal →
      (s.cfg.illegalOpcode = .trap → vectorOf s.cfg .illop ∈ usableVectors s
        ∧ (canEnter .illop s.pc s = true → step s = .next (entered .illop s.pc s)))
      ∧ (s.cfg.illegalOpcode = .fault → step s = .fault .illegalOpcode))
    ∧ (kindOf s.cfg s.pc = .device → step s = .refused .fetchFromDevice)
    ∧ (kindOf s.cfg s.pc = .none → step s = .refused .fetchFromNone)
    ∧ (∀ n, n < 5 →
      (∀ k, k < n → kindOf s.cfg (s.pc + BitVec.ofNat 16 k) = .ram ∨ kindOf s.cfg (s.pc + BitVec.ofNat 16 k) = .rom) →
      decode (fetchBytes s.cfg s.mem n s.pc) = .truncated →
      (kindOf s.cfg (s.pc + BitVec.ofNat 16 n) = .device → step s = .refused .fetchFromDevice)
      ∧ (kindOf s.cfg (s.pc + BitVec.ofNat 16 n) = .none → step s = .refused .fetchFromNone))

/-- Every step keeps the invariant of the machine. The inductive invariant (decision D27 for the bits drawn as 0; the
canonical forms and the record of initialised addresses are notes/assumptions/4.md, bits 7 and 6 of DDRD
notes/assumptions/11.md, TCLR and RCKB notes/assumptions/12.md). -/
def Obligations.StepKeepsTheMachineInvariant : Prop :=
  ∀ s t : State, s.Inv → step s = .next t → t.Inv

/-- The state after reset meets the invariant of the machine. The invariant holds at reset (10_state.md R51; the values
the spec leaves unspecified are notes/assumptions/5.md, 6.md and 11.md). -/
def Obligations.ResetMeetsTheMachineInvariant : Prop :=
  State.reset.Inv

/-- Only reset and XIRQ entry set the X mask. X is set by reset and by XIRQ entry only (60_exceptions.md R402). Rests on
the spec's general-knowledge supplement (notes/assumptions/24.md). -/
def Obligations.XMaskIsRaisedOnlyByResetOrXirq : Prop :=
  ∀ s t : State, step s = .next t → s.ccr.x = false → t.ccr.x = true → s.pins.reset = true ∨ s.pins.xirq = true

/-- No step changes a byte that is not RAM, a parameter, or that an address is initialised; initialised vectors stay
ready. ROM keeps its contents and the map is fixed (20_memory.md R70, 10_state.md R50); the hypothesis on the memory
image (60_exceptions.md R418, 70_reset_and_hazards.md R466); the record of initialised addresses is the model's own
field (notes/assumptions/4.md). Rests on the spec's general-knowledge supplement (notes/assumptions/24.md). -/
def Obligations.OnlyRamChangesAndTheMapStays : Prop :=
  ∀ (s t : State) (a : Word), step s = .next t →
    t.cfg = s.cfg ∧ (kindOf s.cfg a ≠ .ram → t.mem.get a.toNat = s.mem.get a.toNat)
      ∧ (s.initialised a = true → t.initialised a = true)
      ∧ (VectorsInitialised s → VectorsReady s ∧ VectorsInitialised t ∧ VectorsReady t)

/-- Every instruction writes only the flags of its line in the table of effects. The table of condition-code effects
(10_state.md R34). Rests on the spec's general-knowledge supplement (notes/assumptions/24.md). -/
def Obligations.FlagsFrameOfEveryInstruction : Prop :=
  ∀ (i : Instr) (s t : State), exec i s = .next t → (ccrEffect i).holds s.ccr t.ccr

/-- Every instruction leaves every register alone that its rule does not write. The destination registers of every
instruction (files 40 to 46, 10_state.md R20 to R23). -/
def Obligations.RegistersFrameOfEveryInstruction : Prop :=
  ∀ (i : Instr) (s t : State), exec i s = .next t →
    ((registersWritten i).a = false → t.a = s.a) ∧ ((registersWritten i).b = false → t.b = s.b)
    ∧ ((registersWritten i).ix = false → t.ix = s.ix) ∧ ((registersWritten i).iy = false → t.iy = s.iy)
    ∧ ((registersWritten i).sp = false → t.sp = s.sp)

/-- Every instruction leaves every byte of memory alone but those it stores to. The data writes of every instruction
(20_memory.md R65, 10_state.md R25, 60_exceptions.md R410, R418); the record of initialised addresses is the model's
own field (notes/assumptions/4.md). Rests on the spec's general-knowledge supplement (notes/assumptions/24.md). -/
def Obligations.MemoryFrameOfEveryInstruction : Prop :=
  ∀ (i : Instr) (s t : State) (a : Word), exec i s = .next t →
    (a ∉ storedAddresses i s → t.mem.get a.toNat = s.mem.get a.toNat)
    ∧ (t.initialised a = true ↔ s.initialised a = true ∨ (a ∈ storedAddresses i s ∧ kindOf s.cfg a = .ram))

/-- An instruction that accesses no device register leaves the devices alone. Only an access of the device block reaches a
device (20_memory.md R65, R71). The count of free values is the model's own (notes/assumptions/1.md). -/
def Obligations.DevicesFrameOfEveryInstruction : Prop :=
  ∀ (i : Instr) (s t : State), exec i s = .next t →
    ((∀ a ∈ readAddresses i s ++ storedAddresses i s, kindOf s.cfg a ≠ .device) →
      t.adc = s.adc ∧ t.sci = s.sci ∧ t.spi = s.spi ∧ t.portD = s.portD)
    ∧ ((∀ a ∈ storedAddresses i s, kindOf s.cfg a ≠ .device) → t.adc = s.adc ∧ t.portD = s.portD)
    ∧ ((∀ a ∈ readAddresses i s, kindOf s.cfg a = .ram ∨ kindOf s.cfg a = .rom) →
      i ≠ .daa → i ≠ .idiv → i ≠ .fdiv → t.draws = s.draws)

/-- Run state, I_DELAY, pins, parameters and the record that SP is written change by the named few; SP moves by stack
uses. The hidden control state (10_state.md R49, 60_exceptions.md R406, R410, R420) and the precondition of the stack
(70_reset_and_hazards.md R465, decision D28); the record is the model's own field (notes/assumptions/5.md). Rests on
the spec's general-knowledge supplement (notes/assumptions/24.md). -/
def Obligations.ControlFrameOfEveryInstruction : Prop :=
  (∀ (i : Instr) (s t : State), exec i s = .next t →
    t.cfg = s.cfg ∧ t.pins = s.pins ∧ t.turns = s.turns
    ∧ (i ≠ .stop → i ≠ .wai → t.runState = s.runState)
    ∧ (i ≠ .cli → i ≠ .tap → i ≠ .swi → i ≠ .test → t.iDelay = s.iDelay)
    ∧ t.spWritten = (s.spWritten || writesSp i)
    ∧ (usesStack i = false → ∀ sp : Word, readAddresses i { s with sp := sp } = readAddresses i s
      ∧ storedAddresses i { s with sp := sp } = storedAddresses i s))
    ∧ (∀ s t : State, step s = .next t → s.pins.reset = false → stepUsesStack s = false → t.sp ≠ s.sp →
      ∃ i rest, decode (fetchWindow s) = .instr i rest ∧ (writesSp i = true ∨ i = .des ∨ i = .ins))

/-- An instruction stops only on an access the spec tells the model to refuse, and always there. Where execution stops
(20_memory.md R70, 10_state.md R43, 93_implementation_defined.md U10, U17; 46_system.md R315; notes/assumptions/12.md
and 14.md). Rests on the spec's general-knowledge supplement (notes/assumptions/24.md). -/
def Obligations.StopsAreUnspecifiedDeviceAccesses : Prop :=
  ∀ (i : Instr) (s : State),
    (∀ r, exec i s = .refused r →
      (r = .deviceOffset ∧ reachesNoRegister i s) ∨ (r = .baudTestBits ∧ writesTestBits i s))
    ∧ (∀ f, exec i s = .fault f → i = .test ∧ s.cfg.illegalOpcode = .fault)
    ∧ ((reachesNoRegister i s ∨ writesTestBits i s) → (i = .test → s.cfg.illegalOpcode = .trap) →
      ∃ r, exec i s = .refused r)

/-- ABA, ADDA, ADDB, ADCA and ADCB: the sum, and the flags in boolean form. 8-bit additions (40_arithmetic.md R131, R134
to R137) with the flags in the boolean form of 10_state.md R30. Rests on the spec's general-knowledge supplement
(notes/assumptions/24.md). -/
def Obligations.AdditionsOfBytes : Prop :=
  (∀ s : State, exec .aba s = .next
      { s with a := s.a + s.b, ccr := addFlags8 s.a s.b (s.a + s.b) s.ccr, pc := s.pc + 1 })
    ∧ ∀ (m : Operand8) (s : State), readable8 m s = true →
      exec (.adda m) s = .next
        { after8 m s with
          a := s.a + value8 m s
          ccr := addFlags8 s.a (value8 m s) (s.a + value8 m s) s.ccr
          pc := next (.adda m) s }
      ∧ exec (.addb m) s = .next
        { after8 m s with
          b := s.b + value8 m s
          ccr := addFlags8 s.b (value8 m s) (s.b + value8 m s) s.ccr
          pc := next (.addb m) s }
      ∧ exec (.adca m) s = .next
        { after8 m s with
          a := s.a + value8 m s + bitByte s.ccr.c
          ccr := addFlags8 s.a (value8 m s) (s.a + value8 m s + bitByte s.ccr.c) s.ccr
          pc := next (.adca m) s }
      ∧ exec (.adcb m) s = .next
        { after8 m s with
          b := s.b + value8 m s + bitByte s.ccr.c
          ccr := addFlags8 s.b (value8 m s) (s.b + value8 m s + bitByte s.ccr.c) s.ccr
          pc := next (.adcb m) s }

/-- SBA, SUBA, SUBB, SBCA and SBCB: the difference, and the flags in boolean form. 8-bit subtractions (40_arithmetic.md
R158 to R162) with the flags in the boolean form of 10_state.md R31. Rests on the spec's general-knowledge supplement
(notes/assumptions/24.md). -/
def Obligations.SubtractionsOfBytes : Prop :=
  (∀ s : State, exec .sba s = .next
      { s with a := s.a - s.b, ccr := subFlags8 s.a s.b (s.a - s.b) s.ccr, pc := s.pc + 1 })
    ∧ ∀ (m : Operand8) (s : State), readable8 m s = true →
      exec (.suba m) s = .next
        { after8 m s with
          a := s.a - value8 m s
          ccr := subFlags8 s.a (value8 m s) (s.a - value8 m s) s.ccr
          pc := next (.suba m) s }
      ∧ exec (.subb m) s = .next
        { after8 m s with
          b := s.b - value8 m s
          ccr := subFlags8 s.b (value8 m s) (s.b - value8 m s) s.ccr
          pc := next (.subb m) s }
      ∧ exec (.sbca m) s = .next
        { after8 m s with
          a := s.a - value8 m s - bitByte s.ccr.c
          ccr := subFlags8 s.a (value8 m s) (s.a - value8 m s - bitByte s.ccr.c) s.ccr
          pc := next (.sbca m) s }
      ∧ exec (.sbcb m) s = .next
        { after8 m s with
          b := s.b - value8 m s - bitByte s.ccr.c
          ccr := subFlags8 s.b (value8 m s) (s.b - value8 m s - bitByte s.ccr.c) s.ccr
          pc := next (.sbcb m) s }

/-- CBA, CMPA, CMPB, CPD, CPX and CPY: the flags of the difference, and no register. Compares (41_logic_compare.md R175,
R179, R180, R184 to R186). Rests on the spec's general-knowledge supplement (notes/assumptions/24.md). -/
def Obligations.ComparesWriteOnlyFlags : Prop :=
  (∀ s : State, exec .cba s = .next { s with ccr := subFlags8 s.a s.b (s.a - s.b) s.ccr, pc := s.pc + 1 })
    ∧ (∀ (m : Operand8) (s : State), readable8 m s = true →
      exec (.cmpa m) s = .next
        { after8 m s with
          ccr := subFlags8 s.a (value8 m s) (s.a - value8 m s) s.ccr
          pc := next (.cmpa m) s }
      ∧ exec (.cmpb m) s = .next
        { after8 m s with
          ccr := subFlags8 s.b (value8 m s) (s.b - value8 m s) s.ccr
          pc := next (.cmpb m) s })
    ∧ ∀ (m : Operand16) (s : State), readable16 m s = true →
      exec (.cpd m) s = .next
        { after16 m s with
          ccr := subFlags16 s.d (value16 m s) s.ccr
          pc := next (.cpd m) s }
      ∧ exec (.cpx m) s = .next
        { after16 m s with
          ccr := subFlags16 s.ix (value16 m s) s.ccr
          pc := next (.cpx m) s }
      ∧ exec (.cpy m) s = .next
        { after16 m s with
          ccr := subFlags16 s.iy (value16 m s) s.ccr
          pc := next (.cpy m) s }

/-- ANDA, ANDB, ORAA, ORAB, EORA, EORB and the bit tests BITA and BITB. Logic (41_logic_compare.md R171 to R174, R187 to
R190). Rests on the spec's general-knowledge supplement (notes/assumptions/24.md). -/
def Obligations.LogicAndBitTests : Prop :=
  ∀ (m : Operand8) (s : State), readable8 m s = true →
      exec (.anda m) s = .next
        { after8 m s with
          a := s.a &&& value8 m s
          ccr := logicFlags8 (s.a &&& value8 m s) s.ccr
          pc := next (.anda m) s }
      ∧ exec (.andb m) s = .next
        { after8 m s with
          b := s.b &&& value8 m s
          ccr := logicFlags8 (s.b &&& value8 m s) s.ccr
          pc := next (.andb m) s }
      ∧ exec (.oraa m) s = .next
        { after8 m s with
          a := s.a ||| value8 m s
          ccr := logicFlags8 (s.a ||| value8 m s) s.ccr
          pc := next (.oraa m) s }
      ∧ exec (.orab m) s = .next
        { after8 m s with
          b := s.b ||| value8 m s
          ccr := logicFlags8 (s.b ||| value8 m s) s.ccr
          pc := next (.orab m) s }
      ∧ exec (.eora m) s = .next
        { after8 m s with
          a := s.a ^^^ value8 m s
          ccr := logicFlags8 (s.a ^^^ value8 m s) s.ccr
          pc := next (.eora m) s }
      ∧ exec (.eorb m) s = .next
        { after8 m s with
          b := s.b ^^^ value8 m s
          ccr := logicFlags8 (s.b ^^^ value8 m s) s.ccr
          pc := next (.eorb m) s }
      ∧ exec (.bita m) s = .next
        { after8 m s with
          ccr := logicFlags8 (s.a &&& value8 m s) s.ccr
          pc := next (.bita m) s }
      ∧ exec (.bitb m) s = .next
        { after8 m s with
          ccr := logicFlags8 (s.b &&& value8 m s) s.ccr
          pc := next (.bitb m) s }

/-- LDAA, LDAB, LDD, LDS, LDX and LDY: the operand in the register, N and Z from it, V cleared. Loads
(45_load_store_stack.md R276 to R281); the record of R465 is the model's own field (notes/assumptions/5.md). Rests on
the spec's general-knowledge supplement (notes/assumptions/24.md). -/
def Obligations.LoadsOfBytesAndWords : Prop :=
  (∀ (m : Operand8) (s : State), readable8 m s = true →
      exec (.ldaa m) s = .next
        { after8 m s with
          a := value8 m s
          ccr := logicFlags8 (value8 m s) s.ccr
          pc := next (.ldaa m) s }
      ∧ exec (.ldab m) s = .next
        { after8 m s with
          b := value8 m s
          ccr := logicFlags8 (value8 m s) s.ccr
          pc := next (.ldab m) s })
    ∧ ∀ (m : Operand16) (s : State), readable16 m s = true →
      exec (.ldd m) s = .next
        { after16 m s with
          a := highByte (value16 m s)
          b := lowByte (value16 m s)
          ccr := logicFlags16 (value16 m s) s.ccr
          pc := next (.ldd m) s }
      ∧ exec (.lds m) s = .next
        { after16 m s with
          sp := value16 m s
          spWritten := true
          ccr := logicFlags16 (value16 m s) s.ccr
          pc := next (.lds m) s }
      ∧ exec (.ldx m) s = .next
        { after16 m s with
          ix := value16 m s
          ccr := logicFlags16 (value16 m s) s.ccr
          pc := next (.ldx m) s }
      ∧ exec (.ldy m) s = .next
        { after16 m s with
          iy := value16 m s
          ccr := logicFlags16 (value16 m s) s.ccr
          pc := next (.ldy m) s }

/-- STAA, STAB, STD, STS, STX and STY: one write of the register, N and Z from it, V cleared. Stores
(45_load_store_stack.md R290 to R295; 20_memory.md R65 b). Rests on the spec's general-knowledge supplement
(notes/assumptions/24.md). -/
def Obligations.StoresOfBytesAndWords : Prop :=
  ∀ (ea : EaFull) (s : State),
      (canWrite s.cfg (addressFull ea s) s.a = true → exec (.staa ea) s = .next
        { poke (addressFull ea s) s.a s with ccr := logicFlags8 s.a s.ccr, pc := next (.staa ea) s })
      ∧ (canWrite s.cfg (addressFull ea s) s.b = true → exec (.stab ea) s = .next
        { poke (addressFull ea s) s.b s with ccr := logicFlags8 s.b s.ccr, pc := next (.stab ea) s })
      ∧ (canWriteWord s.cfg (addressFull ea s) s.d = true → exec (.std ea) s = .next
        { pokeWord (addressFull ea s) s.d s with ccr := logicFlags16 s.d s.ccr, pc := next (.std ea) s })
      ∧ (canWriteWord s.cfg (addressFull ea s) s.sp = true → exec (.sts ea) s = .next
        { pokeWord (addressFull ea s) s.sp s with ccr := logicFlags16 s.sp s.ccr, pc := next (.sts ea) s })
      ∧ (canWriteWord s.cfg (addressFull ea s) s.ix = true → exec (.stx ea) s = .next
        { pokeWord (addressFull ea s) s.ix s with ccr := logicFlags16 s.ix s.ccr, pc := next (.stx ea) s })
      ∧ (canWriteWord s.cfg (addressFull ea s) s.iy = true → exec (.sty ea) s = .next
        { pokeWord (addressFull ea s) s.iy s with ccr := logicFlags16 s.iy s.ccr, pc := next (.sty ea) s })

/-- INC, DEC, NEG, COM, CLR and TST on a memory byte: one read, one write, and the flags. Read-modify-write instructions
and TST (40_arithmetic.md R140, R148, R155; 41_logic_compare.md R176, R181, R191). Rests on the spec's
general-knowledge supplement (notes/assumptions/24.md). -/
def Obligations.MemoryIncrementAndComplement : Prop :=
  ∀ (ea : EaExt) (s : State) (a : Word) (v : Byte), a = addressExt ea s → v = peek a s → canRead s.cfg a = true →
      (let r : Byte := v + 1;
        canWrite s.cfg a r = true → exec (.inc ea) s = .next
          { poke a r (touch a s) with
            ccr := { logicFlags8 r s.ccr with v := decide (127 < v.toInt + 1) }
            pc := next (.inc ea) s })
      ∧ (let r : Byte := v - 1;
        canWrite s.cfg a r = true → exec (.dec ea) s = .next
          { poke a r (touch a s) with
            ccr := { logicFlags8 r s.ccr with v := decide (v.toInt - 1 < -128) }
            pc := next (.dec ea) s })
      ∧ (let r : Byte := -v;
        canWrite s.cfg a r = true → exec (.neg ea) s = .next
          { poke a r (touch a s) with
            ccr := { logicFlags8 r s.ccr with v := decide (127 < -v.toInt), c := v != 0 }
            pc := next (.neg ea) s })
      ∧ (let r : Byte := ~~~v;
        canWrite s.cfg a r = true → exec (.com ea) s = .next
          { poke a r (touch a s) with
            ccr := { logicFlags8 r s.ccr with c := true }
            pc := next (.com ea) s })
      ∧ (let r : Byte := 0x00;
        canWrite s.cfg a r = true → exec (.clr ea) s = .next
          { poke a r (touch a s) with
            ccr := { logicFlags8 0x00 s.ccr with c := false }
            pc := next (.clr ea) s })
      ∧ exec (.tst ea) s = .next
        { touch a s with ccr := { logicFlags8 v s.ccr with c := false }, pc := next (.tst ea) s }

/-- INCA to TSTB on an accumulator, and the transfers TAB and TBA. Accumulator forms (files 40 and 41; also
41_logic_compare.md R192, R193) and transfers (45_load_store_stack.md R296, R297). Rests on the spec's
general-knowledge supplement (notes/assumptions/24.md). -/
def Obligations.AccumulatorIncrementAndComplement : Prop :=
  ∀ s : State,
      exec .inca s = .next
        { s with
          a := s.a + 1, ccr := { logicFlags8 (s.a + 1) s.ccr with v := decide (127 < s.a.toInt + 1) }
          pc := s.pc + 1 }
      ∧ exec .deca s = .next
        { s with
          a := s.a - 1, ccr := { logicFlags8 (s.a - 1) s.ccr with v := decide (s.a.toInt - 1 < -128) }
          pc := s.pc + 1 }
      ∧ exec .nega s = .next
        { s with
          a := -s.a, ccr := { logicFlags8 (-s.a) s.ccr with v := decide (127 < -s.a.toInt), c := s.a != 0 }
          pc := s.pc + 1 }
      ∧ exec .coma s = .next
        { s with
          a := ~~~s.a, ccr := { logicFlags8 (~~~s.a) s.ccr with c := true }
          pc := s.pc + 1 }
      ∧ exec .clra s = .next { s with a := 0x00, ccr := { logicFlags8 0x00 s.ccr with c := false }, pc := s.pc + 1 }
      ∧ exec .tsta s = .next { s with ccr := { logicFlags8 s.a s.ccr with c := false }, pc := s.pc + 1 }
      ∧ exec .incb s = .next
        { s with
          b := s.b + 1, ccr := { logicFlags8 (s.b + 1) s.ccr with v := decide (127 < s.b.toInt + 1) }
          pc := s.pc + 1 }
      ∧ exec .decb s = .next
        { s with
          b := s.b - 1, ccr := { logicFlags8 (s.b - 1) s.ccr with v := decide (s.b.toInt - 1 < -128) }
          pc := s.pc + 1 }
      ∧ exec .negb s = .next
        { s with
          b := -s.b, ccr := { logicFlags8 (-s.b) s.ccr with v := decide (127 < -s.b.toInt), c := s.b != 0 }
          pc := s.pc + 1 }
      ∧ exec .comb s = .next
        { s with
          b := ~~~s.b, ccr := { logicFlags8 (~~~s.b) s.ccr with c := true }
          pc := s.pc + 1 }
      ∧ exec .clrb s = .next { s with b := 0x00, ccr := { logicFlags8 0x00 s.ccr with c := false }, pc := s.pc + 1 }
      ∧ exec .tstb s = .next { s with ccr := { logicFlags8 s.b s.ccr with c := false }, pc := s.pc + 1 }
      ∧ exec .tab s = .next { s with b := s.a, ccr := logicFlags8 s.a s.ccr, pc := s.pc + 1 }
      ∧ exec .tba s = .next { s with a := s.b, ccr := logicFlags8 s.b s.ccr, pc := s.pc + 1 }

/-- ASL, LSL, ASR, LSR, ROL and ROR on a memory byte, as doubling and halving. Memory shifts (42_shift_rotate.md, flag law
10_state.md R33). Rests on the spec's general-knowledge supplement (notes/assumptions/24.md). -/
def Obligations.MemoryShiftsAndRotates : Prop :=
  ∀ (ea : EaExt) (s : State) (a : Word) (v : Byte), a = addressExt ea s → v = peek a s → canRead s.cfg a = true →
      (let r : Byte := v + v;
        canWrite s.cfg a r = true → exec (.asl ea) s = .next
          { poke a r (touch a s) with
            ccr := shiftFlags8 r v.msb s.ccr
            pc := next (.asl ea) s })
      ∧ (let r : Byte := v + v;
        canWrite s.cfg a r = true → exec (.lsl ea) s = .next
          { poke a r (touch a s) with
            ccr := shiftFlags8 r v.msb s.ccr
            pc := next (.lsl ea) s })
      ∧ (let r : Byte := v.sshiftRight 1;
        canWrite s.cfg a r = true → exec (.asr ea) s = .next
          { poke a r (touch a s) with
            ccr := shiftFlags8 r (decide (v.toNat % 2 = 1)) s.ccr
            pc := next (.asr ea) s })
      ∧ (let r : Byte := BitVec.ofNat 8 (v.toNat / 2);
        canWrite s.cfg a r = true → exec (.lsr ea) s = .next
          { poke a r (touch a s) with
            ccr := shiftFlags8 r (decide (v.toNat % 2 = 1)) s.ccr
            pc := next (.lsr ea) s })
      ∧ (let r : Byte := v + v + bitByte s.ccr.c;
        canWrite s.cfg a r = true → exec (.rol ea) s = .next
          { poke a r (touch a s) with
            ccr := shiftFlags8 r v.msb s.ccr
            pc := next (.rol ea) s })
      ∧ (let r : Byte := BitVec.ofNat 8 (v.toNat / 2 + 128 * s.ccr.c.toNat);
        canWrite s.cfg a r = true → exec (.ror ea) s = .next
          { poke a r (touch a s) with
            ccr := shiftFlags8 r (decide (v.toNat % 2 = 1)) s.ccr
            pc := next (.ror ea) s })

/-- The shifts and rotates of A, B and D, as doubling and halving. Accumulator shifts (42_shift_rotate.md R202 to R221,
flag law 10_state.md R33). Rests on the spec's general-knowledge supplement (notes/assumptions/24.md). -/
def Obligations.AccumulatorShiftsAndRotates : Prop :=
  ∀ s : State,
      (let r : Byte := s.a + s.a;
        exec .asla s = .next { s with a := r, ccr := shiftFlags8 r s.a.msb s.ccr, pc := s.pc + 1 })
      ∧ (let r : Byte := s.a + s.a;
        exec .lsla s = .next { s with a := r, ccr := shiftFlags8 r s.a.msb s.ccr, pc := s.pc + 1 })
      ∧ (let r : Byte := s.a.sshiftRight 1;
        exec .asra s = .next { s with a := r, ccr := shiftFlags8 r (decide (s.a.toNat % 2 = 1)) s.ccr, pc := s.pc + 1 })
      ∧ (let r : Byte := BitVec.ofNat 8 (s.a.toNat / 2);
        exec .lsra s = .next { s with a := r, ccr := shiftFlags8 r (decide (s.a.toNat % 2 = 1)) s.ccr, pc := s.pc + 1 })
      ∧ (let r : Byte := s.a + s.a + bitByte s.ccr.c;
        exec .rola s = .next { s with a := r, ccr := shiftFlags8 r s.a.msb s.ccr, pc := s.pc + 1 })
      ∧ (let r : Byte := BitVec.ofNat 8 (s.a.toNat / 2 + 128 * s.ccr.c.toNat);
        exec .rora s = .next { s with a := r, ccr := shiftFlags8 r (decide (s.a.toNat % 2 = 1)) s.ccr, pc := s.pc + 1 })
      ∧ (let r : Byte := s.b + s.b;
        exec .aslb s = .next { s with b := r, ccr := shiftFlags8 r s.b.msb s.ccr, pc := s.pc + 1 })
      ∧ (let r : Byte := s.b + s.b;
        exec .lslb s = .next { s with b := r, ccr := shiftFlags8 r s.b.msb s.ccr, pc := s.pc + 1 })
      ∧ (let r : Byte := s.b.sshiftRight 1;
        exec .asrb s = .next { s with b := r, ccr := shiftFlags8 r (decide (s.b.toNat % 2 = 1)) s.ccr, pc := s.pc + 1 })
      ∧ (let r : Byte := BitVec.ofNat 8 (s.b.toNat / 2);
        exec .lsrb s = .next { s with b := r, ccr := shiftFlags8 r (decide (s.b.toNat % 2 = 1)) s.ccr, pc := s.pc + 1 })
      ∧ (let r : Byte := s.b + s.b + bitByte s.ccr.c;
        exec .rolb s = .next { s with b := r, ccr := shiftFlags8 r s.b.msb s.ccr, pc := s.pc + 1 })
      ∧ (let r : Byte := BitVec.ofNat 8 (s.b.toNat / 2 + 128 * s.ccr.c.toNat);
        exec .rorb s = .next { s with b := r, ccr := shiftFlags8 r (decide (s.b.toNat % 2 = 1)) s.ccr, pc := s.pc + 1 })
      ∧ exec .asld s = .next
        { s with
          a := highByte (s.d + s.d)
          b := lowByte (s.d + s.d)
          ccr := shiftFlags16 (s.d + s.d) s.d.msb s.ccr
          pc := s.pc + 1 }
      ∧ exec .lsld s = .next
        { s with
          a := highByte (s.d + s.d)
          b := lowByte (s.d + s.d)
          ccr := shiftFlags16 (s.d + s.d) s.d.msb s.ccr
          pc := s.pc + 1 }
      ∧ exec .lsrd s = .next
        { s with
          a := highByte (BitVec.ofNat 16 (s.d.toNat / 2))
          b := lowByte (BitVec.ofNat 16 (s.d.toNat / 2))
          ccr := shiftFlags16 (BitVec.ofNat 16 (s.d.toNat / 2)) (decide (s.d.toNat % 2 = 1)) s.ccr
          pc := s.pc + 1 }

/-- ABX, ABY, DES and INS: B unsigned is added to the index register, SP moves by one, no flag. ABX, ABY, DES, INS
(40_arithmetic.md R132, R133, R143, R151). -/
def Obligations.PointerArithmeticWithoutFlags : Prop :=
  (encode .abx = [0x3A] ∧ encode .aby = [0x18, 0x3A] ∧ encode .des = [0x34] ∧ encode .ins = [0x31])
    ∧ ∀ s : State,
      exec .abx s = .next { s with ix := BitVec.ofNat 16 (s.ix.toNat + s.b.toNat), pc := s.pc + 1 }
      ∧ exec .aby s = .next { s with iy := BitVec.ofNat 16 (s.iy.toNat + s.b.toNat), pc := s.pc + 2 }
      ∧ exec .des s = .next { s with sp := BitVec.ofInt 16 (s.sp.toNat - 1), pc := s.pc + 1 }
      ∧ exec .ins s = .next { s with sp := BitVec.ofNat 16 (s.sp.toNat + 1), pc := s.pc + 1 }

/-- ADDD and SUBD with the flags by exact ranges; INX, INY, DEX and DEY with Z alone. 16-bit arithmetic (40_arithmetic.md
R138, R163; 10_state.md R32) and index counts (R144, R145, R152, R153). Rests on the spec's general-knowledge
supplement (notes/assumptions/24.md). -/
def Obligations.ArithmeticOfWords : Prop :=
  (∀ (m : Operand16) (s : State), readable16 m s = true →
      exec (.addd m) s = .next
        { after16 m s with
          a := highByte (s.d + value16 m s)
          b := lowByte (s.d + value16 m s)
          ccr := addFlags16 s.d (value16 m s) s.ccr
          pc := next (.addd m) s }
      ∧ exec (.subd m) s = .next
        { after16 m s with
          a := highByte (s.d - value16 m s)
          b := lowByte (s.d - value16 m s)
          ccr := subFlags16 s.d (value16 m s) s.ccr
          pc := next (.subd m) s })
    ∧ ∀ s : State,
      exec .dex s = .next
        { s with ix := s.ix - 1, ccr := { s.ccr with z := decide (s.ix.toNat = 1) }, pc := s.pc + 1 }
      ∧ exec .dey s = .next
        { s with iy := s.iy - 1, ccr := { s.ccr with z := decide (s.iy.toNat = 1) }, pc := s.pc + 2 }
      ∧ exec .inx s = .next
        { s with ix := s.ix + 1, ccr := { s.ccr with z := decide (s.ix.toNat = 65535) }, pc := s.pc + 1 }
      ∧ exec .iny s = .next
        { s with iy := s.iy + 1, ccr := { s.ccr with z := decide (s.iy.toNat = 65535) }, pc := s.pc + 2 }

/-- TSX, TSY, TXS, TYS with their offset of one, and the exchanges XGDX and XGDY. Transfers and exchanges
(45_load_store_stack.md R298 to R303). What TXS and TYS do to the record of R465, the model's own field, is in
ControlFrameOfEveryInstruction. -/
def Obligations.StackPointerTransfersAndExchanges : Prop :=
  (encode .tsx = [0x30] ∧ encode .tsy = [0x18, 0x30] ∧ encode .txs = [0x35] ∧ encode .tys = [0x18, 0x35]
      ∧ encode .xgdx = [0x8F] ∧ encode .xgdy = [0x18, 0x8F])
    ∧ ∀ s : State,
      exec .tsx s = .next { s with ix := BitVec.ofNat 16 (s.sp.toNat + 1), pc := s.pc + 1 }
      ∧ exec .tsy s = .next { s with iy := BitVec.ofNat 16 (s.sp.toNat + 1), pc := s.pc + 2 }
      ∧ (∃ w, exec .txs s = .next
        { s with sp := BitVec.ofInt 16 (s.ix.toNat - 1), spWritten := w, pc := s.pc + 1 })
      ∧ (∃ w, exec .tys s = .next
        { s with sp := BitVec.ofInt 16 (s.iy.toNat - 1), spWritten := w, pc := s.pc + 2 })
      ∧ exec .xgdx s = .next
        { s with a := highByte s.ix, b := lowByte s.ix, ix := joinBytes s.a s.b, pc := s.pc + 1 }
      ∧ exec .xgdy s = .next
        { s with a := highByte s.iy, b := lowByte s.iy, iy := joinBytes s.a s.b, pc := s.pc + 2 }

/-- CLC, CLV, SEC, SEI and SEV write their one flag and nothing else. Flag instructions (44_bit_ccr.md R263, R265 to
R268); that I masks the maskable interrupts (R402). Rests on the spec's general-knowledge supplement
(notes/assumptions/24.md). -/
def Obligations.FlagInstructionsWriteOneFlag : Prop :=
  (encode .clc = [0x0C] ∧ encode .clv = [0x0A] ∧ encode .sec = [0x0D] ∧ encode .sei = [0x0F] ∧ encode .sev = [0x0B])
    ∧ ∀ s : State,
      exec .clc s = .next { s with ccr := { s.ccr with c := false }, pc := s.pc + 1 }
      ∧ exec .clv s = .next { s with ccr := { s.ccr with v := false }, pc := s.pc + 1 }
      ∧ exec .sec s = .next { s with ccr := { s.ccr with c := true }, pc := s.pc + 1 }
      ∧ exec .sei s = .next { s with ccr := { s.ccr with i := true }, pc := s.pc + 1 }
      ∧ exec .sev s = .next { s with ccr := { s.ccr with v := true }, pc := s.pc + 1 }
      ∧ (s.ccr.i = true → recognised s = none ∨ recognised s = some .xirq)

/-- TAP, TPA and CLI: the eight bits in their places, X only cleared, and the one-instruction delay. CLI, TAP, TPA
(44_bit_ccr.md R264, R269, R270) and the layout of the register (10_state.md R27). Rests on the spec's
general-knowledge supplement (notes/assumptions/24.md). -/
def Obligations.StatusTransfersAndCli : Prop :=
  ∀ s : State,
    (∃ v : Byte, exec .tpa s = .next { s with a := v, pc := s.pc + 1 }
      ∧ v.getLsbD 7 = s.ccr.s ∧ v.getLsbD 6 = s.ccr.x ∧ v.getLsbD 5 = s.ccr.h ∧ v.getLsbD 4 = s.ccr.i
      ∧ v.getLsbD 3 = s.ccr.n ∧ v.getLsbD 2 = s.ccr.z ∧ v.getLsbD 1 = s.ccr.v ∧ v.getLsbD 0 = s.ccr.c)
    ∧ exec .tap s = .next
      { s with
        ccr := { s := s.a.getLsbD 7, x := s.ccr.x && s.a.getLsbD 6, h := s.a.getLsbD 5, i := s.a.getLsbD 4
                 n := s.a.getLsbD 3, z := s.a.getLsbD 2, v := s.a.getLsbD 1, c := s.a.getLsbD 0 }
        iDelay := s.iDelay || (s.ccr.i && !s.a.getLsbD 4)
        pc := s.pc + 1 }
    ∧ exec .cli s = .next
      { s with ccr := { s.ccr with i := false }, iDelay := s.iDelay || s.ccr.i, pc := s.pc + 1 }
    ∧ (∀ t u, exec .tpa s = .next t → exec .tap t = .next u → u.ccr = s.ccr ∧ u.iDelay = s.iDelay)

/-- MUL: the exact product; IDIV and FDIV: quotient and remainder by the division identity. MUL, FDIV, IDIV
(40_arithmetic.md R154, R146, R147). The remainder the rules leave undefined is a free value
(notes/assumptions/22.md), of which nothing is said. Rests on the spec's general-knowledge supplement
(notes/assumptions/24.md). -/
def Obligations.ProductAndDivisions : Prop :=
  ∀ s : State, ∃ p q r q' r' : Word,
    exec .mul s = .next
      { s with a := highByte p, b := lowByte p, ccr := { s.ccr with c := p.getLsbD 7 }, pc := s.pc + 1 }
    ∧ p.toNat = s.a.toNat * s.b.toNat
    ∧ exec .idiv s = .next
      { s with
        ix := q, a := highByte r, b := lowByte r
        ccr := { s.ccr with z := decide (q = 0), v := false, c := decide (s.ix = 0) }
        draws := s.draws + 1, pc := s.pc + 1 }
    ∧ (s.ix ≠ 0 → q.toNat * s.ix.toNat + r.toNat = s.d.toNat ∧ r.toNat < s.ix.toNat)
    ∧ (s.ix = 0 → q = 0xFFFF)
    ∧ exec .fdiv s = .next
      { s with
        ix := q', a := highByte r', b := lowByte r'
        ccr := { s.ccr with z := decide (q' = 0), v := decide (s.ix.toNat ≤ s.d.toNat), c := decide (s.ix = 0) }
        draws := s.draws + 1, pc := s.pc + 1 }
    ∧ (s.d.toNat < s.ix.toNat →
      q'.toNat * s.ix.toNat + r'.toNat = 65536 * s.d.toNat ∧ r'.toNat < s.ix.toNat)
    ∧ (s.ix.toNat ≤ s.d.toNat → q' = 0xFFFF)

/-- DAA completes on any A, H and C, and ADCA then DAA adds two decimal numbers. What DAA is for (40_arithmetic.md R139):
the decimal sum, over all pairs of two-digit numbers, and its result on any A (decision D18). V is a free value
(notes/assumptions/22.md). Rests on the spec's general-knowledge supplement (notes/assumptions/24.md). -/
def Obligations.DecimalAdditionIsExact : Prop :=
  (∀ s : State, ∃ v : Bool,
      let high := s.ccr.c || decide (0x99 < s.a.toNat)
      let r := BitVec.ofNat 8
        (s.a.toNat + (if s.ccr.h ∨ 9 < s.a.toNat % 16 then 6 else 0) + (if high then 96 else 0))
      exec .daa s = .next
        { s with
          a := r, ccr := { s.ccr with n := r.msb, z := r == 0, v := v, c := high }
          draws := s.draws + 1, pc := s.pc + 1 })
    ∧ ∀ (m : Operand8) (s t u : State), isDecimal s.a = true → isDecimal (value8 m s) = true →
      exec (.adca m) s = .next t → exec .daa t = .next u →
      isDecimal u.a = true
      ∧ decimalValue u.a + 100 * u.ccr.c.toNat = decimalValue s.a + decimalValue (value8 m s) + s.ccr.c.toNat

/-- The eighteen two-byte branches: taken on their condition, to NEXT plus the signed offset. Branches (43_branch_jump.md
R230, R232 to R246, R248, R251, R252). The conditions are the source's; the offset rule is decision D16. Rests on the
spec's general-knowledge supplement (notes/assumptions/24.md). -/
def Obligations.ConditionalBranchesGoToTheSignedOffset : Prop :=
  ∀ (rr : Byte) (s : State),
      exec (.bcc rr) s = .next (branched (!s.ccr.c) rr s)
      ∧ exec (.bhs rr) s = .next (branched (!s.ccr.c) rr s)
      ∧ exec (.bcs rr) s = .next (branched (s.ccr.c) rr s)
      ∧ exec (.blo rr) s = .next (branched (s.ccr.c) rr s)
      ∧ exec (.beq rr) s = .next (branched (s.ccr.z) rr s)
      ∧ exec (.bne rr) s = .next (branched (!s.ccr.z) rr s)
      ∧ exec (.bmi rr) s = .next (branched (s.ccr.n) rr s)
      ∧ exec (.bpl rr) s = .next (branched (!s.ccr.n) rr s)
      ∧ exec (.bvs rr) s = .next (branched (s.ccr.v) rr s)
      ∧ exec (.bvc rr) s = .next (branched (!s.ccr.v) rr s)
      ∧ exec (.bge rr) s = .next (branched (s.ccr.n == s.ccr.v) rr s)
      ∧ exec (.blt rr) s = .next (branched (s.ccr.n != s.ccr.v) rr s)
      ∧ exec (.bgt rr) s = .next (branched (!s.ccr.z && s.ccr.n == s.ccr.v) rr s)
      ∧ exec (.ble rr) s = .next (branched (s.ccr.z || s.ccr.n != s.ccr.v) rr s)
      ∧ exec (.bhi rr) s = .next (branched (!s.ccr.c && !s.ccr.z) rr s)
      ∧ exec (.bls rr) s = .next (branched (s.ccr.c || s.ccr.z) rr s)
      ∧ exec (.bra rr) s = .next (branched true rr s)
      ∧ exec (.brn rr) s = .next (branched false rr s)

/-- BRCLR and BRSET: taken when the masked bits are all 0, or all 1, after one read. BRCLR, BRSET (43_branch_jump.md R247,
R249, 90_conflicts.md C13). Rests on the spec's general-knowledge supplement (notes/assumptions/24.md). -/
def Obligations.BitBranchesReadTheByteOnce : Prop :=
  ∀ (ea : EaBit) (mm rr : Byte) (s : State) (a : Word), a = addressBit ea s → canRead s.cfg a = true →
      exec (.brclr ea mm rr) s = .next
        { touch a s with
          pc := if peek a s &&& mm = 0 then relativeTarget (next (.brclr ea mm rr) s) rr
            else next (.brclr ea mm rr) s }
      ∧ exec (.brset ea mm rr) s = .next
        { touch a s with
          pc := if peek a s &&& mm = mm then relativeTarget (next (.brset ea mm rr) s) rr
            else next (.brset ea mm rr) s }

/-- JMP, JSR, BSR and RTS: the target, and the return address on the stack. Jumps, calls, returns (43_branch_jump.md R250,
R253 to R255; 10_state.md R25). Rests on the spec's general-knowledge supplement (notes/assumptions/24.md). -/
def Obligations.JumpsCallsAndReturns : Prop :=
  ∀ s : State,
      (∀ ea, exec (.jmp ea) s = .next { s with pc := addressExt ea s })
      ∧ (∀ ea, canPush s.cfg (wordBytes (next (.jsr ea) s)) s.sp = true →
        exec (.jsr ea) s = .next { pushed (wordBytes (next (.jsr ea) s)) s with pc := addressFull ea s })
      ∧ (∀ rr, canPush s.cfg (wordBytes (s.pc + 2)) s.sp = true →
        exec (.bsr rr) s = .next { pushed (wordBytes (s.pc + 2)) s with pc := relativeTarget (s.pc + 2) rr })
      ∧ (canPull s.cfg 2 s.sp = true →
        exec .rts s = .next { pulled 2 s with pc := joinBytes (pulledByte 0 s) (pulledByte 1 s) })

/-- BCLR and BSET: the masked bits of a memory byte, by one read and one write. BCLR, BSET (44_bit_ccr.md R261, R262).
Rests on the spec's general-knowledge supplement (notes/assumptions/24.md). -/
def Obligations.BitClearAndBitSetInMemory : Prop :=
  ∀ (ea : EaBit) (mm : Byte) (s : State) (a : Word), a = addressBit ea s → canRead s.cfg a = true →
      ∀ r : Byte,
      ((∀ k, k < 8 → r.getLsbD k = ((peek a s).getLsbD k && !mm.getLsbD k)) → canWrite s.cfg a r = true →
        exec (.bclr ea mm) s = .next
          { poke a r (touch a s) with ccr := logicFlags8 r s.ccr, pc := next (.bclr ea mm) s })
      ∧ ((∀ k, k < 8 → r.getLsbD k = ((peek a s).getLsbD k || mm.getLsbD k)) → canWrite s.cfg a r = true →
        exec (.bset ea mm) s = .next
          { poke a r (touch a s) with ccr := logicFlags8 r s.ccr, pc := next (.bset ea mm) s })

/-- PSHA, PSHB, PSHX and PSHY: the byte at the old SP, the low byte of a word first, no flag. Pushes
(45_load_store_stack.md R282 to R285); the codes 3C and 18 3C are restored cells of 30_encoding.md R104. Rests on the
spec's general-knowledge supplement (notes/assumptions/24.md). -/
def Obligations.PushesStoreAtTheOldStackPointer : Prop :=
  (encode .psha = [0x36] ∧ encode .pshb = [0x37] ∧ encode .pshx = [0x3C] ∧ encode .pshy = [0x18, 0x3C])
    ∧ ∀ s : State,
      (canWrite s.cfg s.sp s.a = true →
        exec .psha s = .next { poke s.sp s.a s with sp := s.sp - 1, pc := s.pc + 1 })
      ∧ (canWrite s.cfg s.sp s.b = true →
        exec .pshb s = .next { poke s.sp s.b s with sp := s.sp - 1, pc := s.pc + 1 })
      ∧ (canWrite s.cfg s.sp (lowByte s.ix) = true → canWrite s.cfg (s.sp - 1) (highByte s.ix) = true →
        exec .pshx s = .next
          { poke (s.sp - 1) (highByte s.ix) (poke s.sp (lowByte s.ix) s) with sp := s.sp - 2, pc := s.pc + 1 })
      ∧ (canWrite s.cfg s.sp (lowByte s.iy) = true → canWrite s.cfg (s.sp - 1) (highByte s.iy) = true →
        exec .pshy s = .next
          { poke (s.sp - 1) (highByte s.iy) (poke s.sp (lowByte s.iy) s) with sp := s.sp - 2, pc := s.pc + 2 })

/-- PULA, PULB, PULX and PULY: SP rises first, the high byte of a word first, no flag. Pulls (45_load_store_stack.md R286
to R289). -/
def Obligations.PullsReadAtTheNewStackPointer : Prop :=
  (encode .pula = [0x32] ∧ encode .pulb = [0x33] ∧ encode .pulx = [0x38] ∧ encode .puly = [0x18, 0x38])
    ∧ ∀ s : State,
      (canRead s.cfg (s.sp + 1) = true → exec .pula s = .next
        { touch (s.sp + 1) s with a := peek (s.sp + 1) s, sp := s.sp + 1, pc := s.pc + 1 })
      ∧ (canRead s.cfg (s.sp + 1) = true → exec .pulb s = .next
        { touch (s.sp + 1) s with b := peek (s.sp + 1) s, sp := s.sp + 1, pc := s.pc + 1 })
      ∧ (canRead s.cfg (s.sp + 1) = true → canRead s.cfg (s.sp + 2) = true → exec .pulx s = .next
        { touch (s.sp + 2) (touch (s.sp + 1) s) with
          ix := joinBytes (peek (s.sp + 1) s) (peek (s.sp + 2) (touch (s.sp + 1) s))
          sp := s.sp + 2
          pc := s.pc + 1 })
      ∧ (canRead s.cfg (s.sp + 1) = true → canRead s.cfg (s.sp + 2) = true → exec .puly s = .next
        { touch (s.sp + 2) (touch (s.sp + 1) s) with
          iy := joinBytes (peek (s.sp + 1) s) (peek (s.sp + 2) (touch (s.sp + 1) s))
          sp := s.sp + 2
          pc := s.pc + 2 })

/-- NOP, STOP and WAI: nothing, the STOP state unless S = 1, and the WAIT state with nine bytes stacked. NOP, STOP, WAI
(46_system.md R311, R313, R316). Rests on the spec's general-knowledge supplement (notes/assumptions/24.md). -/
def Obligations.NopStopAndWai : Prop :=
  ∀ s : State,
      exec .nop s = .next { s with pc := s.pc + 1 }
      ∧ (s.ccr.s = true → exec .stop s = .next { s with pc := s.pc + 1 })
      ∧ (s.ccr.s = false → exec .stop s = .next { s with pc := s.pc + 1, runState := .stop })
      ∧ (canPush s.cfg (frameBytes (s.pc + 1) s) s.sp = true →
        exec .wai s = .next { pushed (frameBytes (s.pc + 1) s) s with pc := s.pc + 1, runState := .wait })

/-- SWI and TEST take their traps, and RTI restores the nine bytes. SWI, TEST, RTI (46_system.md R312, R314, R315;
60_exceptions.md R410, R412; notes/assumptions/14.md). Rests on the spec's general-knowledge supplement
(notes/assumptions/24.md). -/
def Obligations.SoftwareTrapsAndTrapReturn : Prop :=
  ∀ s : State,
      (canEnter .swi (s.pc + 1) s = true → exec .swi s = .next (entered .swi (s.pc + 1) s))
      ∧ (s.cfg.illegalOpcode = .trap → canEnter .illop s.pc s = true → exec .test s = .next (entered .illop s.pc s))
      ∧ (s.cfg.illegalOpcode = .fault → exec .test s = .fault .illegalOpcode)
      ∧ (canPull s.cfg 9 s.sp = true → exec .rti s = .next (returned s) ∧ (returned s).sp = s.sp + 9)
      ∧ (∀ rest, decode (fetchWindow s) = .instr .swi rest → vectorOf s.cfg .swi ∈ usableVectors s)
      ∧ (∀ rest, decode (fetchWindow s) = .instr .test rest → s.cfg.illegalOpcode = .trap →
        vectorOf s.cfg .illop ∈ usableVectors s)

/-- After a compare or a subtraction the branches are the unsigned and signed orders of the two numbers. The conditions as
relations (43_branch_jump.md R231). Rests on the spec's general-knowledge supplement (notes/assumptions/24.md). -/
def Obligations.BranchesAfterACompareAreTheOrders : Prop :=
  ∀ s t : State,
    ((exec .cba s = .next t ∨ exec .sba s = .next t) →
      BranchesAgree (decide (s.a.toNat < s.b.toNat)) (decide (s.a = s.b))
        (decide (s.a.toInt < s.b.toInt)) t)
    ∧ (∀ m, (exec (.cmpa m) s = .next t ∨ exec (.suba m) s = .next t) →
      BranchesAgree (decide (s.a.toNat < (value8 m s).toNat)) (decide (s.a = (value8 m s)))
        (decide (s.a.toInt < (value8 m s).toInt)) t)
    ∧ (∀ m, (exec (.cmpb m) s = .next t ∨ exec (.subb m) s = .next t) →
      BranchesAgree (decide (s.b.toNat < (value8 m s).toNat)) (decide (s.b = (value8 m s)))
        (decide (s.b.toInt < (value8 m s).toInt)) t)
    ∧ (∀ m, (exec (.cpd m) s = .next t ∨ exec (.subd m) s = .next t) →
      BranchesAgree (decide (s.d.toNat < (value16 m s).toNat)) (decide (s.d = (value16 m s)))
        (decide (s.d.toInt < (value16 m s).toInt)) t)
    ∧ (∀ m, exec (.cpx m) s = .next t →
      BranchesAgree (decide (s.ix.toNat < (value16 m s).toNat)) (decide (s.ix = (value16 m s)))
        (decide (s.ix.toInt < (value16 m s).toInt)) t)
    ∧ (∀ m, exec (.cpy m) s = .next t →
      BranchesAgree (decide (s.iy.toNat < (value16 m s).toNat)) (decide (s.iy = (value16 m s)))
        (decide (s.iy.toInt < (value16 m s).toInt)) t)

/-- A subroutine that keeps SP and its two stack bytes returns to the instruction after the call. Call and return
(43_branch_jump.md R250, R254, R255). Rests on the spec's general-knowledge supplement (notes/assumptions/24.md). -/
def Obligations.SubroutineReturnsToItsCall : Prop :=
  ∀ (i : Instr) (s : State), ((∃ ea, i = .jsr ea) ∨ ∃ rr, i = .bsr rr) → s.mem.wf = true →
    ramFrom s.cfg 2 (s.sp - 1) = true →
    ∃ t, exec i s = .next t ∧ t.sp = s.sp - 2
      ∧ ∀ u : State, u.sp = t.sp → u.cfg = t.cfg → u.mem.get s.sp.toNat = t.mem.get s.sp.toNat →
        u.mem.get (s.sp - 1).toNat = t.mem.get (s.sp - 1).toNat →
        exec .rts u = .next { u with sp := s.sp, pc := next i s }

/-- The nine bytes a handler finds above SP, and the state it starts in. The frame (60_exceptions.md R410, R411), the
vector read at every entry (R418; the record of initialised addresses is the model's own field
(notes/assumptions/4.md)) and the vector table (R404, decision D5; SCI and SPI are the source's, the default of the
others is notes/assumptions/3.md). Rests on the spec's general-knowledge supplement (notes/assumptions/24.md). -/
def Obligations.TrapFrameLayout : Prop :=
  Config.standard.vectors = { reset := 0xFFFE, xirq := 0xFFF4, irq := 0xFFF2, swi := 0xFFF6, illop := 0xFFF8 }
    ∧ ∀ (name : TrapName) (ret : Word) (s t : State), s.mem.wf = true → ramFrom s.cfg 9 (s.sp - 8) = true →
    t = entered name ret s →
    t.sp = s.sp - 9
    ∧ t.mem.get (t.sp + 1).toNat = s.ccr.toByte
    ∧ t.mem.get (t.sp + 2).toNat = s.b
    ∧ t.mem.get (t.sp + 3).toNat = s.a
    ∧ wordAt t.mem (t.sp + 4) = s.ix
    ∧ wordAt t.mem (t.sp + 6) = s.iy
    ∧ wordAt t.mem (t.sp + 8) = ret
    ∧ t.a = s.a ∧ t.b = s.b ∧ t.ix = s.ix ∧ t.iy = s.iy
    ∧ t.ccr = { s.ccr with i := true, x := decide (name = .xirq) || s.ccr.x }
    ∧ t.iDelay = false ∧ t.runState = s.runState
    ∧ (let vector : Word := match name with
      | .sci => 0xFFD6
      | .spi => 0xFFD8
      | .irq => s.cfg.vectors.irq
      | .xirq => s.cfg.vectors.xirq
      | .swi => s.cfg.vectors.swi
      | .illop => s.cfg.vectors.illop
      (wordInMemory s.cfg vector = true → t.pc = wordAt t.mem vector)
      ∧ (vectorInitialised s vector = true → t.pc = wordAt t.mem vector ∧ vectorInitialised t vector = true))

/-- A handler that keeps SP and its nine stack bytes returns to the interrupted program. Trap return (60_exceptions.md
R412). Rests on the spec's general-knowledge supplement (notes/assumptions/24.md). -/
def Obligations.TrapReturnUndoesTheTrap : Prop :=
  ∀ (name : TrapName) (ret : Word) (s u : State), s.mem.wf = true → ramFrom s.cfg 9 (s.sp - 8) = true →
    u.sp = s.sp - 9 → u.cfg = s.cfg →
    (∀ k, 1 ≤ k → k ≤ 9 → u.mem.get (u.sp + BitVec.ofNat 16 k).toNat
      = (entered name ret s).mem.get (u.sp + BitVec.ofNat 16 k).toNat) →
    exec .rti u = .next
      { u with
        a := s.a, b := s.b, ix := s.ix, iy := s.iy, sp := s.sp, pc := ret
        ccr := { s.ccr with x := u.ccr.x && s.ccr.x } }

/-- While running: reset first, then XIRQ, IRQ, SPI, SCI, each where it is requested and not masked. Recognition and
priority (60_exceptions.md R403, R406). Rests on the spec's general-knowledge supplement (notes/assumptions/24.md). -/
def Obligations.InterruptsAreTakenInTheirOrder : Prop :=
  ∀ s : State, s.Running →
    let spi := s.spi.spie && (s.spi.spif || s.spi.modf)
    let sci := (s.sci.tie && s.sci.tdre) || (s.sci.tcie && s.sci.tc)
      || (s.sci.rie && (s.sci.rdrf || s.sci.overrun)) || (s.sci.ilie && s.sci.idle)
    let xirq := s.pins.xirq && !s.ccr.x
    let open_ := !xirq && !s.ccr.i && !s.iDelay
    (xirq = true → canEnter .xirq s.pc s = true → step s = .next (entered .xirq s.pc s))
    ∧ ((open_ && s.pins.irq) = true → canEnter .irq s.pc s = true → step s = .next (entered .irq s.pc s))
    ∧ ((open_ && !s.pins.irq && spi) = true → canEnter .spi s.pc s = true → step s = .next (entered .spi s.pc s))
    ∧ ((open_ && !s.pins.irq && !spi && sci) = true → canEnter .sci s.pc s = true →
      step s = .next (entered .sci s.pc s))
    ∧ ((!xirq && !(open_ && (s.pins.irq || spi || sci))) = true → recognised s = none)
    ∧ (∀ n, recognised s = some n → vectorOf s.cfg n ∈ usableVectors s)

/-- The instruction after CLI runs before any pending maskable interrupt. The one-instruction delay (44_bit_ccr.md R264,
60_exceptions.md R406). Rests on the spec's general-knowledge supplement (notes/assumptions/24.md). -/
def Obligations.InstructionAfterCliRunsFirst : Prop :=
  ∀ (s : State) (rest : List Byte), s.Running → recognised s = none →
    decode (fetchWindow s) = .instr .cli rest → s.ccr.i = true → s.iDelay = false →
    ∃ t, step s = .next t ∧ t.ccr.i = false ∧ t.iDelay = true ∧ t.pc = s.pc + 1
      ∧ ∀ (i : Instr) (rest' : List Byte) (u : State), decode (fetchWindow t) = .instr i rest' → exec i t = .next u →
        step t = .next { u with iDelay := false }

/-- In WAIT the first unmasked request ends the wait without a second frame; else nothing moves. Leaving WAIT
(60_exceptions.md R421). Rests on the spec's general-knowledge supplement (notes/assumptions/24.md). -/
def Obligations.WaitEndsWithoutStackingAgain : Prop :=
  ∀ s : State, s.turns = [] → s.runState = .wait → s.pins.reset = false →
    let xirq := s.pins.xirq && !s.ccr.x
    let open_ := !xirq && !s.ccr.i
    let name : Option TrapName :=
      if xirq then some .xirq
      else if open_ && s.pins.irq then some .irq
      else if open_ && s.spi.request then some .spi
      else if open_ && s.sci.request then some .sci
      else none
    (name = none → step s = .next s)
    ∧ ∀ n, name = some n → vectorOf s.cfg n ∈ usableVectors s ∧ (canReadWord s.cfg (vectorOf s.cfg n) = true →
      ∃ t, step s = .next t ∧ t.runState = .run ∧ t.ccr = { s.ccr with i := true, x := decide (n = .xirq) || s.ccr.x }
        ∧ t.mem = s.mem ∧ t.written = s.written ∧ t.sp = s.sp ∧ t.spWritten = s.spWritten ∧ t.a = s.a
        ∧ t.b = s.b ∧ t.ix = s.ix ∧ t.iy = s.iy
        ∧ t.pc = peekWord (vectorOf s.cfg n) s)

/-- In STOP only reset, XIRQ and an unmasked IRQ end the stop, and the devices stand still. Leaving STOP (60_exceptions.md
R420, R422). The list of turns is the model's own (notes/assumptions/8.md). Rests on the spec's general-knowledge
supplement (notes/assumptions/24.md). -/
def Obligations.StopEndsOnPinsOnly : Prop :=
  ∀ s : State, s.runState = .stop →
    (s.turns = [] → s.pins.reset = false →
      (s.ccr.x = false → vectorOf s.cfg .xirq ∈ usableVectors s)
      ∧ (s.ccr.i = false → vectorOf s.cfg .irq ∈ usableVectors s)
      ∧ (s.pins.xirq = true → s.ccr.x = false → canEnter .xirq s.pc s = true →
        step s = .next (entered .xirq s.pc { s with runState := .run }))
      ∧ (s.pins.xirq = true → s.ccr.x = true → step s = .next { s with runState := .run })
      ∧ (s.pins.xirq = false → s.pins.irq = true → s.ccr.i = false → canEnter .irq s.pc s = true →
        step s = .next (entered .irq s.pc { s with runState := .run }))
      ∧ (s.pins.xirq = false → (s.pins.irq = false ∨ s.ccr.i = true) → step s = .next s))
    ∧ (∀ x ts, s.turns = x :: ts → x ≠ .cpu → (∀ p, x ≠ .pins p) → step s = .next { s with turns := ts })

/-- The state after reset holds every value the spec states, over a memory that lists nothing (the model's choice). Reset
values (10_state.md R51, 70_reset_and_hazards.md R461, R462, R463, R465). That memory lists nothing and none of it is
initialised is the model's choice (notes/assumptions/4.md), and so the value of PC, the word at $FFFE of that memory
(notes/assumptions/7.md); bit 1 of SCCR2 is the parameter of 93 U20 at its default and $FFFE that of VECTOR_TABLE
(notes/assumptions/3.md); the record that SP is not written is the model's own field (notes/assumptions/5.md); DDRD is
notes/assumptions/11.md. Rests on the spec's general-knowledge supplement (notes/assumptions/24.md). -/
def Obligations.ResetStateHoldsTheStatedValues : Prop :=
  ∀ t : State, t = State.reset →
      t.ccr.s = true ∧ t.ccr.x = true ∧ t.ccr.i = true ∧ t.runState = .run ∧ t.iDelay = false
      ∧ t.adc.option = 0x10 ∧ t.adc.adctl &&& 0xC0 = 0 ∧ t.adc.active = false ∧ t.adc.k = 0
      ∧ t.spi.spcr &&& 0xFC = 0x04 ∧ t.spi.spsr = 0x00 ∧ t.spi.armed = 0x00 ∧ t.spi.busy = false
      ∧ t.sci.baud &&& 0xF8 = 0x00 ∧ t.sci.sccr1 &&& 0x3F = 0x00 ∧ t.sci.sccr2 = 0x00
      ∧ t.sci.scsr = 0xC0 ∧ t.sci.armed = 0x00 ∧ t.sci.txBusy = false ∧ t.portD.ddr = 0x00
      ∧ t.spWritten = false
      ∧ t.mem = [] ∧ t.written = [] ∧ t.pc = wordAt t.mem 0xFFFE ∧ t.sci.request = false ∧ t.spi.request = false
      ∧ ∀ p : Pins, recognised { t with pins := p } = none

/-- The reset pin restarts the machine from any run state, keeping memory and stacking nothing. Reset as an event
(70_reset_and_hazards.md R460 to R464; notes/assumptions/10.md); the record that SP is not written is the model's own
field (R465, notes/assumptions/5.md), and so is that of the initialised addresses (notes/assumptions/4.md). Rests on
the spec's general-knowledge supplement (notes/assumptions/24.md). -/
def Obligations.ResetPinRestartsTheMachine : Prop :=
  ∀ s : State, s.turns = [] → s.pins.reset = true → wordInMemory s.cfg s.cfg.vectors.reset = true →
    ∃ t, step s = .next t ∧ t.mem = s.mem ∧ t.written = s.written ∧ t.cfg = s.cfg
      ∧ t.pc = wordAt s.mem s.cfg.vectors.reset ∧ s.cfg.vectors.reset ∈ usableVectors s
      ∧ t.ccr.s = true ∧ t.ccr.x = true ∧ t.ccr.i = true ∧ t.runState = .run ∧ t.iDelay = false
      ∧ t.adc.option = 0x10 ∧ t.adc.adctl &&& 0xC0 = 0 ∧ t.adc.active = false ∧ t.adc.k = 0
      ∧ t.spi.spcr &&& 0xFC = 0x04 ∧ t.spi.spsr = 0x00 ∧ t.spi.armed = 0x00 ∧ t.spi.busy = false
      ∧ t.sci.baud &&& 0xF8 = 0x00 ∧ t.sci.sccr1 &&& 0x3F = 0x00 ∧ t.sci.sccr2 = (if s.cfg.rwuReset then 0x02 else 0x00)
      ∧ t.sci.scsr = 0xC0 ∧ t.sci.armed = 0x00 ∧ t.sci.txBusy = false ∧ t.portD.ddr = 0x00
      ∧ t.spWritten = false

/-- RAM keeps what is written, ROM and nothing drop it, words are big-endian, the device block wins. The kinds of address
(20_memory.md R60, R64, R70, R73) and what is initialised memory (60_exceptions.md R418, 70_reset_and_hazards.md
R461); the record of initialised addresses is the model's own field (notes/assumptions/4.md). Rests on the spec's
general-knowledge supplement (notes/assumptions/24.md). -/
def Obligations.MemoryKindsReadAndWrite : Prop :=
  ∀ (s : State) (a : Word) (v : Byte), s.mem.wf = true →
    (kindOf s.cfg a = .ram → peek a (poke a v s) = v
      ∧ ∀ b, b ≠ a → kindOf s.cfg b = .ram ∨ kindOf s.cfg b = .rom → peek b (poke a v s) = peek b s)
    ∧ (∀ b, (poke a v s).initialised b = true ↔ s.initialised b = true ∨ (b = a ∧ kindOf s.cfg a = .ram))
    ∧ (kindOf s.cfg a = .rom → s.initialised a = true)
    ∧ (kindOf s.cfg a = .device ∨ kindOf s.cfg a = .none → s.initialised a = false)
    ∧ (kindOf s.cfg a = .rom ∨ kindOf s.cfg a = .none → poke a v s = s)
    ∧ (kindOf s.cfg a = .ram ∨ kindOf s.cfg a = .rom → touch a s = s)
    ∧ (kindOf s.cfg a = .ram → kindOf s.cfg (a + 1) = .ram → ∀ w : Word,
      peek a (pokeWord a w s) = highByte w ∧ peek (a + 1) (pokeWord a w s) = lowByte w
      ∧ peekWord a (pokeWord a w s) = w)
    ∧ (∀ k, k < 64 → kindOf s.cfg (s.cfg.regBase + BitVec.ofNat 16 k) = .device)

/-- A turn of a device changes only the devices, and a turn of the outside world only the pins. The other agents
(20_memory.md R77, 60_exceptions.md R420, R429). The list of turns is the model's own (notes/assumptions/8.md). Rests
on the spec's general-knowledge supplement (notes/assumptions/24.md). -/
def Obligations.DeviceTurnsTouchOnlyTheDevices : Prop :=
  ∀ (s : State) (x : Turn) (ts : List Turn), s.turns = x :: ts → x ≠ .cpu →
    ∃ t, step s = .next t ∧ t.turns = ts ∧ t.a = s.a ∧ t.b = s.b ∧ t.ix = s.ix ∧ t.iy = s.iy ∧ t.sp = s.sp
      ∧ t.spWritten = s.spWritten ∧ t.pc = s.pc ∧ t.ccr = s.ccr ∧ t.iDelay = s.iDelay ∧ t.runState = s.runState
      ∧ t.mem = s.mem ∧ t.written = s.written ∧ t.cfg = s.cfg
      ∧ (∀ p, x = .pins p → t = { s with turns := ts, pins := p })
      ∧ ((∀ p, x ≠ .pins p) → t.pins = s.pins)

/-- The A/D registers as the CPU reads and writes them, four conversions that fill ADR1 to ADR4, and a converter idle or
off. The converter (60_exceptions.md R430 to R434, 10_state.md R36 to R39; writes to bits drawn as 0 and to ADR1 to
ADR4 are decision D27). That the four results of MULT = 0 go to the four registers in turn is decision D30; what each
input samples to and what ADPU = 0 does (93 U12) is notes/assumptions/15.md, the turns and that one whose guard fails
only passes notes/assumptions/8.md, the plain storage of OPTION notes/assumptions/20.md. Rests on the spec's
general-knowledge supplement (notes/assumptions/24.md). -/
def Obligations.AdcCycleFillsTheFourRegisters : Prop :=
  ∀ (s : State) (v v1 v2 v3 v4 : Byte) (ts : List Turn),
    let block := s.cfg.regBase
    poke (block + 0x39) v s = { s with adc := { s.adc with option := v &&& 0xFB } }
    ∧ poke (block + 0x30) v s = { s with adc := { s.adc with adctl := v &&& 0x3F, k := 0, active := true } }
    ∧ peek (block + 0x39) s = s.adc.option ∧ touch (block + 0x39) s = s
    ∧ peek (block + 0x30) s = s.adc.adctl ∧ touch (block + 0x30) s = s
    ∧ (∀ a ∈ [block + 0x31, block + 0x32, block + 0x33, block + 0x34], poke a v s = s
      ∧ touch a s = (if s.adc.adpu then s else { s with draws := s.draws + 1 }))
    ∧ (s.adc.adpu = true → peek (block + 0x31) s = s.adc.adr1 ∧ peek (block + 0x32) s = s.adc.adr2
      ∧ peek (block + 0x33) s = s.adc.adr3 ∧ peek (block + 0x34) s = s.adc.adr4)
    ∧ (s.turns = [.adcConvert v1, .adcConvert v2, .adcConvert v3, .adcConvert v4] ++ ts → s.runState ≠ .stop →
      s.adc.adpu = true → s.adc.active = true → s.adc.k = 0 →
      let input : Nat → BitVec 4 := fun k =>
        BitVec.ofNat 4 (if s.adc.mult then s.adc.adctl.toNat / 4 % 4 * 4 + k else s.adc.adctl.toNat % 16)
      Host.Core.run core 4 s = .next
        { s with
          turns := ts
          adc := { s.adc with
            adctl := s.adc.adctl ||| 0x80
            adr1 := sample (input 0) v1, adr2 := sample (input 1) v2
            adr3 := sample (input 2) v3, adr4 := sample (input 3) v4
            k := if s.adc.scan then 0 else 3
            active := s.adc.scan } })
    ∧ (s.turns = .adcConvert v :: ts → s.runState ≠ .stop →
      (s.adc.active = false → step s = .next { s with turns := ts })
      ∧ (s.adc.active = true → s.adc.adpu = false → ∃ w : Byte, step s = .next
        { s with
          turns := ts, draws := s.draws + 1
          adc := { s.adc with
            adctl := if s.adc.k = 3 then s.adc.adctl ||| 0x80 else s.adc.adctl
            adr1 := if s.adc.k = 0 then w else s.adc.adr1
            adr2 := if s.adc.k = 1 then w else s.adc.adr2
            adr3 := if s.adc.k = 2 then w else s.adc.adr3
            adr4 := if s.adc.k = 3 then w else s.adc.adr4
            k := if s.adc.k = 3 then (if s.adc.scan then 0 else 3) else s.adc.k + 1
            active := decide (s.adc.k ≠ 3) || s.adc.scan } }))

/-- What the CPU stores to and reads from the five SCI registers, the flags SCSR arms and SCDR clears, and the writes BAUD
refuses. Access rules of the SCI (10_state.md R43 to R45, 60_exceptions.md R437, R438, R440); bits drawn as 0 ignore
writes by decision D27, TCLR and RCKB are notes/assumptions/12.md, R8 and T8 notes/assumptions/21.md, the mark of the
character notes/assumptions/16.md; the clearing of OR, NF and FE is decision D32. Rests on the spec's
general-knowledge supplement (notes/assumptions/24.md). -/
def Obligations.SciRegisterAccesses : Prop :=
  ∀ (s : State) (v : Byte) (f : Nat), f < 8 →
    let sr := s.cfg.regBase + 0x2E
    let dr := s.cfg.regBase + 0x2F
    let br := s.cfg.regBase + 0x2B
    let c1 := s.cfg.regBase + 0x2C
    let c2 := s.cfg.regBase + 0x2D
    canWrite s.cfg br v = (!v.getLsbD 7 && !v.getLsbD 3)
    ∧ (canWrite s.cfg br v = true → poke br v s = { s with sci := { s.sci with baud := v &&& 0xBF } })
    ∧ poke c1 v s = { s with sci := { s.sci with sccr1 := v &&& 0xD8 } }
    ∧ poke c2 v s = { s with sci := { s.sci with sccr2 := v } }
    ∧ peek br s = s.sci.baud ∧ touch br s = s ∧ peek c1 s = s.sci.sccr1 ∧ touch c1 s = s
    ∧ peek c2 s = s.sci.sccr2 ∧ touch c2 s = s
    ∧ peek sr s = s.sci.scsr ∧ touch sr s = { s with sci := { s.sci with armed := (touch sr s).sci.armed } }
    ∧ (touch sr s).sci.armed.getLsbD f = (s.sci.armed.getLsbD f || (decide (f ≠ 0) && s.sci.scsr.getLsbD f))
    ∧ poke sr v s = s
    ∧ (poke dr v s).sci.tdr = v ∧ (poke dr v s).sci.rdr = s.sci.rdr
    ∧ (poke dr v s).sci.tdrLoose = (s.sci.tdre && !s.sci.armed.getLsbD 7)
    ∧ (poke dr v s).sci.scsr.getLsbD f
      = (s.sci.scsr.getLsbD f && !(decide (f = 7 ∨ f = 6) && s.sci.armed.getLsbD f))
    ∧ (poke dr v s).sci.armed.getLsbD f = (s.sci.armed.getLsbD f && !decide (f = 7 ∨ f = 6))
    ∧ peek dr s = s.sci.rdr ∧ (touch dr s).sci.rdr = s.sci.rdr ∧ (touch dr s).sci.tdr = s.sci.tdr
    ∧ (touch dr s).sci.scsr.getLsbD f
      = (s.sci.scsr.getLsbD f && !(decide (1 ≤ f ∧ f ≤ 5) && s.sci.armed.getLsbD f))
    ∧ (touch dr s).sci.armed.getLsbD f = (s.sci.armed.getLsbD f && !decide (1 ≤ f ∧ f ≤ 5))

/-- A waiting character goes to the shifter and sets TDRE; a sent one leaves on TXD and sets TC if none waits; loose ones
and breaks. The transmitter (60_exceptions.md R439). The trace of what left is the model's own
(notes/assumptions/19.md), the mark of a character whose write found TDRE not armed and the turn that sends it are
notes/assumptions/16.md (93 U14), a break as one entry notes/assumptions/19.md, and that a turn whose guard fails only
passes is the model's choice (notes/assumptions/8.md). Rests on the spec's general-knowledge supplement
(notes/assumptions/24.md). -/
def Obligations.SciTransmitterSteps : Prop :=
  ∀ (s : State) (ts : List Turn), s.runState ≠ .stop →
    (s.turns = .sciTxLoad :: ts →
      (s.sci.te = true → s.sci.tdre = false → s.sci.txBusy = false →
        step s = .next { s with
          turns := ts
          sci := { s.sci with
            txShift := { ninth := if s.sci.m then some s.sci.t8 else none, data := s.sci.tdr }
            txBusy := true, scsr := s.sci.scsr ||| 0x80, tdrLoose := false } })
      ∧ (s.sci.te = false ∨ s.sci.tdre = true ∨ s.sci.txBusy = true → step s = .next { s with turns := ts }))
    ∧ (s.turns = .sciTxDone :: ts →
      (s.sci.txBusy = true →
        step s = .next { s with
          turns := ts
          sci := { s.sci with
            out := s.sci.out ++ [.frame s.sci.txShift], txBusy := false
            scsr := s.sci.scsr ||| (if s.sci.tdre then 0x40 else 0x00) } })
      ∧ (s.sci.txBusy = false → step s = .next { s with turns := ts }))
    ∧ (s.turns = .sciTxLoadLoose :: ts →
      (s.sci.te = true → s.sci.tdrLoose = true → s.sci.txBusy = false →
        step s = .next { s with
          turns := ts
          sci := { s.sci with
            txShift := { ninth := if s.sci.m then some s.sci.t8 else none, data := s.sci.tdr }
            txBusy := true, tdrLoose := false } })
      ∧ (s.sci.te = false ∨ s.sci.tdrLoose = false ∨ s.sci.txBusy = true → step s = .next { s with turns := ts }))
    ∧ (s.turns = .sciBreak :: ts →
      (s.sci.te = true → s.sci.sbk = true → s.sci.txBusy = false →
        step s = .next { s with turns := ts, sci := { s.sci with out := s.sci.out ++ [.brk] } })
      ∧ (s.sci.te = false ∨ s.sci.sbk = false ∨ s.sci.txBusy = true → step s = .next { s with turns := ts }))

/-- A received character, an overrun, a sleeping receiver, and an idle line. The receiver (60_exceptions.md R441 to R443).
That an overrun keeps the old character and one IDLE per gap are general knowledge (notes/assumptions/18.md,
notes/assumptions/24.md); that a dropped frame ends the gap and that the shift register keeps the frame is
notes/assumptions/18.md; that a turn whose guard fails only passes is the model's choice (notes/assumptions/8.md). -/
def Obligations.SciReceiverSteps : Prop :=
  ∀ (s : State) (ts : List Turn) (c : Byte) (b8 noisy badstop : Bool), s.runState ≠ .stop →
    (s.turns = .sciRxChar c b8 noisy badstop :: ts →
      (s.sci.re = false → step s = .next { s with turns := ts })
      ∧ (s.sci.re = true →
        let heard := !s.sci.rwu || (s.sci.wake && (if s.sci.m then b8 else c.msb))
        ∃ t, step s = .next t
          ∧ t.sci.rdr = (if heard && !s.sci.rdrf then c else s.sci.rdr)
          ∧ t.sci.scsr = (if !heard then s.sci.scsr
            else if s.sci.rdrf then s.sci.scsr ||| 0x08
            else s.sci.scsr ||| 0x20 ||| (if noisy then 0x04 else 0x00) ||| (if badstop then 0x02 else 0x00))
          ∧ t.sci.sccr1.getLsbD 7 = (if heard && !s.sci.rdrf && s.sci.m then b8 else s.sci.sccr1.getLsbD 7)
          ∧ t.sci.rwu = (s.sci.rwu && !heard)
          ∧ t.sci.idleDone = false
          ∧ t.sci.rxShift = { ninth := if s.sci.m then some b8 else none, data := c }
          ∧ t.sci.armed = s.sci.armed ∧ t.sci.tdr = s.sci.tdr))
    ∧ (s.turns = .sciRxIdle :: ts →
      (s.sci.re = false → step s = .next { s with turns := ts })
      ∧ (s.sci.re = true →
        ∃ t, step s = .next t
          ∧ t.sci.rwu = (s.sci.rwu && s.sci.wake)
          ∧ t.sci.scsr = (if s.sci.rwu || s.sci.idleDone then s.sci.scsr else s.sci.scsr ||| 0x10)
          ∧ t.sci.idleDone = (s.sci.idleDone || !(s.sci.rwu && s.sci.wake))
          ∧ t.sci.rdr = s.sci.rdr ∧ t.sci.armed = s.sci.armed))

/-- Reading SPSR arms; SPDR clears SPIF and WCOL where armed, a write collides or starts a transfer; SPCR clears MODF.
Access rules of the SPI (60_exceptions.md R447, R449 to R451). The first step of a write to SPDR is general knowledge
(notes/assumptions/24.md). -/
def Obligations.SpiRegisterAccesses : Prop :=
  ∀ (s : State) (v : Byte) (f : Nat), f < 8 →
    let cr := s.cfg.regBase + 0x28
    let sr := s.cfg.regBase + 0x29
    let dr := s.cfg.regBase + 0x2A
    let cleared := s.spi.spsr.getLsbD f && !(decide (f = 7 ∨ f = 6) && s.spi.armed.getLsbD f)
    let disarmed := s.spi.armed.getLsbD f && !decide (f = 7 ∨ f = 6)
    peek cr s = s.spi.spcr ∧ touch cr s = s
    ∧ peek sr s = s.spi.spsr ∧ touch sr s = { s with spi := { s.spi with armed := (touch sr s).spi.armed } }
    ∧ (touch sr s).spi.armed.getLsbD f
      = (s.spi.armed.getLsbD f || (decide (f = 7 ∨ f = 6 ∨ f = 4) && s.spi.spsr.getLsbD f))
    ∧ poke sr v s = s
    ∧ peek dr s = s.spi.rbuf ∧ (touch dr s).spi.rbuf = s.spi.rbuf ∧ (touch dr s).spi.spsr.getLsbD f = cleared
    ∧ (touch dr s).spi.armed.getLsbD f = disarmed ∧ (poke dr v s).spi.armed.getLsbD f = disarmed
    ∧ (poke cr v s).spi.armed.getLsbD f = (s.spi.armed.getLsbD f && !decide (f = 4))
    ∧ (s.spi.busy = true → (poke dr v s).spi.spsr.getLsbD f = (cleared || decide (f = 6))
      ∧ (poke dr v s).spi.shift = s.spi.shift ∧ (poke dr v s).spi.busy = true)
    ∧ (s.spi.busy = false → (poke dr v s).spi.spsr.getLsbD f = cleared
      ∧ (poke dr v s).spi.shift = v ∧ (poke dr v s).spi.busy = (s.spi.spe && s.spi.mstr))
    ∧ (poke cr v s).spi.spcr = v
    ∧ (poke cr v s).spi.spsr.getLsbD f = (s.spi.spsr.getLsbD f && !(decide (f = 4) && s.spi.armed.getLsbD f))

/-- The SPI transfer on master and slave, the mode fault, their turns where the guard fails, and the registers of port D.
Device steps of the SPI (60_exceptions.md R448, R451). Which byte the buffer holds after a second transfer is open (93
U15, notes/assumptions/17.md); the traces are the model's own (notes/assumptions/19.md), that a turn whose guard fails
only passes is the model's choice (notes/assumptions/8.md), and port D is notes/assumptions/11.md. Rests on the spec's
general-knowledge supplement (notes/assumptions/24.md). -/
def Obligations.SpiTransferAndModeFaultSteps : Prop :=
  ∀ (s : State) (ts : List Turn) (d : Byte),
    (let dd := s.cfg.regBase + 0x09;
      let pd := s.cfg.regBase + 0x08;
      poke dd d s = { s with portD := { s.portD with ddr := d &&& 0x3F } }
      ∧ poke pd d s = { s with portD := { s.portD with data := d } }
      ∧ peek dd s = s.portD.ddr ∧ touch dd s = s ∧ touch pd s = { s with draws := s.draws + 1 })
    ∧ (s.runState ≠ .stop →
    (s.turns = .spiMasterDone d :: ts → s.spi.busy = true → s.spi.mstr = true → s.spi.spe = true →
      ∃ t, step s = .next t ∧ t.spi.shift = d ∧ (t.spi.rbuf = d ∨ (s.spi.spif = true ∧ t.spi.rbuf = s.spi.rbuf))
        ∧ t.spi.busy = false ∧ t.spi.spsr = s.spi.spsr ||| 0x80 ∧ t.spi.spcr = s.spi.spcr ∧ t.spi.miso = s.spi.miso
        ∧ t.spi.mosi = (if s.portD.ddr.getLsbD 3 then s.spi.mosi ++ [s.spi.shift] else s.spi.mosi))
    ∧ (s.turns = .spiSlaveBegin :: ts → s.spi.spe = true → s.spi.mstr = false → s.spi.busy = false →
      s.pins.ss = true → step s = .next { s with turns := ts, spi := { s.spi with busy := true } })
    ∧ (s.turns = .spiSlaveDone d :: ts → s.spi.busy = true → s.spi.mstr = false → s.spi.spe = true →
      ∃ t, step s = .next t ∧ t.spi.shift = d ∧ (t.spi.rbuf = d ∨ (s.spi.spif = true ∧ t.spi.rbuf = s.spi.rbuf))
        ∧ t.spi.busy = false ∧ t.spi.spsr = s.spi.spsr ||| 0x80 ∧ t.spi.spcr = s.spi.spcr ∧ t.spi.mosi = s.spi.mosi
        ∧ t.spi.miso = (if s.portD.ddr.getLsbD 2 then s.spi.miso ++ [s.spi.shift] else s.spi.miso))
    ∧ (s.turns = .spiModeFault :: ts → s.spi.spe = true → s.spi.mstr = true → s.portD.ddr.getLsbD 5 = false →
      s.pins.ss = true →
      step s = .next { s with
        turns := ts
        spi := { s.spi with spsr := s.spi.spsr ||| 0x10, spcr := s.spi.spcr &&& 0xAF, busy := false }
        portD := { s.portD with ddr := s.portD.ddr &&& 0xC3 } })
    ∧ ((s.turns = .spiMasterDone d :: ts ∧ (s.spi.busy = false ∨ s.spi.mstr = false ∨ s.spi.spe = false))
        ∨ (s.turns = .spiSlaveBegin :: ts
          ∧ (s.spi.spe = false ∨ s.spi.mstr = true ∨ s.spi.busy = true ∨ s.pins.ss = false))
        ∨ (s.turns = .spiSlaveDone d :: ts ∧ (s.spi.busy = false ∨ s.spi.mstr = true ∨ s.spi.spe = false))
        ∨ (s.turns = .spiModeFault :: ts
          ∧ (s.spi.spe = false ∨ s.spi.mstr = false ∨ s.portD.ddr.getLsbD 5 = true ∨ s.pins.ss = false)) →
      step s = .next { s with turns := ts }))
end

