-- ==== Sys2Proof/Laws/Memory.lean ====
section
/-!
SUPPORT. Reading after writing, and the canonical form of a memory.
-/

namespace Sys2Proof.Machine

theorem Memory.wfFrom_mono {lo lo' : Nat} {m : Memory} (h : lo' ≤ lo) (hm : Memory.wfFrom lo m = true) :
    Memory.wfFrom lo' m = true := by
  cases m with
  | nil => rfl
  | cons e rest =>
    obtain ⟨a, v⟩ := e
    simp only [Memory.wfFrom, Bool.and_eq_true, decide_eq_true_eq] at hm ⊢
    exact ⟨⟨by omega, hm.1.2⟩, hm.2⟩

/-- No address below the least one of a canonical memory is listed. -/
theorem Memory.get_of_lt {lo n : Nat} {m : Memory} (hm : Memory.wfFrom lo m = true) (h : n < lo) :
    m.get n = Memory.blank := by
  induction m generalizing lo with
  | nil => rfl
  | cons e rest ih =>
    obtain ⟨a, v⟩ := e
    simp only [Memory.wfFrom, Bool.and_eq_true, decide_eq_true_eq] at hm
    simp only [Memory.get, show a ≠ n by omega, if_false]
    exact ih hm.2 (by omega)

/-- A write keeps the canonical form. -/
theorem Memory.wfFrom_set {lo n : Nat} {m : Memory} {v : Byte} (hm : Memory.wfFrom lo m = true) (h : lo ≤ n)
    (hn : n < 65536) : Memory.wfFrom lo (m.set n v) = true := by
  induction m generalizing lo with
  | nil =>
    simp only [Memory.set]
    split
    · rfl
    · simp [Memory.wfFrom, *]
  | cons e rest ih =>
    obtain ⟨a, w⟩ := e
    simp only [Memory.wfFrom, Bool.and_eq_true, decide_eq_true_eq] at hm
    simp only [Memory.set]
    split
    · split
      · simpa [Memory.wfFrom] using hm
      · simp [Memory.wfFrom, *]
    · split
      · split
        · exact Memory.wfFrom_mono (by omega) hm.2
        · subst_vars
          simp_all [Memory.wfFrom]
      · have := ih hm.2 (by omega)
        simp_all [Memory.wfFrom]

theorem Memory.wf_set {n : Nat} {m : Memory} {v : Byte} (hm : m.wf = true) (hn : n < 65536) :
    (m.set n v).wf = true :=
  Memory.wfFrom_set hm (Nat.zero_le n) hn

/-- What a write leaves at every address of a canonical memory. -/
theorem Memory.get_set {lo n k : Nat} {m : Memory} {v : Byte} (hm : Memory.wfFrom lo m = true) :
    (m.set n v).get k = if n = k then v else m.get k := by
  induction m generalizing lo with
  | nil =>
    simp only [Memory.set]
    split <;> simp_all [Memory.get]
  | cons e rest ih =>
    obtain ⟨a, w⟩ := e
    simp only [Memory.wfFrom, Bool.and_eq_true, decide_eq_true_eq] at hm
    have hlt : ∀ j, j < a + 1 → Memory.get rest j = Memory.blank := fun j hj => Memory.get_of_lt hm.2 hj
    simp only [Memory.set]
    split
    · split
      · by_cases hk : n = k
        · subst hk
          simp [Memory.get, show a ≠ n by omega, hlt n (by omega), *]
        · simp [hk]
      · simp [Memory.get]
    · split
      · subst_vars
        split
        · by_cases hk : a = k
          · subst hk
            simp [hlt a (by omega), *]
          · simp [Memory.get, hk]
        · by_cases hk : a = k <;> simp [Memory.get, hk]
      · have := ih hm.2
        by_cases hk : n = k
        · subst hk
          simp [Memory.get, this, show a ≠ n by omega]
        · simp [Memory.get, this, hk]

/-- A write leaves every other address alone, whatever the form of the memory. -/
theorem Memory.get_set_ne {n k : Nat} {m : Memory} {v : Byte} (h : n ≠ k) : (m.set n v).get k = m.get k := by
  induction m with
  | nil =>
    simp only [Memory.set]
    split <;> simp [Memory.get, h]
  | cons e rest ih =>
    obtain ⟨a, w⟩ := e
    simp only [Memory.set]
    split
    · split <;> simp [Memory.get, h]
    · split
      · subst_vars
        split <;> simp [Memory.get, h]
      · simp [Memory.get, ih]

/-! ### Sets of addresses -/

theorem Addresses.mem_add {w : Addresses} {n k : Nat} : k ∈ w.add n ↔ k = n ∨ k ∈ w := by
  induction w with
  | nil => simp [Addresses.add]
  | cons a rest ih =>
    simp only [Addresses.add]
    split
    · simp
    · split
      · subst_vars
        simp
      · simp only [List.mem_cons, ih]
        exact or_left_comm

theorem Addresses.wfFrom_mono {lo lo' : Nat} {w : Addresses} (h : lo' ≤ lo) (hw : Addresses.wfFrom lo w = true) :
    Addresses.wfFrom lo' w = true := by
  cases w with
  | nil => rfl
  | cons a rest =>
    simp only [Addresses.wfFrom, Bool.and_eq_true, decide_eq_true_eq] at hw ⊢
    exact ⟨⟨by omega, hw.1.2⟩, hw.2⟩

theorem Addresses.wfFrom_add {lo n : Nat} {w : Addresses} (hw : Addresses.wfFrom lo w = true) (h : lo ≤ n)
    (hn : n < 65536) : Addresses.wfFrom lo (w.add n) = true := by
  induction w generalizing lo with
  | nil => simp [Addresses.add, Addresses.wfFrom, *]
  | cons a rest ih =>
    simp only [Addresses.wfFrom, Bool.and_eq_true, decide_eq_true_eq] at hw
    simp only [Addresses.add]
    split
    · simp [Addresses.wfFrom, *]
    · split
      · simp [Addresses.wfFrom, *]
      · have := ih hw.2 (by omega)
        simp [Addresses.wfFrom, *]

/-- Adding an address keeps the canonical form. -/
theorem Addresses.wf_add {n : Nat} {w : Addresses} (hw : w.wf = true) (hn : n < 65536) : (w.add n).wf = true :=
  Addresses.wfFrom_add hw (Nat.zero_le n) hn

end Sys2Proof.Machine
end

