-- ==== Sys2Proof/Laws/Word.lean ====
section
/-!
SUPPORT. A word and its two bytes.
-/

namespace Sys2Proof

@[simp] theorem highByte_joinBytes (h l : Byte) : highByte (joinBytes h l) = h := by
  apply BitVec.eq_of_getLsbD_eq
  intro i hi
  have := BitVec.getLsbD_append (x := h) (y := l) (i := 8 + i)
  simpa [highByte, joinBytes, hi] using this

@[simp] theorem lowByte_joinBytes (h l : Byte) : lowByte (joinBytes h l) = l := by
  apply BitVec.eq_of_getLsbD_eq
  intro i hi
  have := BitVec.getLsbD_append (x := h) (y := l) (i := i)
  simpa [lowByte, joinBytes, hi] using this

@[simp] theorem joinBytes_highByte_lowByte (w : Word) : joinBytes (highByte w) (lowByte w) = w := by
  apply BitVec.eq_of_getLsbD_eq
  intro i hi
  have := BitVec.getLsbD_append (x := highByte w) (y := lowByte w) (i := i)
  rw [joinBytes, this]
  by_cases h : i < 8
  · simp [lowByte, h]
  · simp [highByte, h, show i - 8 < 8 by omega, show 8 + (i - 8) = i by omega]

end Sys2Proof
end

