-- ==== Sys2Proof/Laws/State.lean ====
section
/-!
SUPPORT. Every field of the state after every named update, true by unfolding the update once.
-/

namespace Sys2Proof.Machine

@[simp] theorem State.withD_a (s : State) (v : Word) : (s.withD v).a = highByte v := rfl
@[simp] theorem State.withD_b (s : State) (v : Word) : (s.withD v).b = lowByte v := rfl
@[simp] theorem State.withD_ix (s : State) (v : Word) : (s.withD v).ix = s.ix := rfl
@[simp] theorem State.withD_iy (s : State) (v : Word) : (s.withD v).iy = s.iy := rfl
@[simp] theorem State.withD_sp (s : State) (v : Word) : (s.withD v).sp = s.sp := rfl
@[simp] theorem State.withD_pc (s : State) (v : Word) : (s.withD v).pc = s.pc := rfl
@[simp] theorem State.withD_ccr (s : State) (v : Word) : (s.withD v).ccr = s.ccr := rfl
@[simp] theorem State.withD_written (s : State) (v : Word) : (s.withD v).written = s.written := rfl
@[simp] theorem State.withD_spWritten (s : State) (v : Word) : (s.withD v).spWritten = s.spWritten := rfl
@[simp] theorem State.withD_iDelay (s : State) (v : Word) : (s.withD v).iDelay = s.iDelay := rfl
@[simp] theorem State.withD_runState (s : State) (v : Word) : (s.withD v).runState = s.runState := rfl
@[simp] theorem State.withD_mem (s : State) (v : Word) : (s.withD v).mem = s.mem := rfl
@[simp] theorem State.withD_adc (s : State) (v : Word) : (s.withD v).adc = s.adc := rfl
@[simp] theorem State.withD_sci (s : State) (v : Word) : (s.withD v).sci = s.sci := rfl
@[simp] theorem State.withD_spi (s : State) (v : Word) : (s.withD v).spi = s.spi := rfl
@[simp] theorem State.withD_portD (s : State) (v : Word) : (s.withD v).portD = s.portD := rfl
@[simp] theorem State.withD_pins (s : State) (v : Word) : (s.withD v).pins = s.pins := rfl
@[simp] theorem State.withD_turns (s : State) (v : Word) : (s.withD v).turns = s.turns := rfl
@[simp] theorem State.withD_draws (s : State) (v : Word) : (s.withD v).draws = s.draws := rfl
@[simp] theorem State.withD_cfg (s : State) (v : Word) : (s.withD v).cfg = s.cfg := rfl

@[simp] theorem State.putA_a (s : State) (r : Byte × Ccr) : (s.putA r).a = r.1 := rfl
@[simp] theorem State.putA_b (s : State) (r : Byte × Ccr) : (s.putA r).b = s.b := rfl
@[simp] theorem State.putA_ix (s : State) (r : Byte × Ccr) : (s.putA r).ix = s.ix := rfl
@[simp] theorem State.putA_iy (s : State) (r : Byte × Ccr) : (s.putA r).iy = s.iy := rfl
@[simp] theorem State.putA_sp (s : State) (r : Byte × Ccr) : (s.putA r).sp = s.sp := rfl
@[simp] theorem State.putA_pc (s : State) (r : Byte × Ccr) : (s.putA r).pc = s.pc := rfl
@[simp] theorem State.putA_ccr (s : State) (r : Byte × Ccr) : (s.putA r).ccr = r.2 := rfl
@[simp] theorem State.putA_written (s : State) (r : Byte × Ccr) : (s.putA r).written = s.written := rfl
@[simp] theorem State.putA_spWritten (s : State) (r : Byte × Ccr) : (s.putA r).spWritten = s.spWritten := rfl
@[simp] theorem State.putA_iDelay (s : State) (r : Byte × Ccr) : (s.putA r).iDelay = s.iDelay := rfl
@[simp] theorem State.putA_runState (s : State) (r : Byte × Ccr) : (s.putA r).runState = s.runState := rfl
@[simp] theorem State.putA_mem (s : State) (r : Byte × Ccr) : (s.putA r).mem = s.mem := rfl
@[simp] theorem State.putA_adc (s : State) (r : Byte × Ccr) : (s.putA r).adc = s.adc := rfl
@[simp] theorem State.putA_sci (s : State) (r : Byte × Ccr) : (s.putA r).sci = s.sci := rfl
@[simp] theorem State.putA_spi (s : State) (r : Byte × Ccr) : (s.putA r).spi = s.spi := rfl
@[simp] theorem State.putA_portD (s : State) (r : Byte × Ccr) : (s.putA r).portD = s.portD := rfl
@[simp] theorem State.putA_pins (s : State) (r : Byte × Ccr) : (s.putA r).pins = s.pins := rfl
@[simp] theorem State.putA_turns (s : State) (r : Byte × Ccr) : (s.putA r).turns = s.turns := rfl
@[simp] theorem State.putA_draws (s : State) (r : Byte × Ccr) : (s.putA r).draws = s.draws := rfl
@[simp] theorem State.putA_cfg (s : State) (r : Byte × Ccr) : (s.putA r).cfg = s.cfg := rfl

@[simp] theorem State.putB_a (s : State) (r : Byte × Ccr) : (s.putB r).a = s.a := rfl
@[simp] theorem State.putB_b (s : State) (r : Byte × Ccr) : (s.putB r).b = r.1 := rfl
@[simp] theorem State.putB_ix (s : State) (r : Byte × Ccr) : (s.putB r).ix = s.ix := rfl
@[simp] theorem State.putB_iy (s : State) (r : Byte × Ccr) : (s.putB r).iy = s.iy := rfl
@[simp] theorem State.putB_sp (s : State) (r : Byte × Ccr) : (s.putB r).sp = s.sp := rfl
@[simp] theorem State.putB_pc (s : State) (r : Byte × Ccr) : (s.putB r).pc = s.pc := rfl
@[simp] theorem State.putB_ccr (s : State) (r : Byte × Ccr) : (s.putB r).ccr = r.2 := rfl
@[simp] theorem State.putB_written (s : State) (r : Byte × Ccr) : (s.putB r).written = s.written := rfl
@[simp] theorem State.putB_spWritten (s : State) (r : Byte × Ccr) : (s.putB r).spWritten = s.spWritten := rfl
@[simp] theorem State.putB_iDelay (s : State) (r : Byte × Ccr) : (s.putB r).iDelay = s.iDelay := rfl
@[simp] theorem State.putB_runState (s : State) (r : Byte × Ccr) : (s.putB r).runState = s.runState := rfl
@[simp] theorem State.putB_mem (s : State) (r : Byte × Ccr) : (s.putB r).mem = s.mem := rfl
@[simp] theorem State.putB_adc (s : State) (r : Byte × Ccr) : (s.putB r).adc = s.adc := rfl
@[simp] theorem State.putB_sci (s : State) (r : Byte × Ccr) : (s.putB r).sci = s.sci := rfl
@[simp] theorem State.putB_spi (s : State) (r : Byte × Ccr) : (s.putB r).spi = s.spi := rfl
@[simp] theorem State.putB_portD (s : State) (r : Byte × Ccr) : (s.putB r).portD = s.portD := rfl
@[simp] theorem State.putB_pins (s : State) (r : Byte × Ccr) : (s.putB r).pins = s.pins := rfl
@[simp] theorem State.putB_turns (s : State) (r : Byte × Ccr) : (s.putB r).turns = s.turns := rfl
@[simp] theorem State.putB_draws (s : State) (r : Byte × Ccr) : (s.putB r).draws = s.draws := rfl
@[simp] theorem State.putB_cfg (s : State) (r : Byte × Ccr) : (s.putB r).cfg = s.cfg := rfl

@[simp] theorem State.putD_a (s : State) (r : Word × Ccr) : (s.putD r).a = highByte r.1 := rfl
@[simp] theorem State.putD_b (s : State) (r : Word × Ccr) : (s.putD r).b = lowByte r.1 := rfl
@[simp] theorem State.putD_ix (s : State) (r : Word × Ccr) : (s.putD r).ix = s.ix := rfl
@[simp] theorem State.putD_iy (s : State) (r : Word × Ccr) : (s.putD r).iy = s.iy := rfl
@[simp] theorem State.putD_sp (s : State) (r : Word × Ccr) : (s.putD r).sp = s.sp := rfl
@[simp] theorem State.putD_pc (s : State) (r : Word × Ccr) : (s.putD r).pc = s.pc := rfl
@[simp] theorem State.putD_ccr (s : State) (r : Word × Ccr) : (s.putD r).ccr = r.2 := rfl
@[simp] theorem State.putD_written (s : State) (r : Word × Ccr) : (s.putD r).written = s.written := rfl
@[simp] theorem State.putD_spWritten (s : State) (r : Word × Ccr) : (s.putD r).spWritten = s.spWritten := rfl
@[simp] theorem State.putD_iDelay (s : State) (r : Word × Ccr) : (s.putD r).iDelay = s.iDelay := rfl
@[simp] theorem State.putD_runState (s : State) (r : Word × Ccr) : (s.putD r).runState = s.runState := rfl
@[simp] theorem State.putD_mem (s : State) (r : Word × Ccr) : (s.putD r).mem = s.mem := rfl
@[simp] theorem State.putD_adc (s : State) (r : Word × Ccr) : (s.putD r).adc = s.adc := rfl
@[simp] theorem State.putD_sci (s : State) (r : Word × Ccr) : (s.putD r).sci = s.sci := rfl
@[simp] theorem State.putD_spi (s : State) (r : Word × Ccr) : (s.putD r).spi = s.spi := rfl
@[simp] theorem State.putD_portD (s : State) (r : Word × Ccr) : (s.putD r).portD = s.portD := rfl
@[simp] theorem State.putD_pins (s : State) (r : Word × Ccr) : (s.putD r).pins = s.pins := rfl
@[simp] theorem State.putD_turns (s : State) (r : Word × Ccr) : (s.putD r).turns = s.turns := rfl
@[simp] theorem State.putD_draws (s : State) (r : Word × Ccr) : (s.putD r).draws = s.draws := rfl
@[simp] theorem State.putD_cfg (s : State) (r : Word × Ccr) : (s.putD r).cfg = s.cfg := rfl

@[simp] theorem State.drew_a (s : State) : (s.drew).a = s.a := rfl
@[simp] theorem State.drew_b (s : State) : (s.drew).b = s.b := rfl
@[simp] theorem State.drew_ix (s : State) : (s.drew).ix = s.ix := rfl
@[simp] theorem State.drew_iy (s : State) : (s.drew).iy = s.iy := rfl
@[simp] theorem State.drew_sp (s : State) : (s.drew).sp = s.sp := rfl
@[simp] theorem State.drew_pc (s : State) : (s.drew).pc = s.pc := rfl
@[simp] theorem State.drew_ccr (s : State) : (s.drew).ccr = s.ccr := rfl
@[simp] theorem State.drew_written (s : State) : (s.drew).written = s.written := rfl
@[simp] theorem State.drew_spWritten (s : State) : (s.drew).spWritten = s.spWritten := rfl
@[simp] theorem State.drew_iDelay (s : State) : (s.drew).iDelay = s.iDelay := rfl
@[simp] theorem State.drew_runState (s : State) : (s.drew).runState = s.runState := rfl
@[simp] theorem State.drew_mem (s : State) : (s.drew).mem = s.mem := rfl
@[simp] theorem State.drew_adc (s : State) : (s.drew).adc = s.adc := rfl
@[simp] theorem State.drew_sci (s : State) : (s.drew).sci = s.sci := rfl
@[simp] theorem State.drew_spi (s : State) : (s.drew).spi = s.spi := rfl
@[simp] theorem State.drew_portD (s : State) : (s.drew).portD = s.portD := rfl
@[simp] theorem State.drew_pins (s : State) : (s.drew).pins = s.pins := rfl
@[simp] theorem State.drew_turns (s : State) : (s.drew).turns = s.turns := rfl
@[simp] theorem State.drew_draws (s : State) : (s.drew).draws = s.draws + 1 := rfl
@[simp] theorem State.drew_cfg (s : State) : (s.drew).cfg = s.cfg := rfl

@[simp] theorem branchIf_a (t : Bool) (n : Word) (rr : Byte) (s : State) : (branchIf t n rr s).a = s.a := rfl
@[simp] theorem branchIf_b (t : Bool) (n : Word) (rr : Byte) (s : State) : (branchIf t n rr s).b = s.b := rfl
@[simp] theorem branchIf_ix (t : Bool) (n : Word) (rr : Byte) (s : State) : (branchIf t n rr s).ix = s.ix := rfl
@[simp] theorem branchIf_iy (t : Bool) (n : Word) (rr : Byte) (s : State) : (branchIf t n rr s).iy = s.iy := rfl
@[simp] theorem branchIf_sp (t : Bool) (n : Word) (rr : Byte) (s : State) : (branchIf t n rr s).sp = s.sp := rfl
@[simp] theorem branchIf_ccr (t : Bool) (n : Word) (rr : Byte) (s : State) : (branchIf t n rr s).ccr = s.ccr := rfl
@[simp] theorem branchIf_written (t : Bool) (n : Word) (rr : Byte) (s : State) :
    (branchIf t n rr s).written = s.written := rfl
@[simp] theorem branchIf_spWritten (t : Bool) (n : Word) (rr : Byte) (s : State) :
    (branchIf t n rr s).spWritten = s.spWritten := rfl
@[simp] theorem branchIf_iDelay (t : Bool) (n : Word) (rr : Byte) (s : State) : (branchIf t n rr s).iDelay = s.iDelay := rfl
@[simp] theorem branchIf_runState (t : Bool) (n : Word) (rr : Byte) (s : State) : (branchIf t n rr s).runState = s.runState := rfl
@[simp] theorem branchIf_mem (t : Bool) (n : Word) (rr : Byte) (s : State) : (branchIf t n rr s).mem = s.mem := rfl
@[simp] theorem branchIf_adc (t : Bool) (n : Word) (rr : Byte) (s : State) : (branchIf t n rr s).adc = s.adc := rfl
@[simp] theorem branchIf_sci (t : Bool) (n : Word) (rr : Byte) (s : State) : (branchIf t n rr s).sci = s.sci := rfl
@[simp] theorem branchIf_spi (t : Bool) (n : Word) (rr : Byte) (s : State) : (branchIf t n rr s).spi = s.spi := rfl
@[simp] theorem branchIf_portD (t : Bool) (n : Word) (rr : Byte) (s : State) : (branchIf t n rr s).portD = s.portD := rfl
@[simp] theorem branchIf_pins (t : Bool) (n : Word) (rr : Byte) (s : State) : (branchIf t n rr s).pins = s.pins := rfl
@[simp] theorem branchIf_turns (t : Bool) (n : Word) (rr : Byte) (s : State) : (branchIf t n rr s).turns = s.turns := rfl
@[simp] theorem branchIf_draws (t : Bool) (n : Word) (rr : Byte) (s : State) : (branchIf t n rr s).draws = s.draws := rfl
@[simp] theorem branchIf_cfg (t : Bool) (n : Word) (rr : Byte) (s : State) : (branchIf t n rr s).cfg = s.cfg := rfl

@[simp] theorem State.highByte_d (s : State) : highByte s.d = s.a := by simp [State.d]

@[simp] theorem State.lowByte_d (s : State) : lowByte s.d = s.b := by simp [State.d]

@[simp] theorem State.withD_d (s : State) (v : Word) : (s.withD v).d = v := by simp [State.d]

end Sys2Proof.Machine
end

