-- ==== Sys2Proof/Laws/Access.lean ====
section
/-!
SUPPORT. What one access of the CPU can do, said once for each operation, and what it leaves alone.
-/

namespace Sys2Proof.Machine

/-! ### A read touches only the SCI, the SPI and the count of free values -/

@[simp] theorem regAfterRead_a (r : DeviceReg) (s : State) : (regAfterRead r s).a = s.a := by
  cases r <;> simp only [regAfterRead, afterAdr] <;> first | rfl | (split <;> rfl)

@[simp] theorem touch_a (w : Word) (s : State) : (touch w s).a = s.a := by
  unfold touch
  split <;> first | rfl | (split <;> simp)

@[simp] theorem regAfterRead_b (r : DeviceReg) (s : State) : (regAfterRead r s).b = s.b := by
  cases r <;> simp only [regAfterRead, afterAdr] <;> first | rfl | (split <;> rfl)

@[simp] theorem touch_b (w : Word) (s : State) : (touch w s).b = s.b := by
  unfold touch
  split <;> first | rfl | (split <;> simp)

@[simp] theorem regAfterRead_ix (r : DeviceReg) (s : State) : (regAfterRead r s).ix = s.ix := by
  cases r <;> simp only [regAfterRead, afterAdr] <;> first | rfl | (split <;> rfl)

@[simp] theorem touch_ix (w : Word) (s : State) : (touch w s).ix = s.ix := by
  unfold touch
  split <;> first | rfl | (split <;> simp)

@[simp] theorem regAfterRead_iy (r : DeviceReg) (s : State) : (regAfterRead r s).iy = s.iy := by
  cases r <;> simp only [regAfterRead, afterAdr] <;> first | rfl | (split <;> rfl)

@[simp] theorem touch_iy (w : Word) (s : State) : (touch w s).iy = s.iy := by
  unfold touch
  split <;> first | rfl | (split <;> simp)

@[simp] theorem regAfterRead_sp (r : DeviceReg) (s : State) : (regAfterRead r s).sp = s.sp := by
  cases r <;> simp only [regAfterRead, afterAdr] <;> first | rfl | (split <;> rfl)

@[simp] theorem touch_sp (w : Word) (s : State) : (touch w s).sp = s.sp := by
  unfold touch
  split <;> first | rfl | (split <;> simp)

@[simp] theorem regAfterRead_pc (r : DeviceReg) (s : State) : (regAfterRead r s).pc = s.pc := by
  cases r <;> simp only [regAfterRead, afterAdr] <;> first | rfl | (split <;> rfl)

@[simp] theorem touch_pc (w : Word) (s : State) : (touch w s).pc = s.pc := by
  unfold touch
  split <;> first | rfl | (split <;> simp)

@[simp] theorem regAfterRead_ccr (r : DeviceReg) (s : State) : (regAfterRead r s).ccr = s.ccr := by
  cases r <;> simp only [regAfterRead, afterAdr] <;> first | rfl | (split <;> rfl)

@[simp] theorem touch_ccr (w : Word) (s : State) : (touch w s).ccr = s.ccr := by
  unfold touch
  split <;> first | rfl | (split <;> simp)

@[simp] theorem regAfterRead_written (r : DeviceReg) (s : State) : (regAfterRead r s).written = s.written := by
  cases r <;> simp only [regAfterRead, afterAdr] <;> first | rfl | (split <;> rfl)

@[simp] theorem regAfterRead_spWritten (r : DeviceReg) (s : State) : (regAfterRead r s).spWritten = s.spWritten := by
  cases r <;> simp only [regAfterRead, afterAdr] <;> first | rfl | (split <;> rfl)

@[simp] theorem regAfterRead_iDelay (r : DeviceReg) (s : State) : (regAfterRead r s).iDelay = s.iDelay := by
  cases r <;> simp only [regAfterRead, afterAdr] <;> first | rfl | (split <;> rfl)

@[simp] theorem touch_written (w : Word) (s : State) : (touch w s).written = s.written := by
  unfold touch
  split <;> first | rfl | (split <;> simp)

@[simp] theorem touch_spWritten (w : Word) (s : State) : (touch w s).spWritten = s.spWritten := by
  unfold touch
  split <;> first | rfl | (split <;> simp)

@[simp] theorem touch_iDelay (w : Word) (s : State) : (touch w s).iDelay = s.iDelay := by
  unfold touch
  split <;> first | rfl | (split <;> simp)

@[simp] theorem regAfterRead_runState (r : DeviceReg) (s : State) : (regAfterRead r s).runState = s.runState := by
  cases r <;> simp only [regAfterRead, afterAdr] <;> first | rfl | (split <;> rfl)

@[simp] theorem touch_runState (w : Word) (s : State) : (touch w s).runState = s.runState := by
  unfold touch
  split <;> first | rfl | (split <;> simp)

@[simp] theorem regAfterRead_mem (r : DeviceReg) (s : State) : (regAfterRead r s).mem = s.mem := by
  cases r <;> simp only [regAfterRead, afterAdr] <;> first | rfl | (split <;> rfl)

@[simp] theorem touch_mem (w : Word) (s : State) : (touch w s).mem = s.mem := by
  unfold touch
  split <;> first | rfl | (split <;> simp)

@[simp] theorem regAfterRead_adc (r : DeviceReg) (s : State) : (regAfterRead r s).adc = s.adc := by
  cases r <;> simp only [regAfterRead, afterAdr] <;> first | rfl | (split <;> rfl)

@[simp] theorem touch_adc (w : Word) (s : State) : (touch w s).adc = s.adc := by
  unfold touch
  split <;> first | rfl | (split <;> simp)

@[simp] theorem regAfterRead_portD (r : DeviceReg) (s : State) : (regAfterRead r s).portD = s.portD := by
  cases r <;> simp only [regAfterRead, afterAdr] <;> first | rfl | (split <;> rfl)

@[simp] theorem touch_portD (w : Word) (s : State) : (touch w s).portD = s.portD := by
  unfold touch
  split <;> first | rfl | (split <;> simp)

@[simp] theorem regAfterRead_pins (r : DeviceReg) (s : State) : (regAfterRead r s).pins = s.pins := by
  cases r <;> simp only [regAfterRead, afterAdr] <;> first | rfl | (split <;> rfl)

@[simp] theorem touch_pins (w : Word) (s : State) : (touch w s).pins = s.pins := by
  unfold touch
  split <;> first | rfl | (split <;> simp)

@[simp] theorem regAfterRead_turns (r : DeviceReg) (s : State) : (regAfterRead r s).turns = s.turns := by
  cases r <;> simp only [regAfterRead, afterAdr] <;> first | rfl | (split <;> rfl)

@[simp] theorem touch_turns (w : Word) (s : State) : (touch w s).turns = s.turns := by
  unfold touch
  split <;> first | rfl | (split <;> simp)

@[simp] theorem regAfterRead_cfg (r : DeviceReg) (s : State) : (regAfterRead r s).cfg = s.cfg := by
  cases r <;> simp only [regAfterRead, afterAdr] <;> first | rfl | (split <;> rfl)

@[simp] theorem touch_cfg (w : Word) (s : State) : (touch w s).cfg = s.cfg := by
  unfold touch
  split <;> first | rfl | (split <;> simp)

/-! ### A write touches only memory, the devices and port D -/

@[simp] theorem regWrite_a (r : DeviceReg) (v : Byte) (s : State) : (regWrite r v s).a = s.a := by
  cases r <;> rfl

@[simp] theorem poke_a (w : Word) (v : Byte) (s : State) : (poke w v s).a = s.a := by
  unfold poke
  split <;> first | rfl | (split <;> simp)

@[simp] theorem regWrite_b (r : DeviceReg) (v : Byte) (s : State) : (regWrite r v s).b = s.b := by
  cases r <;> rfl

@[simp] theorem poke_b (w : Word) (v : Byte) (s : State) : (poke w v s).b = s.b := by
  unfold poke
  split <;> first | rfl | (split <;> simp)

@[simp] theorem regWrite_ix (r : DeviceReg) (v : Byte) (s : State) : (regWrite r v s).ix = s.ix := by
  cases r <;> rfl

@[simp] theorem poke_ix (w : Word) (v : Byte) (s : State) : (poke w v s).ix = s.ix := by
  unfold poke
  split <;> first | rfl | (split <;> simp)

@[simp] theorem regWrite_iy (r : DeviceReg) (v : Byte) (s : State) : (regWrite r v s).iy = s.iy := by
  cases r <;> rfl

@[simp] theorem poke_iy (w : Word) (v : Byte) (s : State) : (poke w v s).iy = s.iy := by
  unfold poke
  split <;> first | rfl | (split <;> simp)

@[simp] theorem regWrite_sp (r : DeviceReg) (v : Byte) (s : State) : (regWrite r v s).sp = s.sp := by
  cases r <;> rfl

@[simp] theorem poke_sp (w : Word) (v : Byte) (s : State) : (poke w v s).sp = s.sp := by
  unfold poke
  split <;> first | rfl | (split <;> simp)

@[simp] theorem regWrite_pc (r : DeviceReg) (v : Byte) (s : State) : (regWrite r v s).pc = s.pc := by
  cases r <;> rfl

@[simp] theorem poke_pc (w : Word) (v : Byte) (s : State) : (poke w v s).pc = s.pc := by
  unfold poke
  split <;> first | rfl | (split <;> simp)

@[simp] theorem regWrite_ccr (r : DeviceReg) (v : Byte) (s : State) : (regWrite r v s).ccr = s.ccr := by
  cases r <;> rfl

@[simp] theorem poke_ccr (w : Word) (v : Byte) (s : State) : (poke w v s).ccr = s.ccr := by
  unfold poke
  split <;> first | rfl | (split <;> simp)

@[simp] theorem regWrite_written (r : DeviceReg) (v : Byte) (s : State) :
    (regWrite r v s).written = s.written := by
  cases r <;> rfl

@[simp] theorem regWrite_spWritten (r : DeviceReg) (v : Byte) (s : State) :
    (regWrite r v s).spWritten = s.spWritten := by
  cases r <;> rfl

@[simp] theorem regWrite_iDelay (r : DeviceReg) (v : Byte) (s : State) : (regWrite r v s).iDelay = s.iDelay := by
  cases r <;> rfl

@[simp] theorem poke_spWritten (w : Word) (v : Byte) (s : State) : (poke w v s).spWritten = s.spWritten := by
  unfold poke
  split <;> first | rfl | (split <;> simp)

@[simp] theorem poke_iDelay (w : Word) (v : Byte) (s : State) : (poke w v s).iDelay = s.iDelay := by
  unfold poke
  split <;> first | rfl | (split <;> simp)

@[simp] theorem regWrite_runState (r : DeviceReg) (v : Byte) (s : State) : (regWrite r v s).runState = s.runState := by
  cases r <;> rfl

@[simp] theorem poke_runState (w : Word) (v : Byte) (s : State) : (poke w v s).runState = s.runState := by
  unfold poke
  split <;> first | rfl | (split <;> simp)

@[simp] theorem regWrite_pins (r : DeviceReg) (v : Byte) (s : State) : (regWrite r v s).pins = s.pins := by
  cases r <;> rfl

@[simp] theorem poke_pins (w : Word) (v : Byte) (s : State) : (poke w v s).pins = s.pins := by
  unfold poke
  split <;> first | rfl | (split <;> simp)

@[simp] theorem regWrite_turns (r : DeviceReg) (v : Byte) (s : State) : (regWrite r v s).turns = s.turns := by
  cases r <;> rfl

@[simp] theorem poke_turns (w : Word) (v : Byte) (s : State) : (poke w v s).turns = s.turns := by
  unfold poke
  split <;> first | rfl | (split <;> simp)

@[simp] theorem regWrite_draws (r : DeviceReg) (v : Byte) (s : State) : (regWrite r v s).draws = s.draws := by
  cases r <;> rfl

@[simp] theorem poke_draws (w : Word) (v : Byte) (s : State) : (poke w v s).draws = s.draws := by
  unfold poke
  split <;> first | rfl | (split <;> simp)

@[simp] theorem regWrite_cfg (r : DeviceReg) (v : Byte) (s : State) : (regWrite r v s).cfg = s.cfg := by
  cases r <;> rfl

@[simp] theorem poke_cfg (w : Word) (v : Byte) (s : State) : (poke w v s).cfg = s.cfg := by
  unfold poke
  split <;> first | rfl | (split <;> simp)

@[simp] theorem regWrite_mem (r : DeviceReg) (v : Byte) (s : State) : (regWrite r v s).mem = s.mem := by
  cases r <;> rfl

/-- What a write does to memory: RAM stores, the other kinds leave memory alone (20_memory.md R70). -/
theorem poke_mem (w : Word) (v : Byte) (s : State) :
    (poke w v s).mem = if kindOf s.cfg w = .ram then s.mem.set w.toNat v else s.mem := by
  unfold poke
  split <;> rename_i h <;> simp only [h, if_true, if_false, reduceCtorEq]
  split <;> simp

/-- What a write records: the address of RAM it stores to (60_exceptions.md R418). -/
theorem poke_written (w : Word) (v : Byte) (s : State) :
    (poke w v s).written = if kindOf s.cfg w = .ram then s.written.add w.toNat else s.written := by
  unfold poke
  split <;> rename_i h <;> simp only [h, if_true, if_false, reduceCtorEq]
  split <;> simp

/-- A write initialises the RAM it stores to, and no other address (60_exceptions.md R418). -/
theorem poke_initialised (w a : Word) (v : Byte) (s : State) :
    (poke w v s).initialised a = (s.initialised a || decide (a = w ∧ kindOf s.cfg w = .ram)) := by
  unfold State.initialised
  rw [poke_cfg, poke_written]
  by_cases h : kindOf s.cfg w = .ram
  · rw [if_pos h]
    by_cases e : a = w
    · subst e
      simp [h, Addresses.mem_add]
    · have : a.toNat ≠ w.toNat := fun c => e (BitVec.eq_of_toNat_eq c)
      cases kindOf s.cfg a <;> simp [e, Addresses.mem_add, this]
  · rw [if_neg h]
    simp [h]

/-- Which addresses are initialised depends on the parameters and the record only. -/
theorem initialised_congr {s t : State} (cfg : t.cfg = s.cfg) (written : t.written = s.written) :
    t.initialised = s.initialised := by
  funext a
  rw [State.initialised, State.initialised, cfg, written]

/-- A write leaves every other byte of memory alone. -/
theorem poke_mem_get_ne {w : Word} {n : Nat} (v : Byte) (s : State) (h : n ≠ w.toNat) :
    (poke w v s).mem.get n = s.mem.get n := by
  rw [poke_mem]
  split
  · exact Memory.get_set_ne (Ne.symm h)
  · rfl

/-- A read outside the device block leaves the SCI and the SPI alone. -/
theorem touch_devices {w : Word} {s : State} (h : kindOf s.cfg w ≠ .device) :
    (touch w s).sci = s.sci ∧ (touch w s).spi = s.spi := by
  unfold touch
  split <;> simp_all

/-- A write outside the device block leaves every device alone. -/
theorem poke_devices {w : Word} {v : Byte} {s : State} (h : kindOf s.cfg w ≠ .device) :
    (poke w v s).adc = s.adc ∧ (poke w v s).sci = s.sci ∧ (poke w v s).spi = s.spi
      ∧ (poke w v s).portD = s.portD := by
  unfold poke
  split <;> simp_all

/-- A read of RAM or ROM changes nothing. -/
theorem touch_of_memory {w : Word} {s : State} (h : kindOf s.cfg w = .ram ∨ kindOf s.cfg w = .rom) :
    touch w s = s := by
  unfold touch
  rcases h with h | h <;> simp [h]

/-- A read of RAM or ROM returns the byte of memory. -/
theorem peek_of_memory {w : Word} {s : State} (h : kindOf s.cfg w = .ram ∨ kindOf s.cfg w = .rom) :
    peek w s = s.mem.get w.toNat := by
  unfold peek
  rcases h with h | h <;> simp [h]

/-! ### Each operation, once -/

theorem canRead_iff {cfg : Config} {a : Word} : canRead cfg a = true ↔ readRefusal cfg a = none := by
  simp [canRead]

theorem canWrite_iff {cfg : Config} {a : Word} {v : Byte} :
    canWrite cfg a v = true ↔ writeRefusal cfg a v = none := by
  simp [canWrite]

/-- Everything a byte read can answer. -/
theorem readByte_eq_ok {a : Word} {s t : State} {v : Byte} :
    readByte a s = .ok (v, t) ↔ canRead s.cfg a = true ∧ v = peek a s ∧ t = touch a s := by
  unfold readByte
  rw [canRead_iff]
  cases readRefusal s.cfg a <;> simp [eq_comm]

/-- Everything a byte write can answer. -/
theorem writeByte_eq_ok {a : Word} {s t : State} {v : Byte} :
    writeByte a v s = .ok t ↔ canWrite s.cfg a v = true ∧ t = poke a v s := by
  unfold writeByte
  rw [canWrite_iff]
  cases writeRefusal s.cfg a v <;> simp [eq_comm]

/-- A computation followed by another answers exactly when both do. -/
theorem bind_eq_ok {α β : Type} {x : Except Refusal α} {f : α → Except Refusal β} {b : β} :
    (x >>= f) = .ok b ↔ ∃ a, x = .ok a ∧ f a = .ok b := by
  cases x <;> simp [bind, Except.bind]

theorem pure_eq_ok {α : Type} {a b : α} : (pure a : Except Refusal α) = .ok b ↔ a = b := by
  simp [pure, Except.pure]

/-- Everything a word read can answer. -/
theorem readWord_eq_ok {a : Word} {s t : State} {v : Word} :
    readWord a s = .ok (v, t) ↔ canReadWord s.cfg a = true ∧ v = peekWord a s ∧ t = touchWord a s := by
  unfold readWord
  simp only [bind_eq_ok, pure_eq_ok, canReadWord, Bool.and_eq_true, peekWord, touchWord, Prod.mk.injEq, Prod.exists,
    readByte_eq_ok]
  constructor
  · rintro ⟨h, s1, ⟨c1, rfl, rfl⟩, l, s2, ⟨c2, rfl, rfl⟩, rfl, rfl⟩
    exact ⟨⟨c1, by simpa using c2⟩, rfl, rfl⟩
  · rintro ⟨⟨c1, c2⟩, rfl, rfl⟩
    exact ⟨_, _, ⟨c1, rfl, rfl⟩, _, _, ⟨by simpa using c2, rfl, rfl⟩, rfl, rfl⟩

/-- Everything a word write can answer. -/
theorem writeWord_eq_ok {a v : Word} {s t : State} :
    writeWord a v s = .ok t ↔ canWriteWord s.cfg a v = true ∧ t = pokeWord a v s := by
  unfold writeWord
  simp only [bind_eq_ok, writeByte_eq_ok, canWriteWord, Bool.and_eq_true, pokeWord]
  constructor
  · rintro ⟨s1, ⟨c1, rfl⟩, c2, rfl⟩
    exact ⟨⟨c1, by simpa using c2⟩, rfl⟩
  · rintro ⟨⟨c1, c2⟩, rfl⟩
    exact ⟨_, ⟨c1, rfl⟩, by simpa using c2, rfl⟩

/-- Everything a byte push can answer. -/
theorem push8_eq_ok {v : Byte} {s t : State} :
    push8 v s = .ok t ↔ canPush s.cfg [v] s.sp = true ∧ t = pushed [v] s := by
  unfold push8
  simp only [bind_eq_ok, pure_eq_ok, writeByte_eq_ok, canPush, pushed, Bool.and_true]
  constructor
  · rintro ⟨s1, ⟨c, rfl⟩, rfl⟩
    exact ⟨c, by simp⟩
  · rintro ⟨c, rfl⟩
    exact ⟨_, ⟨c, rfl⟩, by simp⟩

/-- Everything a byte pull can answer. -/
theorem pull8_eq_ok {v : Byte} {s t : State} :
    pull8 s = .ok (v, t) ↔ canPull s.cfg 1 s.sp = true ∧ v = pulledByte 0 s ∧ t = pulled 1 s := by
  unfold pull8
  simp [readByte_eq_ok, canPull, pulledByte, pulled]

theorem canPush_append {cfg : Config} {l m : List Byte} {sp : Word} :
    canPush cfg (l ++ m) sp = (canPush cfg l sp && canPush cfg m (sp - BitVec.ofNat 16 l.length)) := by
  induction l generalizing sp with
  | nil => simp [canPush]
  | cons v rest ih =>
    have : sp - 1 - BitVec.ofNat 16 rest.length = sp - BitVec.ofNat 16 (rest.length + 1) := by
      apply BitVec.eq_of_toNat_eq
      simp [BitVec.toNat_sub]
      omega
    rw [List.cons_append, canPush, canPush, ih, Bool.and_assoc, List.length_cons, this]

theorem pushed_append {l m : List Byte} {s : State} : pushed (l ++ m) s = pushed m (pushed l s) := by
  induction l generalizing s with
  | nil => rfl
  | cons v rest ih => simp [pushed, ih]

@[simp] theorem pushed_sp (l : List Byte) (s : State) : (pushed l s).sp = s.sp - BitVec.ofNat 16 l.length := by
  induction l generalizing s with
  | nil => simp [pushed]
  | cons v rest ih =>
    simp only [pushed, ih, List.length_cons]
    apply BitVec.eq_of_toNat_eq
    simp [BitVec.toNat_sub]
    omega

@[simp] theorem pushed_a (l : List Byte) (s : State) : (pushed l s).a = s.a := by
  induction l generalizing s with
  | nil => rfl
  | cons v rest ih => simp [pushed, ih]

@[simp] theorem pushed_b (l : List Byte) (s : State) : (pushed l s).b = s.b := by
  induction l generalizing s with
  | nil => rfl
  | cons v rest ih => simp [pushed, ih]

@[simp] theorem pushed_ix (l : List Byte) (s : State) : (pushed l s).ix = s.ix := by
  induction l generalizing s with
  | nil => rfl
  | cons v rest ih => simp [pushed, ih]

@[simp] theorem pushed_iy (l : List Byte) (s : State) : (pushed l s).iy = s.iy := by
  induction l generalizing s with
  | nil => rfl
  | cons v rest ih => simp [pushed, ih]

@[simp] theorem pushed_pc (l : List Byte) (s : State) : (pushed l s).pc = s.pc := by
  induction l generalizing s with
  | nil => rfl
  | cons v rest ih => simp [pushed, ih]

@[simp] theorem pushed_ccr (l : List Byte) (s : State) : (pushed l s).ccr = s.ccr := by
  induction l generalizing s with
  | nil => rfl
  | cons v rest ih => simp [pushed, ih]

@[simp] theorem pushed_spWritten (l : List Byte) (s : State) : (pushed l s).spWritten = s.spWritten := by
  induction l generalizing s with
  | nil => rfl
  | cons v rest ih => simp [pushed, ih]

@[simp] theorem pushed_iDelay (l : List Byte) (s : State) : (pushed l s).iDelay = s.iDelay := by
  induction l generalizing s with
  | nil => rfl
  | cons v rest ih => simp [pushed, ih]

@[simp] theorem pushed_runState (l : List Byte) (s : State) : (pushed l s).runState = s.runState := by
  induction l generalizing s with
  | nil => rfl
  | cons v rest ih => simp [pushed, ih]

@[simp] theorem pushed_pins (l : List Byte) (s : State) : (pushed l s).pins = s.pins := by
  induction l generalizing s with
  | nil => rfl
  | cons v rest ih => simp [pushed, ih]

@[simp] theorem pushed_turns (l : List Byte) (s : State) : (pushed l s).turns = s.turns := by
  induction l generalizing s with
  | nil => rfl
  | cons v rest ih => simp [pushed, ih]

@[simp] theorem pushed_draws (l : List Byte) (s : State) : (pushed l s).draws = s.draws := by
  induction l generalizing s with
  | nil => rfl
  | cons v rest ih => simp [pushed, ih]

@[simp] theorem pushed_cfg (l : List Byte) (s : State) : (pushed l s).cfg = s.cfg := by
  induction l generalizing s with
  | nil => rfl
  | cons v rest ih => simp [pushed, ih]

@[simp] theorem pulled_a (n : Nat) (s : State) : (pulled n s).a = s.a := by
  induction n generalizing s with
  | zero => rfl
  | succ n ih => simp [pulled, ih]

@[simp] theorem pulled_b (n : Nat) (s : State) : (pulled n s).b = s.b := by
  induction n generalizing s with
  | zero => rfl
  | succ n ih => simp [pulled, ih]

@[simp] theorem pulled_ix (n : Nat) (s : State) : (pulled n s).ix = s.ix := by
  induction n generalizing s with
  | zero => rfl
  | succ n ih => simp [pulled, ih]

@[simp] theorem pulled_iy (n : Nat) (s : State) : (pulled n s).iy = s.iy := by
  induction n generalizing s with
  | zero => rfl
  | succ n ih => simp [pulled, ih]

@[simp] theorem pulled_pc (n : Nat) (s : State) : (pulled n s).pc = s.pc := by
  induction n generalizing s with
  | zero => rfl
  | succ n ih => simp [pulled, ih]

@[simp] theorem pulled_ccr (n : Nat) (s : State) : (pulled n s).ccr = s.ccr := by
  induction n generalizing s with
  | zero => rfl
  | succ n ih => simp [pulled, ih]

@[simp] theorem pulled_written (n : Nat) (s : State) : (pulled n s).written = s.written := by
  induction n generalizing s with
  | zero => rfl
  | succ n ih => simp [pulled, ih]

@[simp] theorem pulled_spWritten (n : Nat) (s : State) : (pulled n s).spWritten = s.spWritten := by
  induction n generalizing s with
  | zero => rfl
  | succ n ih => simp [pulled, ih]

@[simp] theorem pulled_iDelay (n : Nat) (s : State) : (pulled n s).iDelay = s.iDelay := by
  induction n generalizing s with
  | zero => rfl
  | succ n ih => simp [pulled, ih]

@[simp] theorem pulled_runState (n : Nat) (s : State) : (pulled n s).runState = s.runState := by
  induction n generalizing s with
  | zero => rfl
  | succ n ih => simp [pulled, ih]

@[simp] theorem pulled_mem (n : Nat) (s : State) : (pulled n s).mem = s.mem := by
  induction n generalizing s with
  | zero => rfl
  | succ n ih => simp [pulled, ih]

@[simp] theorem pulled_adc (n : Nat) (s : State) : (pulled n s).adc = s.adc := by
  induction n generalizing s with
  | zero => rfl
  | succ n ih => simp [pulled, ih]

@[simp] theorem pulled_portD (n : Nat) (s : State) : (pulled n s).portD = s.portD := by
  induction n generalizing s with
  | zero => rfl
  | succ n ih => simp [pulled, ih]

@[simp] theorem pulled_pins (n : Nat) (s : State) : (pulled n s).pins = s.pins := by
  induction n generalizing s with
  | zero => rfl
  | succ n ih => simp [pulled, ih]

@[simp] theorem pulled_turns (n : Nat) (s : State) : (pulled n s).turns = s.turns := by
  induction n generalizing s with
  | zero => rfl
  | succ n ih => simp [pulled, ih]

@[simp] theorem pulled_cfg (n : Nat) (s : State) : (pulled n s).cfg = s.cfg := by
  induction n generalizing s with
  | zero => rfl
  | succ n ih => simp [pulled, ih]

@[simp] theorem pulled_sp (n : Nat) (s : State) : (pulled n s).sp = s.sp + BitVec.ofNat 16 n := by
  induction n generalizing s with
  | zero => simp [pulled]
  | succ n ih =>
    simp only [pulled, ih, touch_sp]
    apply BitVec.eq_of_toNat_eq
    simp [BitVec.toNat_add]
    omega

theorem pulled_add (m n : Nat) (s : State) : pulled n (pulled m s) = pulled (m + n) s := by
  induction m generalizing s with
  | zero => simp [pulled]
  | succ m ih => rw [Nat.succ_add]; simp [pulled, ih]

theorem canPull_add {cfg : Config} {m n : Nat} {sp : Word} :
    canPull cfg (m + n) sp = (canPull cfg m sp && canPull cfg n (sp + BitVec.ofNat 16 m)) := by
  induction m generalizing sp with
  | zero => simp [canPull]
  | succ m ih =>
    have : sp + 1 + BitVec.ofNat 16 m = sp + BitVec.ofNat 16 (m + 1) := by
      apply BitVec.eq_of_toNat_eq
      simp [BitVec.toNat_add]
      omega
    rw [Nat.succ_add, canPull, canPull, ih, Bool.and_assoc, this]

theorem pulledByte_pulled (m n : Nat) (s : State) : pulledByte n (pulled m s) = pulledByte (m + n) s := by
  simp [pulledByte, pulled_add]

/-- Everything a word push can answer: the low byte is pushed first. -/
theorem push16_eq_ok {v : Word} {s t : State} :
    push16 v s = .ok t ↔ canPush s.cfg (wordBytes v) s.sp = true ∧ t = pushed (wordBytes v) s := by
  unfold push16
  simp only [bind_eq_ok, push8_eq_ok, wordBytes]
  constructor
  · rintro ⟨s1, ⟨c1, rfl⟩, c2, rfl⟩
    simp_all [canPush, pushed]
  · rintro ⟨c, rfl⟩
    refine ⟨_, ⟨?_, rfl⟩, ?_, rfl⟩ <;> simp_all [canPush, pushed]

/-- Everything a word pull can answer: the high byte is pulled first. -/
theorem pull16_eq_ok {v : Word} {s t : State} :
    pull16 s = .ok (v, t) ↔
      canPull s.cfg 2 s.sp = true ∧ v = joinBytes (pulledByte 0 s) (pulledByte 1 s) ∧ t = pulled 2 s := by
  unfold pull16
  simp only [bind_eq_ok, pure_eq_ok, Prod.mk.injEq, Prod.exists, pull8_eq_ok]
  constructor
  · rintro ⟨h, s1, ⟨c1, rfl, rfl⟩, l, s2, ⟨c2, rfl, rfl⟩, rfl, rfl⟩
    exact ⟨by rw [canPull_add (m := 1) (n := 1)]; simp_all, by simp [pulledByte_pulled], by simp [pulled_add]⟩
  · rintro ⟨c, rfl, rfl⟩
    rw [canPull_add (m := 1) (n := 1), Bool.and_eq_true] at c
    exact ⟨_, _, ⟨c.1, rfl, rfl⟩, _, _, ⟨by simpa using c.2, rfl, rfl⟩, by simp [pulledByte_pulled],
      by simp [pulled_add]⟩

end Sys2Proof.Machine
end

