-- ==== Sys2Proof/Laws/Ops.lean ====
section
/-!
SUPPORT. What each shared operation of the instructions can do, said once.
-/

namespace Sys2Proof.Machine

/-! ### Outcomes -/

theorem complete_eq_next {pc : Word} {x : Except Refusal State} {t : State} :
    complete pc x = .next t ↔ ∃ u, x = .ok u ∧ t = { u with pc := pc } := by
  cases x <;> simp [complete, eq_comm]

theorem finish_eq_next {x : Except Refusal State} {t : State} : finish x = .next t ↔ x = .ok t := by
  cases x <;> simp [finish]

@[simp] theorem complete_ok (pc : Word) (s : State) : complete pc (.ok s) = .next { s with pc := pc } := rfl

@[simp] theorem finish_ok (s : State) : finish (.ok s) = .next s := rfl

@[simp] theorem complete_ne_fault (pc : Word) (x : Except Refusal State) (r : Fault) : complete pc x ≠ .fault r := by
  cases x <;> simp [complete]

@[simp] theorem finish_ne_fault (x : Except Refusal State) (r : Fault) : finish x ≠ .fault r := by
  cases x <;> simp [finish]

/-! ### Operands -/

/-- Everything the delivery of an 8-bit operand can answer. -/
theorem operand8_eq_ok {m : Operand8} {s t : State} {v : Byte} :
    operand8 m s = .ok (v, t) ↔ readable8 m s = true ∧ v = value8 m s ∧ t = after8 m s := by
  cases m <;> simp [operand8, readable8, operandAddress8, value8, after8, readByte_eq_ok]
  exact ⟨fun h => ⟨h.1.symm, h.2.symm⟩, fun h => ⟨h.1.symm, h.2.symm⟩⟩

/-- Everything the delivery of a 16-bit operand can answer. -/
theorem operand16_eq_ok {m : Operand16} {s t : State} {v : Word} :
    operand16 m s = .ok (v, t) ↔ readable16 m s = true ∧ v = value16 m s ∧ t = after16 m s := by
  cases m <;> simp [operand16, readable16, operandAddress16, value16, after16, readWord_eq_ok]
  exact ⟨fun h => ⟨h.1.symm, h.2.symm⟩, fun h => ⟨h.1.symm, h.2.symm⟩⟩

theorem withOperand8_eq_ok {m : Operand8} {f : Byte → State → State} {s t : State} :
    withOperand8 m f s = .ok t ↔ readable8 m s = true ∧ t = f (value8 m s) (after8 m s) := by
  unfold withOperand8
  simp only [bind_eq_ok, pure_eq_ok, Prod.exists, operand8_eq_ok]
  constructor
  · rintro ⟨v, s1, ⟨h, rfl, rfl⟩, rfl⟩
    exact ⟨h, rfl⟩
  · rintro ⟨h, rfl⟩
    exact ⟨_, _, ⟨h, rfl, rfl⟩, rfl⟩

theorem withOperand16_eq_ok {m : Operand16} {f : Word → State → State} {s t : State} :
    withOperand16 m f s = .ok t ↔ readable16 m s = true ∧ t = f (value16 m s) (after16 m s) := by
  unfold withOperand16
  simp only [bind_eq_ok, pure_eq_ok, Prod.exists, operand16_eq_ok]
  constructor
  · rintro ⟨v, s1, ⟨h, rfl, rfl⟩, rfl⟩
    exact ⟨h, rfl⟩
  · rintro ⟨h, rfl⟩
    exact ⟨_, _, ⟨h, rfl, rfl⟩, rfl⟩

/-- Everything a byte store can answer. -/
theorem storeByte_eq_ok {a : Word} {v : Byte} {f : Ccr} {s t : State} :
    storeByte a v f s = .ok t ↔ canWrite s.cfg a v = true ∧ t = { poke a v s with ccr := f } := by
  unfold storeByte
  simp only [bind_eq_ok, pure_eq_ok, writeByte_eq_ok]
  constructor
  · rintro ⟨s1, ⟨h, rfl⟩, rfl⟩
    exact ⟨h, rfl⟩
  · rintro ⟨h, rfl⟩
    exact ⟨_, ⟨h, rfl⟩, rfl⟩

/-- Everything a word store can answer. -/
theorem storeWord_eq_ok {a v : Word} {f : Ccr} {s t : State} :
    storeWord a v f s = .ok t ↔ canWriteWord s.cfg a v = true ∧ t = { pokeWord a v s with ccr := f } := by
  unfold storeWord
  simp only [bind_eq_ok, pure_eq_ok, writeWord_eq_ok]
  constructor
  · rintro ⟨s1, ⟨h, rfl⟩, rfl⟩
    exact ⟨h, rfl⟩
  · rintro ⟨h, rfl⟩
    exact ⟨_, ⟨h, rfl⟩, rfl⟩

/-- Everything a read-modify-write can answer. -/
theorem modifyByte_eq_ok {a : Word} {f : Byte → Ccr → Byte × Ccr} {s t : State} :
    modifyByte a f s = .ok t ↔
      canRead s.cfg a = true ∧ canWrite s.cfg a (f (peek a s) s.ccr).1 = true
        ∧ t = { poke a (f (peek a s) s.ccr).1 (touch a s) with ccr := (f (peek a s) s.ccr).2 } := by
  unfold modifyByte
  simp only [bind_eq_ok, pure_eq_ok, Prod.exists, readByte_eq_ok, writeByte_eq_ok]
  constructor
  · rintro ⟨v, s1, ⟨h1, rfl, rfl⟩, s2, ⟨h2, rfl⟩, rfl⟩
    exact ⟨h1, by simpa using h2, rfl⟩
  · rintro ⟨h1, h2, rfl⟩
    exact ⟨_, _, ⟨h1, rfl, rfl⟩, _, ⟨by simpa using h2, rfl⟩, rfl⟩

/-! ### The cells of a push -/

/-- Which addresses the bytes pushed from an SP go to. -/
theorem mem_pushedCells_address {a : Word} {l : List Byte} {sp : Word} :
    a ∈ (pushedCells l sp).map Prod.fst ↔ ∃ k, k < l.length ∧ a = sp - BitVec.ofNat 16 k := by
  induction l generalizing sp with
  | nil => simp [pushedCells]
  | cons v l ih =>
    have down : ∀ k, sp - 1 - BitVec.ofNat 16 k = sp - BitVec.ofNat 16 (k + 1) := by
      intro k
      apply BitVec.eq_of_toNat_eq
      simp [BitVec.toNat_sub, BitVec.toNat_ofNat]
      omega
    simp only [pushedCells, List.map_cons, List.mem_cons, ih, List.length_cons, down]
    constructor
    · rintro (rfl | ⟨k, hk, rfl⟩)
      · exact ⟨0, by omega, by simp⟩
      · exact ⟨k + 1, by omega, rfl⟩
    · rintro ⟨_ | k, hk, rfl⟩
      · exact .inl (by simp)
      · exact .inr ⟨k, by omega, rfl⟩

/-- Bytes can be pushed exactly where each of their cells can be written. -/
theorem canPush_iff_cells {cfg : Config} {l : List Byte} {sp : Word} :
    canPush cfg l sp = true ↔ ∀ c ∈ pushedCells l sp, canWrite cfg c.1 c.2 = true := by
  induction l generalizing sp with
  | nil => simp [canPush, pushedCells]
  | cons v l ih => simp [canPush, pushedCells, ih]

/-! ### Taking an exception and returning from one -/

/-- Everything the nine pushes can answer. -/
theorem pushFrame_eq_ok {ret : Word} {s t : State} :
    pushFrame ret s = .ok t ↔
      canPush s.cfg (frameBytes ret s) s.sp = true ∧ t = pushed (frameBytes ret s) s := by
  unfold pushFrame
  simp only [bind_eq_ok, push8_eq_ok, push16_eq_ok, frameBytes, wordBytes]
  constructor
  · rintro ⟨s1, ⟨h1, rfl⟩, s2, ⟨h2, rfl⟩, s3, ⟨h3, rfl⟩, s4, ⟨h4, rfl⟩, s5, ⟨h5, rfl⟩, h6, rfl⟩
    simp_all [canPush, pushed]
  · rintro ⟨h, rfl⟩
    refine ⟨_, ⟨?_, rfl⟩, _, ⟨?_, rfl⟩, _, ⟨?_, rfl⟩, _, ⟨?_, rfl⟩, _, ⟨?_, rfl⟩, ?_, rfl⟩ <;>
      simp_all [canPush, pushed]

/-- The vector table is the parameter in both modes of the spec (60_exceptions.md R404). -/
@[simp] theorem vectorTable_eq (cfg : Config) : vectorTable cfg = cfg.vectors := by
  unfold vectorTable
  split <;> rfl

theorem takeVector_eq_ok {name : TrapName} {s t : State} :
    takeVector name s = .ok t ↔
      canReadWord s.cfg (vectorOf s.cfg name) = true ∧
        t = { touchWord (vectorOf s.cfg name) { s with ccr := maskFor name s.ccr } with
              pc := peekWord (vectorOf s.cfg name) { s with ccr := maskFor name s.ccr } } := by
  unfold takeVector
  simp only [bind_eq_ok, pure_eq_ok, Prod.exists, readWord_eq_ok]
  constructor
  · rintro ⟨v, s1, ⟨h, rfl, rfl⟩, rfl⟩
    exact ⟨h, rfl⟩
  · rintro ⟨h, rfl⟩
    exact ⟨_, _, ⟨h, rfl, rfl⟩, rfl⟩

/-- Everything trap entry can answer. -/
theorem enter_eq_ok {name : TrapName} {ret : Word} {s t : State} :
    enter name ret s = .ok t ↔ canEnter name ret s = true ∧ t = entered name ret s := by
  unfold enter
  simp only [bind_eq_ok, pure_eq_ok, pushFrame_eq_ok, takeVector_eq_ok, canEnter, Bool.and_eq_true, entered]
  constructor
  · rintro ⟨s1, ⟨h1, rfl⟩, s2, ⟨h2, rfl⟩, rfl⟩
    exact ⟨⟨h1, by simpa using h2⟩, by simp⟩
  · rintro ⟨⟨h1, h2⟩, rfl⟩
    exact ⟨_, ⟨h1, rfl⟩, _, ⟨by simpa using h2, rfl⟩, by simp⟩

/-- Everything the end of a wait can answer. -/
theorem resume_eq_ok {name : TrapName} {s t : State} :
    resume name s = .ok t ↔ canReadWord s.cfg (vectorOf s.cfg name) = true ∧ t = resumed name s := by
  unfold resume
  simp only [bind_eq_ok, pure_eq_ok, takeVector_eq_ok, resumed]
  constructor
  · rintro ⟨s1, ⟨h, rfl⟩, rfl⟩
    exact ⟨h, rfl⟩
  · rintro ⟨h, rfl⟩
    exact ⟨_, ⟨h, rfl⟩, rfl⟩

/-- A byte pull after `k` others. -/
theorem pull8_pulled {k : Nat} {v : Byte} {s t : State} :
    pull8 (pulled k s) = .ok (v, t) ↔
      canPull s.cfg 1 (s.sp + BitVec.ofNat 16 k) = true ∧ v = pulledByte k s ∧ t = pulled (k + 1) s := by
  simp [pull8_eq_ok, pulledByte_pulled, pulled_add]

/-- A word pull after `k` others. -/
theorem pull16_pulled {k : Nat} {v : Word} {s t : State} :
    pull16 (pulled k s) = .ok (v, t) ↔
      canPull s.cfg 2 (s.sp + BitVec.ofNat 16 k) = true
        ∧ v = joinBytes (pulledByte k s) (pulledByte (k + 1) s) ∧ t = pulled (k + 2) s := by
  simp [pull16_eq_ok, pulledByte_pulled, pulled_add]

theorem canPull_nine {cfg : Config} {sp : Word} : canPull cfg 9 sp = true ↔
    canPull cfg 1 (sp + BitVec.ofNat 16 0) = true ∧ canPull cfg 1 (sp + BitVec.ofNat 16 1) = true
      ∧ canPull cfg 1 (sp + BitVec.ofNat 16 2) = true ∧ canPull cfg 2 (sp + BitVec.ofNat 16 3) = true
      ∧ canPull cfg 2 (sp + BitVec.ofNat 16 5) = true ∧ canPull cfg 2 (sp + BitVec.ofNat 16 7) = true := by
  rw [canPull_add (m := 7) (n := 2), canPull_add (m := 5) (n := 2), canPull_add (m := 3) (n := 2),
    canPull_add (m := 2) (n := 1), canPull_add (m := 1) (n := 1)]
  simp only [Bool.and_eq_true, BitVec.add_zero, and_assoc]

/-- Everything the return from a trap can answer. -/
theorem returnFromTrap_eq_ok {s t : State} :
    returnFromTrap s = .ok t ↔ canPull s.cfg 9 s.sp = true ∧ t = returned s := by
  have start : returnFromTrap s = (do
      let (c, s1) ← pull8 (pulled 0 s)
      let (b, s2) ← pull8 s1
      let (a, s3) ← pull8 s2
      let (ix, s4) ← pull16 s3
      let (iy, s5) ← pull16 s4
      let (pc, s6) ← pull16 s5
      return { s6 with ccr := s.ccr.load c, b := b, a := a, ix := ix, iy := iy, pc := pc }) := rfl
  rw [start, canPull_nine, returned]
  simp only [bind_eq_ok, pure_eq_ok, Prod.exists, pull8_pulled, pull16_pulled, and_assoc, exists_and_left,
    exists_eq_left, Nat.reduceAdd, eq_comm (b := t)]

end Sys2Proof.Machine
end

