-- ==== Sys2Proof/Laws/Flags.lean ====
section
/-!
SUPPORT. The results of the arithmetic, logic and shift operations, with the flags in the forms the claims use
(10_state.md R29 to R33).
-/

namespace Sys2Proof.Machine

/-! ### Bits of a sum -/

theorem getLsbD_add_bit (x y : Byte) (c : Bool) {i : Nat} (h : i < 8) :
    (x + y + bitByte c).getLsbD i = (x.getLsbD i ^^ (y.getLsbD i ^^ BitVec.carry i x y c)) := by
  have : bitByte c = (BitVec.ofBool c).setWidth 8 := by cases c <;> rfl
  rw [this, BitVec.getLsbD_add_add_bool h]

theorem ofNat_sum (a m : Byte) (c : Bool) :
    BitVec.ofNat 8 (a.toNat + m.toNat + c.toNat) = a + m + bitByte c := by
  apply BitVec.eq_of_toNat_eq
  cases c <;> simp [bitByte, BitVec.toNat_add]

theorem carry_four (a m : Byte) (c : Bool) :
    BitVec.carry 4 a m c = decide (a.toNat % 16 + m.toNat % 16 + c.toNat > 15) := by
  simp only [BitVec.carry, Nat.reducePow, decide_eq_decide]
  omega

theorem carry_eight (a m : Byte) (c : Bool) :
    BitVec.carry 8 a m c = decide (a.toNat + m.toNat + c.toNat > 255) := by
  have := a.isLt
  have := m.isLt
  simp only [BitVec.carry, decide_eq_decide, Nat.mod_eq_of_lt, *]
  omega

theorem carry_majority (a m : Byte) (c : Bool) {i : Nat} (h : i < 8) :
    BitVec.carry (i + 1) a m c =
      ((a.getLsbD i && m.getLsbD i) || (m.getLsbD i && !(a + m + bitByte c).getLsbD i)
        || (!(a + m + bitByte c).getLsbD i && a.getLsbD i)) := by
  rw [getLsbD_add_bit a m c h, BitVec.carry_succ]
  cases a.getLsbD i <;> cases m.getLsbD i <;> cases BitVec.carry i a m c <;> rfl

theorem beq_zero_eq {w : Nat} (r : BitVec w) : (r == 0) = decide (r = 0) := by
  rw [Bool.eq_iff_iff]
  simp

/-- `ADD8` with the flags in boolean form (10_state.md R30). -/
theorem add8_eq (a m : Byte) (c : Bool) (f : Ccr) :
    add8 a m c f = (a + m + bitByte c, addFlags8 a m (a + m + bitByte c) f) := by
  simp only [add8, addFlags8, nz8, ofNat_sum, ← carry_four, ← carry_eight, beq_zero_eq,
    carry_majority a m c (show 3 < 8 by decide), carry_majority a m c (show 7 < 8 by decide)]
  congr 2
  cases a.getLsbD 7 <;> cases m.getLsbD 7 <;> cases (a + m + bitByte c).getLsbD 7 <;> rfl

/-! ### Bits of a difference -/

theorem sub_eq_add (a m : Byte) (c : Bool) : a - m - bitByte c = a + ~~~m + bitByte (!c) := by
  apply BitVec.eq_of_toNat_eq
  have := m.isLt
  cases c <;> simp [bitByte, BitVec.toNat_add, BitVec.toNat_sub] <;> omega

theorem ofInt_difference (a m : Byte) (c : Bool) :
    BitVec.ofInt 8 ((a.toNat : Int) - m.toNat - c.toNat) = a - m - bitByte c := by
  have := a.isLt
  have := m.isLt
  apply BitVec.eq_of_toNat_eq
  cases c <;> simp [bitByte, BitVec.toNat_sub, BitVec.toNat_ofInt] <;> omega

theorem borrow_eq_carry (a m : Byte) (c : Bool) :
    decide ((a.toNat : Int) - m.toNat - c.toNat < 0) = !BitVec.carry 8 a (~~~m) (!c) := by
  have := m.isLt
  have := a.isLt
  rw [carry_eight, ← decide_not, decide_eq_decide]
  cases c <;> simp [BitVec.toNat_not] <;> omega

/-- `SUB8` with the flags in boolean form (10_state.md R31). -/
theorem sub8_eq (a m : Byte) (c : Bool) (f : Ccr) :
    sub8 a m c f = (a - m - bitByte c, subFlags8 a m (a - m - bitByte c) f) := by
  have hn : (~~~m).getLsbD 7 = !m.getLsbD 7 := by simp
  simp only [sub8, subFlags8, nz8, ofInt_difference, borrow_eq_carry, beq_zero_eq]
  have := carry_majority a (~~~m) (!c) (show 7 < 8 by decide)
  rw [← sub_eq_add, hn] at this
  rw [this]
  congr 2 <;>
    cases a.getLsbD 7 <;> cases m.getLsbD 7 <;> cases (a - m - bitByte c).getLsbD 7 <;> rfl

/-! ### Words -/

theorem msb_eq_getLsbD (r : Word) : r.msb = r.getLsbD 15 := by
  simp [BitVec.msb_eq_getLsbD_last]

theorem msb_eq_getLsbD_byte (r : Byte) : r.msb = r.getLsbD 7 := by
  simp [BitVec.msb_eq_getLsbD_last]

theorem toInt_word (a : Word) : a.toInt = if a.getLsbD 15 then (a.toNat : Int) - 65536 else a.toNat := by
  rw [← msb_eq_getLsbD, BitVec.toInt_eq_msb_cond]
  rfl

/-- `ADD16` with the flags as comparisons with the two ranges (10_state.md R32). -/
theorem add16_eq (a m : Word) (f : Ccr) : add16 a m f = (a + m, addFlags16 a m f) := by
  have hs : BitVec.ofNat 16 (a.toNat + m.toNat) = a + m := by
    apply BitVec.eq_of_toNat_eq
    simp [BitVec.toNat_add]
  have h1 := toInt_word a
  have h2 := toInt_word m
  have h3 := toInt_word (a + m)
  have hr : (a + m).toNat = (a.toNat + m.toNat) % 65536 := by simp [BitVec.toNat_add]
  have b1 := BitVec.msb_eq_decide a
  have b2 := BitVec.msb_eq_decide m
  have b3 := BitVec.msb_eq_decide (a + m)
  have := a.isLt
  have := m.isLt
  rw [msb_eq_getLsbD] at b1 b2 b3
  simp only [add16, addFlags16, nz16, hs, msb_eq_getLsbD, beq_zero_eq]
  congr 2
  · rw [decide_eq_decide]
    rw [b1, b2, b3]
    rw [b1] at h1
    rw [b2] at h2
    simp only [Nat.reduceSub, Nat.reducePow, decide_eq_true_eq, decide_eq_decide, ne_eq, hr] at *
    split at h1 <;> split at h2 <;> omega

/-- `SUB16` with the flags as comparisons with the two ranges (10_state.md R32). -/
theorem sub16_eq (a m : Word) (f : Ccr) : sub16 a m f = (a - m, subFlags16 a m f) := by
  have := a.isLt
  have := m.isLt
  have hs : BitVec.ofInt 16 ((a.toNat : Int) - m.toNat) = a - m := by
    apply BitVec.eq_of_toNat_eq
    simp [BitVec.toNat_sub, BitVec.toNat_ofInt]
    omega
  have h1 := toInt_word a
  have h2 := toInt_word m
  have hr : (a - m).toNat = (65536 - m.toNat + a.toNat) % 65536 := by simp [BitVec.toNat_sub]
  have b1 := BitVec.msb_eq_decide a
  have b2 := BitVec.msb_eq_decide m
  have b3 := BitVec.msb_eq_decide (a - m)
  rw [msb_eq_getLsbD] at b1 b2 b3
  have hz : (a == m) = decide (a - m = 0) := by
    rw [Bool.eq_iff_iff]
    simp [← BitVec.toNat_inj, hr]
    omega
  simp only [sub16, subFlags16, nz16, hs, msb_eq_getLsbD, hz]
  congr 2
  · rw [decide_eq_decide]
    rw [b1, b2, b3]
    rw [b1] at h1
    rw [b2] at h2
    simp only [Nat.reduceSub, Nat.reducePow, decide_eq_true_eq, decide_eq_decide, ne_eq, hr] at *
    split at h1 <;> split at h2 <;> omega
  · rw [decide_eq_decide]
    omega

/-! ### One byte -/

theorem logic8_eq (r : Byte) (f : Ccr) : logic8 r f = logicFlags8 r f := by
  simp only [logic8, logicFlags8, nz8, msb_eq_getLsbD_byte, beq_zero_eq]

theorem logic16_eq (r : Word) (f : Ccr) : logic16 r f = logicFlags16 r f := by
  simp only [logic16, logicFlags16, nz16, msb_eq_getLsbD, beq_zero_eq]

theorem shifted8_eq (r : Byte) (out : Bool) (f : Ccr) : shifted8 r out f = (r, shiftFlags8 r out f) := by
  simp only [shifted8, shiftFlags8, nz8, msb_eq_getLsbD_byte, beq_zero_eq]

theorem shifted16_eq (r : Word) (out : Bool) (f : Ccr) : shifted16 r out f = (r, shiftFlags16 r out f) := by
  simp only [shifted16, shiftFlags16, nz16, msb_eq_getLsbD, beq_zero_eq]

theorem inc8_eq (v : Byte) (f : Ccr) :
    inc8 v f = (v + 1, { logicFlags8 (v + 1) f with v := decide (127 < v.toInt + 1) }) := by
  have : ∀ v : Byte, decide (v = 0x7F) = decide (127 < v.toInt + 1) := by decide
  simp only [inc8, logicFlags8, nz8, this, msb_eq_getLsbD_byte, beq_zero_eq]

theorem dec8_eq (v : Byte) (f : Ccr) :
    dec8 v f = (v - 1, { logicFlags8 (v - 1) f with v := decide (v.toInt - 1 < -128) }) := by
  have : ∀ v : Byte, decide (v = 0x80) = decide (v.toInt - 1 < -128) := by decide
  simp only [dec8, logicFlags8, nz8, this, msb_eq_getLsbD_byte, beq_zero_eq]

theorem neg8_eq (v : Byte) (f : Ccr) :
    neg8 v f = (-v, { logicFlags8 (-v) f with v := decide (127 < -v.toInt), c := v != 0 }) := by
  have h1 : ∀ v : Byte, decide (-v = 0x80) = decide (127 < -v.toInt) := by decide
  have h2 : ∀ v : Byte, decide (-v ≠ 0) = (v != 0) := by decide
  have h3 : (0 : Byte) - v = -v := BitVec.zero_sub v
  simp only [neg8, logicFlags8, nz8, h3, h1, h2, msb_eq_getLsbD_byte, beq_zero_eq]

theorem com8_eq (v : Byte) (f : Ccr) : com8 v f = (~~~v, { logicFlags8 (~~~v) f with c := true }) := by
  have : ∀ v : Byte, 0xFF - v = ~~~v := by decide
  simp only [com8, logicFlags8, nz8, this, msb_eq_getLsbD_byte, beq_zero_eq]

theorem clr8_eq (f : Ccr) : clr8 f = (0x00, { logicFlags8 0x00 f with c := false }) := rfl

theorem tst8_eq (v : Byte) (f : Ccr) : tst8 v f = { logicFlags8 v f with c := false } := by
  simp only [tst8, logicFlags8, nz8, msb_eq_getLsbD_byte, beq_zero_eq]

end Sys2Proof.Machine
end

