-- ==== Sys2Proof/Laws/Inv.lean ====
section
/-!
SUPPORT. The accesses of the CPU and the steps of the devices keep the invariant, and initialised memory stays
initialised.
-/

namespace Sys2Proof.Machine

/-! ### Bits -/

/-- A byte has no bit outside another. -/
theorem subset_iff {x y : Byte} :
    x &&& ~~~y = 0 ↔ ∀ i, i < 8 → x.getLsbD i = true → y.getLsbD i = true := by
  constructor
  · intro h i hi hx
    have this := congrArg (fun z : Byte => z.getLsbD i) h
    simp [hi] at this hx ⊢
    exact this hx
  · intro h
    apply BitVec.eq_of_getLsbD_eq
    intro i hi
    have := h i hi
    simp_all

/-- Two bytes have no bit in common. -/
theorem disjoint_iff {x m : Byte} :
    x &&& m = 0 ↔ ∀ i, i < 8 → x.getLsbD i = true → m.getLsbD i = false := by
  constructor
  · intro h i hi hx
    have this := congrArg (fun z : Byte => z.getLsbD i) h
    simp [hi] at this hx ⊢
    exact this hx
  · intro h
    apply BitVec.eq_of_getLsbD_eq
    intro i hi
    have := h i hi
    simp_all

theorem subset_or {x y z : Byte} (h : x &&& ~~~y = 0) : x &&& ~~~(y ||| z) = 0 := by
  rw [subset_iff] at h ⊢
  intro i hi hx
  simp [h i hi hx]

theorem disjoint_and {x y m : Byte} (h : x &&& m = 0) : x &&& y &&& m = 0 := by
  rw [disjoint_iff] at h ⊢
  intro i hi hx
  simp at hx
  exact h i hi (by simpa using hx.1)

theorem disjoint_or {x y m : Byte} (h : x &&& m = 0) (h' : y &&& m = 0) : (x ||| y) &&& m = 0 := by
  rw [disjoint_iff] at h h' ⊢
  intro i hi hx
  simp at hx
  rcases hx with hx | hx
  · exact h i hi (by simpa using hx)
  · exact h' i hi (by simpa using hx)

theorem disjoint_and_right {x y m : Byte} (h : y &&& m = 0) : x &&& y &&& m = 0 := by
  rw [BitVec.and_comm x y]
  exact disjoint_and h

/-! ### The parts of the invariant -/

/-- The part of the invariant about the SCI. -/
structure Sci.Inv (d : Sci) : Prop where
  baud : d.baud &&& 0xC8 = 0
  sccr1 : d.sccr1 &&& 0x27 = 0
  scsr : d.scsr &&& 0x01 = 0
  armed : d.armed &&& ~~~d.scsr = 0

/-- The part of the invariant about the SPI. -/
structure Spi.Inv (d : Spi) : Prop where
  spsr : d.spsr &&& 0x2F = 0
  armed : d.armed &&& ~~~d.spsr = 0

/-- The part of the invariant about the A/D converter. -/
structure Adc.Inv (d : Adc) : Prop where
  option : d.option &&& 0x04 = 0
  adctl : d.adctl &&& 0x40 = 0

/-- The part of the invariant about memory and the record of its initialised addresses. -/
structure MemInv (cfg : Config) (m : Memory) (w : Addresses) : Prop where
  mem : m.wf = true
  written : w.wf = true
  listed : ∀ n, m.get n ≠ Memory.blank → n ∈ w ∨ kindOf cfg (BitVec.ofNat 16 n) = .rom

/-- Storing a byte and recording its address keeps it. -/
theorem MemInv.store {cfg : Config} {m : Memory} {w : Addresses} (h : MemInv cfg m w) {n : Nat} (v : Byte)
    (hn : n < 65536) : MemInv cfg (m.set n v) (w.add n) := by
  refine ⟨Memory.wf_set h.mem hn, Addresses.wf_add h.written hn, fun k hk => ?_⟩
  rw [Memory.get_set h.mem] at hk
  by_cases e : n = k
  · exact .inl (Addresses.mem_add.2 (.inl e.symm))
  · rw [if_neg e] at hk
    exact (h.listed k hk).imp_left fun hw => Addresses.mem_add.2 (.inr hw)

theorem inv_iff {s : State} :
    s.Inv ↔ MemInv s.cfg s.mem s.written ∧ s.adc.Inv ∧ s.sci.Inv ∧ s.spi.Inv ∧ s.portD.ddr &&& 0xC0 = 0 := by
  constructor
  · intro h
    exact ⟨⟨h.mem, h.written, h.listed⟩, ⟨h.option, h.adctl⟩, ⟨h.baud, h.sccr1, h.scsr, h.sciArmed⟩,
      ⟨h.spsr, h.spiArmed⟩, h.ddr⟩
  · rintro ⟨h1, h2, h3, h4, h5⟩
    exact ⟨h1.mem, h1.written, h1.listed, h2.option, h2.adctl, h3.baud, h3.sccr1, h3.scsr, h3.armed, h4.spsr,
      h4.armed, h5⟩

/-- The invariant speaks of memory, its map and its record, the devices and port D only. -/
theorem State.Inv.congr {s t : State} (h : s.Inv) (cfg : t.cfg = s.cfg) (mem : t.mem = s.mem)
    (written : t.written = s.written) (adc : t.adc = s.adc) (sci : t.sci = s.sci) (spi : t.spi = s.spi)
    (portD : t.portD = s.portD) : t.Inv := by
  rw [inv_iff] at h ⊢
  rwa [cfg, mem, written, adc, sci, spi, portD]

/-! ### Arming and acknowledging -/

theorem Sci.arm_inv {d : Sci} (h : d.Inv) : d.arm.Inv := by
  refine ⟨h.baud, h.sccr1, h.scsr, ?_⟩
  have := h.armed
  rw [subset_iff] at this ⊢
  intro i hi hx
  simp [Sci.arm] at hx ⊢
  rcases hx with hx | hx
  · simpa using this i hi (by simpa using hx)
  · simpa using hx.1

theorem Sci.acknowledge_inv {d : Sci} (mask : Byte) (h : d.Inv) : (d.acknowledge mask).Inv := by
  refine ⟨h.baud, h.sccr1, disjoint_and h.scsr, ?_⟩
  have := h.armed
  rw [subset_iff] at this ⊢
  intro i hi hx
  have := this i hi
  simp [Sci.acknowledge, hi] at hx ⊢
  simp_all

theorem Spi.arm_inv {d : Spi} (h : d.Inv) : d.arm.Inv := by
  refine ⟨h.spsr, ?_⟩
  have := h.armed
  rw [subset_iff] at this ⊢
  intro i hi hx
  simp [Spi.arm] at hx ⊢
  rcases hx with hx | hx
  · simpa using this i hi (by simpa using hx)
  · simpa using hx.1

theorem Spi.acknowledge_inv {d : Spi} (mask : Byte) (h : d.Inv) : (d.acknowledge mask).Inv := by
  refine ⟨disjoint_and h.spsr, ?_⟩
  have := h.armed
  rw [subset_iff] at this ⊢
  intro i hi hx
  have := this i hi
  simp [Spi.acknowledge, hi] at hx ⊢
  simp_all

/-! ### Accesses -/

theorem regAfterRead_inv {r : DeviceReg} {s : State} (h : s.Inv) : (regAfterRead r s).Inv := by
  rw [inv_iff] at h
  obtain ⟨h1, h2, h3, h4, h5⟩ := h
  rw [inv_iff]
  simp only [regAfterRead_cfg, regAfterRead_mem, regAfterRead_written, regAfterRead_adc, regAfterRead_portD]
  refine ⟨h1, h2, ?_, ?_, h5⟩
  · cases r <;> simp only [regAfterRead, afterAdr] <;>
      first
        | exact h3
        | exact Sci.arm_inv h3
        | exact Sci.acknowledge_inv _ h3
        | (split <;> exact h3)
  · cases r <;> simp only [regAfterRead, afterAdr] <;>
      first
        | exact h4
        | exact Spi.arm_inv h4
        | exact Spi.acknowledge_inv _ h4
        | (split <;> exact h4)

/-- A read keeps the invariant. -/
theorem touch_inv {a : Word} {s : State} (h : s.Inv) : (touch a s).Inv := by
  unfold touch
  split
  · exact h
  · exact h
  · exact h.congr rfl rfl rfl rfl rfl rfl rfl
  · split
    · exact regAfterRead_inv h
    · exact h

theorem Sci.writeData_inv {v : Byte} {d : Sci} (h : d.Inv) : (d.writeData v).Inv :=
  ⟨(Sci.acknowledge_inv 0xC0 h).baud, (Sci.acknowledge_inv 0xC0 h).sccr1, (Sci.acknowledge_inv 0xC0 h).scsr,
    (Sci.acknowledge_inv 0xC0 h).armed⟩

theorem Spi.writeData_inv {v : Byte} {d : Spi} (h : d.Inv) : (d.writeData v).Inv := by
  have h' := Spi.acknowledge_inv 0xC0 h
  simp only [Spi.writeData]
  split
  · exact ⟨disjoint_or h'.spsr (by decide), subset_or h'.armed⟩
  · exact ⟨h'.spsr, h'.armed⟩

theorem Spi.writeControl_inv {v : Byte} {d : Spi} (h : d.Inv) : (d.writeControl v).Inv :=
  ⟨(Spi.acknowledge_inv 0x10 h).spsr, (Spi.acknowledge_inv 0x10 h).armed⟩

theorem baud_inv {v : Byte} (h : refusedWrite .baud v = false) : v &&& 0xBF &&& 0xC8 = 0 := by
  revert v
  decide

theorem regWrite_inv {r : DeviceReg} {v : Byte} {s : State} (ok : refusedWrite r v = false) (h : s.Inv) :
    (regWrite r v s).Inv := by
  rw [inv_iff] at h ⊢
  obtain ⟨h1, h2, h3, h4, h5⟩ := h
  rw [regWrite_cfg, regWrite_mem, regWrite_written]
  refine ⟨h1, ?_, ?_, ?_, ?_⟩
  · cases r <;> first
      | exact h2
      | exact ⟨h2.option, disjoint_and_right (by decide)⟩
      | exact ⟨disjoint_and_right (by decide), h2.adctl⟩
  · cases r <;> first
      | exact h3
      | exact Sci.writeData_inv h3
      | exact ⟨baud_inv ok, h3.sccr1, h3.scsr, h3.armed⟩
      | exact ⟨h3.baud, disjoint_and_right (by decide), h3.scsr, h3.armed⟩
      | exact ⟨h3.baud, h3.sccr1, h3.scsr, h3.armed⟩
  · cases r <;> first
      | exact h4
      | exact Spi.writeData_inv h4
      | exact Spi.writeControl_inv h4
  · cases r <;> first
      | exact h5
      | exact disjoint_and_right (by decide)

/-- A write that has a meaning keeps the invariant. -/
theorem poke_inv {a : Word} {v : Byte} {s : State} (ok : canWrite s.cfg a v = true) (h : s.Inv) :
    (poke a v s).Inv := by
  rw [canWrite_iff] at ok
  unfold poke
  split
  · rw [inv_iff] at h ⊢
    exact ⟨h.1.store v a.isLt, h.2⟩
  · exact h
  · exact h
  · rename_i hk
    split
    · rename_i r hr
      have : refusedWrite r v = false := by
        by_contra hc
        simp [writeRefusal, hk, hr, hc] at ok
      exact regWrite_inv this h
    · exact h

theorem pushed_inv {l : List Byte} {s : State} (ok : canPush s.cfg l s.sp = true) (h : s.Inv) :
    (pushed l s).Inv := by
  induction l generalizing s with
  | nil => exact h
  | cons v rest ih =>
    rw [canPush, Bool.and_eq_true] at ok
    have h' := poke_inv ok.1 h
    exact ih (by simpa using ok.2) (h'.congr rfl rfl rfl rfl rfl rfl rfl)

theorem pulled_inv {n : Nat} {s : State} (h : s.Inv) : (pulled n s).Inv := by
  induction n generalizing s with
  | zero => exact h
  | succ n ih => exact ih (touch_inv (h.congr rfl rfl rfl rfl rfl rfl rfl))

/-- Placing bytes in memory keeps its canonical form. -/
theorem placeBytes_wf {l : List Byte} {a : Word} {m : Memory} (h : m.wf = true) : (placeBytes l a m).wf = true := by
  induction l generalizing a m with
  | nil => exact h
  | cons v rest ih => exact ih (Memory.wf_set h a.isLt)

/-- Adding addresses keeps their canonical form. -/
theorem placeAddresses_wf {n : Nat} {a : Word} {w : Addresses} (h : w.wf = true) :
    (placeAddresses n a w).wf = true := by
  induction n generalizing a w with
  | zero => exact h
  | succ n ih => exact ih (Addresses.wf_add h a.isLt)

/-! ### Vectors -/

/-- A push initialises memory and forgets none of it. -/
theorem pushed_initialised {l : List Byte} {s : State} {a : Word} (h : s.initialised a = true) :
    (pushed l s).initialised a = true := by
  induction l generalizing s with
  | nil => exact h
  | cons v rest ih =>
    apply ih
    show (poke s.sp v s).initialised a = true
    rw [poke_initialised, h, Bool.true_or]

/-- Every vector that can be used is one of the spec's vectors. -/
theorem usableVectors_subset {s : State} {v : Word} (h : v ∈ usableVectors s) : v ∈ everyVector s.cfg := by
  simp only [usableVectors, List.mem_append] at h
  rcases h with ((((((h | h) | h) | h) | h) | h) | h) <;> revert h <;> try split
  all_goals simp +contextual [everyVector]

/-- An image that initialises every vector meets the hypothesis of 60_exceptions.md R418. -/
theorem VectorsInitialised.ready {s : State} (h : VectorsInitialised s) : VectorsReady s :=
  fun v hv => h v (usableVectors_subset hv)

end Sys2Proof.Machine
end

