-- ==== Sys2Proof/Laws/Operands.lean ====
section
/-!
SUPPORT. The delivery of memory operands and the shifts, as the statements say them.
-/

namespace Sys2Proof.Machine

/-! ### What the delivery of an operand leaves alone -/

@[simp] theorem after8_a (m : Operand8) (s : State) : (after8 m s).a = s.a := by
  unfold after8; split <;> simp

@[simp] theorem after16_a (m : Operand16) (s : State) : (after16 m s).a = s.a := by
  unfold after16; split <;> simp [touchWord]

@[simp] theorem after8_b (m : Operand8) (s : State) : (after8 m s).b = s.b := by
  unfold after8; split <;> simp

@[simp] theorem after16_b (m : Operand16) (s : State) : (after16 m s).b = s.b := by
  unfold after16; split <;> simp [touchWord]

@[simp] theorem after8_ix (m : Operand8) (s : State) : (after8 m s).ix = s.ix := by
  unfold after8; split <;> simp

@[simp] theorem after16_ix (m : Operand16) (s : State) : (after16 m s).ix = s.ix := by
  unfold after16; split <;> simp [touchWord]

@[simp] theorem after8_iy (m : Operand8) (s : State) : (after8 m s).iy = s.iy := by
  unfold after8; split <;> simp

@[simp] theorem after16_iy (m : Operand16) (s : State) : (after16 m s).iy = s.iy := by
  unfold after16; split <;> simp [touchWord]

@[simp] theorem after8_sp (m : Operand8) (s : State) : (after8 m s).sp = s.sp := by
  unfold after8; split <;> simp

@[simp] theorem after16_sp (m : Operand16) (s : State) : (after16 m s).sp = s.sp := by
  unfold after16; split <;> simp [touchWord]

@[simp] theorem after8_pc (m : Operand8) (s : State) : (after8 m s).pc = s.pc := by
  unfold after8; split <;> simp

@[simp] theorem after16_pc (m : Operand16) (s : State) : (after16 m s).pc = s.pc := by
  unfold after16; split <;> simp [touchWord]

@[simp] theorem after8_ccr (m : Operand8) (s : State) : (after8 m s).ccr = s.ccr := by
  unfold after8; split <;> simp

@[simp] theorem after16_ccr (m : Operand16) (s : State) : (after16 m s).ccr = s.ccr := by
  unfold after16; split <;> simp [touchWord]

@[simp] theorem after8_written (m : Operand8) (s : State) : (after8 m s).written = s.written := by
  unfold after8; split <;> simp

@[simp] theorem after8_spWritten (m : Operand8) (s : State) : (after8 m s).spWritten = s.spWritten := by
  unfold after8; split <;> simp

@[simp] theorem after8_iDelay (m : Operand8) (s : State) : (after8 m s).iDelay = s.iDelay := by
  unfold after8; split <;> simp

@[simp] theorem after16_written (m : Operand16) (s : State) : (after16 m s).written = s.written := by
  unfold after16; split <;> simp [touchWord]

@[simp] theorem after16_spWritten (m : Operand16) (s : State) : (after16 m s).spWritten = s.spWritten := by
  unfold after16; split <;> simp [touchWord]

@[simp] theorem after16_iDelay (m : Operand16) (s : State) : (after16 m s).iDelay = s.iDelay := by
  unfold after16; split <;> simp [touchWord]

@[simp] theorem after8_runState (m : Operand8) (s : State) : (after8 m s).runState = s.runState := by
  unfold after8; split <;> simp

@[simp] theorem after16_runState (m : Operand16) (s : State) : (after16 m s).runState = s.runState := by
  unfold after16; split <;> simp [touchWord]

@[simp] theorem after8_mem (m : Operand8) (s : State) : (after8 m s).mem = s.mem := by
  unfold after8; split <;> simp

@[simp] theorem after16_mem (m : Operand16) (s : State) : (after16 m s).mem = s.mem := by
  unfold after16; split <;> simp [touchWord]

@[simp] theorem after8_adc (m : Operand8) (s : State) : (after8 m s).adc = s.adc := by
  unfold after8; split <;> simp

@[simp] theorem after16_adc (m : Operand16) (s : State) : (after16 m s).adc = s.adc := by
  unfold after16; split <;> simp [touchWord]

@[simp] theorem after8_portD (m : Operand8) (s : State) : (after8 m s).portD = s.portD := by
  unfold after8; split <;> simp

@[simp] theorem after16_portD (m : Operand16) (s : State) : (after16 m s).portD = s.portD := by
  unfold after16; split <;> simp [touchWord]

@[simp] theorem after8_pins (m : Operand8) (s : State) : (after8 m s).pins = s.pins := by
  unfold after8; split <;> simp

@[simp] theorem after16_pins (m : Operand16) (s : State) : (after16 m s).pins = s.pins := by
  unfold after16; split <;> simp [touchWord]

@[simp] theorem after8_turns (m : Operand8) (s : State) : (after8 m s).turns = s.turns := by
  unfold after8; split <;> simp

@[simp] theorem after16_turns (m : Operand16) (s : State) : (after16 m s).turns = s.turns := by
  unfold after16; split <;> simp [touchWord]

@[simp] theorem after8_cfg (m : Operand8) (s : State) : (after8 m s).cfg = s.cfg := by
  unfold after8; split <;> simp

@[simp] theorem after16_cfg (m : Operand16) (s : State) : (after16 m s).cfg = s.cfg := by
  unfold after16; split <;> simp [touchWord]

@[simp] theorem after16_d (m : Operand16) (s : State) : (after16 m s).d = s.d := by simp [State.d]

/-- An instruction over a readable 8-bit operand completes. -/
theorem complete_withOperand8 {m : Operand8} {f : Byte → State → State} {s : State} {pc : Word}
    (h : readable8 m s = true) :
    complete pc (withOperand8 m f s) = .next { f (value8 m s) (after8 m s) with pc := pc } :=
  complete_eq_next.mpr ⟨_, withOperand8_eq_ok.mpr ⟨h, rfl⟩, rfl⟩

/-- An instruction over a readable 16-bit operand completes. -/
theorem complete_withOperand16 {m : Operand16} {f : Word → State → State} {s : State} {pc : Word}
    (h : readable16 m s = true) :
    complete pc (withOperand16 m f s) = .next { f (value16 m s) (after16 m s) with pc := pc } :=
  complete_eq_next.mpr ⟨_, withOperand16_eq_ok.mpr ⟨h, rfl⟩, rfl⟩

@[simp] theorem bitByte_false : bitByte false = 0 := rfl

/-! ### Shifts -/

theorem byte_shiftLeft_one : ∀ v : Byte, v <<< 1 = v + v := by decide

theorem byte_shiftRight_sign : ∀ v : Byte, (v >>> 1) ||| (v &&& 0x80) = v.sshiftRight 1 := by decide

theorem byte_shiftRight_one : ∀ v : Byte, v >>> 1 = BitVec.ofNat 8 (v.toNat / 2) := by decide

theorem byte_rotateLeft : ∀ (v : Byte) (c : Bool), (v <<< 1) ||| (if c then 0x01 else 0x00) = v + v + bitByte c := by
  decide

theorem byte_rotateRight : ∀ (v : Byte) (c : Bool),
    (v >>> 1) ||| (if c then 0x80 else 0x00) = BitVec.ofNat 8 (v.toNat / 2 + 128 * c.toNat) := by
  decide

theorem byte_bit_zero : ∀ v : Byte, v.getLsbD 0 = decide (v.toNat % 2 = 1) := by decide

theorem byte_bit_seven : ∀ v : Byte, v.getLsbD 7 = v.msb := by decide

theorem asl8_eq (v : Byte) (f : Ccr) : asl8 v f = (v + v, shiftFlags8 (v + v) v.msb f) := by
  rw [asl8, shifted8_eq, byte_shiftLeft_one, byte_bit_seven]

theorem asr8_eq (v : Byte) (f : Ccr) :
    asr8 v f = (v.sshiftRight 1, shiftFlags8 (v.sshiftRight 1) (decide (v.toNat % 2 = 1)) f) := by
  rw [asr8, shifted8_eq, byte_shiftRight_sign, byte_bit_zero]

theorem lsr8_eq (v : Byte) (f : Ccr) :
    lsr8 v f = (BitVec.ofNat 8 (v.toNat / 2),
      shiftFlags8 (BitVec.ofNat 8 (v.toNat / 2)) (decide (v.toNat % 2 = 1)) f) := by
  rw [lsr8, shifted8_eq, byte_shiftRight_one, byte_bit_zero]

theorem rol8_eq (v : Byte) (f : Ccr) :
    rol8 v f = (v + v + bitByte f.c, shiftFlags8 (v + v + bitByte f.c) v.msb f) := by
  rw [rol8, shifted8_eq, byte_rotateLeft, byte_bit_seven]

theorem ror8_eq (v : Byte) (f : Ccr) :
    ror8 v f = (BitVec.ofNat 8 (v.toNat / 2 + 128 * f.c.toNat),
      shiftFlags8 (BitVec.ofNat 8 (v.toNat / 2 + 128 * f.c.toNat)) (decide (v.toNat % 2 = 1)) f) := by
  rw [ror8, shifted8_eq, byte_rotateRight, byte_bit_zero]

theorem word_shiftLeft_one (v : Word) : v <<< 1 = v + v := by
  apply BitVec.eq_of_toNat_eq; simp [BitVec.toNat_add, Nat.shiftLeft_eq]; omega

theorem word_shiftRight_one (v : Word) : v >>> 1 = BitVec.ofNat 16 (v.toNat / 2) := by
  apply BitVec.eq_of_toNat_eq; simp [Nat.shiftRight_eq_div_pow]; omega

theorem word_bit_zero (v : Word) : v.getLsbD 0 = decide (v.toNat % 2 = 1) := by
  rw [BitVec.getLsbD, Nat.testBit_zero]

theorem asl16_eq (v : Word) (f : Ccr) : asl16 v f = (v + v, shiftFlags16 (v + v) v.msb f) := by
  rw [asl16, shifted16_eq, word_shiftLeft_one, msb_eq_getLsbD]

theorem lsr16_eq (v : Word) (f : Ccr) :
    lsr16 v f = (BitVec.ofNat 16 (v.toNat / 2),
      shiftFlags16 (BitVec.ofNat 16 (v.toNat / 2)) (decide (v.toNat % 2 = 1)) f) := by
  rw [lsr16, shifted16_eq, word_shiftRight_one, word_bit_zero]

/-! ### Branch targets -/

theorem branchTarget_eq (n : Word) (rr : Byte) : branchTarget n rr = relativeTarget n rr := by
  unfold branchTarget relativeTarget
  apply BitVec.eq_of_toInt_eq
  simp [BitVec.toInt_add, BitVec.toInt_signExtend_of_le (show 8 ≤ 16 by decide), BitVec.toInt_ofInt]
  rw [BitVec.toInt_eq_toNat_bmod n]
  simp

end Sys2Proof.Machine
end

