-- ==== Sys2Proof/Laws/PerInstr.lean ====
section
/-!
SUPPORT. The statement family about every instruction: an encoding has one to five bytes (30_encoding.md R90).
-/

namespace Sys2Proof.Laws.EncodedSize

/-- The encoding of the instruction has one to five bytes. -/
def Statement (i : Instr) : Prop := 1 ≤ i.size ∧ i.size ≤ 5

theorem of_encode8 (op : Byte) (m : Operand8) : 1 ≤ (encode8 op m).length ∧ (encode8 op m).length ≤ 5 := by
  cases m <;> simp [encode8]

theorem of_encode16 (pre preX preY : List Byte) (op : Byte) (m : Operand16) (h : pre.length ≤ 1)
    (hx : preX.length ≤ 1) (hy : preY.length ≤ 1) :
    1 ≤ (encode16 pre preX preY op m).length ∧ (encode16 pre preX preY op m).length ≤ 5 := by
  cases m <;> simp [encode16] <;> omega

theorem of_encodeFull (pre preX preY : List Byte) (op : Byte) (ea : EaFull) (h : pre.length ≤ 1)
    (hx : preX.length ≤ 1) (hy : preY.length ≤ 1) :
    1 ≤ (encodeFull pre preX preY op ea).length ∧ (encodeFull pre preX preY op ea).length ≤ 5 := by
  cases ea <;> simp [encodeFull] <;> omega

theorem of_encodeExt (op : Byte) (ea : EaExt) : 1 ≤ (encodeExt op ea).length ∧ (encodeExt op ea).length ≤ 5 := by
  cases ea <;> simp [encodeExt]

theorem of_encodeBit (opDir opInd : Byte) (tail : List Byte) (ea : EaBit) (h : tail.length ≤ 2) :
    1 ≤ (encodeBit opDir opInd tail ea).length ∧ (encodeBit opDir opInd tail ea).length ≤ 5 := by
  cases ea <;> simp [encodeBit] <;> omega

theorem of_one (a : Byte) : 1 ≤ [a].length ∧ [a].length ≤ 5 := by simp

theorem of_two (a b : Byte) : 1 ≤ [a, b].length ∧ [a, b].length ≤ 5 := by simp

theorem aba : Statement .aba := of_one _

theorem abx : Statement .abx := of_one _

theorem aby : Statement .aby := of_two _ _

theorem adca (m : Operand8) : Statement (.adca m) := of_encode8 _ m

theorem adcb (m : Operand8) : Statement (.adcb m) := of_encode8 _ m

theorem adda (m : Operand8) : Statement (.adda m) := of_encode8 _ m

theorem addb (m : Operand8) : Statement (.addb m) := of_encode8 _ m

theorem addd (m : Operand16) : Statement (.addd m) := of_encode16 _ _ _ _ m (Nat.zero_le 1) (Nat.zero_le 1) (Nat.le_refl 1)

theorem anda (m : Operand8) : Statement (.anda m) := of_encode8 _ m

theorem andb (m : Operand8) : Statement (.andb m) := of_encode8 _ m

theorem asl (ea : EaExt) : Statement (.asl ea) := of_encodeExt _ ea

theorem asla : Statement .asla := of_one _

theorem aslb : Statement .aslb := of_one _

theorem asld : Statement .asld := of_one _

theorem asr (ea : EaExt) : Statement (.asr ea) := of_encodeExt _ ea

theorem asra : Statement .asra := of_one _

theorem asrb : Statement .asrb := of_one _

theorem bcc (rr : Byte) : Statement (.bcc rr) := of_two _ _

theorem bclr (ea : EaBit) (mm : Byte) : Statement (.bclr ea mm) := of_encodeBit _ _ _ ea (Nat.le_succ 1)

theorem bcs (rr : Byte) : Statement (.bcs rr) := of_two _ _

theorem beq (rr : Byte) : Statement (.beq rr) := of_two _ _

theorem bge (rr : Byte) : Statement (.bge rr) := of_two _ _

theorem bgt (rr : Byte) : Statement (.bgt rr) := of_two _ _

theorem bhi (rr : Byte) : Statement (.bhi rr) := of_two _ _

theorem bhs (rr : Byte) : Statement (.bhs rr) := of_two _ _

theorem bita (m : Operand8) : Statement (.bita m) := of_encode8 _ m

theorem bitb (m : Operand8) : Statement (.bitb m) := of_encode8 _ m

theorem ble (rr : Byte) : Statement (.ble rr) := of_two _ _

theorem blo (rr : Byte) : Statement (.blo rr) := of_two _ _

theorem bls (rr : Byte) : Statement (.bls rr) := of_two _ _

theorem blt (rr : Byte) : Statement (.blt rr) := of_two _ _

theorem bmi (rr : Byte) : Statement (.bmi rr) := of_two _ _

theorem bne (rr : Byte) : Statement (.bne rr) := of_two _ _

theorem bpl (rr : Byte) : Statement (.bpl rr) := of_two _ _

theorem bra (rr : Byte) : Statement (.bra rr) := of_two _ _

theorem brclr (ea : EaBit) (mm : Byte) (rr : Byte) : Statement (.brclr ea mm rr) := of_encodeBit _ _ _ ea (Nat.le_refl 2)

theorem brn (rr : Byte) : Statement (.brn rr) := of_two _ _

theorem brset (ea : EaBit) (mm : Byte) (rr : Byte) : Statement (.brset ea mm rr) := of_encodeBit _ _ _ ea (Nat.le_refl 2)

theorem bset (ea : EaBit) (mm : Byte) : Statement (.bset ea mm) := of_encodeBit _ _ _ ea (Nat.le_succ 1)

theorem bsr (rr : Byte) : Statement (.bsr rr) := of_two _ _

theorem bvc (rr : Byte) : Statement (.bvc rr) := of_two _ _

theorem bvs (rr : Byte) : Statement (.bvs rr) := of_two _ _

theorem cba : Statement .cba := of_one _

theorem clc : Statement .clc := of_one _

theorem cli : Statement .cli := of_one _

theorem clr (ea : EaExt) : Statement (.clr ea) := of_encodeExt _ ea

theorem clra : Statement .clra := of_one _

theorem clrb : Statement .clrb := of_one _

theorem clv : Statement .clv := of_one _

theorem cmpa (m : Operand8) : Statement (.cmpa m) := of_encode8 _ m

theorem cmpb (m : Operand8) : Statement (.cmpb m) := of_encode8 _ m

theorem com (ea : EaExt) : Statement (.com ea) := of_encodeExt _ ea

theorem coma : Statement .coma := of_one _

theorem comb : Statement .comb := of_one _

theorem cpd (m : Operand16) : Statement (.cpd m) := of_encode16 _ _ _ _ m (Nat.le_refl 1) (Nat.le_refl 1) (Nat.le_refl 1)

theorem cpx (m : Operand16) : Statement (.cpx m) := of_encode16 _ _ _ _ m (Nat.zero_le 1) (Nat.zero_le 1) (Nat.le_refl 1)

theorem cpy (m : Operand16) : Statement (.cpy m) := of_encode16 _ _ _ _ m (Nat.le_refl 1) (Nat.le_refl 1) (Nat.le_refl 1)

theorem daa : Statement .daa := of_one _

theorem dec (ea : EaExt) : Statement (.dec ea) := of_encodeExt _ ea

theorem deca : Statement .deca := of_one _

theorem decb : Statement .decb := of_one _

theorem des : Statement .des := of_one _

theorem dex : Statement .dex := of_one _

theorem dey : Statement .dey := of_two _ _

theorem eora (m : Operand8) : Statement (.eora m) := of_encode8 _ m

theorem eorb (m : Operand8) : Statement (.eorb m) := of_encode8 _ m

theorem fdiv : Statement .fdiv := of_one _

theorem idiv : Statement .idiv := of_one _

theorem inc (ea : EaExt) : Statement (.inc ea) := of_encodeExt _ ea

theorem inca : Statement .inca := of_one _

theorem incb : Statement .incb := of_one _

theorem ins : Statement .ins := of_one _

theorem inx : Statement .inx := of_one _

theorem iny : Statement .iny := of_two _ _

theorem jmp (ea : EaExt) : Statement (.jmp ea) := of_encodeExt _ ea

theorem jsr (ea : EaFull) : Statement (.jsr ea) := of_encodeFull _ _ _ _ ea (Nat.zero_le 1) (Nat.zero_le 1) (Nat.le_refl 1)

theorem ldaa (m : Operand8) : Statement (.ldaa m) := of_encode8 _ m

theorem ldab (m : Operand8) : Statement (.ldab m) := of_encode8 _ m

theorem ldd (m : Operand16) : Statement (.ldd m) := of_encode16 _ _ _ _ m (Nat.zero_le 1) (Nat.zero_le 1) (Nat.le_refl 1)

theorem lds (m : Operand16) : Statement (.lds m) := of_encode16 _ _ _ _ m (Nat.zero_le 1) (Nat.zero_le 1) (Nat.le_refl 1)

theorem ldx (m : Operand16) : Statement (.ldx m) := of_encode16 _ _ _ _ m (Nat.zero_le 1) (Nat.zero_le 1) (Nat.le_refl 1)

theorem ldy (m : Operand16) : Statement (.ldy m) := of_encode16 _ _ _ _ m (Nat.le_refl 1) (Nat.le_refl 1) (Nat.le_refl 1)

theorem lsl (ea : EaExt) : Statement (.lsl ea) := of_encodeExt _ ea

theorem lsla : Statement .lsla := of_one _

theorem lslb : Statement .lslb := of_one _

theorem lsld : Statement .lsld := of_one _

theorem lsr (ea : EaExt) : Statement (.lsr ea) := of_encodeExt _ ea

theorem lsra : Statement .lsra := of_one _

theorem lsrb : Statement .lsrb := of_one _

theorem lsrd : Statement .lsrd := of_one _

theorem mul : Statement .mul := of_one _

theorem neg (ea : EaExt) : Statement (.neg ea) := of_encodeExt _ ea

theorem nega : Statement .nega := of_one _

theorem negb : Statement .negb := of_one _

theorem nop : Statement .nop := of_one _

theorem oraa (m : Operand8) : Statement (.oraa m) := of_encode8 _ m

theorem orab (m : Operand8) : Statement (.orab m) := of_encode8 _ m

theorem psha : Statement .psha := of_one _

theorem pshb : Statement .pshb := of_one _

theorem pshx : Statement .pshx := of_one _

theorem pshy : Statement .pshy := of_two _ _

theorem pula : Statement .pula := of_one _

theorem pulb : Statement .pulb := of_one _

theorem pulx : Statement .pulx := of_one _

theorem puly : Statement .puly := of_two _ _

theorem rol (ea : EaExt) : Statement (.rol ea) := of_encodeExt _ ea

theorem rola : Statement .rola := of_one _

theorem rolb : Statement .rolb := of_one _

theorem ror (ea : EaExt) : Statement (.ror ea) := of_encodeExt _ ea

theorem rora : Statement .rora := of_one _

theorem rorb : Statement .rorb := of_one _

theorem rti : Statement .rti := of_one _

theorem rts : Statement .rts := of_one _

theorem sba : Statement .sba := of_one _

theorem sbca (m : Operand8) : Statement (.sbca m) := of_encode8 _ m

theorem sbcb (m : Operand8) : Statement (.sbcb m) := of_encode8 _ m

theorem sec : Statement .sec := of_one _

theorem sei : Statement .sei := of_one _

theorem sev : Statement .sev := of_one _

theorem staa (ea : EaFull) : Statement (.staa ea) := of_encodeFull _ _ _ _ ea (Nat.zero_le 1) (Nat.zero_le 1) (Nat.le_refl 1)

theorem stab (ea : EaFull) : Statement (.stab ea) := of_encodeFull _ _ _ _ ea (Nat.zero_le 1) (Nat.zero_le 1) (Nat.le_refl 1)

theorem std (ea : EaFull) : Statement (.std ea) := of_encodeFull _ _ _ _ ea (Nat.zero_le 1) (Nat.zero_le 1) (Nat.le_refl 1)

theorem stop : Statement .stop := of_one _

theorem sts (ea : EaFull) : Statement (.sts ea) := of_encodeFull _ _ _ _ ea (Nat.zero_le 1) (Nat.zero_le 1) (Nat.le_refl 1)

theorem stx (ea : EaFull) : Statement (.stx ea) := of_encodeFull _ _ _ _ ea (Nat.zero_le 1) (Nat.zero_le 1) (Nat.le_refl 1)

theorem sty (ea : EaFull) : Statement (.sty ea) := of_encodeFull _ _ _ _ ea (Nat.le_refl 1) (Nat.le_refl 1) (Nat.le_refl 1)

theorem suba (m : Operand8) : Statement (.suba m) := of_encode8 _ m

theorem subb (m : Operand8) : Statement (.subb m) := of_encode8 _ m

theorem subd (m : Operand16) : Statement (.subd m) := of_encode16 _ _ _ _ m (Nat.zero_le 1) (Nat.zero_le 1) (Nat.le_refl 1)

theorem swi : Statement .swi := of_one _

theorem tab : Statement .tab := of_one _

theorem tap : Statement .tap := of_one _

theorem tba : Statement .tba := of_one _

theorem test : Statement .test := of_one _

theorem tpa : Statement .tpa := of_one _

theorem tst (ea : EaExt) : Statement (.tst ea) := of_encodeExt _ ea

theorem tsta : Statement .tsta := of_one _

theorem tstb : Statement .tstb := of_one _

theorem tsx : Statement .tsx := of_one _

theorem tsy : Statement .tsy := of_two _ _

theorem txs : Statement .txs := of_one _

theorem tys : Statement .tys := of_two _ _

theorem wai : Statement .wai := of_one _

theorem xgdx : Statement .xgdx := of_one _

theorem xgdy : Statement .xgdy := of_two _ _

end Sys2Proof.Laws.EncodedSize
end

