-- ==== Sys2Proof/Laws/Step.lean ====
section
/-!
SUPPORT. The stack in RAM, trap entry and return, the device registers, and what one step does.
-/

namespace Sys2Proof.Machine

/-! ### Accesses do not look at SP -/

/-- A write does not look at SP. -/
theorem poke_withSp (a : Word) (v : Byte) (s : State) (x : Word) :
    poke a v { s with sp := x } = { poke a v s with sp := x } := by
  unfold poke
  simp only
  split <;> try rfl
  split <;> try rfl
  rename_i r _
  cases r <;> rfl

/-- A read does not look at SP. -/
theorem touch_withSp (a : Word) (s : State) (x : Word) : touch a { s with sp := x } = { touch a s with sp := x } := by
  unfold touch
  simp only
  split <;> try rfl
  split <;> try rfl
  rename_i r _
  cases r <;> simp only [regAfterRead, afterAdr] <;> first | rfl | (split <;> rfl)

theorem peek_withSp (a : Word) (s : State) (x : Word) : peek a { s with sp := x } = peek a s := by
  unfold peek
  simp only
  split <;> try rfl

theorem pushed_two (x y : Byte) (s : State) :
    pushed [x, y] s = { poke (s.sp - 1) y (poke s.sp x s) with sp := s.sp - 2 } := by
  have e : s.sp - 1 - 1 = s.sp - 2 := by
    apply BitVec.eq_of_toNat_eq
    simp [BitVec.toNat_sub]; omega
  simp only [pushed, poke_withSp]
  rw [e]

theorem pulled_two (s : State) : pulled 2 s = { touch (s.sp + 2) (touch (s.sp + 1) s) with sp := s.sp + 2 } := by
  have e : s.sp + 1 + 1 = s.sp + 2 := by
    apply BitVec.eq_of_toNat_eq
    simp [BitVec.toNat_add]
  simp only [pulled, touch_withSp]
  rw [e]

theorem pulledByte_zero (s : State) : pulledByte 0 s = peek (s.sp + 1) s := by
  simp only [pulledByte, pulled, peek_withSp]

theorem pulledByte_one (s : State) : pulledByte 1 s = peek (s.sp + 2) (touch (s.sp + 1) s) := by
  have e : s.sp + 1 + 1 = s.sp + 2 := by
    apply BitVec.eq_of_toNat_eq
    simp [BitVec.toNat_add]
  simp only [pulledByte, pulled, touch_withSp, peek_withSp]
  rw [e]

/-! ### The stack in RAM -/

theorem ramFrom_iff {cfg : Config} {n : Nat} {a : Word} :
    ramFrom cfg n a = true ↔ ∀ k, k < n → kindOf cfg (a + BitVec.ofNat 16 k) = .ram := by
  induction n generalizing a with
  | zero => simp [ramFrom]
  | succ n ih =>
    simp only [ramFrom, Bool.and_eq_true, decide_eq_true_eq, ih]
    constructor
    · rintro ⟨h0, h⟩ k hk
      cases k with
      | zero => simpa using h0
      | succ k =>
        have := h k (by omega)
        rwa [show a + 1 + BitVec.ofNat 16 k = a + BitVec.ofNat 16 (k + 1) by
          apply BitVec.eq_of_toNat_eq; simp [BitVec.toNat_add]; omega] at this
    · intro h
      refine ⟨by simpa using h 0 (by omega), fun k hk => ?_⟩
      have := h (k + 1) (by omega)
      rwa [show a + 1 + BitVec.ofNat 16 k = a + BitVec.ofNat 16 (k + 1) by
          apply BitVec.eq_of_toNat_eq; simp [BitVec.toNat_add]; omega]

/-- A push changes no byte but those at and below SP. -/
theorem pushed_get_ne {l : List Byte} {s : State} {a : Word}
    (h : ∀ k, k < l.length → a ≠ s.sp - BitVec.ofNat 16 k) :
    (pushed l s).mem.get a.toNat = s.mem.get a.toNat := by
  induction l generalizing s with
  | nil => rfl
  | cons v rest ih =>
    rw [pushed, ih]
    · show (poke s.sp v s).mem.get _ = _
      apply poke_mem_get_ne
      have := h 0 (by simp)
      intro hc
      exact this (by simpa using BitVec.eq_of_toNat_eq hc)
    · intro k hk
      have := h (k + 1) (by simpa using hk)
      simp only [poke_sp]
      rwa [show s.sp - 1 - BitVec.ofNat 16 k = s.sp - BitVec.ofNat 16 (k + 1) by
          apply BitVec.eq_of_toNat_eq; simp [BitVec.toNat_sub]; omega]

/-- What a push to RAM leaves there. -/
theorem pushed_get {l : List Byte} {s : State} (hw : s.mem.wf = true) (hl : l.length ≤ 65536)
    (h : ∀ k, k < l.length → kindOf s.cfg (s.sp - BitVec.ofNat 16 k) = .ram) :
    ∀ k (hk : k < l.length), (pushed l s).mem.get (s.sp - BitVec.ofNat 16 k).toNat = l[k] := by
  induction l generalizing s with
  | nil => intro k hk; simp at hk
  | cons v rest ih =>
    intro k hk
    have e : ∀ k, s.sp - 1 - BitVec.ofNat 16 k = s.sp - BitVec.ofNat 16 (k + 1) := by
      intro k
      apply BitVec.eq_of_toNat_eq; simp [BitVec.toNat_sub]; omega
    have h0 := h 0 (by simp)
    simp only [BitVec.sub_zero] at h0
    cases k with
    | zero =>
      rw [pushed, pushed_get_ne]
      · show (poke s.sp v s).mem.get _ = _
        rw [poke_mem, if_pos h0, Memory.get_set hw]
        simp
      · intro k hk'
        simp only [poke_sp, e]
        intro hc
        have := congrArg BitVec.toNat hc
        simp [BitVec.toNat_sub] at this hk hk'
        simp at hl
        omega
    | succ k =>
      have := ih (s := { poke s.sp v s with sp := (poke s.sp v s).sp - 1 }) ?_ (by simp at hl; omega) ?_ k
        (by simpa using hk)
      · simp only [poke_sp, e] at this
        simpa [pushed] using this
      · show (poke s.sp v s).mem.wf = true
        rw [poke_mem, if_pos h0]
        exact Memory.wf_set hw s.sp.isLt
      · intro k hk'
        simp only [poke_sp, poke_cfg, e]
        exact h (k + 1) (by simpa using hk')

/-- A pull from RAM only moves SP. -/
theorem pulled_of_ram {n : Nat} {s : State}
    (h : ∀ k, 1 ≤ k → k ≤ n → kindOf s.cfg (s.sp + BitVec.ofNat 16 k) = .ram) :
    pulled n s = { s with sp := s.sp + BitVec.ofNat 16 n } ∧ canPull s.cfg n s.sp = true := by
  induction n generalizing s with
  | zero => simp [pulled, canPull]
  | succ n ih =>
    have h1 := h 1 (by omega) (by omega)
    have e : ∀ k, s.sp + 1 + BitVec.ofNat 16 k = s.sp + BitVec.ofNat 16 (k + 1) := by
      intro k
      apply BitVec.eq_of_toNat_eq; simp [BitVec.toNat_add]; omega
    have := ih (s := { s with sp := s.sp + 1 }) (by
      intro k h1 h2
      show kindOf s.cfg (s.sp + 1 + BitVec.ofNat 16 k) = _
      rw [e]
      exact h (k + 1) (by omega) (by omega))
    rw [pulled, canPull]
    rw [touch_of_memory (Or.inl (by simpa using h1))]
    refine ⟨by rw [this.1]; show ({ s with sp := s.sp + 1 + BitVec.ofNat 16 n } : State) = _; rw [e], ?_⟩
    have h2 : canPull s.cfg n (s.sp + 1) = true := this.2
    rw [h2, Bool.and_true, canRead_iff, readRefusal, if_neg]
    rw [show kindOf s.cfg (s.sp + 1) = .ram from h1]
    simp

/-- The byte a pull from RAM returns. -/
theorem pulledByte_of_ram {k n : Nat} {s : State} (hk : k < n)
    (h : ∀ k, 1 ≤ k → k ≤ n → kindOf s.cfg (s.sp + BitVec.ofNat 16 k) = .ram) :
    pulledByte k s = s.mem.get (s.sp + BitVec.ofNat 16 (k + 1)).toNat := by
  have := (pulled_of_ram (n := k) (s := s) (fun j h1 h2 => h j h1 (by omega))).1
  have e : s.sp + BitVec.ofNat 16 k + 1 = s.sp + BitVec.ofNat 16 (k + 1) := by
      apply BitVec.eq_of_toNat_eq; simp [BitVec.toNat_add]; omega
  rw [pulledByte, this, peek_of_memory (Or.inl ?_)]
  · simp only [e]
  · simp only [e]; exact h (k + 1) (by omega) (by omega)

theorem canPush_of_ram {l : List Byte} {cfg : Config} {sp : Word}
    (h : ∀ k, k < l.length → kindOf cfg (sp - BitVec.ofNat 16 k) = .ram) :
    canPush cfg l sp = true := by
  induction l generalizing sp with
  | nil => rfl
  | cons v rest ih =>
    have h0 := h 0 (by simp)
    simp only [BitVec.sub_zero] at h0
    rw [canPush, ih, Bool.and_true, canWrite_iff, writeRefusal, h0]
    intro k hk
    have := h (k + 1) (by simpa using hk)
    rwa [show sp - 1 - BitVec.ofNat 16 k = sp - BitVec.ofNat 16 (k + 1) by
          apply BitVec.eq_of_toNat_eq; simp [BitVec.toNat_sub]; omega]

theorem frame_ram {s : State} {ret : Word} (hr : ramFrom s.cfg 9 (s.sp - 8) = true) :
    ∀ k, k < (frameBytes ret s).length → kindOf s.cfg (s.sp - BitVec.ofNat 16 k) = .ram := by
  rw [ramFrom_iff] at hr
  intro k hk
  simp [frameBytes, wordBytes] at hk
  have := hr (8 - k) (by omega)
  rwa [show s.sp - 8 + BitVec.ofNat 16 (8 - k) = s.sp - BitVec.ofNat 16 k by
      apply BitVec.eq_of_toNat_eq; simp [BitVec.toNat_sub, BitVec.toNat_add]; omega] at this

theorem entered_mem (name : TrapName) (ret : Word) (s : State) :
    (entered name ret s).mem = (pushed (frameBytes ret s) s).mem := by
  simp [entered, touchWord]

theorem entered_sp (name : TrapName) (ret : Word) (s : State) : (entered name ret s).sp = s.sp - 9 := by
  simp [entered, touchWord, frameBytes, wordBytes]

/-- The nine bytes trap entry leaves in RAM. -/
theorem frame_get {s : State} {ret : Word} (hw : s.mem.wf = true) (hr : ramFrom s.cfg 9 (s.sp - 8) = true)
    (name : TrapName) :
    ∀ k (hk : k < 9), (entered name ret s).mem.get (s.sp - 9 + BitVec.ofNat 16 (9 - k)).toNat =
      (frameBytes ret s)[k]'(by simpa [frameBytes, wordBytes] using hk) := by
  intro k hk
  rw [entered_mem, show s.sp - 9 + BitVec.ofNat 16 (9 - k) = s.sp - BitVec.ofNat 16 k by
      apply BitVec.eq_of_toNat_eq; simp [BitVec.toNat_sub, BitVec.toNat_add]; omega]
  exact pushed_get hw (by simp [frameBytes, wordBytes]) (frame_ram hr) k _

/-- A 16-bit read of memory changes nothing. -/
theorem wordInMemory_touch {s : State} {a : Word} (h : wordInMemory s.cfg a = true) :
    touchWord a s = s ∧ peekWord a s = wordAt s.mem a := by
  simp only [wordInMemory, Bool.and_eq_true, decide_eq_true_eq] at h
  rw [touchWord, peekWord, touch_of_memory h.1, touch_of_memory h.2, peek_of_memory h.1, peek_of_memory h.2]
  exact ⟨rfl, rfl⟩

/-! ### Device registers at their addresses -/

theorem blockOffset_register (s : State) (k : Nat) (hk : k < 64) :
    blockOffset s.cfg (s.cfg.regBase + BitVec.ofNat 16 k) = k := by
  have := s.cfg.regBase.isLt
  simp [blockOffset, BitVec.toNat_sub, BitVec.toNat_ofNat]
  omega

/-- A write to an offset of the device block. -/
theorem poke_register (s : State) (k : Nat) (hk : k < 64) (v : Byte) :
    poke (s.cfg.regBase + BitVec.ofNat 16 k) v s =
      (match deviceReg k with | some r => regWrite r v s | none => s) := by
  simp [poke, kindOf, blockOffset_register s k hk, hk] <;> rfl

/-- What a read of an offset of the device block does. -/
theorem touch_register (s : State) (k : Nat) (hk : k < 64) :
    touch (s.cfg.regBase + BitVec.ofNat 16 k) s =
      (match deviceReg k with | some r => regAfterRead r s | none => s) := by
  simp [touch, kindOf, blockOffset_register s k hk, hk] <;> rfl

/-- What a read of an offset of the device block returns. -/
theorem peek_register (s : State) (k : Nat) (hk : k < 64) :
    peek (s.cfg.regBase + BitVec.ofNat 16 k) s = (match deviceReg k with | some r => regValue r s | none => 0) := by
  simp [peek, kindOf, blockOffset_register s k hk, hk] <;> rfl

/-- Which writes to an offset of the device block have a meaning. -/
theorem canWrite_register (s : State) (k : Nat) (hk : k < 64) (v : Byte) :
    canWrite s.cfg (s.cfg.regBase + BitVec.ofNat 16 k) v =
      (match deviceReg k with | some r => !refusedWrite r v | none => false) := by
  have kind : kindOf s.cfg (s.cfg.regBase + BitVec.ofNat 16 k) = .device := by
    simp [kindOf, blockOffset_register s k hk, hk]
  rw [canWrite, writeRefusal, kind, blockOffset_register s k hk]
  cases deviceReg k with
  | none => rfl
  | some r => cases h : refusedWrite r v <;> simp [h]

/-! ### One step of the running CPU -/

theorem enter_eq {n : TrapName} {ret : Word} {s : State} (h : canEnter n ret s = true) :
    enter n ret s = .ok (entered n ret s) :=
  enter_eq_ok.2 (by simp [h])

/-- One step of the running CPU, when it is the CPU's turn. -/
theorem step_of_running {s : State} (h : s.Running) : step s = (match recognised s with
    | some name => finish (enter name s.pc s)
    | none => settle s.iDelay (execute s)) := by
  obtain ⟨ht, hr, hp⟩ := h
  simp [step, ht, cpuStep, hr, runStep, hp] <;> rfl

/-- A safe run is a run without a fault or a refusal. -/
theorem SafeFor.runsFor {n : Nat} {s : State} (h : SafeFor n s) : RunsFor n s := by
  induction n generalizing s with
  | zero => exact ⟨s, rfl⟩
  | succ n ih =>
    obtain ⟨-, -, t, ht, hn⟩ := h
    obtain ⟨u, hu⟩ := ih hn
    exact ⟨u, by simpa [Host.Core.run, core, ht] using hu⟩

end Sys2Proof.Machine
end

