-- ==== Sys2Proof/Tests/Slice0.lean ====
section
/-!
SUPPORT. Tests: ill-formed terms are refused, the spec's words decode, the spec's examples run, and every hypothesis of a
statement is met by some state. Expected values are the spec's, never the model's.
-/

namespace Sys2Proof.Tests

open Sys2Proof.Machine

/-! ### Well-formed terms -/

theorem test_lsl_is_not_canonical : ¬ WellFormed (.lsl (.ext 0x0050)) := by decide
theorem test_lsla_is_not_canonical : ¬ WellFormed .lsla := by decide
theorem test_lslb_is_not_canonical : ¬ WellFormed .lslb := by decide
theorem test_lsld_is_not_canonical : ¬ WellFormed .lsld := by decide
theorem test_bhs_is_not_canonical : ¬ WellFormed (.bhs 0x10) := by decide
theorem test_blo_is_not_canonical : ¬ WellFormed (.blo 0x10) := by decide
theorem test_asl_is_canonical : WellFormed (.asl (.ext 0x0050)) := by decide

/-! ### Decoding: words written out from the rows of 30_encoding.md R107 and the lists of R95 and R97 -/

/-- Every pair's bytes decode to its instruction and leave nothing over. -/
def decodes (l : List (List Byte × Instr)) : Bool := l.all fun p => decide (decode p.1 = .instr p.2 [])

theorem test_decode_arithmetic_1 : decodes
    [([0x1B], .aba), ([0x3A], .abx), ([0x18, 0x3A], .aby),
      ([0xA9, 0x5C], .adca (.indX 0x5C)), ([0x18, 0xE9, 0x5C], .adcb (.indY 0x5C)), ([0x8B, 0x7A], .adda (.imm 0x7A)),
      ([0xDB, 0x5C], .addb (.dir 0x5C)), ([0xF3, 0x12, 0x34], .addd (.ext 0x1234)), ([0x19], .daa),
      ([0x7A, 0x12, 0x34], .dec (.ext 0x1234)), ([0x4A], .deca), ([0x5A], .decb)] = true := by decide

theorem test_decode_arithmetic_2 : decodes
    [([0x34], .des), ([0x09], .dex), ([0x18, 0x09], .dey),
      ([0x03], .fdiv), ([0x02], .idiv), ([0x18, 0x6C, 0x5C], .inc (.indY 0x5C)),
      ([0x4C], .inca), ([0x5C], .incb), ([0x31], .ins),
      ([0x08], .inx), ([0x18, 0x08], .iny), ([0x3D], .mul)] = true := by decide

theorem test_decode_arithmetic_3 : decodes
    [([0x70, 0x12, 0x34], .neg (.ext 0x1234)), ([0x40], .nega), ([0x50], .negb),
      ([0x10], .sba), ([0xA2, 0x5C], .sbca (.indX 0x5C)), ([0x18, 0xE2, 0x5C], .sbcb (.indY 0x5C)),
      ([0x80, 0x7A], .suba (.imm 0x7A)), ([0xD0, 0x5C], .subb (.dir 0x5C)),
        ([0xB3, 0x12, 0x34], .subd (.ext 0x1234))] = true := by decide

theorem test_decode_logic_1 : decodes
    [([0x84, 0x7A], .anda (.imm 0x7A)), ([0xD4, 0x5C], .andb (.dir 0x5C)), ([0xB5, 0x12, 0x34], .bita (.ext 0x1234)),
      ([0xE5, 0x5C], .bitb (.indX 0x5C)), ([0x11], .cba), ([0x18, 0x6F, 0x5C], .clr (.indY 0x5C)),
      ([0x4F], .clra), ([0x5F], .clrb), ([0xA1, 0x5C], .cmpa (.indX 0x5C)),
      ([0x18, 0xE1, 0x5C], .cmpb (.indY 0x5C)), ([0x63, 0x5C], .com (.indX 0x5C)), ([0x43], .coma)] = true := by decide

theorem test_decode_logic_2 : decodes
    [([0x53], .comb), ([0x1A, 0xA3, 0x5C], .cpd (.indX 0x5C)), ([0xCD, 0xAC, 0x5C], .cpx (.indY 0x5C)),
      ([0x18, 0x8C, 0x12, 0x34], .cpy (.imm 0x1234)), ([0x98, 0x5C], .eora (.dir 0x5C)),
        ([0xF8, 0x12, 0x34], .eorb (.ext 0x1234)),
      ([0xAA, 0x5C], .oraa (.indX 0x5C)), ([0x18, 0xEA, 0x5C], .orab (.indY 0x5C)),
        ([0x18, 0x6D, 0x5C], .tst (.indY 0x5C)),
      ([0x4D], .tsta), ([0x5D], .tstb)] = true := by decide

theorem test_decode_shift_1 : decodes
    [([0x78, 0x12, 0x34], .asl (.ext 0x1234)), ([0x48], .asla), ([0x58], .aslb),
      ([0x05], .asld), ([0x67, 0x5C], .asr (.indX 0x5C)), ([0x47], .asra),
      ([0x57], .asrb), ([0x64, 0x5C], .lsr (.indX 0x5C)), ([0x44], .lsra),
      ([0x54], .lsrb), ([0x04], .lsrd), ([0x18, 0x69, 0x5C], .rol (.indY 0x5C))] = true := by decide

theorem test_decode_shift_2 : decodes
    [([0x49], .rola), ([0x59], .rolb), ([0x18, 0x66, 0x5C], .ror (.indY 0x5C)),
      ([0x46], .rora), ([0x56], .rorb)] = true := by decide

theorem test_decode_branch_1 : decodes
    [([0x24, 0xF0], .bcc 0xF0), ([0x25, 0xF0], .bcs 0xF0), ([0x27, 0xF0], .beq 0xF0),
      ([0x2C, 0xF0], .bge 0xF0), ([0x2E, 0xF0], .bgt 0xF0), ([0x22, 0xF0], .bhi 0xF0),
      ([0x2F, 0xF0], .ble 0xF0), ([0x23, 0xF0], .bls 0xF0), ([0x2D, 0xF0], .blt 0xF0),
      ([0x2B, 0xF0], .bmi 0xF0), ([0x26, 0xF0], .bne 0xF0), ([0x2A, 0xF0], .bpl 0xF0)] = true := by decide

theorem test_decode_branch_2 : decodes
    [([0x20, 0xF0], .bra 0xF0), ([0x1F, 0x5C, 0x81, 0xF0], .brclr (.indX 0x5C) 0x81 0xF0), ([0x21, 0xF0], .brn 0xF0),
      ([0x12, 0x5C, 0x81, 0xF0], .brset (.dir 0x5C) 0x81 0xF0), ([0x8D, 0xF0], .bsr 0xF0), ([0x28, 0xF0], .bvc 0xF0),
      ([0x29, 0xF0], .bvs 0xF0), ([0x6E, 0x5C], .jmp (.indX 0x5C)), ([0x9D, 0x5C], .jsr (.dir 0x5C)),
      ([0x39], .rts)] = true := by decide

theorem test_decode_bit_ccr : decodes
    [([0x15, 0x5C, 0x81], .bclr (.dir 0x5C) 0x81), ([0x1C, 0x5C, 0x81], .bset (.indX 0x5C) 0x81), ([0x0C], .clc),
      ([0x0E], .cli), ([0x0A], .clv), ([0x0D], .sec),
      ([0x0F], .sei), ([0x0B], .sev), ([0x06], .tap),
      ([0x07], .tpa)] = true := by decide

theorem test_decode_load_store_1 : decodes
    [([0x86, 0x7A], .ldaa (.imm 0x7A)), ([0xD6, 0x5C], .ldab (.dir 0x5C)), ([0xFC, 0x12, 0x34], .ldd (.ext 0x1234)),
      ([0xAE, 0x5C], .lds (.indX 0x5C)), ([0xCD, 0xEE, 0x5C], .ldx (.indY 0x5C)),
        ([0x18, 0xCE, 0x12, 0x34], .ldy (.imm 0x1234)),
      ([0x36], .psha), ([0x37], .pshb), ([0x3C], .pshx),
      ([0x18, 0x3C], .pshy), ([0x32], .pula), ([0x33], .pulb)] = true := by decide

theorem test_decode_load_store_2 : decodes
    [([0x38], .pulx), ([0x18, 0x38], .puly), ([0xA7, 0x5C], .staa (.indX 0x5C)),
      ([0x18, 0xE7, 0x5C], .stab (.indY 0x5C)), ([0xDD, 0x5C], .std (.dir 0x5C)),
        ([0xBF, 0x12, 0x34], .sts (.ext 0x1234)),
      ([0xEF, 0x5C], .stx (.indX 0x5C)), ([0x18, 0xEF, 0x5C], .sty (.indY 0x5C)), ([0x16], .tab),
      ([0x17], .tba), ([0x30], .tsx), ([0x18, 0x30], .tsy)] = true := by decide

theorem test_decode_load_store_3 : decodes
    [([0x35], .txs), ([0x18, 0x35], .tys), ([0x8F], .xgdx),
      ([0x18, 0x8F], .xgdy)] = true := by decide

theorem test_decode_system : decodes
    [([0x01], .nop), ([0x3B], .rti), ([0xCF], .stop),
      ([0x3F], .swi), ([0x00], .test), ([0x3E], .wai)] = true := by decide

/-- Second bytes the four pages do not have, and page-1 bytes without a row (30_encoding.md R98). -/
theorem test_illegal : ([[0x41], [0x87], [0xC7], [0x18, 0x18], [0x18, 0x00], [0x1A, 0x00], [0xCD, 0xCD]] : List (List Byte)).all
    (fun l => decide (decode (l ++ [0x00]) = .illegal)) = true := by decide

/-- A prebyte, an opcode or operand bytes that are missing (30_encoding.md R94). -/
theorem test_truncated : ([[], [0x18], [0x86], [0xB6, 0x12], [0x18, 0x1E, 0x5C, 0x81]] : List (List Byte)).all
    (fun l => decide (decode l = .truncated)) = true := by decide

/-- The table's numbers, first byte most significant: LDAA IMM $7A, and BRSET IND,Y. -/
theorem test_table_words : decodeTableWord 16 0x867A = some (.ldaa (.imm 0x7A))
    ∧ decodeTableWord 40 0x181E5C81F0 = some (.brset (.indY 0x5C) 0x81 0xF0)
    ∧ decodeTableWord 8 0x41 = none := by decide

/-! ### One step: the Example of each rule in files 40 to 46 -/

/-- A machine with a program at $C000 and every other register as after reset, then changed by `set`. -/
def load (bytes : List Byte) (set : State → State) : State :=
  set { State.reset with pc := 0xC000, mem := placeBytes bytes 0xC000 [], ccr := Ccr.ofByte 0xD0 }

/-- What one step leaves, seen through `view`. -/
def seen (s : State) (view : State → List Nat) : Option (List Nat) :=
  match step s with
  | .next t => some (view t)
  | .fault _ => none
  | .refused _ => none

/-- Bytes of RAM put in place before a step. -/
def ram (l : List (Nat × Byte)) (s : State) : State := { s with mem := l.foldl (fun m p => m.set p.1 p.2) s.mem }

theorem test_aba : seen (load [0x1B] fun s => { s with a := 0x19, b := 0x28 })
    (fun t => [t.a.toNat, t.pc.toNat, t.ccr.toByte.toNat]) =
    some [0x41, 0xC001, 0xF0] := by decide

theorem test_abx : seen (load [0x3A] fun s => { s with b := 0xFF, ix := 0xFF80 })
    (fun t => [t.ix.toNat, t.pc.toNat, t.ccr.toByte.toNat]) =
    some [0x007F, 0xC001, 0xD0] := by decide

theorem test_aby : seen (load [0x18, 0x3A] fun s => { s with b := 0x10, iy := 0x1234 })
    (fun t => [t.iy.toNat, t.pc.toNat, t.ccr.toByte.toNat]) =
    some [0x1244, 0xC002, 0xD0] := by decide

theorem test_adca : seen (load [0x89, 0x00] fun s => { s with a := 0xFF, ccr := Ccr.ofByte 0xD1 })
    (fun t => [t.a.toNat, t.pc.toNat, t.ccr.toByte.toNat]) =
    some [0x00, 0xC002, 0xF5] := by decide

theorem test_adcb : seen (load [0xD9, 0x40] fun s =>
      ram [(0x0040, 0x00)]
        { s with b := 0x7F, ccr := Ccr.ofByte 0xD1 })
    (fun t => [t.b.toNat, t.pc.toNat, t.ccr.toByte.toNat]) =
    some [0x80, 0xC002, 0xFA] := by decide

theorem test_adda : seen (load [0x8B, 0x01] fun s => { s with a := 0x7F })
    (fun t => [t.a.toNat, t.pc.toNat, t.ccr.toByte.toNat]) =
    some [0x80, 0xC002, 0xFA] := by decide

theorem test_addb : seen (load [0xEB, 0x02] fun s => ram [(0x0102, 0x80)] { s with b := 0x80, ix := 0x0100 })
    (fun t => [t.b.toNat, t.pc.toNat, t.ccr.toByte.toNat]) =
    some [0x00, 0xC002, 0xD7] := by decide

theorem test_addd : seen (load [0xC3, 0x00, 0x01] fun s => { s with a := 0x7F, b := 0xFF })
    (fun t => [t.a.toNat, t.b.toNat, t.pc.toNat, t.ccr.toByte.toNat]) =
    some [0x80, 0x00, 0xC003, 0xDA] := by decide

theorem test_anda : seen (load [0x84, 0x0F] fun s => { s with a := 0xA5 })
    (fun t => [t.a.toNat, t.pc.toNat, t.ccr.toByte.toNat]) =
    some [0x05, 0xC002, 0xD0] := by decide

theorem test_andb : seen (load [0xF4, 0x01, 0x00] fun s => ram [(0x0100, 0x0F)] { s with b := 0xF0 })
    (fun t => [t.b.toNat, t.pc.toNat, t.ccr.toByte.toNat]) =
    some [0x00, 0xC003, 0xD4] := by decide

theorem test_asl : seen (load [0x78, 0x00, 0x50] fun s => ram [(0x0050, 0xC1)] s)
    (fun t => [t.pc.toNat, t.ccr.toByte.toNat, (t.mem.get 0x0050).toNat]) =
    some [0xC003, 0xD9, 0x82] := by decide

theorem test_asla : seen (load [0x48] fun s => { s with a := 0x40 })
    (fun t => [t.a.toNat, t.pc.toNat, t.ccr.toByte.toNat]) =
    some [0x80, 0xC001, 0xDA] := by decide

theorem test_aslb : seen (load [0x58] fun s => { s with b := 0x80 })
    (fun t => [t.b.toNat, t.pc.toNat, t.ccr.toByte.toNat]) =
    some [0x00, 0xC001, 0xD7] := by decide

theorem test_asld : seen (load [0x05] fun s => { s with a := 0x40, b := 0x80 })
    (fun t => [t.a.toNat, t.b.toNat, t.pc.toNat, t.ccr.toByte.toNat]) =
    some [0x81, 0x00, 0xC001, 0xDA] := by decide

theorem test_asr : seen (load [0x67, 0x01] fun s => ram [(0x0011, 0x81)] { s with ix := 0x0010 })
    (fun t => [t.pc.toNat, t.ccr.toByte.toNat, (t.mem.get 0x0011).toNat]) =
    some [0xC002, 0xD9, 0xC0] := by decide

theorem test_asra : seen (load [0x47] fun s => { s with a := 0xFF }) (fun t => [t.pc.toNat, t.ccr.toByte.toNat]) =
    some [0xC001, 0xD9] := by decide

theorem test_asrb : seen (load [0x57] fun s => { s with b := 0x02 })
    (fun t => [t.b.toNat, t.pc.toNat, t.ccr.toByte.toNat]) =
    some [0x01, 0xC001, 0xD0] := by decide

theorem test_bcc : seen (load [0x24, 0x10] fun s => s) (fun t => [t.pc.toNat, t.ccr.toByte.toNat]) =
    some [0xC012, 0xD0] := by decide

theorem test_bclr : seen (load [0x15, 0x20, 0x0F] fun s => ram [(0x0020, 0xFF)] s)
    (fun t => [t.pc.toNat, t.ccr.toByte.toNat, (t.mem.get 0x0020).toNat]) =
    some [0xC003, 0xD8, 0xF0] := by decide

theorem test_bcs : seen (load [0x25, 0x10] fun s => s) (fun t => [t.pc.toNat, t.ccr.toByte.toNat]) =
    some [0xC002, 0xD0] := by decide

theorem test_beq : seen (load [0x27, 0xFE] fun s => { s with ccr := Ccr.ofByte 0xD4 })
    (fun t => [t.pc.toNat, t.ccr.toByte.toNat]) =
    some [0xC000, 0xD4] := by decide

theorem test_bge : seen (load [0x2C, 0x05] fun s => { s with ccr := Ccr.ofByte 0xDA })
    (fun t => [t.pc.toNat, t.ccr.toByte.toNat]) =
    some [0xC007, 0xDA] := by decide

theorem test_bgt : seen (load [0x2E, 0x05] fun s => { s with ccr := Ccr.ofByte 0xD4 })
    (fun t => [t.pc.toNat, t.ccr.toByte.toNat]) =
    some [0xC002, 0xD4] := by decide

theorem test_bhi : seen (load [0x22, 0x7F] fun s => s) (fun t => [t.pc.toNat, t.ccr.toByte.toNat]) =
    some [0xC081, 0xD0] := by decide

theorem test_bita : seen (load [0x85, 0x80] fun s => { s with a := 0xC0 })
    (fun t => [t.pc.toNat, t.ccr.toByte.toNat]) =
    some [0xC002, 0xD8] := by decide

theorem test_bitb : seen (load [0xD5, 0x20] fun s => ram [(0x0020, 0xF0)] { s with b := 0x0F })
    (fun t => [t.pc.toNat, t.ccr.toByte.toNat]) =
    some [0xC002, 0xD4] := by decide

theorem test_ble : seen (load [0x2F, 0x05] fun s => { s with ccr := Ccr.ofByte 0xD8 })
    (fun t => [t.pc.toNat, t.ccr.toByte.toNat]) =
    some [0xC007, 0xD8] := by decide

theorem test_bls : seen (load [0x23, 0x80] fun s => { s with ccr := Ccr.ofByte 0xD4 })
    (fun t => [t.pc.toNat, t.ccr.toByte.toNat]) =
    some [0xBF82, 0xD4] := by decide

theorem test_blt : seen (load [0x2D, 0x05] fun s => { s with ccr := Ccr.ofByte 0xD2 })
    (fun t => [t.pc.toNat, t.ccr.toByte.toNat]) =
    some [0xC007, 0xD2] := by decide

theorem test_bmi : seen (load [0x2B, 0x05] fun s => { s with ccr := Ccr.ofByte 0xD8 })
    (fun t => [t.pc.toNat, t.ccr.toByte.toNat]) =
    some [0xC007, 0xD8] := by decide

theorem test_bne : seen (load [0x26, 0xFB] fun s => s) (fun t => [t.pc.toNat, t.ccr.toByte.toNat]) =
    some [0xBFFD, 0xD0] := by decide

theorem test_bpl : seen (load [0x2A, 0x05] fun s => { s with ccr := Ccr.ofByte 0xD8 })
    (fun t => [t.pc.toNat, t.ccr.toByte.toNat]) =
    some [0xC002, 0xD8] := by decide

theorem test_bra : seen (load [0x20, 0xFE] fun s => s) (fun t => [t.pc.toNat, t.ccr.toByte.toNat]) =
    some [0xC000, 0xD0] := by decide

theorem test_brclr : seen (load [0x13, 0x20, 0x81, 0x05] fun s => ram [(0x0020, 0x7E)] s)
    (fun t => [t.pc.toNat, t.ccr.toByte.toNat]) =
    some [0xC009, 0xD0] := by decide

theorem test_brn : seen (load [0x21, 0x7F] fun s => s) (fun t => [t.pc.toNat, t.ccr.toByte.toNat]) =
    some [0xC002, 0xD0] := by decide

theorem test_brset : seen (load [0x1E, 0x2E, 0x80, 0xFC] fun s => { s with ix := 0x1000 })
    (fun t => [t.sci.armed.toNat, t.ccr.toByte.toNat, t.pc.toNat]) =
    some [0xC0, 0xD0, 0xC000] := by decide

theorem test_bset : seen (load [0x1C, 0x39, 0x80] fun s => { s with ix := 0x1000 })
    (fun t => [t.adc.option.toNat, t.ccr.toByte.toNat, t.pc.toNat]) =
    some [0x90, 0xD8, 0xC003] := by decide

theorem test_bsr : seen (load [0x8D, 0x20] fun s => { s with sp := 0x00FF })
    (fun t => [t.sp.toNat, t.pc.toNat, t.ccr.toByte.toNat, (t.mem.get 0x00FF).toNat, (t.mem.get 0x00FE).toNat]) =
    some [0x00FD, 0xC022, 0xD0, 0x02, 0xC0] := by decide

theorem test_bvc : seen (load [0x28, 0x05] fun s => { s with ccr := Ccr.ofByte 0xD2 })
    (fun t => [t.pc.toNat, t.ccr.toByte.toNat]) =
    some [0xC002, 0xD2] := by decide

theorem test_bvs : seen (load [0x29, 0x05] fun s => { s with ccr := Ccr.ofByte 0xD2 })
    (fun t => [t.pc.toNat, t.ccr.toByte.toNat]) =
    some [0xC007, 0xD2] := by decide

theorem test_cba : seen (load [0x11] fun s => { s with a := 0x05, b := 0x05 })
    (fun t => [t.pc.toNat, t.ccr.toByte.toNat]) =
    some [0xC001, 0xD4] := by decide

theorem test_clc : seen (load [0x0C] fun s => { s with ccr := Ccr.ofByte 0xDF })
    (fun t => [t.pc.toNat, t.ccr.toByte.toNat]) =
    some [0xC001, 0xDE] := by decide

theorem test_cli : seen (load [0x0E] fun s => s) (fun t => [t.pc.toNat, t.ccr.toByte.toNat]) =
    some [0xC001, 0xC0] := by decide

theorem test_clr : seen (load [0x7F, 0x00, 0x80] fun s => ram [(0x0080, 0x55)] { s with ccr := Ccr.ofByte 0xDB })
    (fun t => [t.pc.toNat, t.ccr.toByte.toNat, (t.mem.get 0x0080).toNat]) =
    some [0xC003, 0xD4, 0x00] := by decide

theorem test_clra : seen (load [0x4F] fun s => { s with a := 0x99, ccr := Ccr.ofByte 0xDB })
    (fun t => [t.a.toNat, t.pc.toNat, t.ccr.toByte.toNat]) =
    some [0x00, 0xC001, 0xD4] := by decide

theorem test_clrb : seen (load [0x5F] fun s => { s with b := 0x01 })
    (fun t => [t.b.toNat, t.pc.toNat, t.ccr.toByte.toNat]) =
    some [0x00, 0xC001, 0xD4] := by decide

theorem test_clv : seen (load [0x0A] fun s => { s with ccr := Ccr.ofByte 0xD2 })
    (fun t => [t.pc.toNat, t.ccr.toByte.toNat]) =
    some [0xC001, 0xD0] := by decide

theorem test_cmpa : seen (load [0x81, 0x01] fun s => { s with a := 0x00 })
    (fun t => [t.pc.toNat, t.ccr.toByte.toNat]) =
    some [0xC002, 0xD9] := by decide

theorem test_cmpb : seen (load [0xE1, 0x05] fun s => ram [(0x0005, 0x7F)] { s with b := 0x80, ix := 0x0000 })
    (fun t => [t.pc.toNat, t.ccr.toByte.toNat]) =
    some [0xC002, 0xD2] := by decide

theorem test_com : seen (load [0x73, 0x00, 0x70] fun s => ram [(0x0070, 0xFF)] s)
    (fun t => [t.pc.toNat, t.ccr.toByte.toNat, (t.mem.get 0x0070).toNat]) =
    some [0xC003, 0xD5, 0x00] := by decide

theorem test_coma : seen (load [0x43] fun s => { s with a := 0x55 })
    (fun t => [t.a.toNat, t.pc.toNat, t.ccr.toByte.toNat]) =
    some [0xAA, 0xC001, 0xD9] := by decide

theorem test_comb : seen (load [0x53] fun s => { s with b := 0x00 })
    (fun t => [t.b.toNat, t.pc.toNat, t.ccr.toByte.toNat]) =
    some [0xFF, 0xC001, 0xD9] := by decide

theorem test_cpd : seen (load [0x1A, 0x83, 0x12, 0x34] fun s => { s with a := 0x12, b := 0x34 })
    (fun t => [t.pc.toNat, t.ccr.toByte.toNat]) =
    some [0xC004, 0xD4] := by decide

theorem test_cpx : seen (load [0x8C, 0x10, 0x00] fun s => { s with ix := 0x0FFF })
    (fun t => [t.pc.toNat, t.ccr.toByte.toNat]) =
    some [0xC003, 0xD9] := by decide

theorem test_cpy : seen (load [0x18, 0x9C, 0x30] fun s =>
      ram [(0x0030, 0x00), (0x0031, 0x01)]
        { s with iy := 0x8000 })
    (fun t => [t.pc.toNat, t.ccr.toByte.toNat]) =
    some [0xC003, 0xD2] := by decide

theorem test_daa : seen (load [0x19] fun s => { s with a := 0x41, ccr := Ccr.ofByte 0xF0 })
    (fun t => [t.a.toNat, t.ccr.c.toNat, t.ccr.n.toNat, t.ccr.z.toNat, t.ccr.h.toNat, t.pc.toNat]) =
    some [0x47, 0, 0, 0, 1, 0xC001] := by decide

theorem test_dec : seen (load [0x7A, 0x01, 0x00] fun s => ram [(0x0100, 0x80)] s)
    (fun t => [t.pc.toNat, t.ccr.toByte.toNat, (t.mem.get 0x0100).toNat]) =
    some [0xC003, 0xD2, 0x7F] := by decide

theorem test_deca : seen (load [0x4A] fun s => { s with a := 0x00 })
    (fun t => [t.a.toNat, t.pc.toNat, t.ccr.toByte.toNat]) =
    some [0xFF, 0xC001, 0xD8] := by decide

theorem test_decb : seen (load [0x5A] fun s => { s with b := 0x01 })
    (fun t => [t.b.toNat, t.pc.toNat, t.ccr.toByte.toNat]) =
    some [0x00, 0xC001, 0xD4] := by decide

theorem test_des : seen (load [0x34] fun s => { s with sp := 0x00FF })
    (fun t => [t.sp.toNat, t.pc.toNat, t.ccr.toByte.toNat]) =
    some [0x00FE, 0xC001, 0xD0] := by decide

theorem test_dex : seen (load [0x09] fun s => { s with ix := 0x0001 })
    (fun t => [t.ix.toNat, t.pc.toNat, t.ccr.toByte.toNat]) =
    some [0x0000, 0xC001, 0xD4] := by decide

theorem test_dey : seen (load [0x18, 0x09] fun s => { s with iy := 0x0000 })
    (fun t => [t.iy.toNat, t.pc.toNat, t.ccr.toByte.toNat]) =
    some [0xFFFF, 0xC002, 0xD0] := by decide

theorem test_eora : seen (load [0x88, 0xFF] fun s => { s with a := 0xAA })
    (fun t => [t.a.toNat, t.pc.toNat, t.ccr.toByte.toNat]) =
    some [0x55, 0xC002, 0xD0] := by decide

theorem test_eorb : seen (load [0xC8, 0x5A] fun s => { s with b := 0x5A })
    (fun t => [t.b.toNat, t.pc.toNat, t.ccr.toByte.toNat]) =
    some [0x00, 0xC002, 0xD4] := by decide

theorem test_fdiv : seen (load [0x03] fun s => { s with a := 0x00, b := 0x01, ix := 0x0002 })
    (fun t => [t.b.toNat, t.ix.toNat, t.pc.toNat, t.ccr.toByte.toNat]) =
    some [0x00, 0x8000, 0xC001, 0xD0] := by decide

theorem test_idiv : seen (load [0x02] fun s => { s with a := 0x00, b := 0x64, ix := 0x0007 })
    (fun t => [t.b.toNat, t.ix.toNat, t.pc.toNat, t.ccr.toByte.toNat]) =
    some [0x02, 0x000E, 0xC001, 0xD0] := by decide

theorem test_inc : seen (load [0x6C, 0x00] fun s => ram [(0x0050, 0x7F)] { s with ix := 0x0050 })
    (fun t => [t.pc.toNat, t.ccr.toByte.toNat, (t.mem.get 0x0050).toNat]) =
    some [0xC002, 0xDA, 0x80] := by decide

theorem test_inca : seen (load [0x4C] fun s => { s with a := 0xFF, ccr := Ccr.ofByte 0xD1 })
    (fun t => [t.a.toNat, t.pc.toNat, t.ccr.toByte.toNat]) =
    some [0x00, 0xC001, 0xD5] := by decide

theorem test_incb : seen (load [0x5C] fun s => { s with b := 0x7F })
    (fun t => [t.b.toNat, t.pc.toNat, t.ccr.toByte.toNat]) =
    some [0x80, 0xC001, 0xDA] := by decide

theorem test_ins : seen (load [0x31] fun s => { s with sp := 0x00FE })
    (fun t => [t.sp.toNat, t.pc.toNat, t.ccr.toByte.toNat]) =
    some [0x00FF, 0xC001, 0xD0] := by decide

theorem test_inx : seen (load [0x08] fun s => { s with ix := 0xFFFF })
    (fun t => [t.ix.toNat, t.pc.toNat, t.ccr.toByte.toNat]) =
    some [0x0000, 0xC001, 0xD4] := by decide

theorem test_iny : seen (load [0x18, 0x08] fun s => { s with iy := 0x00FF })
    (fun t => [t.iy.toNat, t.pc.toNat, t.ccr.toByte.toNat]) =
    some [0x0100, 0xC002, 0xD0] := by decide

theorem test_jmp : seen (load [0x6E, 0x04] fun s => { s with ix := 0xD000 })
    (fun t => [t.pc.toNat, t.ccr.toByte.toNat]) =
    some [0xD004, 0xD0] := by decide

theorem test_jsr : seen (load [0xBD, 0xD1, 0x00] fun s => { s with sp := 0x01FF })
    (fun t => [t.sp.toNat, t.pc.toNat, t.ccr.toByte.toNat, (t.mem.get 0x01FF).toNat, (t.mem.get 0x01FE).toNat]) =
    some [0x01FD, 0xD100, 0xD0, 0x03, 0xC0] := by decide

theorem test_ldaa : seen (load [0x86, 0x80] fun s => { s with ccr := Ccr.ofByte 0xD3 })
    (fun t => [t.a.toNat, t.pc.toNat, t.ccr.toByte.toNat]) =
    some [0x80, 0xC002, 0xD9] := by decide

theorem test_ldab : seen (load [0xF6, 0x10, 0x2E] fun s => s)
    (fun t => [t.b.toNat, t.ccr.toByte.toNat, t.pc.toNat]) =
    some [0xC0, 0xD8, 0xC003] := by decide

theorem test_ldd : seen (load [0xCC, 0x12, 0x34] fun s => s)
    (fun t => [t.a.toNat, t.b.toNat, t.pc.toNat, t.ccr.toByte.toNat]) =
    some [0x12, 0x34, 0xC003, 0xD0] := by decide

theorem test_lds : seen (load [0x8E, 0x00, 0xFF] fun s => s)
    (fun t => [t.sp.toNat, t.pc.toNat, t.ccr.toByte.toNat, t.spWritten.toNat]) =
    some [0x00FF, 0xC003, 0xD0, 1] := by decide

theorem test_ldx : seen (load [0xEE, 0x02] fun s => ram [(0x0102, 0xAB), (0x0103, 0xCD)] { s with ix := 0x0100 })
    (fun t => [t.ix.toNat, t.pc.toNat, t.ccr.toByte.toNat]) =
    some [0xABCD, 0xC002, 0xD8] := by decide

theorem test_ldy : seen (load [0x18, 0xCE, 0x00, 0x00] fun s => { s with ccr := Ccr.ofByte 0xD8 })
    (fun t => [t.pc.toNat, t.ccr.toByte.toNat]) =
    some [0xC004, 0xD4] := by decide

theorem test_lsr : seen (load [0x74, 0x00, 0x50] fun s => ram [(0x0050, 0x01)] s)
    (fun t => [t.pc.toNat, t.ccr.toByte.toNat, (t.mem.get 0x0050).toNat]) =
    some [0xC003, 0xD7, 0x00] := by decide

theorem test_lsra : seen (load [0x44] fun s => { s with a := 0x80 })
    (fun t => [t.a.toNat, t.pc.toNat, t.ccr.toByte.toNat]) =
    some [0x40, 0xC001, 0xD0] := by decide

theorem test_lsrb : seen (load [0x54] fun s => { s with b := 0x03 })
    (fun t => [t.b.toNat, t.pc.toNat, t.ccr.toByte.toNat]) =
    some [0x01, 0xC001, 0xD3] := by decide

theorem test_lsrd : seen (load [0x04] fun s => { s with a := 0x01, b := 0x01 })
    (fun t => [t.a.toNat, t.b.toNat, t.pc.toNat, t.ccr.toByte.toNat]) =
    some [0x00, 0x80, 0xC001, 0xD3] := by decide

theorem test_mul : seen (load [0x3D] fun s => { s with a := 0x0C, b := 0x15 })
    (fun t => [t.a.toNat, t.b.toNat, t.pc.toNat, t.ccr.toByte.toNat]) =
    some [0x00, 0xFC, 0xC001, 0xD1] := by decide

theorem test_neg : seen (load [0x70, 0x00, 0x60] fun s => ram [(0x0060, 0x01)] s)
    (fun t => [t.pc.toNat, t.ccr.toByte.toNat, (t.mem.get 0x0060).toNat]) =
    some [0xC003, 0xD9, 0xFF] := by decide

theorem test_nega : seen (load [0x40] fun s => { s with a := 0x80 }) (fun t => [t.pc.toNat, t.ccr.toByte.toNat]) =
    some [0xC001, 0xDB] := by decide

theorem test_negb : seen (load [0x50] fun s => { s with b := 0x00, ccr := Ccr.ofByte 0xD1 })
    (fun t => [t.pc.toNat, t.ccr.toByte.toNat]) =
    some [0xC001, 0xD4] := by decide

theorem test_nop : seen (load [0x01] fun s => s) (fun t => [t.pc.toNat, t.ccr.toByte.toNat]) =
    some [0xC001, 0xD0] := by decide

theorem test_oraa : seen (load [0x8A, 0x80] fun s => { s with a := 0x01 })
    (fun t => [t.a.toNat, t.pc.toNat, t.ccr.toByte.toNat]) =
    some [0x81, 0xC002, 0xD8] := by decide

theorem test_orab : seen (load [0x18, 0xEA, 0x00] fun s => ram [(0x0040, 0x00)] { s with b := 0x00, iy := 0x0040 })
    (fun t => [t.pc.toNat, t.ccr.toByte.toNat]) =
    some [0xC003, 0xD4] := by decide

theorem test_psha : seen (load [0x36] fun s => { s with a := 0x5A, sp := 0x00FF })
    (fun t => [t.sp.toNat, t.pc.toNat, t.ccr.toByte.toNat, (t.mem.get 0x00FF).toNat]) =
    some [0x00FE, 0xC001, 0xD0, 0x5A] := by decide

theorem test_pshb : seen (load [0x37] fun s => { s with b := 0xA5, sp := 0x00FF })
    (fun t => [t.sp.toNat, t.pc.toNat, t.ccr.toByte.toNat, (t.mem.get 0x00FF).toNat]) =
    some [0x00FE, 0xC001, 0xD0, 0xA5] := by decide

theorem test_pshx : seen (load [0x3C] fun s => { s with ix := 0x1234, sp := 0x00FF })
    (fun t => [t.sp.toNat, t.pc.toNat, t.ccr.toByte.toNat, (t.mem.get 0x00FF).toNat, (t.mem.get 0x00FE).toNat]) =
    some [0x00FD, 0xC001, 0xD0, 0x34, 0x12] := by decide

theorem test_pshy : seen (load [0x18, 0x3C] fun s => { s with iy := 0xBEEF, sp := 0x00FF })
    (fun t => [t.sp.toNat, t.pc.toNat, t.ccr.toByte.toNat, (t.mem.get 0x00FF).toNat, (t.mem.get 0x00FE).toNat]) =
    some [0x00FD, 0xC002, 0xD0, 0xEF, 0xBE] := by decide

theorem test_pula : seen (load [0x32] fun s => ram [(0x00FF, 0x77)] { s with sp := 0x00FE })
    (fun t => [t.a.toNat, t.sp.toNat, t.pc.toNat, t.ccr.toByte.toNat]) =
    some [0x77, 0x00FF, 0xC001, 0xD0] := by decide

theorem test_pulb : seen (load [0x33] fun s => ram [(0x00FF, 0x88)] { s with sp := 0x00FE })
    (fun t => [t.b.toNat, t.sp.toNat, t.pc.toNat, t.ccr.toByte.toNat]) =
    some [0x88, 0x00FF, 0xC001, 0xD0] := by decide

theorem test_pulx : seen (load [0x38] fun s => ram [(0x00FE, 0x12), (0x00FF, 0x34)] { s with sp := 0x00FD })
    (fun t => [t.ix.toNat, t.sp.toNat, t.pc.toNat, t.ccr.toByte.toNat]) =
    some [0x1234, 0x00FF, 0xC001, 0xD0] := by decide

theorem test_puly : seen (load [0x18, 0x38] fun s => ram [(0x00FE, 0xBE), (0x00FF, 0xEF)] { s with sp := 0x00FD })
    (fun t => [t.iy.toNat, t.sp.toNat, t.pc.toNat, t.ccr.toByte.toNat]) =
    some [0xBEEF, 0x00FF, 0xC002, 0xD0] := by decide

theorem test_rol : seen (load [0x79, 0x00, 0x50] fun s => ram [(0x0050, 0x80)] { s with ccr := Ccr.ofByte 0xD1 })
    (fun t => [t.pc.toNat, t.ccr.toByte.toNat, (t.mem.get 0x0050).toNat]) =
    some [0xC003, 0xD3, 0x01] := by decide

theorem test_rola : seen (load [0x49] fun s => { s with a := 0x55, ccr := Ccr.ofByte 0xD1 })
    (fun t => [t.a.toNat, t.pc.toNat, t.ccr.toByte.toNat]) =
    some [0xAB, 0xC001, 0xDA] := by decide

theorem test_rolb : seen (load [0x59] fun s => { s with b := 0x80 })
    (fun t => [t.b.toNat, t.pc.toNat, t.ccr.toByte.toNat]) =
    some [0x00, 0xC001, 0xD7] := by decide

theorem test_ror : seen (load [0x18, 0x66, 0x00] fun s =>
      ram [(0x0050, 0x01)]
        { s with iy := 0x0050, ccr := Ccr.ofByte 0xD1 })
    (fun t => [t.pc.toNat, t.ccr.toByte.toNat, (t.mem.get 0x0050).toNat]) =
    some [0xC003, 0xD9, 0x80] := by decide

theorem test_rora : seen (load [0x46] fun s => { s with a := 0x01 })
    (fun t => [t.a.toNat, t.pc.toNat, t.ccr.toByte.toNat]) =
    some [0x00, 0xC001, 0xD7] := by decide

theorem test_rorb : seen (load [0x56] fun s => { s with b := 0x00, ccr := Ccr.ofByte 0xD1 })
    (fun t => [t.b.toNat, t.pc.toNat, t.ccr.toByte.toNat]) =
    some [0x80, 0xC001, 0xDA] := by decide

theorem test_rti : seen (load [0x3B] fun s =>
      ram [(0x00F7, 0xC1), (0x00F8, 0x22), (0x00F9, 0x11), (0x00FA, 0x33), (0x00FB, 0x44), (0x00FC, 0x55),
        (0x00FD, 0x66), (0x00FE, 0xC1), (0x00FF, 0x23)]
        { s with sp := 0x00F6 })
    (fun t => [t.a.toNat, t.b.toNat, t.ix.toNat, t.iy.toNat, t.sp.toNat, t.pc.toNat, t.ccr.toByte.toNat]) =
    some [0x11, 0x22, 0x3344, 0x5566, 0x00FF, 0xC123, 0xC1] := by decide

theorem test_rts : seen (load [0x39] fun s => ram [(0x01FE, 0xC0), (0x01FF, 0x03)] { s with sp := 0x01FD })
    (fun t => [t.sp.toNat, t.pc.toNat, t.ccr.toByte.toNat]) =
    some [0x01FF, 0xC003, 0xD0] := by decide

theorem test_sba : seen (load [0x10] fun s => { s with a := 0x10, b := 0x20 })
    (fun t => [t.a.toNat, t.pc.toNat, t.ccr.toByte.toNat]) =
    some [0xF0, 0xC001, 0xD9] := by decide

theorem test_sbca : seen (load [0x82, 0x00] fun s => { s with a := 0x00, ccr := Ccr.ofByte 0xD1 })
    (fun t => [t.a.toNat, t.pc.toNat, t.ccr.toByte.toNat]) =
    some [0xFF, 0xC002, 0xD9] := by decide

theorem test_sbcb : seen (load [0x18, 0xE2, 0x01] fun s =>
      ram [(0x0201, 0x00)]
        { s with b := 0x80, iy := 0x0200, ccr := Ccr.ofByte 0xD1 })
    (fun t => [t.b.toNat, t.pc.toNat, t.ccr.toByte.toNat]) =
    some [0x7F, 0xC003, 0xD2] := by decide

theorem test_sec : seen (load [0x0D] fun s => s) (fun t => [t.pc.toNat, t.ccr.toByte.toNat]) =
    some [0xC001, 0xD1] := by decide

theorem test_sei : seen (load [0x0F] fun s => { s with ccr := Ccr.ofByte 0xC0 })
    (fun t => [t.pc.toNat, t.ccr.toByte.toNat]) =
    some [0xC001, 0xD0] := by decide

theorem test_sev : seen (load [0x0B] fun s => s) (fun t => [t.pc.toNat, t.ccr.toByte.toNat]) =
    some [0xC001, 0xD2] := by decide

theorem test_staa : seen (load [0x97, 0x40] fun s => { s with a := 0x00 })
    (fun t => [t.pc.toNat, t.ccr.toByte.toNat, (t.mem.get 0x0040).toNat]) =
    some [0xC002, 0xD4, 0x00] := by decide

theorem test_stab : seen (load [0xF7, 0x10, 0x2F] fun s => { s with b := 0x41 })
    (fun t => [t.sci.tdr.toNat, t.sci.rdr.toNat, t.ccr.toByte.toNat, t.pc.toNat]) =
    some [0x41, 0x00, 0xD0, 0xC003] := by decide

theorem test_std : seen (load [0x18, 0xED, 0x04] fun s => { s with a := 0x80, b := 0x01, iy := 0x0060 })
    (fun t => [t.pc.toNat, t.ccr.toByte.toNat, (t.mem.get 0x0064).toNat, (t.mem.get 0x0065).toNat]) =
    some [0xC003, 0xD8, 0x80, 0x01] := by decide

theorem test_stop : seen (load [0xCF] fun s => { s with ccr := Ccr.ofByte 0x50 })
    (fun t => [if t.runState = .stop then 1 else 0, t.ccr.toByte.toNat, t.pc.toNat]) =
    some [1, 0x50, 0xC001] := by decide

theorem test_sts : seen (load [0x9F, 0x50] fun s => { s with sp := 0x01FF })
    (fun t => [t.pc.toNat, t.ccr.toByte.toNat, (t.mem.get 0x0050).toNat, (t.mem.get 0x0051).toNat]) =
    some [0xC002, 0xD0, 0x01, 0xFF] := by decide

theorem test_stx : seen (load [0xFF, 0x00, 0x52] fun s => { s with ix := 0x0000 })
    (fun t => [t.pc.toNat, t.ccr.toByte.toNat, (t.mem.get 0x0052).toNat, (t.mem.get 0x0053).toNat]) =
    some [0xC003, 0xD4, 0x00, 0x00] := by decide

theorem test_sty : seen (load [0x1A, 0xEF, 0x00] fun s => { s with ix := 0x0054, iy := 0xFFFE })
    (fun t => [t.pc.toNat, t.ccr.toByte.toNat, (t.mem.get 0x0054).toNat, (t.mem.get 0x0055).toNat]) =
    some [0xC003, 0xD8, 0xFF, 0xFE] := by decide

theorem test_suba : seen (load [0x80, 0x01] fun s => { s with a := 0x80 })
    (fun t => [t.a.toNat, t.pc.toNat, t.ccr.toByte.toNat]) =
    some [0x7F, 0xC002, 0xD2] := by decide

theorem test_subb : seen (load [0xD0, 0x10] fun s => ram [(0x0010, 0x06)] { s with b := 0x05 })
    (fun t => [t.b.toNat, t.pc.toNat, t.ccr.toByte.toNat]) =
    some [0xFF, 0xC002, 0xD9] := by decide

theorem test_subd : seen (load [0x83, 0x00, 0x01] fun s => { s with a := 0x80, b := 0x00 })
    (fun t => [t.a.toNat, t.b.toNat, t.pc.toNat, t.ccr.toByte.toNat]) =
    some [0x7F, 0xFF, 0xC003, 0xD2] := by decide

theorem test_swi : seen (load [0x3F] fun s =>
      ram [(0xFFF6, 0xE0), (0xFFF7, 0x00)]
        { s with a := 0x11, b := 0x22, ix := 0x3344, iy := 0x5566, sp := 0x00FF, ccr := Ccr.ofByte 0xC1 })
    (fun t => [t.sp.toNat, t.pc.toNat, t.ccr.toByte.toNat, (t.mem.get 0x00FF).toNat, (t.mem.get 0x00FE).toNat,
        (t.mem.get 0x00FD).toNat, (t.mem.get 0x00FC).toNat, (t.mem.get 0x00FB).toNat, (t.mem.get 0x00FA).toNat,
        (t.mem.get 0x00F9).toNat, (t.mem.get 0x00F8).toNat, (t.mem.get 0x00F7).toNat]) =
    some [0x00F6, 0xE000, 0xD1, 0x01, 0xC0, 0x66, 0x55, 0x44, 0x33, 0x11, 0x22, 0xC1] := by decide

theorem test_tab : seen (load [0x16] fun s => { s with a := 0x80, b := 0x00 })
    (fun t => [t.b.toNat, t.pc.toNat, t.ccr.toByte.toNat]) =
    some [0x80, 0xC001, 0xD8] := by decide

theorem test_tap : seen (load [0x06] fun s => { s with a := 0x0F }) (fun t => [t.pc.toNat, t.ccr.toByte.toNat]) =
    some [0xC001, 0x0F] := by decide

theorem test_tba : seen (load [0x17] fun s => { s with a := 0x55, b := 0x00 })
    (fun t => [t.a.toNat, t.pc.toNat, t.ccr.toByte.toNat]) =
    some [0x00, 0xC001, 0xD4] := by decide

theorem test_test : seen (load [0x00] fun s => ram [(0xFFF8, 0xE1), (0xFFF9, 0x00)] { s with sp := 0x00FF })
    (fun t => [t.sp.toNat, t.pc.toNat, t.ccr.toByte.toNat, (t.mem.get 0x00FF).toNat, (t.mem.get 0x00FE).toNat,
        (t.mem.get 0x00FD).toNat, (t.mem.get 0x00FC).toNat, (t.mem.get 0x00FB).toNat, (t.mem.get 0x00FA).toNat,
        (t.mem.get 0x00F9).toNat, (t.mem.get 0x00F8).toNat, (t.mem.get 0x00F7).toNat]) =
    some [0x00F6, 0xE100, 0xD0, 0x00, 0xC0, 0x00, 0x00, 0x00, 0x00, 0x00, 0x00, 0xD0] := by decide

theorem test_tpa : seen (load [0x07] fun s => { s with ccr := Ccr.ofByte 0xD5 })
    (fun t => [t.a.toNat, t.pc.toNat, t.ccr.toByte.toNat]) =
    some [0xD5, 0xC001, 0xD5] := by decide

theorem test_tst : seen (load [0x7D, 0x00, 0x90] fun s => ram [(0x0090, 0x80)] { s with ccr := Ccr.ofByte 0xD3 })
    (fun t => [t.pc.toNat, t.ccr.toByte.toNat]) =
    some [0xC003, 0xD8] := by decide

theorem test_tsta : seen (load [0x4D] fun s => { s with a := 0x00, ccr := Ccr.ofByte 0xD1 })
    (fun t => [t.pc.toNat, t.ccr.toByte.toNat]) =
    some [0xC001, 0xD4] := by decide

theorem test_tstb : seen (load [0x5D] fun s => { s with b := 0x7F }) (fun t => [t.pc.toNat, t.ccr.toByte.toNat]) =
    some [0xC001, 0xD0] := by decide

theorem test_tsx : seen (load [0x30] fun s => { s with sp := 0x00F0 })
    (fun t => [t.ix.toNat, t.pc.toNat, t.ccr.toByte.toNat]) =
    some [0x00F1, 0xC001, 0xD0] := by decide

theorem test_tsy : seen (load [0x18, 0x30] fun s => { s with sp := 0xFFFF })
    (fun t => [t.pc.toNat, t.ccr.toByte.toNat]) =
    some [0xC002, 0xD0] := by decide

theorem test_txs : seen (load [0x35] fun s => { s with ix := 0x0100 })
    (fun t => [t.sp.toNat, t.pc.toNat, t.ccr.toByte.toNat, t.spWritten.toNat]) =
    some [0x00FF, 0xC001, 0xD0, 1] := by decide

theorem test_tys : seen (load [0x18, 0x35] fun s => { s with iy := 0x0000 })
    (fun t => [t.sp.toNat, t.pc.toNat, t.ccr.toByte.toNat, t.spWritten.toNat]) =
    some [0xFFFF, 0xC002, 0xD0, 1] := by decide

theorem test_wai : seen (load [0x3E] fun s =>
        { s with a := 0x01, b := 0x02, ix := 0x0304, iy := 0x0506, sp := 0x00FF, ccr := Ccr.ofByte 0xC0 })
    (fun t => [t.sp.toNat, t.pc.toNat, t.ccr.toByte.toNat, (t.mem.get 0x00FF).toNat, (t.mem.get 0x00FE).toNat,
        (t.mem.get 0x00FD).toNat, (t.mem.get 0x00FC).toNat, (t.mem.get 0x00FB).toNat, (t.mem.get 0x00FA).toNat,
        (t.mem.get 0x00F9).toNat, (t.mem.get 0x00F8).toNat, (t.mem.get 0x00F7).toNat]) =
    some [0x00F6, 0xC001, 0xC0, 0x01, 0xC0, 0x06, 0x05, 0x04, 0x03, 0x01, 0x02, 0xC0] := by decide

theorem test_xgdx : seen (load [0x8F] fun s => { s with a := 0x12, b := 0x34, ix := 0xABCD })
    (fun t => [t.a.toNat, t.b.toNat, t.ix.toNat, t.pc.toNat, t.ccr.toByte.toNat]) =
    some [0xAB, 0xCD, 0x1234, 0xC001, 0xD0] := by decide

theorem test_xgdy : seen (load [0x18, 0x8F] fun s => { s with a := 0x00, b := 0x01, iy := 0xFF00 })
    (fun t => [t.a.toNat, t.b.toNat, t.iy.toNat, t.pc.toNat, t.ccr.toByte.toNat]) =
    some [0xFF, 0x00, 0x0001, 0xC002, 0xD0] := by decide


/-! ### Traps and interrupts: the scenarios of 95_test_vectors.md section 4, one step each -/

/-- The vectors and the start of scenario T1, with a NOP at $C010, on the condition codes given. -/
def scene (ccr : Byte) (set : State → State) : State :=
  set (ram [(0xFFD6, 0xE0), (0xFFD8, 0xE2), (0xFFF2, 0xE4), (0xFFF4, 0xE6), (0xC010, 0x01)]
    { State.reset with
      a := 0xAA, b := 0xBB, ix := 0x1000, iy := 0x2000, sp := 0x00FF, pc := 0xC010, ccr := Ccr.ofByte ccr })

/-- TIE set, so that the SCI requests an interrupt while TDRE is 1. -/
def sciAsks (s : State) : State := { s with sci := { s.sci with sccr2 := 0x80 } }

/-- SPIE and SPIF set, so that the SPI requests an interrupt. -/
def spiAsks (s : State) : State := { s with spi := { s.spi with spcr := 0x84, spsr := 0x80 } }

/-- What the scenarios look at: PC, SP, the condition codes, I_DELAY. -/
def entryView (t : State) : List Nat := [t.pc.toNat, t.sp.toNat, t.ccr.toByte.toNat, t.iDelay.toNat]

/-- T1: the SCI interrupt and its frame. -/
theorem test_scenario_T1 :
    seen (scene 0xC1 sciAsks) (fun t => entryView t ++ (List.range 9).map fun k => (t.mem.get (0xF7 + k)).toNat) =
      some [0xE000, 0x00F6, 0xD1, 0, 0xC1, 0xBB, 0xAA, 0x10, 0x00, 0x20, 0x00, 0xC0, 0x10] := by decide

/-- T2: with I = 1 the instruction runs. -/
theorem test_scenario_T2 : seen (scene 0xD1 sciAsks) entryView = some [0xC011, 0x00FF, 0xD1, 0] := by decide

/-- T3, step 1: CLI starts the delay. -/
theorem test_scenario_T3_first :
    seen (scene 0xD0 fun s => ram [(0xC010, 0x0E)] (sciAsks s)) entryView = some [0xC011, 0x00FF, 0xC0, 1] := by decide

/-- T3, step 2: the instruction after CLI runs. -/
theorem test_scenario_T3_second :
    seen (scene 0xC0 fun s => { sciAsks s with iDelay := true }) entryView = some [0xC011, 0x00FF, 0xC0, 0] := by decide

/-- T5: the SPI comes before the SCI. -/
theorem test_scenario_T5 :
    seen (scene 0xC0 fun s => sciAsks (spiAsks s)) entryView = some [0xE200, 0x00F6, 0xD0, 0] := by decide

/-- T6: IRQ comes before the SPI. -/
theorem test_scenario_T6 :
    seen (scene 0xC0 fun s => { spiAsks s with pins := { s.pins with irq := true } }) entryView =
      some [0xE400, 0x00F6, 0xD0, 0] := by decide

/-- T7: XIRQ is not masked by I, comes first, and sets X. -/
theorem test_scenario_T7 :
    seen (scene 0x90 fun s => { s with pins := { s.pins with irq := true, xirq := true } })
      (fun t => entryView t ++ [(t.mem.get 0xF7).toNat]) = some [0xE600, 0x00F6, 0xD0, 0, 0x90] := by decide

/-- T8: X = 1 masks XIRQ. -/
theorem test_scenario_T8 :
    seen (scene 0xD0 fun s => { s with pins := { s.pins with xirq := true } }) entryView =
      some [0xC011, 0x00FF, 0xD0, 0] := by decide

/-- T10: the end of a wait pushes nothing. -/
theorem test_scenario_T10 :
    seen (scene 0xC0 fun s => { sciAsks s with runState := .wait, sp := 0x00F6 })
      (fun t => entryView t ++ [(t.mem.get 0xF6).toNat]) = some [0xE000, 0x00F6, 0xD0, 0, 0x00] := by decide

/-- T11: a wait with I and X set goes on. -/
theorem test_scenario_T11 :
    seen (scene 0xD0 fun s => { sciAsks s with runState := .wait })
      (fun t => entryView t ++ [(decide (t.runState = .wait)).toNat]) = some [0xC010, 0x00FF, 0xD0, 0, 1] := by decide

/-- R422: in STOP a device request does not end the stop. -/
theorem test_stop_ignores_the_sci :
    seen (scene 0xC0 fun s => { sciAsks s with runState := .stop })
      (fun t => entryView t ++ [(decide (t.runState = .stop)).toNat]) = some [0xC010, 0x00FF, 0xC0, 0, 1] := by decide

/-- R422: in STOP an XIRQ that is masked lets the program go on after STOP. -/
theorem test_stop_ends_on_masked_xirq :
    seen (scene 0xD0 fun s => { s with runState := .stop, pins := { s.pins with xirq := true } })
      (fun t => entryView t ++ [(decide (t.runState = .run)).toNat]) = some [0xC010, 0x00FF, 0xD0, 0, 1] := by decide

/-- Section 3.7: an illegal encoding stacks the address of its prebyte. -/
theorem test_illegal_prebyte :
    seen (load [0x18, 0x00] fun s => ram [(0xFFF8, 0xE1)] { s with sp := 0x00FF })
      (fun t => [t.pc.toNat, t.sp.toNat, (t.mem.get 0xFE).toNat, (t.mem.get 0xFF).toNat]) =
      some [0xE100, 0x00F6, 0xC0, 0x00] := by decide

/-- Section 3.7: with ILLEGAL_OPCODE = fault it ends the run. -/
theorem test_illegal_fault :
    step (load [0x41] fun s => { s with cfg := { s.cfg with illegalOpcode := .fault } }) = .fault .illegalOpcode := rfl

/-! ### The devices: the scenarios of 95_test_vectors.md section 5, one step each -/

/-- One turn of a device on a machine after reset, changed by `set`. -/
def turned (x : Turn) (set : State → State) : State := { set State.reset with turns := [x] }

/-- A6: bits 7 and 6 of a byte written to ADCTL are ignored. -/
theorem test_scenario_A6 : seen (load [0xB7, 0x10, 0x30] fun s => { s with a := 0xFF })
    (fun t => [t.adc.adctl.toNat, t.adc.active.toNat]) = some [0x3F, 1] := by decide

/-- A7: VRH converts to $FF, and the fourth conversion sets CCF. -/
theorem test_scenario_A7 :
    seen (turned (.adcConvert 0x12) fun s => { s with
        adc := { s.adc with option := 0x90, adctl := 0x0C, k := 3, active := true } })
      (fun t => [t.adc.adr4.toNat, t.adc.adctl.toNat, t.adc.active.toNat]) = some [0xFF, 0x8C, 0] := by decide

/-- S2: a write to SCDR clears the armed TDRE and TC. -/
theorem test_scenario_S2 :
    seen (load [0xB7, 0x10, 0x2F] fun s => { s with a := 0x41, sci := { s.sci with sccr2 := 0x08, armed := 0xC0 } })
      (fun t => [t.sci.tdr.toNat, t.sci.scsr.toNat, t.sci.armed.toNat]) = some [0x41, 0x00, 0x00] := by decide

/-- S3: the character moves to the shifter and TDRE is set. -/
theorem test_scenario_S3 :
    seen (turned .sciTxLoad fun s => { s with sci := { s.sci with sccr2 := 0x08, tdr := 0x41, scsr := 0x00 } })
      (fun t => [t.sci.txShift.data.toNat, t.sci.scsr.toNat, t.sci.txBusy.toNat]) = some [0x41, 0x80, 1] := by decide

/-- S7: a second character sets OR and is lost. -/
theorem test_scenario_S7 :
    seen (turned (.sciRxChar 0x32 false false false) fun s =>
        { s with sci := { s.sci with sccr2 := 0x04, rdr := 0x31, scsr := 0xE0 } })
      (fun t => [t.sci.rdr.toNat, t.sci.scsr.toNat]) = some [0x31, 0xE8] := by decide

/-- S8: a bad stop bit sets FE with RDRF. -/
theorem test_scenario_S8 :
    seen (turned (.sciRxChar 0x00 false false true) fun s => { s with sci := { s.sci with sccr2 := 0x04 } })
      (fun t => [t.sci.rdr.toNat, t.sci.scsr.toNat]) = some [0x00, 0xE2] := by decide

/-- S10: an idle line wakes the receiver and does not set IDLE. -/
theorem test_scenario_S10 :
    seen (turned .sciRxIdle fun s => { s with sci := { s.sci with sccr2 := 0x06 } })
      (fun t => [t.sci.sccr2.toNat, t.sci.scsr.toNat]) = some [0x04, 0xC0] := by decide

/-- S11: an address mark wakes the receiver and is received. -/
theorem test_scenario_S11 :
    seen (turned (.sciRxChar 0x81 false false false) fun s => { s with sci := { s.sci with sccr1 := 0x08, sccr2 := 0x06 } })
      (fun t => [t.sci.rdr.toNat, t.sci.scsr.toNat, t.sci.sccr2.toNat]) = some [0x81, 0xE0, 0x04] := by decide

/-- P2: the end of a transfer on the master. -/
theorem test_scenario_P2 :
    seen (turned (.spiMasterDone 0x3C) fun s =>
        { s with spi := { s.spi with spcr := 0x50, shift := 0xA5, busy := true }, portD := { s.portD with ddr := 0x38 } })
      (fun t => [t.spi.rbuf.toNat, t.spi.spsr.toNat, t.spi.busy.toNat] ++ t.spi.mosi.map BitVec.toNat) =
      some [0x3C, 0x80, 0, 0xA5] := by decide

/-- P3: a write during a transfer sets WCOL and is dropped. -/
theorem test_scenario_P3 :
    seen (load [0xB7, 0x10, 0x2A] fun s =>
        { s with a := 0x11, spi := { s.spi with spcr := 0x50, shift := 0xA5, busy := true } })
      (fun t => [t.spi.shift.toNat, t.spi.spsr.toNat, t.spi.busy.toNat]) = some [0xA5, 0x40, 1] := by decide

/-- P6: the mode fault. -/
theorem test_scenario_P6 :
    seen (turned .spiModeFault fun s =>
        { s with
          spi := { s.spi with spcr := 0x50 }, portD := { s.portD with ddr := 0x18 }
          pins := { s.pins with ss := true } })
      (fun t => [t.spi.spcr.toNat, t.spi.spsr.toNat, t.portD.ddr.toNat]) = some [0x00, 0x10, 0x00] := by decide

/-- D26: CLR reads a device register before it writes it, and so arms the SCI flags. -/
theorem test_clr_reads_first : seen (load [0x7F, 0x10, 0x2E] id) (fun t => [t.sci.scsr.toNat, t.sci.armed.toNat]) =
    some [0xC0, 0xC0] := by decide

/-- VECTOR_TABLE moves the vector of SWI (00_scope.md R5, 92 D5). -/
theorem test_vector_table :
    seen (load [0x3F] fun s => ram [(0xBFF6, 0xD1), (0xBFF7, 0x23)]
        { s with sp := 0x00FF, cfg := { s.cfg with vectors := { s.cfg.vectors with swi := 0xBFF6 } } })
      (fun t => [t.pc.toNat, t.sp.toNat]) = some [0xD123, 0x00F6] := by decide

/-- R465: a push, a call, a trap and an interrupt entry need SP written; a load of SP, a count and a branch do not. -/
theorem test_stack_precondition :
    stepUsesStack (load [0x36] id) = true ∧ stepUsesStack (load [0x8D, 0x00] id) = true
      ∧ stepUsesStack (load [0x41] id) = true ∧ stepUsesStack (load [0x32] id) = true
      ∧ stepUsesStack (load [0x01] fun s => { s with ccr := Ccr.ofByte 0x90, pins := { s.pins with xirq := true } }) =
        true
      ∧ stepUsesStack (load [0x8E, 0x00, 0xFF] id) = false ∧ stepUsesStack (load [0x31] id) = false
      ∧ stepUsesStack (load [0x20, 0xFE] id) = false := by decide

/-- R418, R466: a vector in RAM is initialised once both its bytes are given or written, also with $00, and not
before. -/
theorem test_vector_initialised :
    vectorInitialised State.reset 0xFFF6 = false
      ∧ vectorInitialised (poke 0xFFF6 0x00 State.reset) 0xFFF6 = false
      ∧ vectorInitialised (poke 0xFFF7 0x00 (poke 0xFFF6 0x00 State.reset)) 0xFFF6 = true
      ∧ vectorInitialised (poke 0xFFF7 0x00 (poke 0xFFF6 0x00 State.reset)) 0xFFF8 = false := by decide

/-- R466: after reset the reset vector and that of the illegal opcode; with X = I = 0 and the enable bits also
the others. -/
theorem test_usable_vectors :
    usableVectors (load [0x01] id) = [0xFFFE, 0xFFF8] ∧ usableVectors (load [0x3F] id) = [0xFFFE, 0xFFF6, 0xFFF8]
      ∧ usableVectors (load [0x01] fun s => sciAsks (spiAsks { s with ccr := Ccr.ofByte 0x80 })) =
        [0xFFFE, 0xFFF4, 0xFFF2, 0xFFD8, 0xFFD6, 0xFFF8] := by decide

/-! ### Witnesses: each shows states and operands that meet the hypotheses of the statement it is named after -/

/-- The outcome is a next state. -/
def completes (o : StepOutcome) : Bool :=
  match o with
  | .next _ => true
  | .fault _ => false
  | .refused _ => false

/-- A machine with ROM from $E000, RAM below $0200, and nothing elsewhere but the device block. -/
def small (set : State → State) : State :=
  set { State.reset with
    cfg := { Config.standard with regions := [⟨0x0000, 0x01FF, .ram⟩, ⟨0xE000, 0xFFFF, .rom⟩] } }

theorem witness_DecodeUndoesEncode :
    WellFormed (.brset (.indY 0xFF) 0xFF 0x80) ∧ WellFormed (.ldx (.indY 0x00)) ∧ WellFormed .test := by decide

theorem witness_EncodeUndoesDecode :
    decode [0x18, 0x1E, 0xFF, 0xFF, 0x80, 0x41] = .instr (.brset (.indY 0xFF) 0xFF 0x80) [0x41]
      ∧ decode [0x00] = .instr .test [] := by decide

theorem witness_IllegalEncodingsAreExactlyTheListed :
    decode [0xC7] = .illegal ∧ decode [0x41] = .illegal ∧ decode [0x18, 0x00] = .illegal
      ∧ decode [0x18, 0xC7] = .illegal ∧ decode [0x1A, 0xFF] = .illegal ∧ decode [0xCD, 0x00] = .illegal := by decide

theorem witness_StepRunsTheDecodedInstruction :
    let s := load [0x4C] fun s => { s with turns := [.cpu, .sciTxLoad] }
    let z := load [0x4C] id
    s.runState = .run ∧ s.pins.reset = false ∧ recognised s = none
      ∧ decode (fetchWindow s) = .instr .inca [0, 0, 0, 0] ∧ s.turns = .cpu :: [.sciTxLoad]
      ∧ z.runState = .run ∧ z.pins.reset = false ∧ recognised z = none
      ∧ decode (fetchWindow z) = .instr .inca [0, 0, 0, 0] ∧ z.turns = []
      ∧ completes (exec .inca { s with turns := [.sciTxLoad] }) = true ∧ completes (exec .inca z) = true := by decide

theorem witness_BytesThatAreNoInstruction :
    let trap := load [0x18, 0x18] fun s => { s with sp := 0x00FF }
    let stop := load [0x41] fun s => { s with cfg := { s.cfg with illegalOpcode := .fault } }
    let device := load [] fun s => { s with pc := 0x103F }
    let nothing := small fun s => { s with pc := 0x0200 }
    let into := ram [(0x0FFC, 0x18), (0x0FFD, 0x1F), (0x0FFE, 0x05), (0x0FFF, 0x80)]
      (load [] fun s => { s with pc := 0x0FFC })
    let off := ram [(0x01FF, 0x86)] (small fun s => { s with pc := 0x01FF })
    trap.Running ∧ recognised trap = none ∧ decode (fetchWindow trap) = .illegal ∧ trap.cfg.illegalOpcode = .trap
      ∧ canEnter .illop trap.pc trap = true
      ∧ stop.Running ∧ recognised stop = none ∧ decode (fetchWindow stop) = .illegal
      ∧ stop.cfg.illegalOpcode = .fault
      ∧ device.Running ∧ recognised device = none ∧ kindOf device.cfg device.pc = .device
      ∧ nothing.Running ∧ recognised nothing = none ∧ kindOf nothing.cfg nothing.pc = .none
      ∧ (into.Running ∧ recognised into = none ∧ decode (fetchBytes into.cfg into.mem 4 into.pc) = .truncated
        ∧ (∀ k, k < 4 → kindOf into.cfg (into.pc + BitVec.ofNat 16 k) = .ram)
        ∧ kindOf into.cfg (into.pc + BitVec.ofNat 16 4) = .device)
      ∧ off.Running ∧ recognised off = none ∧ decode (fetchBytes off.cfg off.mem 1 off.pc) = .truncated
      ∧ (∀ k, k < 1 → kindOf off.cfg (off.pc + BitVec.ofNat 16 k) = .ram)
      ∧ kindOf off.cfg (off.pc + BitVec.ofNat 16 1) = .none :=
  ⟨⟨rfl, rfl, rfl⟩, by decide, by decide, rfl, by decide, ⟨rfl, rfl, rfl⟩, by decide, by decide, rfl,
    ⟨rfl, rfl, rfl⟩, by decide, by decide, ⟨rfl, rfl, rfl⟩, by decide, by decide,
    ⟨⟨rfl, rfl, rfl⟩, by decide, by decide, by decide, by decide⟩,
    ⟨rfl, rfl, rfl⟩, by decide, by decide, by decide, by decide⟩

/-- The state after reset and a state before its turn of the SCI both meet the invariant and make a step. -/
theorem witness_StepKeepsTheMachineInvariant :
    State.reset.Inv ∧ completes (step State.reset) = true
      ∧ (turned (.adcConvert 0xFF) id).Inv ∧ completes (step (turned (.adcConvert 0xFF) id)) = true :=
  ⟨⟨by decide, by decide, fun _ h => (h rfl).elim, by decide, by decide, by decide, by decide, by decide, by decide,
      by decide, by decide, by decide⟩,
    by decide,
    ⟨by decide, by decide, fun _ h => (h rfl).elim, by decide, by decide, by decide, by decide, by decide, by decide,
      by decide, by decide, by decide⟩,
    by decide⟩

theorem witness_XMaskIsRaisedOnlyByResetOrXirq :
    let xirq := scene 0x90 fun s => { s with pins := { s.pins with xirq := true } }
    let reset := scene 0x90 fun s => { s with pins := { s.pins with reset := true } }
    xirq.ccr.x = false ∧ seen xirq (fun t => [t.ccr.x.toNat]) = some [1]
      ∧ reset.ccr.x = false ∧ seen reset (fun t => [t.ccr.x.toNat]) = some [1] := by decide

/-- Every vector in ROM, and every vector in RAM that the image gives. -/
theorem witness_OnlyRamChangesAndTheMapStays_vectors :
    VectorsInitialised (small id) ∧ completes (step (small id)) = true
      ∧ VectorsInitialised { State.reset with written := placeAddresses 42 0xFFD6 [] } :=
  ⟨List.all_eq_true.1 (by decide), by decide, List.all_eq_true.1 (by decide)⟩

theorem witness_OnlyRamChangesAndTheMapStays :
    let s := small fun s => { s with a := 0x55, pc := 0x0100, mem := placeBytes [0xB7, 0xE0, 0x00] 0x0100 [] }
    completes (step s) = true ∧ kindOf s.cfg 0xE000 = .rom ∧ kindOf s.cfg 0xFFFF = .rom
      ∧ kindOf s.cfg 0x0200 = .none ∧ kindOf s.cfg 0x1000 = .device := by decide

theorem witness_FlagsFrameOfEveryInstruction :
    completes (exec (.adda (.ext 0xFFFF)) State.reset) = true ∧ completes (exec .rti State.reset) = true := by decide

theorem witness_RegistersFrameOfEveryInstruction :
    completes (exec (.std (.indX 0xFF)) State.reset) = true
      ∧ (registersWritten (.std (.indX 0xFF))).a = false ∧ (registersWritten (.std (.indX 0xFF))).b = false
      ∧ (registersWritten (.std (.indX 0xFF))).ix = false ∧ (registersWritten (.std (.indX 0xFF))).iy = false
      ∧ (registersWritten (.std (.indX 0xFF))).sp = false := by decide

/-- Just below and just above the two bytes of STD, and just outside the nine bytes of SWI from SP = 0. -/
theorem witness_MemoryFrameOfEveryInstruction :
    completes (exec (.std (.dir 0xFF)) State.reset) = true
      ∧ (0x00FE : Word) ∉ storedAddresses (.std (.dir 0xFF)) State.reset
      ∧ (0x0101 : Word) ∉ storedAddresses (.std (.dir 0xFF)) State.reset
      ∧ completes (exec .swi State.reset) = true
      ∧ (0x0001 : Word) ∉ storedAddresses .swi State.reset ∧ (0xFFF7 : Word) ∉ storedAddresses .swi State.reset
      ∧ (0x0100 : Word) ∈ storedAddresses (.std (.dir 0xFF)) State.reset ∧ kindOf State.reset.cfg 0x0100 = .ram := by
  decide

theorem witness_DevicesFrameOfEveryInstruction :
    completes (exec (.asl (.ext 0x0FFF)) State.reset) = true
      ∧ readAddresses (.asl (.ext 0x0FFF)) State.reset ++ storedAddresses (.asl (.ext 0x0FFF)) State.reset =
        [0x0FFF, 0x0FFF]
      ∧ kindOf State.reset.cfg 0x0FFF = .ram
      ∧ completes (exec (.ldaa (.ext 0x102E)) State.reset) = true
      ∧ storedAddresses (.ldaa (.ext 0x102E)) State.reset = []
      ∧ completes (exec (.ldaa (.ext 0x1040)) State.reset) = true
      ∧ readAddresses (.ldaa (.ext 0x1040)) State.reset = [0x1040] ∧ kindOf State.reset.cfg 0x1040 = .ram := by decide

theorem witness_ControlFrameOfEveryInstruction :
    completes (exec (.ldaa (.imm 0x00)) State.reset) = true ∧ completes (exec .swi State.reset) = true
      ∧ completes (exec .wai State.reset) = true ∧ completes (exec (.lds (.imm 0x00FF)) State.reset) = true
      ∧ usesStack (.sts (.dir 0xFF)) = false ∧ usesStack .tsx = false
      ∧ (let s := load [0x31] id
        completes (step s) = true ∧ s.pins.reset = false ∧ stepUsesStack s = false
          ∧ seen s (fun t => [t.sp.toNat]) = some [(s.sp + 1).toNat]) := by decide

theorem witness_StopsAreUnspecifiedDeviceAccesses :
    exec (.ldaa (.ext 0x1000)) State.reset = .refused .deviceOffset
      ∧ exec (.staa (.ext 0x103F)) State.reset = .refused .deviceOffset
      ∧ exec (.staa (.ext 0x102B)) { State.reset with a := 0x08 } = .refused .baudTestBits
      ∧ exec .test { State.reset with cfg := { Config.standard with illegalOpcode := .fault } } =
        .fault .illegalOpcode
      ∧ reachesNoRegister (.ldaa (.ext 0x1000)) State.reset ∧ reachesNoRegister (.staa (.ext 0x103F)) State.reset
      ∧ writesTestBits (.staa (.ext 0x102B)) { State.reset with a := 0x08 }
      ∧ writesTestBits (.std (.ext 0x102A)) { State.reset with b := 0x80 }
      ∧ writesTestBits (.com (.ext 0x102B)) State.reset :=
  ⟨rfl, rfl, rfl, rfl, ⟨0x1000, by decide⟩, ⟨0x103F, by decide⟩, ⟨(0x102B, 0x08), by decide⟩,
    ⟨(0x102B, 0x80), by decide⟩, ⟨(0x102B, 0xFF), by decide⟩⟩

/-- An immediate, the last direct address, an index that wraps, and device registers on both sides of the block. -/
theorem witness_AdditionsOfBytes :
    readable8 (.imm 0xFF) State.reset = true ∧ readable8 (.dir 0xFF) State.reset = true
      ∧ readable8 (.indX 0xFF) { State.reset with ix := 0xFFFF } = true
      ∧ readable8 (.ext 0x1008) State.reset = true ∧ readable8 (.ext 0x1039) State.reset = true := by decide

theorem witness_SubtractionsOfBytes :
    readable8 (.imm 0x00) State.reset = true ∧ readable8 (.ext 0xFFFF) State.reset = true
      ∧ readable8 (.indY 0x2E) { State.reset with iy := 0x1000 } = true := by decide

theorem witness_ComparesWriteOnlyFlags :
    readable8 (.imm 0x80) State.reset = true ∧ readable8 (.ext 0x0FFF) State.reset = true
      ∧ readable16 (.imm 0x8000) State.reset = true ∧ readable16 (.ext 0xFFFF) State.reset = true
      ∧ readable16 (.ext 0x1031) State.reset = true := by decide

theorem witness_LogicAndBitTests :
    readable8 (.imm 0x0F) State.reset = true ∧ readable8 (.dir 0x00) State.reset = true
      ∧ readable8 (.ext 0x1040) State.reset = true := by decide

theorem witness_LoadsOfBytesAndWords :
    readable8 (.ext 0x102F) State.reset = true ∧ readable16 (.dir 0xFF) State.reset = true
      ∧ readable16 (.indY 0x00) { State.reset with iy := 0xFFFF } = true := by decide

theorem witness_StoresOfBytesAndWords :
    canWrite State.reset.cfg (addressFull (.dir 0xFF) State.reset) State.reset.a = true
      ∧ canWrite State.reset.cfg (addressFull (.ext 0x102B) State.reset) State.reset.b = true
      ∧ canWriteWord State.reset.cfg (addressFull (.dir 0xFF) State.reset) State.reset.d = true
      ∧ canWriteWord State.reset.cfg (addressFull (.ext 0xFFFF) State.reset) State.reset.sp = true
      ∧ canWriteWord State.reset.cfg (addressFull (.ext 0x0FFE) State.reset) State.reset.ix = true
      ∧ canWriteWord State.reset.cfg (addressFull (.ext 0x1040) State.reset) State.reset.iy = true := by decide

theorem witness_MemoryIncrementAndComplement :
    let s := ram [(0xFFFF, 0x7F)] State.reset
    addressExt (.ext 0xFFFF) s = 0xFFFF ∧ peek 0xFFFF s = 0x7F ∧ canRead s.cfg 0xFFFF = true
      ∧ (∀ r ∈ ([0x80, 0x7E, 0x81, 0x00] : List Byte), canWrite s.cfg 0xFFFF r = true)
      ∧ canRead s.cfg 0x102B = true ∧ canWrite s.cfg 0x102B (peek 0x102B s + 1) = true := by decide

theorem witness_MemoryShiftsAndRotates :
    let s := ram [(0x0000, 0x81)] { State.reset with ix := 0xFF01 }
    addressExt (.indX 0xFF) s = 0x0000 ∧ peek 0x0000 s = 0x81 ∧ canRead s.cfg 0x0000 = true
      ∧ (∀ r ∈ ([0x02, 0xC0, 0x40, 0x03] : List Byte), canWrite s.cfg 0x0000 r = true) := by decide

theorem witness_ArithmeticOfWords :
    readable16 (.imm 0x0001) State.reset = true ∧ readable16 (.indX 0x31) { State.reset with ix := 0x1000 } = true := by
  decide

theorem witness_FlagInstructionsWriteOneFlag : State.reset.ccr.i = true := by decide

theorem witness_StatusTransfersAndCli :
    completes (exec .tpa State.reset) = true
      ∧ completes (exec .tap { State.reset with a := 0xD0, pc := 0x0001 }) = true := by decide

/-- A divisor of one and the greatest numerators, and both sides of the boundary of FDIV. -/
theorem witness_ProductAndDivisions :
    let s := { State.reset with a := 0xFF, b := 0xFF, ix := 0x0001 }
    let t := { State.reset with a := 0xFF, b := 0xFE, ix := 0xFFFF }
    s.ix ≠ 0 ∧ State.reset.ix = 0 ∧ t.d.toNat < t.ix.toNat ∧ s.ix.toNat ≤ s.d.toNat := by decide

theorem witness_DecimalAdditionIsExact :
    let s := { State.reset with a := 0x99, ccr := { State.reset.ccr with c := true } }
    isDecimal s.a = true ∧ isDecimal (value8 (.imm 0x99) s) = true
      ∧ (∃ t, exec (.adca (.imm 0x99)) s = .next t ∧ completes (exec .daa t) = true) :=
  ⟨by decide, by decide, _, rfl, rfl⟩

theorem witness_BitBranchesReadTheByteOnce :
    addressBit (.dir 0xFF) State.reset = 0x00FF ∧ canRead State.reset.cfg 0x00FF = true
      ∧ addressBit (.indX 0x2E) { State.reset with ix := 0x1000 } = 0x102E
      ∧ canRead State.reset.cfg 0x102E = true := by decide

/-- The stack at the two ends of the address space. -/
theorem witness_JumpsCallsAndReturns :
    canPush State.reset.cfg (wordBytes (next (.jsr (.ext 0xC000)) State.reset)) State.reset.sp = true
      ∧ canPush State.reset.cfg (wordBytes (State.reset.pc + 2)) State.reset.sp = true
      ∧ canPull State.reset.cfg 2 State.reset.sp = true ∧ canPull State.reset.cfg 2 0xFFFE = true := by decide

theorem witness_BitClearAndBitSetInMemory :
    let s := ram [(0x0010, 0xF0)] State.reset
    addressBit (.dir 0x10) s = 0x0010 ∧ canRead s.cfg 0x0010 = true
      ∧ (∀ k, k < 8 → (0xC0 : Byte).getLsbD k = ((peek 0x0010 s).getLsbD k && !(0x3C : Byte).getLsbD k))
      ∧ canWrite s.cfg 0x0010 0xC0 = true
      ∧ (∀ k, k < 8 → (0xFC : Byte).getLsbD k = ((peek 0x0010 s).getLsbD k || (0x3C : Byte).getLsbD k))
      ∧ canWrite s.cfg 0x0010 0xFC = true := by decide

theorem witness_PushesStoreAtTheOldStackPointer :
    let s := { State.reset with sp := 0x0000 }
    canWrite s.cfg s.sp s.a = true ∧ canWrite s.cfg s.sp s.b = true
      ∧ canWrite s.cfg s.sp (lowByte s.ix) = true ∧ canWrite s.cfg (s.sp - 1) (highByte s.ix) = true
      ∧ canWrite s.cfg s.sp (lowByte s.iy) = true ∧ canWrite s.cfg (s.sp - 1) (highByte s.iy) = true := by decide

theorem witness_PullsReadAtTheNewStackPointer :
    let s := { State.reset with sp := 0xFFFE }
    canRead s.cfg (s.sp + 1) = true ∧ canRead s.cfg (s.sp + 2) = true := by decide

theorem witness_NopStopAndWai :
    State.reset.ccr.s = true ∧ (load [] fun s => { s with ccr := Ccr.ofByte 0x50 }).ccr.s = false
      ∧ canPush State.reset.cfg (frameBytes (State.reset.pc + 1) State.reset) State.reset.sp = true := by decide

theorem witness_SoftwareTrapsAndTrapReturn :
    canEnter .swi (State.reset.pc + 1) State.reset = true
      ∧ State.reset.cfg.illegalOpcode = .trap ∧ canEnter .illop State.reset.pc State.reset = true
      ∧ ({ Config.standard with illegalOpcode := .fault } : Config).illegalOpcode = .fault
      ∧ canPull State.reset.cfg 9 State.reset.sp = true
      ∧ decode (fetchWindow (load [0x3F] id)) = .instr .swi [0, 0, 0, 0]
      ∧ decode (fetchWindow State.reset) = .instr .test [0, 0, 0, 0] := by decide

theorem witness_BranchesAfterACompareAreTheOrders :
    completes (exec .cba State.reset) = true ∧ completes (exec .sba State.reset) = true
      ∧ completes (exec (.cmpa (.imm 0x80)) State.reset) = true ∧ completes (exec (.suba (.imm 0x7F)) State.reset) =
          true
      ∧ completes (exec (.cmpb (.dir 0x00)) State.reset) = true ∧ completes (exec (.subb (.imm 0xFF)) State.reset) =
          true
      ∧ completes (exec (.cpd (.imm 0x8000)) State.reset) = true
      ∧ completes (exec (.subd (.imm 0x7FFF)) State.reset) = true
      ∧ completes (exec (.cpx (.ext 0xFFFF)) State.reset) = true
      ∧ completes (exec (.cpy (.imm 0x0001)) State.reset) = true := by decide

theorem witness_SubroutineReturnsToItsCall :
    let s := { State.reset with sp := 0x0000 }
    s.mem.wf = true ∧ ramFrom s.cfg 2 (s.sp - 1) = true
      ∧ ∃ t, exec (.jsr (.ext 0xD000)) s = .next t ∧ t.sp = s.sp - 2 ∧ t.cfg = s.cfg :=
  ⟨by decide, by decide, _, rfl, rfl, rfl⟩

/-- The frame across the top of the address space, and a vector in ROM. -/
theorem witness_TrapFrameLayout :
    State.reset.mem.wf = true ∧ ramFrom State.reset.cfg 9 (0x0003 - 8) = true
      ∧ wordInMemory (small id).cfg 0xFFF6 = true ∧ vectorInitialised (small id) 0xFFF6 = true
      ∧ vectorInitialised { State.reset with written := [0xFFF6, 0xFFF7] } 0xFFF6 = true ∧ ramFrom (small id).cfg 9 (0x01FF - 8) = true := by decide

theorem witness_TrapReturnUndoesTheTrap :
    let s := { State.reset with sp := 0x0003 }
    let u := { s with sp := 0xFFFA, mem := (entered .swi 0xC001 s).mem }
    s.mem.wf = true ∧ ramFrom s.cfg 9 (s.sp - 8) = true ∧ u.sp = s.sp - 9 ∧ u.cfg = s.cfg
      ∧ (∀ k, 1 ≤ k → k ≤ 9 → u.mem.get (u.sp + BitVec.ofNat 16 k).toNat =
        (entered .swi 0xC001 s).mem.get (u.sp + BitVec.ofNat 16 k).toNat) :=
  ⟨by decide, by decide, rfl, rfl, fun _ _ _ => rfl⟩

theorem witness_InterruptsAreTakenInTheirOrder :
    let xirq := scene 0x90 fun s => { s with pins := { s.pins with xirq := true } }
    let irq := scene 0xC0 fun s => { spiAsks s with pins := { s.pins with irq := true } }
    let spi := scene 0xC0 fun s => sciAsks (spiAsks s)
    let sci := scene 0xC0 sciAsks
    let none' := scene 0xD0 sciAsks
    (xirq.Running ∧ (xirq.pins.xirq && !xirq.ccr.x) = true ∧ canEnter .xirq xirq.pc xirq = true)
      ∧ (irq.Running ∧ (!irq.ccr.i && !irq.iDelay && irq.pins.irq) = true ∧ canEnter .irq irq.pc irq = true)
      ∧ (spi.Running ∧ (!spi.ccr.i && !spi.iDelay && !spi.pins.irq && spi.spi.request) = true
        ∧ canEnter .spi spi.pc spi = true)
      ∧ (sci.Running ∧ (!sci.ccr.i && !sci.iDelay && !sci.pins.irq && !sci.spi.request && sci.sci.request) = true
        ∧ canEnter .sci sci.pc sci = true)
      ∧ none'.Running ∧ recognised none' = none :=
  ⟨⟨⟨rfl, rfl, rfl⟩, by decide, by decide⟩, ⟨⟨rfl, rfl, rfl⟩, by decide, by decide⟩,
    ⟨⟨rfl, rfl, rfl⟩, by decide, by decide⟩, ⟨⟨rfl, rfl, rfl⟩, by decide, by decide⟩, ⟨rfl, rfl, rfl⟩, by decide⟩

theorem witness_InstructionAfterCliRunsFirst :
    let s := scene 0xD0 fun s => ram [(0xC010, 0x0E), (0xC011, 0x01)] (sciAsks s)
    s.Running ∧ recognised s = none ∧ decode (fetchWindow s) = .instr .cli [0x01, 0, 0, 0]
      ∧ s.ccr.i = true ∧ s.iDelay = false
      ∧ ∃ t, step s = .next t ∧ decode (fetchWindow t) = .instr .nop [0, 0, 0, 0] ∧ completes (exec .nop t) = true :=
  ⟨⟨rfl, rfl, rfl⟩, by decide, by decide, by decide, by decide, _, rfl, by decide, rfl⟩

theorem witness_WaitEndsWithoutStackingAgain :
    let quiet := scene 0xD0 fun s => { sciAsks s with runState := .wait }
    let xirq := scene 0x90 fun s => { s with runState := .wait, pins := { s.pins with xirq := true } }
    let irq := scene 0xC0 fun s => { s with runState := .wait, pins := { s.pins with irq := true } }
    let spi := scene 0xC0 fun s => { sciAsks (spiAsks s) with runState := .wait }
    let sci := scene 0xC0 fun s => { sciAsks s with runState := .wait }
    ([quiet, xirq, irq, spi, sci].all fun s =>
        decide (s.turns = [] ∧ s.runState = .wait ∧ s.pins.reset = false)) = true
      ∧ awakens quiet = none ∧ awakens xirq = some .xirq ∧ awakens irq = some .irq ∧ awakens spi = some .spi
      ∧ awakens sci = some .sci
      ∧ ([TrapName.xirq, .irq, .spi, .sci].all fun n => canReadWord sci.cfg (vectorOf sci.cfg n)) = true := by
  decide

theorem witness_StopEndsOnPinsOnly :
    let open_ := scene 0x10 fun s => { s with runState := .stop, pins := { s.pins with xirq := true } }
    let masked := scene 0x50 fun s => { s with runState := .stop, pins := { s.pins with xirq := true } }
    let irq := scene 0x40 fun s => { s with runState := .stop, pins := { s.pins with irq := true } }
    let quiet := scene 0x50 fun s => { s with runState := .stop, pins := { s.pins with irq := true } }
    let turn := scene 0x50 fun s => { s with runState := .stop, turns := [.sciTxLoad] }
    ([open_, masked, irq, quiet].all fun s =>
        decide (s.turns = [] ∧ s.runState = .stop ∧ s.pins.reset = false)) = true
      ∧ open_.pins.xirq = true ∧ open_.ccr.x = false ∧ canEnter .xirq open_.pc open_ = true
      ∧ masked.pins.xirq = true ∧ masked.ccr.x = true
      ∧ irq.pins.xirq = false ∧ irq.pins.irq = true ∧ irq.ccr.i = false ∧ canEnter .irq irq.pc irq = true
      ∧ quiet.pins.xirq = false ∧ quiet.ccr.i = true
      ∧ turn.runState = .stop ∧ turn.turns = [.sciTxLoad] := by decide

theorem witness_ResetPinRestartsTheMachine :
    let s := scene 0xC0 fun s => { s with runState := .stop, pins := { s.pins with reset := true } }
    s.turns = [] ∧ s.pins.reset = true ∧ wordInMemory s.cfg s.cfg.vectors.reset = true
      ∧ wordInMemory (small id).cfg (small id).cfg.vectors.reset = true := by decide

theorem witness_MemoryKindsReadAndWrite :
    (small id).mem.wf = true ∧ kindOf (small id).cfg 0x01FF = .ram ∧ kindOf (small id).cfg 0x01FE = .ram
      ∧ kindOf (small id).cfg 0xE000 = .rom ∧ kindOf (small id).cfg 0xDFFF = .none
      ∧ kindOf State.reset.cfg 0xFFFF = .ram ∧ kindOf State.reset.cfg (0xFFFF + 1) = .ram := by decide

theorem witness_DeviceTurnsTouchOnlyTheDevices :
    (turned (.pins { State.reset.pins with irq := true }) id).turns = [.pins { State.reset.pins with irq := true }]
      ∧ (turned (.adcConvert 0x00) id).turns = [.adcConvert 0x00]
      ∧ Turn.adcConvert 0x00 ≠ .cpu := by decide

theorem witness_AdcCycleFillsTheFourRegisters :
    let s := { State.reset with
      turns := [.adcConvert 0x00, .adcConvert 0xFF, .adcConvert 0x80, .adcConvert 0x7F]
      adc := { State.reset.adc with option := 0x90, adctl := 0x3F, active := true } }
    s.turns = [.adcConvert 0x00, .adcConvert 0xFF, .adcConvert 0x80, .adcConvert 0x7F] ++ [] ∧ s.runState ≠ .stop
      ∧ s.adc.adpu = true ∧ s.adc.active = true ∧ s.adc.k = 0
      ∧ (let idle := turned (.adcConvert 0x12) id
        idle.turns = [.adcConvert 0x12] ∧ idle.runState ≠ .stop ∧ idle.adc.active = false)
      ∧ (let first := turned (.adcConvert 0x12) fun s => { s with adc := { s.adc with active := true } }
        let last := turned (.adcConvert 0x12) fun s => { s with adc := { s.adc with active := true, k := 3 } }
        first.adc.active = true ∧ first.adc.adpu = false ∧ first.adc.k = 0
          ∧ last.adc.active = true ∧ last.adc.adpu = false ∧ last.adc.k = 3) := by decide

theorem witness_SciTransmitterSteps :
    let load' := turned .sciTxLoad fun s => { s with sci := { s.sci with sccr2 := 0x08, scsr := 0x00 } }
    let idle := turned .sciTxLoad id
    let done := turned .sciTxDone fun s => { s with sci := { s.sci with txBusy := true } }
    let none' := turned .sciTxDone id
    let loose := turned .sciTxLoadLoose fun s => { s with sci := { s.sci with sccr2 := 0x08, tdrLoose := true } }
    let firm := turned .sciTxLoadLoose fun s => { s with sci := { s.sci with sccr2 := 0x08 } }
    let brk := turned .sciBreak fun s => { s with sci := { s.sci with sccr2 := 0x09 } }
    let off := turned .sciBreak fun s => { s with sci := { s.sci with sccr2 := 0x01 } }
    loose.turns = [.sciTxLoadLoose] ∧ loose.sci.te = true ∧ loose.sci.tdrLoose = true ∧ loose.sci.txBusy = false
      ∧ firm.turns = [.sciTxLoadLoose] ∧ firm.sci.tdrLoose = false
      ∧ brk.turns = [.sciBreak] ∧ brk.sci.te = true ∧ brk.sci.sbk = true ∧ brk.sci.txBusy = false
      ∧ off.turns = [.sciBreak] ∧ off.sci.te = false
      ∧ load'.turns = [.sciTxLoad] ∧ load'.runState ≠ .stop ∧ load'.sci.te = true ∧ load'.sci.tdre = false
      ∧ load'.sci.txBusy = false ∧ idle.turns = [.sciTxLoad] ∧ idle.sci.te = false
      ∧ done.turns = [.sciTxDone] ∧ done.sci.txBusy = true ∧ none'.sci.txBusy = false := by decide

theorem witness_SciReceiverSteps :
    let on := turned (.sciRxChar 0x80 true false false) fun s => { s with sci := { s.sci with sccr2 := 0x04 } }
    let off := turned (.sciRxChar 0x80 true false false) id
    let idle := turned .sciRxIdle fun s => { s with sci := { s.sci with sccr2 := 0x04 } }
    on.turns = [.sciRxChar 0x80 true false false] ∧ on.runState ≠ .stop ∧ on.sci.re = true ∧ off.sci.re = false
      ∧ idle.turns = [.sciRxIdle] ∧ idle.sci.re = true ∧ (turned .sciRxIdle id).sci.re = false := by decide

theorem witness_SciRegisterAccesses :
    (0 : Nat) < 8 ∧ (7 : Nat) < 8 ∧ canWrite State.reset.cfg 0x102B 0x77 = true
      ∧ canWrite State.reset.cfg 0x102B 0x80 = false ∧ canWrite State.reset.cfg 0x102B 0x08 = false := by decide

theorem witness_SpiRegisterAccesses :
    (7 : Nat) < 8 ∧ State.reset.spi.busy = false
      ∧ (turned .cpu fun s => { s with spi := { s.spi with busy := true } }).spi.busy = true := by decide

theorem witness_SpiTransferAndModeFaultSteps :
    let master := turned (.spiMasterDone 0x3C) fun s => { s with spi := { s.spi with spcr := 0x50, busy := true } }
    let begin_ := turned .spiSlaveBegin fun s =>
      { s with spi := { s.spi with spcr := 0x40 }, pins := { s.pins with ss := true } }
    let slave := turned (.spiSlaveDone 0x12) fun s => { s with spi := { s.spi with spcr := 0x40, busy := true } }
    let fault := turned .spiModeFault fun s =>
      { s with spi := { s.spi with spcr := 0x50 }, pins := { s.pins with ss := true } }
    (master.turns = [.spiMasterDone 0x3C] ∧ master.runState ≠ .stop ∧ master.spi.busy = true
        ∧ master.spi.mstr = true ∧ master.spi.spe = true)
      ∧ (begin_.turns = [.spiSlaveBegin] ∧ begin_.spi.spe = true ∧ begin_.spi.mstr = false
        ∧ begin_.spi.busy = false ∧ begin_.pins.ss = true)
      ∧ (slave.turns = [.spiSlaveDone 0x12] ∧ slave.spi.busy = true ∧ slave.spi.mstr = false ∧ slave.spi.spe = true)
      ∧ (fault.turns = [.spiModeFault] ∧ fault.spi.spe = true ∧ fault.spi.mstr = true
        ∧ fault.portD.ddr.getLsbD 5 = false ∧ fault.pins.ss = true)
      ∧ (let idle := turned (.spiMasterDone 0x3C) id
        let busy := turned .spiSlaveBegin fun s => { s with spi := { s.spi with spcr := 0x40, busy := true } }
        let other := turned (.spiSlaveDone 0x12) fun s => { s with spi := { s.spi with spcr := 0x50, busy := true } }
        let output := turned .spiModeFault fun s => { s with portD := { s.portD with ddr := 0x20 } }
        idle.turns = [.spiMasterDone 0x3C] ∧ idle.spi.busy = false
          ∧ busy.turns = [.spiSlaveBegin] ∧ busy.spi.busy = true
          ∧ other.turns = [.spiSlaveDone 0x12] ∧ other.spi.mstr = true
          ∧ output.turns = [.spiModeFault] ∧ output.portD.ddr.getLsbD 5 = true) := by decide

end Sys2Proof.Tests
end

section
/-!
PROOF. The decoder answers canonical names only (92_eei_decisions.md D25).
-/

namespace Sys2Proof

/-- The shape with the canonical name of every instruction it can complete. -/
def Shape.canonical : Shape → Shape
  | .illegal => .illegal
  | .inh i => .inh i.canonical
  | .one f => .one fun b => (f b).canonical
  | .two f => .two fun b c => (f b c).canonical
  | .three f => .three fun b c d => (f b c d).canonical

/-- A shape that holds canonical names only completes to well-formed instructions only. -/
theorem Shape.complete_wellFormed {p : Shape} (hp : p.canonical = p) {bytes rest : List Byte} {i : Instr}
    (h : p.complete bytes = .instr i rest) : WellFormed i := by
  unfold Shape.complete at h
  split at h <;> cases h
  · exact Shape.inh.inj hp
  · exact congrFun (Shape.one.inj hp) _
  · exact congrFun₂ (Shape.two.inj hp) _ _
  · exact congrFun₃ (Shape.three.inj hp) _ _ _

/-- No opcode of page 1 names a second name: at every entry of the map both sides are the same term. -/
theorem page1_canonical (op : Nat) : (page1 op).canonical = page1 op := by
  unfold page1 page1Row0 page1Row1 page1Row2 page1Row3 page1Row4 page1Row5 page1Row6 page1Row7 page1Row8 page1Row9
    page1RowA page1RowB page1RowC page1RowD page1RowE page1RowF
  repeat' split
  all_goals rfl

theorem page18_canonical (op : Nat) : (page18 op).canonical = page18 op := by
  unfold page18
  split <;> rfl

theorem page1A_canonical (op : Nat) : (page1A op).canonical = page1A op := by
  unfold page1A
  split <;> rfl

theorem pageCD_canonical (op : Nat) : (pageCD op).canonical = pageCD op := by
  unfold pageCD
  split <;> rfl

theorem prebytePage_canonical {b : Byte} {page : Nat → Shape} (h : prebytePage b = some page) (op : Nat) :
    (page op).canonical = page op := by
  unfold prebytePage at h
  split_ifs at h <;> obtain rfl := Option.some.inj h
  · exact page18_canonical op
  · exact page1A_canonical op
  · exact pageCD_canonical op

/-- Whatever the decoder answers carries the canonical name of its words (D25). -/
theorem wellFormed_of_decode {bytes rest : List Byte} {i : Instr} (h : decode bytes = .instr i rest) :
    WellFormed i := by
  unfold decode at h
  split at h
  · cases h
  · split at h
    · exact Shape.complete_wellFormed (page1_canonical _) h
    · cases h
    · next hpage => exact Shape.complete_wellFormed (prebytePage_canonical hpage _) h

end Sys2Proof
end

section
/-!
PROOF. The scope of the machine: a step at which nothing is recognised runs the decoded instruction
(00_scope.md R15, 60_exceptions.md R406).
-/

namespace Sys2Proof.Machine

@[simp] theorem settle_next (delayed : Bool) (t : State) :
    settle delayed (.next t) = .next { t with iDelay := !delayed && t.iDelay } := rfl

@[simp] theorem settle_fault (delayed : Bool) (f : Fault) : settle delayed (.fault f) = .fault f := rfl

@[simp] theorem settle_refused (delayed : Bool) (r : Refusal) : settle delayed (.refused r) = .refused r := rfl

/-- It is the CPU's turn at `s`, and `u` is the state after the turn is taken (00_scope.md R15). -/
def CpuTurn (s u : State) : Prop :=
  (s.turns = [] ∧ u = s) ∨ ∃ ts, s.turns = .cpu :: ts ∧ u = { s with turns := ts }

theorem step_of_cpuTurn {s u : State} (turn : CpuTurn s u) : step s = cpuStep u := by
  obtain ⟨ht, rfl⟩ | ⟨ts, ht, rfl⟩ := turn <;> simp [step, ht]

/-- The running CPU executes the decoded instruction when it recognises neither reset nor an interrupt. -/
theorem cpuStep_of_instr {s : State} {i : Instr} {rest : List Byte} (run : s.runState = .run)
    (reset : s.pins.reset = false) (quiet : recognised s = none) (dec : decode (fetchWindow s) = .instr i rest) :
    cpuStep s = settle s.iDelay (exec i s) := by
  simp [cpuStep, run, runStep, reset, quiet, execute, dec]

/-- The conditions of `cpuStep_of_instr` do not read the list of turns, so they hold after the turn is taken. -/
theorem step_of_instr {s u : State} {i : Instr} {rest : List Byte} (run : s.runState = .run)
    (reset : s.pins.reset = false) (quiet : recognised s = none) (dec : decode (fetchWindow s) = .instr i rest)
    (turn : CpuTurn s u) : step s = settle s.iDelay (exec i u) := by
  rw [step_of_cpuTurn turn]
  obtain ⟨-, rfl⟩ | ⟨ts, -, rfl⟩ := turn <;> exact cpuStep_of_instr run reset quiet dec

/-- Settles O6: the decoder answers canonical names, and `settle` keeps the kind of the instruction's outcome. -/
theorem stepRunsTheDecodedInstruction : Obligations.StepRunsTheDecodedInstruction := by
  intro s i rest run reset quiet dec u turn
  have hstep : step s = settle s.iDelay (exec i u) := step_of_instr run reset quiet dec turn
  refine ⟨wellFormed_of_decode dec, fun t ht => ?_, fun f hf => ?_, fun r hr => ?_⟩
  · rw [hstep, ht, settle_next]
  · rw [hstep, hf, settle_fault]
  · rw [hstep, hr, settle_refused]

end Sys2Proof.Machine
end

section
/-!
PROOF. What every instruction does, said once: the accesses it makes, in their order, decide whether it is refused and
what it leaves in memory and the devices, and of the CPU it changes only what its line of the tables says
(10_state.md R34, 20_memory.md R65, files 40 to 46).
-/

namespace Sys2Proof.Machine

/-! ### Accesses in their order -/

/-- One byte access of the CPU (20_memory.md R64). -/
inductive Access where
  | read (a : Word)
  | write (a : Word) (v : Byte)

/-- Why the access is refused, if it is (93 U10, U17). -/
def Access.refusal (cfg : Config) : Access → Option Refusal
  | .read a => readRefusal cfg a
  | .write a v => writeRefusal cfg a v

/-- The state after the access. -/
def Access.after : Access → State → State
  | .read a, s => touch a s
  | .write a v, s => poke a v s

/-- The state after the accesses, made one after the other. -/
def afterAccesses : List Access → State → State
  | [], s => s
  | x :: rest, s => afterAccesses rest (x.after s)

/-- None of the accesses is refused. -/
def Allowed (cfg : Config) (l : List Access) : Prop := ∀ x ∈ l, x.refusal cfg = none

/-- Reads of the addresses, in their order. -/
def readsOf (l : List Word) : List Access := l.map .read

/-- Writes of the cells, in their order. -/
def writesOf (l : List (Word × Byte)) : List Access := l.map fun c => .write c.1 c.2

/-- The accesses an instruction makes: it reads before it writes, but for the two traps, which push the frame and then
read their vector (20_memory.md R65, 60_exceptions.md R410). -/
def accesses (i : Instr) (s : State) : List Access :=
  match i with
  | .swi => writesOf (storedBytes .swi s) ++ readsOf (readAddresses .swi s)
  | .test => writesOf (storedBytes .test s) ++ readsOf (readAddresses .test s)
  | i => readsOf (readAddresses i s) ++ writesOf (storedBytes i s)

theorem mem_accesses {i : Instr} {s : State} {x : Access} :
    x ∈ accesses i s ↔ (∃ a ∈ readAddresses i s, x = .read a) ∨ ∃ c ∈ storedBytes i s, x = .write c.1 c.2 := by
  unfold accesses
  split <;> simp only [List.mem_append, readsOf, writesOf, List.mem_map, eq_comm (b := x)]
  · exact or_comm
  · exact or_comm

theorem afterAccesses_append {l m : List Access} {s : State} :
    afterAccesses (l ++ m) s = afterAccesses m (afterAccesses l s) := by
  induction l generalizing s with
  | nil => rfl
  | cons x l ih => exact ih

/-! ### The part of the state that accesses reach -/

/-- Memory, its record, the devices and the count of free values: all an access can change (20_memory.md R70, R71). -/
structure Outside where
  mem : Memory
  written : Addresses
  adc : Adc
  sci : Sci
  spi : Spi
  portD : PortD
  draws : Nat

def State.outside (s : State) : Outside := ⟨s.mem, s.written, s.adc, s.sci, s.spi, s.portD, s.draws⟩

/-- The state with that part replaced. -/
def State.withOutside (s : State) (o : Outside) : State :=
  { s with
    mem := o.mem, written := o.written, adc := o.adc, sci := o.sci, spi := o.spi, portD := o.portD, draws := o.draws }

/-- A write leaves everything but that part alone. -/
theorem poke_eq_withOutside (a : Word) (v : Byte) (s : State) : poke a v s = s.withOutside (poke a v s).outside := by
  unfold poke
  split
  case h_4 =>
    split
    next r _ => cases r <;> rfl
    next => rfl
  all_goals rfl

theorem regAfterRead_eq_withOutside (r : DeviceReg) (s : State) :
    regAfterRead r s = s.withOutside (regAfterRead r s).outside := by
  cases r
  case adr1 | adr2 | adr3 | adr4 =>
    simp only [regAfterRead, afterAdr]
    split <;> rfl
  all_goals rfl

/-- A read leaves everything but that part alone. -/
theorem touch_eq_withOutside (a : Word) (s : State) : touch a s = s.withOutside (touch a s).outside := by
  unfold touch
  split
  case h_4 =>
    split
    next r _ => exact regAfterRead_eq_withOutside r s
    next => rfl
  all_goals rfl

theorem Access.after_eq_withOutside (x : Access) (s : State) : x.after s = s.withOutside (x.after s).outside := by
  cases x with
  | read a => exact touch_eq_withOutside a s
  | write a v => exact poke_eq_withOutside a v s

theorem afterAccesses_eq_withOutside (l : List Access) (s : State) :
    afterAccesses l s = s.withOutside (afterAccesses l s).outside := by
  induction l generalizing s with
  | nil => rfl
  | cons x l ih =>
    calc afterAccesses (x :: l) s
        = (x.after s).withOutside (afterAccesses (x :: l) s).outside := ih _
      _ = s.withOutside (afterAccesses (x :: l) s).outside := by rw [x.after_eq_withOutside s]; rfl

@[simp] theorem afterAccesses_cfg (l : List Access) (s : State) : (afterAccesses l s).cfg = s.cfg := by
  rw [afterAccesses_eq_withOutside]; rfl

/-- Accesses do not look at SP. -/
theorem afterAccesses_withSp (l : List Access) (s : State) (x : Word) :
    afterAccesses l { s with sp := x } = { afterAccesses l s with sp := x } := by
  induction l generalizing s with
  | nil => rfl
  | cons y l ih =>
    cases y with
    | read a => simp only [afterAccesses, Access.after, touch_withSp, ih]
    | write a v => simp only [afterAccesses, Access.after, poke_withSp, ih]

/-- The delivery of an 8-bit operand is the read of its address. -/
theorem after8_eq (m : Operand8) (s : State) :
    after8 m s = afterAccesses (readsOf (operandAddress8 m s).toList) s := by
  unfold after8
  cases operandAddress8 m s <;> rfl

/-- The delivery of a 16-bit operand is the read of its two addresses. -/
theorem after16_eq (m : Operand16) (s : State) :
    after16 m s = afterAccesses (readsOf ((operandAddress16 m s).toList.flatMap wordAddresses)) s := by
  unfold after16
  cases operandAddress16 m s <;> rfl

/-- A push writes its cells and moves SP. -/
theorem pushed_eq (l : List Byte) (s : State) :
    pushed l s = { afterAccesses (writesOf (pushedCells l s.sp)) s with sp := s.sp - BitVec.ofNat 16 l.length } := by
  induction l generalizing s with
  | nil => simp [pushed, pushedCells, writesOf, afterAccesses]
  | cons v l ih =>
    have down : s.sp - 1 - BitVec.ofNat 16 l.length = s.sp - BitVec.ofNat 16 (l.length + 1) := by
      apply BitVec.eq_of_toNat_eq
      simp [BitVec.toNat_sub]
      omega
    rw [pushed, ih]
    show { afterAccesses (writesOf (pushedCells l (s.sp - 1))) { poke s.sp v s with sp := s.sp - 1 } with
      sp := s.sp - 1 - BitVec.ofNat 16 l.length } = _
    rw [afterAccesses_withSp, down]
    rfl

/-- A pull reads its addresses and moves SP. -/
theorem pulled_eq (n : Nat) (s : State) :
    pulled n s = { afterAccesses (readsOf (pullAddresses n s.sp)) s with sp := s.sp + BitVec.ofNat 16 n } := by
  induction n generalizing s with
  | zero => simp [pulled, pullAddresses, readsOf, afterAccesses]
  | succ n ih =>
    have up : s.sp + 1 + BitVec.ofNat 16 n = s.sp + BitVec.ofNat 16 (n + 1) := by
      apply BitVec.eq_of_toNat_eq
      simp [BitVec.toNat_add]
      omega
    rw [pulled, touch_withSp, ih]
    show { afterAccesses (readsOf (pullAddresses n (s.sp + 1))) { touch (s.sp + 1) s with sp := s.sp + 1 } with
      sp := s.sp + 1 + BitVec.ofNat 16 n } = _
    rw [afterAccesses_withSp, up]
    rfl

/-- What an access leaves depends on the part it reaches and the parameters only. -/
theorem Access.outside_congr (x : Access) {s u : State} (ho : s.outside = u.outside) (hc : s.cfg = u.cfg) :
    (x.after s).outside = (x.after u).outside := by
  obtain ⟨⟩ := s
  obtain ⟨⟩ := u
  cases ho
  cases hc
  cases x with
  | read a =>
    simp only [Access.after, touch]
    split
    case h_4 =>
      split
      next r _ =>
        cases r
        case adr1 | adr2 | adr3 | adr4 =>
          simp only [regAfterRead, afterAdr]
          split <;> rfl
        all_goals rfl
      next => rfl
    all_goals rfl
  | write a v =>
    simp only [Access.after, poke]
    split
    case h_4 =>
      split
      next r _ => cases r <;> rfl
      next => rfl
    all_goals rfl

theorem afterAccesses_outside_congr (l : List Access) {s u : State} (ho : s.outside = u.outside)
    (hc : s.cfg = u.cfg) : (afterAccesses l s).outside = (afterAccesses l u).outside := by
  induction l generalizing s u with
  | nil => exact ho
  | cons x l ih =>
    refine ih (x.outside_congr ho hc) ?_
    rw [x.after_eq_withOutside s, x.after_eq_withOutside u]
    exact hc

/-- The accesses of trap entry: the frame is pushed and the vector is read (60_exceptions.md R410). -/
def enterAccesses (name : TrapName) (ret : Word) (s : State) : List Access :=
  writesOf (pushedCells (frameBytes ret s) s.sp) ++ readsOf (wordAddresses (vectorOf s.cfg name))

/-- Trap entry makes its accesses and writes SP, PC, the masks and I_DELAY (60_exceptions.md R410). -/
theorem entered_eq (name : TrapName) (ret : Word) (s : State) :
    ∃ pc, entered name ret s =
      { s.withOutside (afterAccesses (enterAccesses name ret s) s).outside with
        sp := s.sp - 9, pc := pc, ccr := maskFor name s.ccr, iDelay := false } := by
  have push : ∃ framed o, framed = { pushed (frameBytes ret s) s with ccr := maskFor name s.ccr }
      ∧ framed = { s.withOutside o with sp := s.sp - 9, ccr := maskFor name s.ccr }
      ∧ framed.outside = (afterAccesses (writesOf (pushedCells (frameBytes ret s) s.sp)) s).outside := by
    refine ⟨_, (afterAccesses (writesOf (pushedCells (frameBytes ret s) s.sp)) s).outside, rfl, ?_, ?_⟩
    · rw [pushed_eq, ← afterAccesses_eq_withOutside]
      rfl
    · rw [pushed_eq]
      rfl
  obtain ⟨framed, o, hframed, hcpu, hreach⟩ := push
  have enter : entered name ret s =
      { afterAccesses (readsOf (wordAddresses (vectorOf s.cfg name))) framed with
        pc := peekWord (vectorOf s.cfg name) framed, iDelay := false } := by
    rw [hframed]
    rfl
  have reach : (afterAccesses (enterAccesses name ret s) s).outside
      = (afterAccesses (readsOf (wordAddresses (vectorOf s.cfg name))) framed).outside := by
    rw [enterAccesses, afterAccesses_append]
    exact afterAccesses_outside_congr _ hreach.symm (by simp [hframed])
  rw [enter, reach, afterAccesses_eq_withOutside _ framed]
  generalize (afterAccesses (readsOf (wordAddresses (vectorOf s.cfg name))) framed).outside = o'
  generalize peekWord (vectorOf s.cfg name) framed = pc
  subst hcpu
  exact ⟨pc, rfl⟩

/-! ### Computations that make accesses -/

/-- The computation makes the accesses: it answers `t` where none is refused, and else the refusal of one of them. -/
def Makes {α : Type} (cfg : Config) (l : List Access) (x : Except Refusal α) (t : α) : Prop :=
  (Allowed cfg l ∧ x = .ok t) ∨ ∃ y ∈ l, ∃ r, y.refusal cfg = some r ∧ x = .error r

theorem Makes.pure {α : Type} {cfg : Config} (t : α) : Makes cfg [] (.ok t) t := .inl ⟨by simp [Allowed], rfl⟩

/-- One computation after another makes the accesses of both. -/
theorem Makes.bind {α β : Type} {cfg : Config} {l m : List Access} {x : Except Refusal α} {f : α → Except Refusal β}
    {t : α} {u : β} (hx : Makes cfg l x t) (hf : Makes cfg m (f t) u) : Makes cfg (l ++ m) (x >>= f) u := by
  obtain ⟨hl, rfl⟩ | ⟨y, hy, r, hr, rfl⟩ := hx
  · obtain ⟨hm, e⟩ | ⟨y, hy, r, hr, e⟩ := hf
    · exact .inl ⟨fun y hy => (List.mem_append.mp hy).elim (hl y) (hm y), e⟩
    · exact .inr ⟨y, List.mem_append_right l hy, r, hr, e⟩
  · exact .inr ⟨y, List.mem_append_left m hy, r, hr, rfl⟩

/-- A computation followed by a total one makes the same accesses. -/
theorem Makes.map {α β : Type} {cfg : Config} {l : List Access} {x : Except Refusal α} {t : α} (hx : Makes cfg l x t)
    (f : α → β) : Makes cfg l (x >>= fun a => Except.ok (f a)) (f t) := by
  have := hx.bind (f := fun a => .ok (f a)) (.pure (f t))
  rwa [List.append_nil] at this

/-- What the computation answers where none is refused can be said in another way. -/
theorem Makes.of_ok {α : Type} {cfg : Config} {l : List Access} {x : Except Refusal α} {t u : α}
    (h : Makes cfg l x t) (e : ∀ v, x = .ok v → v = u) : Makes cfg l x u := by
  obtain ⟨hl, hx⟩ | refused := h
  · exact .inl ⟨hl, hx.trans (congrArg _ (e t hx))⟩
  · exact .inr refused

theorem readByte_makes (a : Word) (s : State) : Makes s.cfg [.read a] (readByte a s) (peek a s, touch a s) := by
  unfold readByte
  cases h : readRefusal s.cfg a with
  | none => exact .inl ⟨by simpa [Allowed, Access.refusal] using h, rfl⟩
  | some r => exact .inr ⟨_, List.mem_singleton_self _, r, h, rfl⟩

theorem writeByte_makes (a : Word) (v : Byte) (s : State) :
    Makes s.cfg [.write a v] (writeByte a v s) (poke a v s) := by
  unfold writeByte
  cases h : writeRefusal s.cfg a v with
  | none => exact .inl ⟨by simpa [Allowed, Access.refusal] using h, rfl⟩
  | some r => exact .inr ⟨_, List.mem_singleton_self _, r, h, rfl⟩

theorem readWord_makes (a : Word) (s : State) :
    Makes s.cfg (readsOf (wordAddresses a)) (readWord a s) (peekWord a s, touchWord a s) := by
  have second := (readByte_makes (a + 1) (touch a s)).map fun p => (joinBytes (peek a s) p.1, p.2)
  rw [touch_cfg] at second
  exact (readByte_makes a s).bind second

theorem writeWord_makes (a v : Word) (s : State) :
    Makes s.cfg (writesOf (wordCells a v)) (writeWord a v s) (pokeWord a v s) := by
  have second := writeByte_makes (a + 1) (lowByte v) (poke a (highByte v) s)
  rw [poke_cfg] at second
  exact (writeByte_makes a (highByte v) s).bind second

theorem push8_makes (v : Byte) (s : State) :
    Makes s.cfg (writesOf (pushedCells [v] s.sp)) (push8 v s) (pushed [v] s) := by
  have := (writeByte_makes s.sp v s).map fun s1 => { s1 with sp := s1.sp - 1 }
  simp only [poke_sp] at this
  exact this

/-- Two pushes make the writes of the bytes of both. -/
theorem Makes.pushBind {l m : List Byte} {s : State} {x : Except Refusal State} {f : State → Except Refusal State}
    (hx : Makes s.cfg (writesOf (pushedCells l s.sp)) x (pushed l s))
    (hf : Makes (pushed l s).cfg (writesOf (pushedCells m (pushed l s).sp)) (f (pushed l s)) (pushed m (pushed l s))) :
    Makes s.cfg (writesOf (pushedCells (l ++ m) s.sp)) (x >>= f) (pushed (l ++ m) s) := by
  have cells : ∀ (l : List Byte) (sp : Word),
      pushedCells (l ++ m) sp = pushedCells l sp ++ pushedCells m (sp - BitVec.ofNat 16 l.length) := by
    intro l
    induction l with
    | nil => intro sp; simp [pushedCells]
    | cons v l ih =>
      intro sp
      have down : sp - 1 - BitVec.ofNat 16 l.length = sp - BitVec.ofNat 16 (l.length + 1) := by
        apply BitVec.eq_of_toNat_eq
        simp [BitVec.toNat_sub]
        omega
      rw [List.cons_append, pushedCells, ih, down]
      rfl
  rw [pushed_cfg, pushed_sp] at hf
  rw [pushed_append, cells, writesOf, List.map_append]
  exact hx.bind hf

theorem push16_makes (v : Word) (s : State) :
    Makes s.cfg (writesOf (pushedCells (wordBytes v) s.sp)) (push16 v s) (pushed (wordBytes v) s) :=
  Makes.pushBind (l := [lowByte v]) (m := [highByte v]) (push8_makes _ s) (push8_makes _ _)

theorem pushFrame_makes (ret : Word) (s : State) :
    Makes s.cfg (writesOf (pushedCells (frameBytes ret s) s.sp)) (pushFrame ret s) (pushed (frameBytes ret s) s) := by
  have frame : frameBytes ret s
      = wordBytes ret ++ (wordBytes s.iy ++ (wordBytes s.ix ++ ([s.a] ++ ([s.b] ++ [s.ccr.toByte])))) := rfl
  rw [frame, pushFrame]
  refine (push16_makes ret s).pushBind ?_
  refine (push16_makes s.iy _).pushBind ?_
  refine (push16_makes s.ix _).pushBind ?_
  refine (push8_makes s.a _).pushBind ?_
  exact (push8_makes s.b _).pushBind (push8_makes s.ccr.toByte _)

theorem takeVector_makes (name : TrapName) (s : State) :
    Makes s.cfg (readsOf (wordAddresses (vectorOf s.cfg name))) (takeVector name s)
      { touchWord (vectorOf s.cfg name) { s with ccr := maskFor name s.ccr } with
        pc := peekWord (vectorOf s.cfg name) { s with ccr := maskFor name s.ccr } } :=
  (readWord_makes (vectorOf s.cfg name) { s with ccr := maskFor name s.ccr }).map
    fun p : Word × State => ({ p.2 with pc := p.1 } : State)

theorem enter_makes (name : TrapName) (ret : Word) (s : State) :
    Makes s.cfg (enterAccesses name ret s) (enter name ret s) (entered name ret s) := by
  have vector := (takeVector_makes name (pushed (frameBytes ret s) s)).map
    fun s2 : State => ({ s2 with iDelay := false } : State)
  rw [pushed_cfg] at vector
  exact ((pushFrame_makes ret s).bind vector).of_ok fun v h => (enter_eq_ok.mp h).2

theorem pull8_makes (s : State) :
    Makes s.cfg (readsOf (pullAddresses 1 s.sp)) (pull8 s) (pulledByte 0 s, pulled 1 s) :=
  readByte_makes (s.sp + 1) { s with sp := s.sp + 1 }

theorem pull16_makes (s : State) :
    Makes s.cfg (readsOf (pullAddresses 2 s.sp)) (pull16 s)
      (joinBytes (pulledByte 0 s) (pulledByte 1 s), pulled 2 s) := by
  have second := (pull8_makes (pulled 1 s)).map fun p => (joinBytes (pulledByte 0 s) p.1, p.2)
  rw [pulled_cfg, pulled_sp] at second
  exact ((pull8_makes s).bind second).of_ok fun _ h => Prod.ext (pull16_eq_ok.mp h).2.1 (pull16_eq_ok.mp h).2.2

theorem pull8_makes_pulled (k : Nat) (s : State) :
    Makes s.cfg (readsOf (pullAddresses 1 (s.sp + BitVec.ofNat 16 k))) (pull8 (pulled k s))
      (pulledByte k s, pulled (k + 1) s) := by
  have := pull8_makes (pulled k s)
  rwa [pulled_cfg, pulled_sp, pulledByte_pulled, pulled_add, Nat.add_zero] at this

theorem pull16_makes_pulled (k : Nat) (s : State) :
    Makes s.cfg (readsOf (pullAddresses 2 (s.sp + BitVec.ofNat 16 k))) (pull16 (pulled k s))
      (joinBytes (pulledByte k s) (pulledByte (k + 1) s), pulled (k + 2) s) := by
  have := pull16_makes (pulled k s)
  rwa [pulled_cfg, pulled_sp, pulledByte_pulled, pulledByte_pulled, pulled_add, Nat.add_zero] at this

theorem pullAddresses_add (m n : Nat) (sp : Word) :
    pullAddresses (m + n) sp = pullAddresses m sp ++ pullAddresses n (sp + BitVec.ofNat 16 m) := by
  induction m generalizing sp with
  | zero => simp [pullAddresses]
  | succ m ih =>
    have up : sp + 1 + BitVec.ofNat 16 m = sp + BitVec.ofNat 16 (m + 1) := by
      apply BitVec.eq_of_toNat_eq
      simp [BitVec.toNat_add]
      omega
    rw [Nat.succ_add, pullAddresses, ih, up]
    rfl

theorem readsOf_append (l m : List Word) : readsOf (l ++ m) = readsOf l ++ readsOf m := List.map_append

theorem returnFromTrap_makes (s : State) :
    Makes s.cfg (readsOf (pullAddresses 9 s.sp)) (returnFromTrap s) (returned s) := by
  rw [pullAddresses_add 7 2, pullAddresses_add 5 2, pullAddresses_add 3 2, pullAddresses_add 2 1,
    pullAddresses_add 1 1]
  simp only [readsOf_append, List.append_assoc]
  exact Makes.of_ok
    ((pull8_makes s).bind <| (pull8_makes_pulled 1 s).bind <| (pull8_makes_pulled 2 s).bind <|
      (pull16_makes_pulled 3 s).bind <| (pull16_makes_pulled 5 s).bind <| (pull16_makes_pulled 7 s).map _)
    fun _ h => (returnFromTrap_eq_ok.mp h).2

theorem operand8_makes (m : Operand8) (s : State) :
    Makes s.cfg (readsOf (operandAddress8 m s).toList) (operand8 m s) (value8 m s, after8 m s) := by
  cases m with
  | imm ii => exact .pure _
  | _ => exact readByte_makes _ s

theorem operand16_makes (m : Operand16) (s : State) :
    Makes s.cfg (readsOf ((operandAddress16 m s).toList.flatMap wordAddresses)) (operand16 m s)
      (value16 m s, after16 m s) := by
  cases m with
  | imm jjkk => exact .pure _
  | _ => exact readWord_makes _ s

theorem withOperand8_makes (m : Operand8) (f : Byte → State → State) (s : State) :
    Makes s.cfg (readsOf (operandAddress8 m s).toList) (withOperand8 m f s) (f (value8 m s) (after8 m s)) :=
  (operand8_makes m s).map fun p => f p.1 p.2

theorem withOperand16_makes (m : Operand16) (f : Word → State → State) (s : State) :
    Makes s.cfg (readsOf ((operandAddress16 m s).toList.flatMap wordAddresses)) (withOperand16 m f s)
      (f (value16 m s) (after16 m s)) :=
  (operand16_makes m s).map fun p => f p.1 p.2

theorem storeByte_makes (a : Word) (v : Byte) (f : Ccr) (s : State) :
    Makes s.cfg [.write a v] (storeByte a v f s) { poke a v s with ccr := f } :=
  (writeByte_makes a v s).map fun s1 : State => ({ s1 with ccr := f } : State)

theorem storeWord_makes (a v : Word) (f : Ccr) (s : State) :
    Makes s.cfg (writesOf (wordCells a v)) (storeWord a v f s) { pokeWord a v s with ccr := f } :=
  (writeWord_makes a v s).map fun s1 : State => ({ s1 with ccr := f } : State)

theorem modifyByte_makes (a : Word) (f : Byte → Ccr → Byte × Ccr) (s : State) :
    Makes s.cfg [.read a, .write a (f (peek a s) s.ccr).1] (modifyByte a f s)
      { poke a (f (peek a s) s.ccr).1 (touch a s) with ccr := (f (peek a s) s.ccr).2 } := by
  have store := (writeByte_makes a (f (peek a s) s.ccr).1 (touch a s)).map
    fun s2 : State => ({ s2 with ccr := (f (peek a s) s.ccr).2 } : State)
  rw [touch_cfg] at store
  exact (readByte_makes a s).bind store

/-! ### What an instruction leaves of the CPU -/

/-- What the effect makes of a flag: the value before where the effect keeps it, and the value after where the effect
leaves that to the result (10_state.md R34). -/
def FlagEffect.pick (e : FlagEffect) (before after : Bool) : Bool :=
  match e with
  | .kept => before
  | .written => after
  | .cleared => false
  | .raised => true
  | .undefined => after
  | .onlyCleared => before && after

theorem FlagEffect.holds_of_pick {e : FlagEffect} {before after : Bool} (h : after = e.pick before after) :
    e.holds before after := by
  cases e with
  | kept => exact h
  | written => trivial
  | cleared => exact h
  | raised => exact h
  | undefined => trivial
  | onlyCleared =>
    intro ha
    rw [ha, FlagEffect.pick, Bool.and_true] at h
    exact h.symm

/-- The row of the table, flag by flag. -/
def CcrEffect.pick (e : CcrEffect) (before after : Ccr) : Ccr where
  s := e.s.pick before.s after.s
  x := e.x.pick before.x after.x
  h := e.h.pick before.h after.h
  i := e.i.pick before.i after.i
  n := e.n.pick before.n after.n
  z := e.z.pick before.z after.z
  v := e.v.pick before.v after.v
  c := e.c.pick before.c after.c

theorem CcrEffect.holds_of_pick {e : CcrEffect} {before after : Ccr} (h : after = e.pick before after) :
    e.holds before after :=
  have flag {e : FlagEffect} {x y : Bool} := @FlagEffect.holds_of_pick e x y
  ⟨flag (congrArg Ccr.s h), flag (congrArg Ccr.x h), flag (congrArg Ccr.h h), flag (congrArg Ccr.i h),
    flag (congrArg Ccr.n h), flag (congrArg Ccr.z h), flag (congrArg Ccr.v h), flag (congrArg Ccr.c h)⟩

/-- The instructions that may leave the run state RUN (60_exceptions.md R420). -/
def changesRunState : Instr → Bool
  | .stop => true
  | .wai => true
  | _ => false

/-- The instructions that may write I_DELAY (60_exceptions.md R406, R410). -/
def changesDelay : Instr → Bool
  | .cli => true
  | .tap => true
  | .swi => true
  | .test => true
  | _ => false

/-- `t` is a state instruction `i` may leave from `s`, where `o` is what its accesses leave: it takes `o`, and of the
CPU it keeps what the tables of the instruction say. Each table is used as a choice between the value after and the
value before, so that the equations hold by computation at a given instruction. -/
structure Leaves (i : Instr) (s : State) (o : Outside) (t : State) : Prop where
  mem : t.mem = o.mem := by rfl
  written : t.written = o.written := by rfl
  adc : t.adc = o.adc := by rfl
  sci : t.sci = o.sci := by rfl
  spi : t.spi = o.spi := by rfl
  portD : t.portD = o.portD := by rfl
  cfg : t.cfg = s.cfg := by rfl
  pins : t.pins = s.pins := by rfl
  turns : t.turns = s.turns := by rfl
  ccr : t.ccr = (ccrEffect i).pick s.ccr t.ccr := by rfl
  a : t.a = bif (registersWritten i).a then t.a else s.a := by rfl
  b : t.b = bif (registersWritten i).b then t.b else s.b := by rfl
  ix : t.ix = bif (registersWritten i).ix then t.ix else s.ix := by rfl
  iy : t.iy = bif (registersWritten i).iy then t.iy else s.iy := by rfl
  sp : t.sp = bif (registersWritten i).sp then t.sp else s.sp := by rfl
  runState : t.runState = bif changesRunState i then t.runState else s.runState := by rfl
  iDelay : t.iDelay = bif changesDelay i then t.iDelay else s.iDelay := by rfl
  spWritten : t.spWritten = bif writesSp i then true else s.spWritten := by rfl

/-- The outcome is one the accesses of the instruction and its tables allow. -/
structure Meets (i : Instr) (s : State) (o : StepOutcome) : Prop where
  next : ∀ t, o = .next t →
    Allowed s.cfg (accesses i s) ∧ Leaves i s (afterAccesses (accesses i s) s).outside t
  refused : ∀ r, o = .refused r → ∃ x ∈ accesses i s, x.refusal s.cfg = some r
  fault : ∀ f, o = .fault f → i = .test ∧ s.cfg.illegalOpcode = .fault

/-! ### The shared forms of a meaning -/

section Forms

variable {i : Instr} {s : State} {pc : Word}

theorem meets_of_allowed {t : State} (hl : Allowed s.cfg (accesses i s))
    (h : Leaves i s (afterAccesses (accesses i s) s).outside t) : Meets i s (.next t) :=
  ⟨fun _ e => Host.Outcome.next.inj e ▸ ⟨hl, h⟩, nofun, nofun⟩

theorem meets_of_refused {x : Access} {r : Refusal} (hx : x ∈ accesses i s) (hr : x.refusal s.cfg = some r) :
    Meets i s (.refused r) :=
  ⟨fun _ e => (nomatch e), fun _ e => Host.Outcome.refused.inj e ▸ ⟨x, hx, hr⟩,
    fun _ e => (nomatch e)⟩

/-- An instruction without accesses completes. -/
theorem meets_next {t : State} (ha : accesses i s = []) (h : Leaves i s s.outside t) : Meets i s (.next t) :=
  meets_of_allowed (by simp [Allowed, ha]) (by rw [ha]; exact h)

theorem meets_finish {l : List Access} {x : Except Refusal State} {t : State} (ha : accesses i s = l)
    (hx : Makes s.cfg l x t) (h : Leaves i s (afterAccesses l s).outside t) : Meets i s (finish x) := by
  subst ha
  obtain ⟨hl, rfl⟩ | ⟨y, hy, r, hr, rfl⟩ := hx
  · rw [finish_ok]
    exact meets_of_allowed hl h
  · exact meets_of_refused hy hr

theorem meets_complete {l : List Access} {x : Except Refusal State} {t : State} (ha : accesses i s = l)
    (hx : Makes s.cfg l x t) (h : Leaves i s (afterAccesses l s).outside { t with pc := pc }) :
    Meets i s (complete pc x) := by
  subst ha
  obtain ⟨hl, rfl⟩ | ⟨y, hy, r, hr, rfl⟩ := hx
  · rw [complete_ok]
    exact meets_of_allowed hl h
  · exact meets_of_refused hy hr

/-- Read an 8-bit operand, then write registers and flags (20_memory.md R65 a). -/
theorem meets_operand8 {m : Operand8} {f : Byte → State → State}
    (ha : accesses i s = readsOf (operandAddress8 m s).toList ++ [])
    (h : ∀ v o, Leaves i s o { f v (s.withOutside o) with pc := pc }) :
    Meets i s (complete pc (withOperand8 m f s)) := by
  refine meets_complete (ha.trans (List.append_nil _)) (withOperand8_makes m f s) ?_
  have left := h (value8 m s) (afterAccesses (readsOf (operandAddress8 m s).toList) s).outside
  rw [← afterAccesses_eq_withOutside] at left
  rwa [after8_eq]

/-- Read a 16-bit operand, then write registers and flags (20_memory.md R65 a). -/
theorem meets_operand16 {m : Operand16} {f : Word → State → State}
    (ha : accesses i s = readsOf ((operandAddress16 m s).toList.flatMap wordAddresses) ++ [])
    (h : ∀ v o, Leaves i s o { f v (s.withOutside o) with pc := pc }) :
    Meets i s (complete pc (withOperand16 m f s)) := by
  refine meets_complete (ha.trans (List.append_nil _)) (withOperand16_makes m f s) ?_
  have left := h (value16 m s)
    (afterAccesses (readsOf ((operandAddress16 m s).toList.flatMap wordAddresses)) s).outside
  rw [← afterAccesses_eq_withOutside] at left
  rwa [after16_eq]

/-- Read a byte, write it back and write flags (20_memory.md R65 c, d). -/
theorem meets_modify {a : Word} {f : Byte → Ccr → Byte × Ccr}
    (ha : accesses i s = [.read a, .write a (f (peek a s) s.ccr).1])
    (h : ∀ v o, Leaves i s o { s.withOutside o with ccr := (f v s.ccr).2, pc := pc }) :
    Meets i s (complete pc (modifyByte a f s)) := by
  refine meets_complete ha (modifyByte_makes a f s) ?_
  have left := h (peek a s) (afterAccesses [.read a, .write a (f (peek a s) s.ccr).1] s).outside
  rwa [← afterAccesses_eq_withOutside] at left

/-- Store a byte and write flags (20_memory.md R65 b). -/
theorem meets_storeByte {a : Word} {v : Byte} {f : Ccr} (ha : accesses i s = [.write a v])
    (h : ∀ o, Leaves i s o { s.withOutside o with ccr := f, pc := pc }) :
    Meets i s (complete pc (storeByte a v f s)) := by
  refine meets_complete ha (storeByte_makes a v f s) ?_
  have left := h (poke a v s).outside
  rwa [← poke_eq_withOutside] at left

/-- Store a word and write flags (20_memory.md R65 b). -/
theorem meets_storeWord {a v : Word} {f : Ccr} (ha : accesses i s = writesOf (wordCells a v))
    (h : ∀ o, Leaves i s o { s.withOutside o with ccr := f, pc := pc }) :
    Meets i s (complete pc (storeWord a v f s)) := by
  refine meets_complete ha (storeWord_makes a v f s) ?_
  have left := h (afterAccesses (writesOf (wordCells a v)) s).outside
  rwa [← afterAccesses_eq_withOutside] at left

/-- Push bytes, then perhaps go on with the registers (10_state.md R25). -/
theorem meets_push {l : List Byte} {x : Except Refusal State} {f : State → State}
    (ha : accesses i s = writesOf (pushedCells l s.sp))
    (hx : Makes s.cfg (writesOf (pushedCells l s.sp)) x (f (pushed l s)))
    (h : ∀ o sp, Leaves i s o { f { s.withOutside o with sp := sp } with pc := pc }) :
    Meets i s (complete pc x) := by
  refine meets_complete ha hx ?_
  have left := h (afterAccesses (writesOf (pushedCells l s.sp)) s).outside (s.sp - BitVec.ofNat 16 l.length)
  rwa [← afterAccesses_eq_withOutside, ← pushed_eq] at left

/-- Pull bytes, then write registers (10_state.md R25). -/
theorem meets_pull {n : Nat} {x : Except Refusal State} {f : State → State}
    (ha : accesses i s = readsOf (pullAddresses n s.sp))
    (hx : Makes s.cfg (readsOf (pullAddresses n s.sp)) x (f (pulled n s)))
    (h : ∀ o sp, Leaves i s o { f { s.withOutside o with sp := sp } with pc := pc }) :
    Meets i s (complete pc x) := by
  refine meets_complete ha hx ?_
  have left := h (afterAccesses (readsOf (pullAddresses n s.sp)) s).outside (s.sp + BitVec.ofNat 16 n)
  rwa [← afterAccesses_eq_withOutside, ← pulled_eq] at left

/-- Pull bytes, then write registers and PC (43_branch_jump.md R255, 46_system.md R312). -/
theorem meets_return {n : Nat} {x : Except Refusal State} {f : State → State}
    (ha : accesses i s = readsOf (pullAddresses n s.sp))
    (hx : Makes s.cfg (readsOf (pullAddresses n s.sp)) x (f (pulled n s)))
    (h : ∀ o sp, Leaves i s o (f { s.withOutside o with sp := sp })) : Meets i s (finish x) := by
  refine meets_finish ha hx ?_
  have left := h (afterAccesses (readsOf (pullAddresses n s.sp)) s).outside (s.sp + BitVec.ofNat 16 n)
  rwa [← afterAccesses_eq_withOutside, ← pulled_eq] at left

/-- Take a trap: push the frame and read the vector (60_exceptions.md R410). -/
theorem meets_enter {name : TrapName} {ret : Word}
    (ha : accesses i s = enterAccesses name ret s)
    (h : ∀ o sp pc, Leaves i s o
      { s.withOutside o with sp := sp, pc := pc, ccr := maskFor name s.ccr, iDelay := false }) :
    Meets i s (finish (enter name ret s)) := by
  refine meets_finish ha (enter_makes name ret s) ?_
  obtain ⟨pc, e⟩ := entered_eq name ret s
  rw [e]
  exact h _ _ _

/-- Read one byte, then write flags or PC (41_logic_compare.md R191, 43_branch_jump.md R247). -/
theorem meets_readByte {a : Word} {x : Except Refusal State} {f : Byte → State → State}
    (ha : accesses i s = [.read a]) (hx : x = readByte a s >>= fun p => .ok (f p.1 p.2))
    (h : ∀ v o, Leaves i s o (f v (s.withOutside o))) : Meets i s (finish x) := by
  subst hx
  refine meets_finish ha ((readByte_makes a s).map fun p => f p.1 p.2) ?_
  have left := h (peek a s) (touch a s).outside
  rwa [← touch_eq_withOutside] at left

end Forms

end Sys2Proof.Machine
end

section
/-!
PROOF. The line of the table of effects of every operation over flags, and `exec_meets`: every instruction makes the
accesses of its list and leaves what its line says (10_state.md R34, 40_arithmetic.md to 46_system.md).
-/

namespace Sys2Proof.Machine

/-- Bit 7 of a byte shifted right is 0. -/
theorem lsr8_n (v : Byte) (f : Ccr) : (lsr8 v f).2.n = false := by
  simp [lsr8, shifted8, nz8]

theorem lsr16_n (v : Word) (f : Ccr) : (lsr16 v f).2.n = false := by
  simp [lsr16, shifted16, nz16]

theorem lsr8_pick (v : Byte) (f : Ccr) : (lsr8 v f).2 = CcrEffect.shiftRight.pick f (lsr8 v f).2 :=
  calc (lsr8 v f).2 = { (lsr8 v f).2 with n := false } := by rw [← lsr8_n v f]
    _ = CcrEffect.shiftRight.pick f (lsr8 v f).2 := rfl

theorem lsr16_pick (v : Word) (f : Ccr) : (lsr16 v f).2 = CcrEffect.shiftRight.pick f (lsr16 v f).2 :=
  calc (lsr16 v f).2 = { (lsr16 v f).2 with n := false } := by rw [← lsr16_n v f]
    _ = CcrEffect.shiftRight.pick f (lsr16 v f).2 := rfl

/-- A load of the condition codes can only clear X (44_bit_ccr.md R269). -/
theorem load_pick (v : Byte) (f : Ccr) : f.load v = CcrEffect.load.pick f (f.load v) := by
  have x : (f.load v).x = (f.x && (f.load v).x) := by simp [Ccr.load]
  calc f.load v = { f.load v with x := (f.x && (f.load v).x) } := by rw [← x]
    _ = CcrEffect.load.pick f (f.load v) := rfl

/-- SWI and TEST set I alone: X is set by the trap of XIRQ only (60_exceptions.md R402). -/
theorem maskFor_pick {name : TrapName} (h : name ≠ .xirq) (f : Ccr) :
    maskFor name f = CcrEffect.setI.pick f (maskFor name f) := by
  simp [maskFor, h, CcrEffect.pick, CcrEffect.setI, FlagEffect.pick]

theorem meets_tst (ea : EaExt) (s : State) : Meets (.tst ea) s (exec (.tst ea) s) := by
  have form : exec (.tst ea) s = finish (readByte (addressExt ea s) s >>= fun p =>
      .ok { p.2 with ccr := tst8 p.1 s.ccr, pc := next (.tst ea) s }) := by
    show complete _ (readByte (addressExt ea s) s >>= _) = _
    cases readByte (addressExt ea s) s <;> rfl
  rw [form]
  exact meets_readByte (f := fun v u => { u with ccr := tst8 v s.ccr, pc := next (.tst ea) s }) rfl rfl fun _ _ => {}

theorem meets_brclr (ea : EaBit) (mm rr : Byte) (s : State) :
    Meets (.brclr ea mm rr) s (exec (.brclr ea mm rr) s) :=
  meets_readByte (f := fun v u => branchIf (decide (v &&& mm = 0)) (next (.brclr ea mm rr) s) rr u) rfl rfl
    fun _ _ => {}

theorem meets_brset (ea : EaBit) (mm rr : Byte) (s : State) :
    Meets (.brset ea mm rr) s (exec (.brset ea mm rr) s) :=
  meets_readByte (f := fun v u => branchIf (decide (~~~v &&& mm = 0)) (next (.brset ea mm rr) s) rr u) rfl rfl
    fun _ _ => {}

theorem meets_rti (s : State) : Meets .rti s (exec .rti s) :=
  meets_return (f := fun u =>
      { u with
        ccr := s.ccr.load (pulledByte 0 s), b := pulledByte 1 s, a := pulledByte 2 s
        ix := joinBytes (pulledByte 3 s) (pulledByte 4 s), iy := joinBytes (pulledByte 5 s) (pulledByte 6 s)
        pc := joinBytes (pulledByte 7 s) (pulledByte 8 s) })
    rfl (returnFromTrap_makes s) fun _ _ => { ccr := load_pick _ _ }

theorem meets_wai (s : State) : Meets .wai s (exec .wai s) :=
  meets_push (f := fun u => { u with runState := .wait }) rfl ((pushFrame_makes _ s).map _) fun _ _ => {}

theorem meets_stop (s : State) : Meets .stop s (exec .stop s) := by
  show Meets .stop s (execStop s)
  unfold execStop
  split <;> exact meets_next rfl {}

theorem meets_test (s : State) : Meets .test s (exec .test s) := by
  show Meets .test s (illegalOpcode s)
  unfold illegalOpcode
  split
  next => exact meets_enter rfl fun _ _ _ => { ccr := maskFor_pick (by decide) _ }
  next h => exact ⟨fun _ e => (nomatch e), fun _ e => (nomatch e), fun _ _ => ⟨rfl, h⟩⟩

theorem meets_swi (s : State) : Meets .swi s (exec .swi s) :=
  meets_enter rfl fun _ _ _ => { ccr := maskFor_pick (by decide) _ }

theorem exec_meets (i : Instr) (s : State) : Meets i s (exec i s) := by
  cases i
  case adca m | adcb m | adda m | addb m | anda m | andb m | bita m | bitb m | cmpa m | cmpb m | eora m | eorb m
      | ldaa m | ldab m | oraa m | orab m | sbca m | sbcb m | suba m | subb m =>
    exact meets_operand8 rfl fun _ _ => {}
  case addd m | cpd m | cpx m | cpy m | ldd m | lds m | ldx m | ldy m | subd m =>
    exact meets_operand16 rfl fun _ _ => {}
  case asl ea | asr ea | com ea | dec ea | inc ea | lsl ea | neg ea | rol ea | ror ea | clr ea =>
    exact meets_modify rfl fun _ _ => {}
  case bclr ea mm | bset ea mm => exact meets_modify rfl fun _ _ => {}
  case lsr ea => exact meets_modify rfl fun _ _ => { ccr := lsr8_pick _ _ }
  case staa ea | stab ea => exact meets_storeByte rfl fun _ => {}
  case std ea | sts ea | stx ea | sty ea => exact meets_storeWord rfl fun _ => {}
  case tst ea => exact meets_tst ea s
  case brclr ea mm rr => exact meets_brclr ea mm rr s
  case brset ea mm rr => exact meets_brset ea mm rr s
  case bsr rr => exact meets_push (f := id) rfl (push16_makes _ s) fun _ _ => {}
  case jsr ea => exact meets_push (f := id) rfl (push16_makes _ s) fun _ _ => {}
  case pshx | pshy => exact meets_push (f := id) rfl (push16_makes _ s) fun _ _ => {}
  case psha | pshb => exact meets_push (f := id) rfl (push8_makes _ s) fun _ _ => {}
  case pula =>
    exact meets_pull (f := fun u => { u with a := pulledByte 0 s }) rfl ((pull8_makes s).map _) fun _ _ => {}
  case pulb =>
    exact meets_pull (f := fun u => { u with b := pulledByte 0 s }) rfl ((pull8_makes s).map _) fun _ _ => {}
  case pulx =>
    exact meets_pull (f := fun u => { u with ix := joinBytes (pulledByte 0 s) (pulledByte 1 s) }) rfl
      ((pull16_makes s).map _) fun _ _ => {}
  case puly =>
    exact meets_pull (f := fun u => { u with iy := joinBytes (pulledByte 0 s) (pulledByte 1 s) }) rfl
      ((pull16_makes s).map _) fun _ _ => {}
  case rts =>
    exact meets_return (f := fun u => { u with pc := joinBytes (pulledByte 0 s) (pulledByte 1 s) }) rfl
      ((pull16_makes s).map _) fun _ _ => {}
  case rti => exact meets_rti s
  case wai => exact meets_wai s
  case swi => exact meets_swi s
  case stop => exact meets_stop s
  case test => exact meets_test s
  case lsra | lsrb => exact meets_next rfl { ccr := lsr8_pick _ _ }
  case lsrd => exact meets_next rfl { ccr := lsr16_pick _ _ }
  case tap => exact meets_next rfl { ccr := load_pick _ _ }
  all_goals exact meets_next rfl {}

end Sys2Proof.Machine
end

section
/-!
PROOF. The frames of every instruction, read off from `exec_meets`: flags (10_state.md R34), registers (files 40 to 46),
memory (20_memory.md R65) and the stops (20_memory.md R70, 10_state.md R43).
-/

namespace Sys2Proof.Machine

theorem exec_allowed {i : Instr} {s t : State} (h : exec i s = .next t) : Allowed s.cfg (accesses i s) :=
  ((exec_meets i s).next t h).1

theorem exec_leaves {i : Instr} {s t : State} (h : exec i s = .next t) :
    Leaves i s (afterAccesses (accesses i s) s).outside t :=
  ((exec_meets i s).next t h).2

/-- Settles O12: the condition codes after are those the line of the table picks. -/
theorem flagsFrameOfEveryInstruction : Obligations.FlagsFrameOfEveryInstruction :=
  fun _ _ _ h => CcrEffect.holds_of_pick (exec_leaves h).ccr

/-- A choice that is not the value after is the value before. -/
theorem eq_of_kept {α : Type} {written : Bool} {before after : α} (h : after = bif written then after else before)
    (kept : written = false) : after = before := by
  subst kept
  exact h

/-- Settles O13: each register not listed is the one of before. -/
theorem registersFrameOfEveryInstruction : Obligations.RegistersFrameOfEveryInstruction := by
  intro i s t h
  have left := exec_leaves h
  exact ⟨eq_of_kept left.a, eq_of_kept left.b, eq_of_kept left.ix, eq_of_kept left.iy, eq_of_kept left.sp⟩

/-! ### Memory -/

/-- Accesses change no byte but those they write. -/
theorem afterAccesses_get {l : List Access} {s : State} {a : Word} (h : ∀ v, Access.write a v ∉ l) :
    (afterAccesses l s).mem.get a.toNat = s.mem.get a.toNat := by
  induction l generalizing s with
  | nil => rfl
  | cons x l ih =>
    have tail := ih (s := x.after s) fun v hv => h v (List.mem_cons_of_mem x hv)
    refine tail.trans ?_
    cases x with
    | read b => rw [Access.after, touch_mem]
    | write b v =>
      refine poke_mem_get_ne v s fun e => h v ?_
      rw [BitVec.eq_of_toNat_eq e]
      exact List.mem_cons_self

/-- Accesses initialise the RAM they write, and no other address (60_exceptions.md R418). -/
theorem afterAccesses_initialised {l : List Access} {s : State} {a : Word} :
    (afterAccesses l s).initialised a = true ↔
      s.initialised a = true ∨ ((∃ v, Access.write a v ∈ l) ∧ kindOf s.cfg a = .ram) := by
  induction l generalizing s with
  | nil => simp [afterAccesses]
  | cons x l ih =>
    rw [afterAccesses, ih]
    cases x with
    | read b =>
      have same : (touch b s).initialised = s.initialised := initialised_congr (touch_cfg b s) (touch_written b s)
      simp [Access.after, same]
    | write b v =>
      simp only [Access.after, poke_initialised, poke_cfg, Bool.or_eq_true, decide_eq_true_eq, List.mem_cons,
        Access.write.injEq, exists_or]
      constructor
      · rintro ((h | ⟨rfl, h⟩) | ⟨h, hk⟩)
        · exact .inl h
        · exact .inr ⟨.inl ⟨v, rfl, rfl⟩, h⟩
        · exact .inr ⟨.inr h, hk⟩
      · rintro (h | ⟨⟨_, rfl, -⟩ | h, hk⟩)
        · exact .inl (.inl h)
        · exact .inl (.inr ⟨rfl, hk⟩)
        · exact .inr ⟨h, hk⟩

theorem mem_storedAddresses {i : Instr} {s : State} {a : Word} :
    a ∈ storedAddresses i s ↔ ∃ v, Access.write a v ∈ accesses i s := by
  simp [storedAddresses, mem_accesses]

/-- Settles O14: memory and its record are what the accesses of the instruction leave. -/
theorem memoryFrameOfEveryInstruction : Obligations.MemoryFrameOfEveryInstruction := by
  intro i s t a h
  have left := exec_leaves h
  have record : t.initialised = (afterAccesses (accesses i s) s).initialised :=
    initialised_congr (left.cfg.trans (afterAccesses_cfg _ s).symm) left.written
  refine ⟨fun ha => ?_, ?_⟩
  · rw [left.mem]
    exact afterAccesses_get fun v hv => ha (mem_storedAddresses.mpr ⟨v, hv⟩)
  · rw [record, afterAccesses_initialised, mem_storedAddresses]

/-! ### Stops -/

/-- The address is an offset of the device block without a rule (93 U10). -/
def NoRegister (cfg : Config) (a : Word) : Prop := kindOf cfg a = .device ∧ deviceReg (blockOffset cfg a) = none

/-- The write sets TCLR or RCKB of BAUD (10_state.md R43, 93 U17). -/
def SetsTestBits (cfg : Config) (a : Word) (v : Byte) : Prop :=
  kindOf cfg a = .device ∧ deviceReg (blockOffset cfg a) = some .baud ∧ (v.getLsbD 7 = true ∨ v.getLsbD 3 = true)

theorem readRefusal_eq_some {cfg : Config} {a : Word} {r : Refusal} :
    readRefusal cfg a = some r ↔ r = .deviceOffset ∧ NoRegister cfg a := by
  unfold readRefusal NoRegister
  split <;> simp_all [eq_comm]

theorem refusedWrite_iff {r : DeviceReg} {v : Byte} :
    refusedWrite r v = true ↔ r = .baud ∧ (v.getLsbD 7 = true ∨ v.getLsbD 3 = true) := by
  cases r <;> simp [refusedWrite]

theorem writeRefusal_eq_some {cfg : Config} {a : Word} {v : Byte} {r : Refusal} :
    writeRefusal cfg a v = some r ↔
      (r = .deviceOffset ∧ NoRegister cfg a) ∨ (r = .baudTestBits ∧ SetsTestBits cfg a v) := by
  unfold writeRefusal NoRegister SetsTestBits
  split
  next hk hr => simp [hk, hr, eq_comm (a := Refusal.deviceOffset)]
  next reg hk hr =>
    rw [hk, hr]
    by_cases refused : refusedWrite reg v = true
    · obtain ⟨rfl, bits⟩ := refusedWrite_iff.mp refused
      simpa [refused, eq_comm (a := Refusal.baudTestBits)] using fun _ : r = .baudTestBits => bits
    · have := mt refusedWrite_iff.mpr refused
      simp_all
  next noNone noSome =>
    have hk : kindOf cfg a ≠ .device := fun hk => by
      cases hr : deviceReg (blockOffset cfg a) with
      | none => exact noNone hk hr
      | some reg => exact noSome reg hk hr
    simp [hk]

/-- Why an access of an instruction is refused. -/
theorem refusal_of_mem_accesses {i : Instr} {s : State} {r : Refusal} :
    (∃ x ∈ accesses i s, x.refusal s.cfg = some r) ↔
      (r = .deviceOffset ∧ reachesNoRegister i s) ∨ (r = .baudTestBits ∧ writesTestBits i s) := by
  simp only [reachesNoRegister, writesTestBits, mem_accesses, storedAddresses, List.mem_append, List.mem_map]
  constructor
  · rintro ⟨x, ⟨a, ha, rfl⟩ | ⟨c, hc, rfl⟩, hr⟩
    · obtain ⟨rfl, no⟩ := readRefusal_eq_some.mp hr
      exact .inl ⟨rfl, a, .inl ha, no⟩
    · obtain ⟨rfl, no⟩ | ⟨rfl, bits⟩ := writeRefusal_eq_some.mp hr
      · exact .inl ⟨rfl, c.1, .inr ⟨c, hc, rfl⟩, no⟩
      · exact .inr ⟨rfl, c, hc, bits⟩
  · rintro (⟨rfl, a, ha | ⟨c, hc, rfl⟩, no⟩ | ⟨rfl, c, hc, bits⟩)
    · exact ⟨_, .inl ⟨a, ha, rfl⟩, readRefusal_eq_some.mpr ⟨rfl, no⟩⟩
    · exact ⟨_, .inr ⟨c, hc, rfl⟩, writeRefusal_eq_some.mpr (.inl ⟨rfl, no⟩)⟩
    · exact ⟨_, .inr ⟨c, hc, rfl⟩, writeRefusal_eq_some.mpr (.inr ⟨rfl, bits⟩)⟩

/-- Settles O17: a refusal is that of an access, and a refused access lets the instruction neither complete nor, outside
TEST, fault. -/
theorem stopsAreUnspecifiedDeviceAccesses : Obligations.StopsAreUnspecifiedDeviceAccesses := by
  intro i s
  have meets := exec_meets i s
  refine ⟨fun r hr => refusal_of_mem_accesses.mp (meets.refused r hr), meets.fault, fun stop trap => ?_⟩
  have refused : ∃ r, ∃ x ∈ accesses i s, x.refusal s.cfg = some r :=
    stop.elim (fun h => ⟨_, refusal_of_mem_accesses.mpr (.inl ⟨rfl, h⟩)⟩)
      fun h => ⟨_, refusal_of_mem_accesses.mpr (.inr ⟨rfl, h⟩)⟩
  cases h : exec i s with
  | next t =>
    obtain ⟨r, x, hx, hr⟩ := refused
    exact absurd ((exec_allowed h x hx).symm.trans hr) nofun
  | fault f =>
    obtain ⟨rfl, hf⟩ := meets.fault f h
    exact absurd ((trap rfl).symm.trans hf) nofun
  | refused r => exact ⟨r, rfl⟩

end Sys2Proof.Machine
end

section
/-!
PROOF. What one step can do, said once (00_scope.md R15, 60_exceptions.md R406, R421, R422), and from it the invariant
of every step (10_state.md R35 to R48).
-/

namespace Sys2Proof.Machine

/-! ### One step -/

/-- What the CPU's turn can make of a state (60_exceptions.md R406, R421, R422). -/
inductive CpuMove (s : State) : State → Prop
  /-- The reset pin is asserted. -/
  | reset {t : State} (pin : s.pins.reset = true) (h : resetMachine s = .ok t) : CpuMove s t
  /-- A trap is taken, from STOP once the CPU runs again. -/
  | trap {name : TrapName} {awake : State} (stack : stepUsesStack { s with turns := [] } = true)
      (wakes : awake = s ∨ awake = { s with runState := .run }) (pin : name = .xirq → s.pins.xirq = true)
      (h : canEnter name s.pc awake = true) : CpuMove s (entered name s.pc awake)
  /-- The instruction at PC is executed. -/
  | instr {i : Instr} {rest : List Byte} {t : State} (quiet : recognised s = none) (run : s.runState = .run)
      (code : decode (fetchWindow s) = .instr i rest) (h : exec i s = .next t) :
      CpuMove s { t with iDelay := !s.iDelay && t.iDelay }
  /-- A request ends a wait. -/
  | resume {name : TrapName} (pin : name = .xirq → s.pins.xirq = true)
      (h : canReadWord s.cfg (vectorOf s.cfg name) = true) : CpuMove s (resumed name s)
  /-- A masked XIRQ ends STOP. -/
  | wake : CpuMove s { s with runState := .run }
  /-- The wait or the stop goes on. -/
  | idle : CpuMove s s

theorem maskableRequest_ne_xirq {s : State} {name : TrapName} (h : maskableRequest s = some name) : name ≠ .xirq := by
  unfold maskableRequest at h
  split_ifs at h <;> simp_all <;> subst h <;> simp

/-- XIRQ is recognised only while its pin is asserted. -/
theorem xirq_of_recognised {s : State} (h : recognised s = some .xirq) : s.pins.xirq = true := by
  unfold recognised at h
  split_ifs at h with xirq
  · simp_all
  · exact absurd rfl (maskableRequest_ne_xirq h)

theorem xirq_of_awakens {s : State} (h : awakens s = some .xirq) : s.pins.xirq = true := by
  unfold awakens at h
  split_ifs at h with xirq
  · simp_all
  · exact absurd rfl (maskableRequest_ne_xirq h)

theorem finish_enter_eq_next {name : TrapName} {ret : Word} {s t : State} :
    finish (enter name ret s) = .next t ↔ canEnter name ret s = true ∧ t = entered name ret s :=
  finish_eq_next.trans enter_eq_ok

/-- A recognised interrupt is stacked (70_reset_and_hazards.md R465). -/
theorem stepUsesStack_of_recognised {s : State} {name : TrapName} (turn : s.turns = []) (run : s.runState = .run)
    (pin : ¬s.pins.reset = true) (h : recognised s = some name) : stepUsesStack s = true := by
  simp [stepUsesStack, cpuMoves, turn, run, pin, h]

/-- An illegal encoding that traps is stacked (70_reset_and_hazards.md R465). -/
theorem stepUsesStack_of_illegal {s : State} (turn : s.turns = []) (run : s.runState = .run)
    (pin : ¬s.pins.reset = true) (quiet : recognised s = none) (code : decode (fetchWindow s) = .illegal)
    (trap : s.cfg.illegalOpcode = .trap) : stepUsesStack s = true := by
  simp [stepUsesStack, cpuMoves, turn, run, pin, quiet, code, trap]

theorem runStep_move {s t : State} (run : s.runState = .run) (h : runStep s = .next t) : CpuMove s t := by
  unfold runStep at h
  split at h
  next pin => exact .reset pin (finish_eq_next.mp h)
  next pin =>
    split at h
    next name hname =>
      obtain ⟨can, rfl⟩ := finish_enter_eq_next.mp h
      exact .trap (stepUsesStack_of_recognised rfl run pin hname) (.inl rfl)
        (fun e => xirq_of_recognised (e ▸ hname)) can
    next quiet =>
      unfold execute at h
      split at h
      next i rest code =>
        cases he : exec i s with
        | next u =>
          rw [he, settle_next] at h
          cases h
          exact .instr quiet run code he
        | fault f => rw [he] at h; cases h
        | refused r => rw [he] at h; cases h
      next code =>
        unfold illegalOpcode at h
        split at h
        next trap =>
          cases he : finish (enter .illop s.pc s) with
          | next u =>
            obtain ⟨can, rfl⟩ := finish_enter_eq_next.mp he
            rw [he, settle_next] at h
            have delay : { entered .illop s.pc s with
                iDelay := !s.iDelay && (entered .illop s.pc s).iDelay } = entered .illop s.pc s := by
              simp [entered]
            rw [delay] at h
            cases h
            exact .trap (stepUsesStack_of_illegal rfl run pin quiet code trap) (.inl rfl) nofun can
          | fault f => rw [he] at h; cases h
          | refused r => rw [he] at h; cases h
        next => cases h
      next => cases h

theorem waitStep_move {s t : State} (h : waitStep s = .next t) : CpuMove s t := by
  unfold waitStep at h
  split at h
  next pin => exact .reset pin (finish_eq_next.mp h)
  next =>
    split at h
    next name hname =>
      obtain ⟨can, rfl⟩ := resume_eq_ok.mp (finish_eq_next.mp h)
      exact .resume (fun e => xirq_of_awakens (e ▸ hname)) can
    next =>
      cases h
      exact .idle

theorem stopStep_move {s t : State} (stop : s.runState = .stop) (h : stopStep s = .next t) : CpuMove s t := by
  unfold stopStep at h
  split_ifs at h with pin open_ masked irq
  · exact .reset pin (finish_eq_next.mp h)
  · obtain ⟨can, rfl⟩ := finish_enter_eq_next.mp h
    simp only [Bool.and_eq_true] at open_
    refine .trap ?_ (.inr rfl) (fun _ => open_.1) can
    simp [stepUsesStack, cpuMoves, stop, pin, open_]
  · cases h
    exact .wake
  · obtain ⟨can, rfl⟩ := finish_enter_eq_next.mp h
    simp only [Bool.and_eq_true] at irq
    refine .trap ?_ (.inr rfl) nofun can
    simp [stepUsesStack, cpuMoves, stop, pin, masked, irq]
  · cases h
    exact .idle

theorem cpuStep_move {s t : State} (h : cpuStep s = .next t) : CpuMove s t := by
  unfold cpuStep at h
  split at h
  next run => exact runStep_move run h
  next => exact waitStep_move h
  next stop => exact stopStep_move stop h

/-- Everything a step can answer: the move of another agent, or the CPU's (00_scope.md R15). -/
theorem step_cases {s t : State} (h : step s = .next t) :
    (∃ x ts, s.turns = x :: ts ∧ x ≠ .cpu ∧ t = agentStep x { s with turns := ts })
      ∨ ∃ u, CpuTurn s u ∧ CpuMove u t := by
  unfold step at h
  split at h
  next ht => exact .inr ⟨s, .inl ⟨ht, rfl⟩, cpuStep_move h⟩
  next ts ht => exact .inr ⟨_, .inr ⟨ts, ht, rfl⟩, cpuStep_move h⟩
  next x ts notCpu ht =>
    cases h
    exact .inl ⟨x, ts, ht, notCpu, rfl⟩

/-- The CPU's turn is taken from the list and changes nothing else. -/
theorem CpuTurn.eq {s u : State} (h : CpuTurn s u) : u = { s with turns := u.turns } := by
  obtain ⟨-, rfl⟩ | ⟨ts, -, rfl⟩ := h <;> rfl

/-- Whether the CPU's step uses the stack does not depend on the turns after it. -/
theorem CpuTurn.stepUsesStack_eq {s u : State} (h : CpuTurn s u) :
    stepUsesStack { u with turns := [] } = stepUsesStack s := by
  have moves : cpuMoves s = true := by
    obtain ⟨ht, -⟩ | ⟨ts, ht, -⟩ := h <;> simp [cpuMoves, ht]
  rw [stepUsesStack, stepUsesStack, moves, h.eq]
  rfl

/-! ### The invariant -/

theorem afterAccesses_inv {l : List Access} {s : State} (ok : Allowed s.cfg l) (h : s.Inv) :
    (afterAccesses l s).Inv := by
  induction l generalizing s with
  | nil => exact h
  | cons x l ih =>
    have okx : x.refusal s.cfg = none := ok x List.mem_cons_self
    have okl : Allowed s.cfg l := fun y hy => ok y (List.mem_cons_of_mem x hy)
    cases x with
    | read a => exact ih (by rwa [Access.after, touch_cfg]) (touch_inv h)
    | write a v => exact ih (by rwa [Access.after, poke_cfg]) (poke_inv (canWrite_iff.mpr okx) h)

/-- An instruction keeps the invariant: none of its accesses is refused, and it leaves what they leave. -/
theorem exec_inv {i : Instr} {s t : State} (inv : s.Inv) (h : exec i s = .next t) : t.Inv := by
  have left := exec_leaves h
  exact (afterAccesses_inv (exec_allowed h) inv).congr (left.cfg.trans (afterAccesses_cfg _ s).symm) left.mem
    left.written left.adc left.sci left.spi left.portD

theorem touchWord_inv {a : Word} {s : State} (inv : s.Inv) : (touchWord a s).Inv := touch_inv (touch_inv inv)

/-- A trap that can be taken makes no refused access. -/
theorem enterAccesses_allowed {name : TrapName} {ret : Word} {s : State} (can : canEnter name ret s = true) :
    Allowed s.cfg (enterAccesses name ret s) := by
  obtain ⟨allowed, -⟩ | ⟨-, -, r, -, refused⟩ := enter_makes name ret s
  · exact allowed
  · exact absurd ((enter_eq can).symm.trans refused) nofun

theorem entered_inv {name : TrapName} {ret : Word} {s : State} (can : canEnter name ret s = true) (inv : s.Inv) :
    (entered name ret s).Inv := by
  obtain ⟨pc, e⟩ := entered_eq name ret s
  rw [e]
  exact (afterAccesses_inv (enterAccesses_allowed can) inv).congr (afterAccesses_cfg _ s).symm rfl rfl rfl rfl rfl rfl

theorem resumed_inv {name : TrapName} {s : State} (inv : s.Inv) : (resumed name s).Inv := by
  have masked : State.Inv { s with ccr := maskFor name s.ccr } := inv.congr rfl rfl rfl rfl rfl rfl rfl
  exact (touchWord_inv masked).congr rfl rfl rfl rfl rfl rfl rfl

/-- The state reset leaves before it reads its vector: the values of 70_reset_and_hazards.md R462, the rest drawn. -/
def afterReset (s : State) : State :=
  { s with
    a := freeByte (s.draws + 0), b := freeByte (s.draws + 1), ix := Config.freeWord (s.draws + 2)
    iy := Config.freeWord (s.draws + 3), sp := Config.freeWord (s.draws + 4), spWritten := false
    ccr := { s := true, x := true, h := freeBit (s.draws + 5), i := true, n := freeBit (s.draws + 6)
             z := freeBit (s.draws + 7), v := freeBit (s.draws + 8), c := freeBit (s.draws + 9) }
    iDelay := false, runState := .run
    adc := Adc.afterReset fun k => freeByte (s.draws + (10 + k))
    sci := s.sci.afterReset s.cfg.rwuReset fun k => freeByte (s.draws + (15 + k))
    spi := s.spi.afterReset fun k => freeByte (s.draws + (23 + k))
    portD := { data := freeByte (s.draws + 26), ddr := 0x00 }
    draws := s.draws + 27 }

/-- Everything reset can answer. -/
theorem resetMachine_eq_ok {s t : State} (h : resetMachine s = .ok t) :
    t = { touchWord (resetVector s.cfg) (afterReset s) with pc := peekWord (resetVector s.cfg) (afterReset s) } := by
  have form : resetMachine s = readWord (resetVector s.cfg) (afterReset s) >>= fun p => pure { p.2 with pc := p.1 } :=
    rfl
  rw [form] at h
  obtain ⟨⟨v, u⟩, hr, hp⟩ := bind_eq_ok.mp h
  obtain ⟨-, rfl, rfl⟩ := readWord_eq_ok.mp hr
  exact (pure_eq_ok.mp hp).symm

/-- The bits drawn as 0 are 0 after reset and every latch is clear (10_state.md R51). -/
theorem afterReset_inv {s : State} (inv : s.Inv) : (afterReset s).Inv := by
  rw [inv_iff] at inv ⊢
  refine ⟨inv.1, ⟨?_, disjoint_and_right (by decide)⟩,
    ⟨disjoint_and_right (by decide), disjoint_and_right (by decide), ?_, ?_⟩, ⟨?_, ?_⟩, ?_⟩
  · show (0x10 : Byte) &&& 0x04 = 0; decide
  · show (0xC0 : Byte) &&& 0x01 = 0; decide
  · show (0x00 : Byte) &&& ~~~0xC0 = 0; decide
  · show (0x00 : Byte) &&& 0x2F = 0; decide
  · show (0x00 : Byte) &&& ~~~0x00 = 0; decide
  · show (0x00 : Byte) &&& 0xC0 = 0; decide

theorem resetMachine_inv {s t : State} (inv : s.Inv) (h : resetMachine s = .ok t) : t.Inv := by
  rw [resetMachine_eq_ok h]
  exact (touchWord_inv (afterReset_inv inv)).congr rfl rfl rfl rfl rfl rfl rfl

/-- The CPU's turn keeps the invariant. -/
theorem CpuMove.inv {s t : State} (h : CpuMove s t) (inv : s.Inv) : t.Inv := by
  cases h with
  | reset pin h => exact resetMachine_inv inv h
  | trap stack wakes pin can =>
    obtain rfl | rfl := wakes
    · exact entered_inv can inv
    · exact entered_inv can (inv.congr rfl rfl rfl rfl rfl rfl rfl)
  | instr quiet run code h => exact (exec_inv inv h).congr rfl rfl rfl rfl rfl rfl rfl
  | resume pin can => exact resumed_inv inv
  | wake => exact inv.congr rfl rfl rfl rfl rfl rfl rfl
  | idle => exact inv

/-! ### The turns of the devices -/

theorem Adc.storeResult_inv {d : Adc} {v : Byte} (h : d.Inv) : (d.storeResult v).Inv := by
  unfold Adc.storeResult
  split <;> exact ⟨h.option, h.adctl⟩

theorem Adc.advance_inv {d : Adc} (h : d.Inv) : d.advance.Inv := by
  have full : (d.adctl ||| 0x80) &&& 0x40 = 0 := disjoint_or h.adctl (by decide)
  unfold Adc.advance
  split
  · exact ⟨h.option, h.adctl⟩
  · dsimp only
    split <;> exact ⟨h.option, full⟩

theorem adcConvert_inv {v : Byte} {s : State} (inv : s.Inv) : (adcConvert v s).Inv := by
  rw [inv_iff] at inv
  obtain ⟨mem, adc, rest⟩ := inv
  unfold adcConvert
  split_ifs
  · exact inv_iff.mpr ⟨mem, Adc.advance_inv (Adc.storeResult_inv adc), rest⟩
  · exact inv_iff.mpr ⟨mem, Adc.advance_inv (Adc.storeResult_inv adc), rest⟩
  · exact inv_iff.mpr ⟨mem, adc, rest⟩

/-- Setting flags of SCSR other than bit 0 keeps the SCI's part. -/
theorem Sci.Inv.raise {d : Sci} (h : d.Inv) {x : Byte} (hx : x &&& 0x01 = 0) :
    Sci.Inv { d with scsr := d.scsr ||| x } :=
  ⟨h.baud, h.sccr1, disjoint_or h.scsr hx, subset_or h.armed⟩

/-- The SCI's part speaks of BAUD, SCCR1, SCSR and the latches only. -/
theorem Sci.Inv.congr {d e : Sci} (h : d.Inv) (baud : e.baud = d.baud) (sccr1 : e.sccr1 = d.sccr1)
    (scsr : e.scsr = d.scsr) (armed : e.armed = d.armed) : e.Inv := by
  obtain ⟨h1, h2, h3, h4⟩ := h
  exact ⟨by rwa [baud], by rwa [sccr1], by rwa [scsr], by rwa [armed, scsr]⟩

theorem Sci.txLoad_inv {d : Sci} (h : d.Inv) : d.txLoad.Inv := by
  unfold Sci.txLoad
  split
  · exact (h.raise (x := 0x80) (by decide)).congr rfl rfl rfl rfl
  · exact h

theorem Sci.txLoadLoose_inv {d : Sci} (h : d.Inv) : d.txLoadLoose.Inv := by
  unfold Sci.txLoadLoose
  split
  · exact h.congr rfl rfl rfl rfl
  · exact h

theorem Sci.txDone_inv {d : Sci} (h : d.Inv) : d.txDone.Inv := by
  unfold Sci.txDone
  split
  · split
    · exact (h.raise (x := 0x40) (by decide)).congr rfl rfl rfl rfl
    · exact h.congr rfl rfl rfl rfl
  · exact h

theorem Sci.sendBreak_inv {d : Sci} (h : d.Inv) : d.sendBreak.Inv := by
  unfold Sci.sendBreak
  split
  · exact h.congr rfl rfl rfl rfl
  · exact h

theorem Sci.accept_inv {c : Byte} {b8 noisy badstop : Bool} {d : Sci} (h : d.Inv) :
    (d.accept c b8 noisy badstop).Inv := by
  have sccr1 : (if d.m then (d.sccr1 &&& 0x7F) ||| (if b8 then 0x80 else 0x00) else d.sccr1) &&& 0x27 = 0 := by
    split
    · exact disjoint_or (disjoint_and h.sccr1) (by cases b8 <;> decide)
    · exact h.sccr1
  have flags := ((h.raise (x := 0x20) (by decide)).raise (x := if noisy then 0x04 else 0x00)
    (by cases noisy <;> decide)).raise (x := if badstop then 0x02 else 0x00) (by cases badstop <;> decide)
  unfold Sci.accept
  split
  · exact h.raise (by decide)
  · exact ⟨h.baud, sccr1, flags.scsr, flags.armed⟩

theorem Sci.rxChar_inv {c : Byte} {b8 noisy badstop : Bool} {d : Sci} (h : d.Inv) :
    (d.rxChar c b8 noisy badstop).Inv := by
  unfold Sci.rxChar
  split
  · extract_lets d' msb
    split
    · split
      · exact Sci.accept_inv (h.congr rfl rfl rfl rfl)
      · exact h.congr rfl rfl rfl rfl
    · exact Sci.accept_inv (h.congr rfl rfl rfl rfl)
  · exact h

theorem Sci.rxIdle_inv {d : Sci} (h : d.Inv) : d.rxIdle.Inv := by
  unfold Sci.rxIdle
  split_ifs
  · exact h
  · exact h.congr rfl rfl rfl rfl
  · exact h
  · exact (h.raise (x := 0x10) (by decide)).congr rfl rfl rfl rfl
  · exact h

/-- Setting flags of SPSR that are not drawn as 0 keeps the SPI's part, and the other registers are not in it. -/
theorem Spi.Inv.raise {d e : Spi} (h : d.Inv) {x : Byte} (hx : x &&& 0x2F = 0) (spsr : e.spsr = d.spsr ||| x)
    (armed : e.armed = d.armed) : e.Inv :=
  ⟨by rw [spsr]; exact disjoint_or h.spsr hx, by rw [spsr, armed]; exact subset_or h.armed⟩

theorem spiMasterDone_inv {v : Byte} {s : State} (inv : s.Inv) : (spiMasterDone v s).Inv := by
  unfold spiMasterDone
  split
  · rw [inv_iff] at inv ⊢
    exact ⟨inv.1, inv.2.1, inv.2.2.1, inv.2.2.2.1.raise (x := 0x80) (by decide) rfl rfl, inv.2.2.2.2⟩
  · exact inv

theorem spiSlaveDone_inv {v : Byte} {s : State} (inv : s.Inv) : (spiSlaveDone v s).Inv := by
  unfold spiSlaveDone
  split
  · rw [inv_iff] at inv ⊢
    exact ⟨inv.1, inv.2.1, inv.2.2.1, inv.2.2.2.1.raise (x := 0x80) (by decide) rfl rfl, inv.2.2.2.2⟩
  · exact inv

theorem spiSlaveBegin_inv {s : State} (inv : s.Inv) : (spiSlaveBegin s).Inv := by
  unfold spiSlaveBegin
  split
  · exact ⟨inv.mem, inv.written, inv.listed, inv.option, inv.adctl, inv.baud, inv.sccr1, inv.scsr, inv.sciArmed,
      inv.spsr, inv.spiArmed, inv.ddr⟩
  · exact inv

theorem spiModeFault_inv {s : State} (inv : s.Inv) : (spiModeFault s).Inv := by
  unfold spiModeFault
  split
  · rw [inv_iff] at inv ⊢
    exact ⟨inv.1, inv.2.1, inv.2.2.1, inv.2.2.2.1.raise (x := 0x10) (by decide) rfl rfl, disjoint_and inv.2.2.2.2⟩
  · exact inv

/-- A new SCI that keeps its part keeps the invariant. -/
theorem State.Inv.withSci {s : State} (inv : s.Inv) {d : Sci} (h : s.sci.Inv → d.Inv) :
    State.Inv { s with sci := d } := by
  rw [inv_iff] at inv ⊢
  obtain ⟨mem, adc, sci, spi, ddr⟩ := inv
  exact ⟨mem, adc, h sci, spi, ddr⟩

theorem deviceStep_inv {x : Turn} {s : State} (inv : s.Inv) : (deviceStep x s).Inv := by
  cases x with
  | cpu => exact inv
  | pins p => exact inv
  | adcConvert v => exact adcConvert_inv inv
  | sciTxLoad => exact inv.withSci Sci.txLoad_inv
  | sciTxLoadLoose => exact inv.withSci Sci.txLoadLoose_inv
  | sciTxDone => exact inv.withSci Sci.txDone_inv
  | sciBreak => exact inv.withSci Sci.sendBreak_inv
  | sciRxChar c b8 noisy badstop => exact inv.withSci Sci.rxChar_inv
  | sciRxIdle => exact inv.withSci Sci.rxIdle_inv
  | spiMasterDone v => exact spiMasterDone_inv inv
  | spiSlaveBegin => exact spiSlaveBegin_inv inv
  | spiSlaveDone v => exact spiSlaveDone_inv inv
  | spiModeFault => exact spiModeFault_inv inv

theorem agentStep_inv {x : Turn} {s : State} (inv : s.Inv) : (agentStep x s).Inv := by
  unfold agentStep
  split
  · exact inv.congr rfl rfl rfl rfl rfl rfl rfl
  · split
    · exact inv
    · exact deviceStep_inv inv

/-- Settles O8: each agent's move keeps the invariant, and taking a turn from the list does not touch it. -/
theorem stepKeepsTheMachineInvariant : Obligations.StepKeepsTheMachineInvariant := by
  intro s t inv h
  obtain ⟨x, ts, -, -, rfl⟩ | ⟨u, turn, move⟩ := step_cases h
  · exact agentStep_inv (inv.congr rfl rfl rfl rfl rfl rfl rfl)
  · rw [turn.eq] at move
    exact move.inv (inv.congr rfl rfl rfl rfl rfl rfl rfl)

end Sys2Proof.Machine
end

section
/-!
PROOF. What a step leaves of the X mask (60_exceptions.md R402), of the map of memory and its initialised addresses
(20_memory.md R70, 60_exceptions.md R418), and of the control state and SP (10_state.md R49, 70_reset_and_hazards.md
R465).
-/

namespace Sys2Proof.Machine

/-! ### The agents that are not the CPU -/

/-- A device moves only the devices, port D and the count of free values. -/
theorem deviceStep_eq (x : Turn) (s : State) :
    ∃ adc sci spi portD draws,
      deviceStep x s = { s with adc := adc, sci := sci, spi := spi, portD := portD, draws := draws } := by
  cases x with
  | adcConvert v =>
    show ∃ adc sci spi portD draws, adcConvert v s = _
    unfold adcConvert
    split_ifs <;> exact ⟨_, _, _, _, _, rfl⟩
  | spiMasterDone v =>
    show ∃ adc sci spi portD draws, spiMasterDone v s = _
    unfold spiMasterDone
    split <;> exact ⟨_, _, _, _, _, rfl⟩
  | spiSlaveBegin =>
    show ∃ adc sci spi portD draws, spiSlaveBegin s = _
    unfold spiSlaveBegin
    split <;> exact ⟨_, _, _, _, _, rfl⟩
  | spiSlaveDone v =>
    show ∃ adc sci spi portD draws, spiSlaveDone v s = _
    unfold spiSlaveDone
    split <;> exact ⟨_, _, _, _, _, rfl⟩
  | spiModeFault =>
    show ∃ adc sci spi portD draws, spiModeFault s = _
    unfold spiModeFault
    split <;> exact ⟨_, _, _, _, _, rfl⟩
  | _ => exact ⟨_, _, _, _, _, rfl⟩

/-- An agent that is not the CPU moves only the devices, port D, the pins and the count of free values. -/
theorem agentStep_eq (x : Turn) (s : State) :
    ∃ adc sci spi portD draws pins, agentStep x s =
      { s with adc := adc, sci := sci, spi := spi, portD := portD, draws := draws, pins := pins } := by
  unfold agentStep
  split
  · exact ⟨_, _, _, _, _, _, rfl⟩
  · split
    · exact ⟨_, _, _, _, _, _, rfl⟩
    · obtain ⟨adc, sci, spi, portD, draws, e⟩ := deviceStep_eq x s
      exact ⟨adc, sci, spi, portD, draws, s.pins, e⟩

/-! ### The X mask -/

/-- No line of the table writes X otherwise than from 1 to 0 (10_state.md R34). -/
theorem ccrEffect_x (i : Instr) : (ccrEffect i).x = .kept ∨ (ccrEffect i).x = .onlyCleared := by
  cases i
  case rti | tap => exact .inr rfl
  all_goals exact .inl rfl

theorem exec_x {i : Instr} {s t : State} (h : exec i s = .next t) (hx : t.ccr.x = true) : s.ccr.x = true := by
  have x := (flagsFrameOfEveryInstruction i s t h).2.1
  obtain e | e := ccrEffect_x i <;> rw [e] at x
  · exact x.symm.trans hx
  · exact x hx

@[simp] theorem entered_ccr (name : TrapName) (ret : Word) (s : State) :
    (entered name ret s).ccr = maskFor name s.ccr := by
  obtain ⟨pc, e⟩ := entered_eq name ret s
  rw [e]

@[simp] theorem resumed_ccr (name : TrapName) (s : State) : (resumed name s).ccr = maskFor name s.ccr := by
  simp [resumed, touchWord]

/-- The masks of a trap set X only for XIRQ (60_exceptions.md R402). -/
theorem xirq_of_maskFor {name : TrapName} {f : Ccr} (before : f.x = false) (after : (maskFor name f).x = true) :
    name = .xirq := by
  simpa [maskFor, before] using after

theorem CpuMove.x_raised {s t : State} (h : CpuMove s t) (before : s.ccr.x = false) (after : t.ccr.x = true) :
    s.pins.reset = true ∨ s.pins.xirq = true := by
  cases h with
  | reset pin h => exact .inl pin
  | trap stack wakes pin can =>
    rw [entered_ccr] at after
    obtain rfl | rfl := wakes <;> exact .inr (pin (xirq_of_maskFor before after))
  | instr quiet run code h => exact absurd (before.symm.trans (exec_x h after)) nofun
  | resume pin can =>
    rw [resumed_ccr] at after
    exact .inr (pin (xirq_of_maskFor before after))
  | wake => exact absurd (before.symm.trans after) nofun
  | idle => exact absurd (before.symm.trans after) nofun

/-- Settles O10: the agents keep the condition codes, and of the CPU's moves only reset and a trap of XIRQ set X. -/
theorem xMaskIsRaisedOnlyByResetOrXirq : Obligations.XMaskIsRaisedOnlyByResetOrXirq := by
  intro s t h before after
  obtain ⟨x, ts, -, -, rfl⟩ | ⟨u, turn, move⟩ := step_cases h
  · obtain ⟨_, _, _, _, _, _, e⟩ := agentStep_eq x { s with turns := ts }
    rw [e] at after
    exact absurd (before.symm.trans after) nofun
  · rw [turn.eq] at move
    exact move.x_raised before after

/-! ### The map of memory -/

/-- The parameters are kept, bytes that are not RAM keep their value, and initialised addresses stay so. -/
structure KeepsMap (s t : State) : Prop where
  cfg : t.cfg = s.cfg
  mem : ∀ a, kindOf s.cfg a ≠ .ram → t.mem.get a.toNat = s.mem.get a.toNat
  initialised : ∀ a, s.initialised a = true → t.initialised a = true

theorem KeepsMap.of_eq {s t : State} (cfg : t.cfg = s.cfg) (mem : t.mem = s.mem) (written : t.written = s.written) :
    KeepsMap s t :=
  ⟨cfg, fun _ _ => by rw [mem], fun a ha => by rwa [initialised_congr cfg written]⟩

theorem KeepsMap.trans {s t u : State} (h : KeepsMap s t) (h' : KeepsMap t u) : KeepsMap s u where
  cfg := h'.cfg.trans h.cfg
  mem a ha := (h'.mem a (by rwa [h.cfg])).trans (h.mem a ha)
  initialised a ha := h'.initialised a (h.initialised a ha)

theorem touch_keepsMap (a : Word) (s : State) : KeepsMap s (touch a s) := .of_eq (by simp) (by simp) (by simp)

theorem poke_keepsMap (a : Word) (v : Byte) (s : State) : KeepsMap s (poke a v s) where
  cfg := poke_cfg a v s
  mem b hb := by
    rw [poke_mem]
    split
    next ram =>
      have ne : a.toNat ≠ b.toNat := fun e => hb (BitVec.eq_of_toNat_eq e ▸ ram)
      exact Memory.get_set_ne ne
    next => rfl
  initialised b hb := by rw [poke_initialised, hb, Bool.true_or]

theorem afterAccesses_keepsMap (l : List Access) (s : State) : KeepsMap s (afterAccesses l s) := by
  induction l generalizing s with
  | nil => exact .of_eq rfl rfl rfl
  | cons x l ih =>
    cases x with
    | read a => exact (touch_keepsMap a s).trans (ih _)
    | write a v => exact (poke_keepsMap a v s).trans (ih _)

theorem exec_keepsMap {i : Instr} {s t : State} (h : exec i s = .next t) : KeepsMap s t :=
  have left := exec_leaves h
  (afterAccesses_keepsMap (accesses i s) s).trans
    (.of_eq (left.cfg.trans (afterAccesses_cfg _ s).symm) left.mem left.written)

theorem entered_keepsMap (name : TrapName) (ret : Word) (s : State) : KeepsMap s (entered name ret s) := by
  obtain ⟨pc, e⟩ := entered_eq name ret s
  rw [e]
  exact (afterAccesses_keepsMap (enterAccesses name ret s) s).trans (.of_eq (afterAccesses_cfg _ s).symm rfl rfl)

theorem touchWord_keepsMap (a : Word) (s : State) : KeepsMap s (touchWord a s) :=
  (touch_keepsMap a s).trans (touch_keepsMap (a + 1) _)

theorem resumed_keepsMap (name : TrapName) (s : State) : KeepsMap s (resumed name s) := by
  have masked : KeepsMap s { s with ccr := maskFor name s.ccr } := .of_eq rfl rfl rfl
  have read := masked.trans (touchWord_keepsMap (vectorOf s.cfg name) _)
  exact ⟨read.cfg, read.mem, read.initialised⟩

theorem resetMachine_keepsMap {s t : State} (h : resetMachine s = .ok t) : KeepsMap s t := by
  have start : KeepsMap s (afterReset s) := .of_eq rfl rfl rfl
  have read := start.trans (touchWord_keepsMap (resetVector s.cfg) _)
  rw [resetMachine_eq_ok h]
  exact ⟨read.cfg, read.mem, read.initialised⟩

theorem CpuMove.keepsMap {s t : State} (h : CpuMove s t) : KeepsMap s t := by
  cases h with
  | reset pin h => exact resetMachine_keepsMap h
  | trap stack wakes pin can =>
    have entry := entered_keepsMap
    obtain rfl | rfl := wakes
    · exact entry _ _ _
    · obtain ⟨cfg, mem, initialised⟩ := entry _ s.pc { s with runState := .run }
      exact ⟨cfg, mem, initialised⟩
  | instr quiet run code h =>
    obtain ⟨cfg, mem, initialised⟩ := exec_keepsMap h
    exact ⟨cfg, mem, initialised⟩
  | resume pin can => exact resumed_keepsMap _ s
  | wake => exact .of_eq rfl rfl rfl
  | idle => exact .of_eq rfl rfl rfl

theorem step_keepsMap {s t : State} (h : step s = .next t) : KeepsMap s t := by
  obtain ⟨x, ts, -, -, rfl⟩ | ⟨u, turn, move⟩ := step_cases h
  · obtain ⟨_, _, _, _, _, _, e⟩ := agentStep_eq x { s with turns := ts }
    rw [e]
    exact .of_eq rfl rfl rfl
  · rw [turn.eq] at move
    obtain ⟨cfg, mem, initialised⟩ := move.keepsMap
    exact ⟨cfg, mem, initialised⟩

theorem KeepsMap.vectorsInitialised {s t : State} (h : KeepsMap s t) (ready : VectorsInitialised s) :
    VectorsInitialised t := by
  intro v hv
  rw [h.cfg] at hv
  have both := ready v hv
  rw [vectorInitialised, Bool.and_eq_true] at both ⊢
  exact both.imp (h.initialised v) (h.initialised (v + 1))

/-- Settles O11: every move keeps the map, and so the vectors stay initialised. -/
theorem onlyRamChangesAndTheMapStays : Obligations.OnlyRamChangesAndTheMapStays := by
  intro s t a h
  have keeps := step_keepsMap h
  refine ⟨keeps.cfg, keeps.mem a, keeps.initialised a, fun ready => ?_⟩
  have ready' := keeps.vectorsInitialised ready
  exact ⟨ready.ready, ready', ready'.ready⟩

/-! ### Control state and SP -/

/-- Only an instruction that uses the stack computes an address with SP. -/
theorem addresses_withSp {i : Instr} (h : usesStack i = false) (s : State) (sp : Word) :
    readAddresses i { s with sp := sp } = readAddresses i s
      ∧ storedAddresses i { s with sp := sp } = storedAddresses i s := by
  cases i
  case bsr | jsr | psha | pshb | pshx | pshy | pula | pulb | pulx | puly | rti | rts | swi | test | wai =>
    exact (Bool.false_ne_true (h.symm.trans rfl)).elim
  all_goals exact ⟨rfl, rfl⟩

/-- What the CPU's step does with the stack where it executes an instruction (70_reset_and_hazards.md R465). -/
theorem stepUsesStack_of_instr {s : State} {i : Instr} {rest : List Byte} (turn : s.turns = [])
    (run : s.runState = .run) (pin : s.pins.reset = false) (quiet : recognised s = none)
    (code : decode (fetchWindow s) = .instr i rest) : stepUsesStack s = usesStack i := by
  simp [stepUsesStack, cpuMoves, turn, run, pin, quiet, code]

/-- An instruction that changes SP and does not use the stack loads SP or counts it (70_reset_and_hazards.md R465). -/
theorem sp_writers {i : Instr} (sp : (registersWritten i).sp = true) (h : usesStack i = false) :
    writesSp i = true ∨ i = .des ∨ i = .ins := by
  simp only [usesStack, sp, Bool.true_and, Bool.and_eq_false_iff, Bool.not_eq_false', bne_eq_false_iff_eq] at h
  tauto

theorem CpuMove.sp_of_noStack {s t : State} (h : CpuMove s t) (pin : s.pins.reset = false)
    (stack : stepUsesStack { s with turns := [] } = false) (sp : t.sp ≠ s.sp) :
    ∃ i rest, decode (fetchWindow s) = .instr i rest ∧ (writesSp i = true ∨ i = .des ∨ i = .ins) := by
  cases h with
  | reset set h => exact absurd (pin.symm.trans set) nofun
  | trap uses wakes pin can => exact absurd (stack.symm.trans uses) nofun
  | @instr i rest t quiet run code h =>
    rw [stepUsesStack_of_instr (s := { s with turns := [] }) rfl run pin quiet code] at stack
    have written : (registersWritten i).sp = true := by
      by_contra hw
      exact sp (eq_of_kept (exec_leaves h).sp (Bool.eq_false_iff.mpr hw))
    exact ⟨i, rest, code, sp_writers written stack⟩
  | resume pin can => exact absurd (by simp [resumed, touchWord]) sp
  | wake => exact absurd rfl sp
  | idle => exact absurd rfl sp

/-- Settles O16: the instruction's part from its tables, the step's part from the moves of the CPU. -/
theorem controlFrameOfEveryInstruction : Obligations.ControlFrameOfEveryInstruction := by
  refine ⟨fun i s t h => ?_, fun s t h pin stack sp => ?_⟩
  · have left := exec_leaves h
    refine ⟨left.cfg, left.pins, left.turns, fun notStop notWai => eq_of_kept left.runState ?_,
      fun notCli notTap notSwi notTest => eq_of_kept left.iDelay ?_, ?_, fun stack => addresses_withSp stack s⟩
    · unfold changesRunState
      split
      case h_3 => rfl
      all_goals contradiction
    · unfold changesDelay
      split
      case h_5 => rfl
      all_goals contradiction
    · rw [left.spWritten]
      cases writesSp i <;> simp
  · obtain ⟨x, ts, -, -, rfl⟩ | ⟨u, turn, move⟩ := step_cases h
    · obtain ⟨_, _, _, _, _, _, e⟩ := agentStep_eq x { s with turns := ts }
      rw [e] at sp
      exact absurd rfl sp
    · rw [← turn.stepUsesStack_eq] at stack
      rw [turn.eq] at move stack
      exact move.sp_of_noStack pin stack sp

end Sys2Proof.Machine
end

section
/-!
PROOF. The arithmetic, logic and load instructions, each by the law of its operand and the law of its flags
(10_state.md R29 to R33, 40_arithmetic.md, 41_logic_compare.md, 45_load_store_stack.md).
-/

namespace Sys2Proof.Machine

/-- Settles O18: `add8_eq` says the sum and its flags. -/
theorem additionsOfBytes : Obligations.AdditionsOfBytes := by
  refine ⟨fun s => ?_, fun m s h => ⟨?_, ?_, ?_, ?_⟩⟩
  · show complete _ (.ok (s.putA (add8 s.a s.b false s.ccr))) = _
    simp only [complete_ok, add8_eq, bitByte_false, add_zero]
    rfl
  all_goals
    refine (complete_withOperand8 h).trans ?_
    simp only [State.putA, State.putB, add8_eq, after8_a, after8_b, after8_ccr, bitByte_false, add_zero]

/-- Settles O19: `sub8_eq` says the difference and its flags. -/
theorem subtractionsOfBytes : Obligations.SubtractionsOfBytes := by
  refine ⟨fun s => ?_, fun m s h => ⟨?_, ?_, ?_, ?_⟩⟩
  · show complete _ (.ok (s.putA (sub8 s.a s.b false s.ccr))) = _
    simp only [complete_ok, sub8_eq, bitByte_false, sub_zero]
    rfl
  all_goals
    refine (complete_withOperand8 h).trans ?_
    simp only [State.putA, State.putB, sub8_eq, after8_a, after8_b, after8_ccr, bitByte_false, sub_zero]

/-- Settles O20: the flags are those of the subtraction, and its result is dropped. -/
theorem comparesWriteOnlyFlags : Obligations.ComparesWriteOnlyFlags := by
  refine ⟨fun s => ?_, fun m s h => ⟨?_, ?_⟩, fun m s h => ⟨?_, ?_, ?_⟩⟩
  · show complete _ (.ok { s with ccr := (sub8 s.a s.b false s.ccr).2 }) = _
    simp only [complete_ok, sub8_eq, bitByte_false, sub_zero]
    rfl
  case refine_2 | refine_3 =>
    refine (complete_withOperand8 h).trans ?_
    simp only [sub8_eq, after8_a, after8_b, after8_ccr, bitByte_false, sub_zero]
  all_goals
    refine (complete_withOperand16 h).trans ?_
    simp only [sub16_eq, after16_d, after16_ix, after16_iy, after16_ccr]

/-- Settles O21: `logic8_eq` says the flags. -/
theorem logicAndBitTests : Obligations.LogicAndBitTests := by
  intro m s h
  refine ⟨?_, ?_, ?_, ?_, ?_, ?_, ?_, ?_⟩
  all_goals
    refine (complete_withOperand8 h).trans ?_
    simp only [State.putA, State.putB, logic8_eq, after8_a, after8_b, after8_ccr]

/-- Settles O22: `logic8_eq` and `logic16_eq` say the flags. -/
theorem loadsOfBytesAndWords : Obligations.LoadsOfBytesAndWords := by
  refine ⟨fun m s h => ⟨?_, ?_⟩, fun m s h => ⟨?_, ?_, ?_, ?_⟩⟩
  case refine_1 | refine_2 =>
    refine (complete_withOperand8 h).trans ?_
    simp only [State.putA, State.putB, logic8_eq, after8_ccr]
  all_goals
    refine (complete_withOperand16 h).trans ?_
    simp only [State.putD, State.withD, logic16_eq, after16_ccr]

/-! ### Shifts -/

/-- A read-modify-write completes where its byte can be read and the result written. -/
theorem complete_modifyByte {a : Word} {f : Byte → Ccr → Byte × Ccr} {s : State} {pc : Word}
    (read : canRead s.cfg a = true) (write : canWrite s.cfg a (f (peek a s) s.ccr).1 = true) :
    complete pc (modifyByte a f s) = .next
      { poke a (f (peek a s) s.ccr).1 (touch a s) with ccr := (f (peek a s) s.ccr).2, pc := pc } :=
  complete_eq_next.mpr ⟨_, modifyByte_eq_ok.mpr ⟨read, write, rfl⟩, rfl⟩

/-- Settles O26: the laws of the shifts of one byte, at the byte that was read. -/
theorem memoryShiftsAndRotates : Obligations.MemoryShiftsAndRotates := by
  rintro ea s _ _ rfl rfl read
  refine ⟨?_, ?_, ?_, ?_, ?_, ?_⟩ <;> intro r write
  case refine_1 | refine_2 =>
    refine (complete_modifyByte read ?_).trans ?_ <;> rw [asl8_eq]
    exact write
  · refine (complete_modifyByte read ?_).trans ?_ <;> rw [asr8_eq]
    exact write
  · refine (complete_modifyByte read ?_).trans ?_ <;> rw [lsr8_eq]
    exact write
  · refine (complete_modifyByte read ?_).trans ?_ <;> rw [rol8_eq]
    exact write
  · refine (complete_modifyByte read ?_).trans ?_ <;> rw [ror8_eq]
    exact write

/-- An operation on A completes, and its result and flags are those its law says. -/
theorem complete_putA {f : Byte → Ccr → Byte × Ccr} {r : Byte × Ccr} {s : State} (law : f s.a s.ccr = r) (pc : Word) :
    complete pc (.ok (s.putA (f s.a s.ccr))) = .next { s with a := r.1, ccr := r.2, pc := pc } := by
  rw [law]
  rfl

theorem complete_putB {f : Byte → Ccr → Byte × Ccr} {r : Byte × Ccr} {s : State} (law : f s.b s.ccr = r) (pc : Word) :
    complete pc (.ok (s.putB (f s.b s.ccr))) = .next { s with b := r.1, ccr := r.2, pc := pc } := by
  rw [law]
  rfl

theorem complete_putD {f : Word → Ccr → Word × Ccr} {r : Word × Ccr} {s : State} (law : f s.d s.ccr = r) (pc : Word) :
    complete pc (.ok (s.putD (f s.d s.ccr))) =
      .next { s with a := highByte r.1, b := lowByte r.1, ccr := r.2, pc := pc } := by
  rw [law]
  rfl

/-- Settles O27: the laws of the shifts of a byte and of a word. -/
theorem accumulatorShiftsAndRotates : Obligations.AccumulatorShiftsAndRotates := by
  intro s
  exact ⟨complete_putA (asl8_eq _ _) _, complete_putA (asl8_eq _ _) _, complete_putA (asr8_eq _ _) _,
    complete_putA (lsr8_eq _ _) _, complete_putA (rol8_eq _ _) _, complete_putA (ror8_eq _ _) _,
    complete_putB (asl8_eq _ _) _, complete_putB (asl8_eq _ _) _, complete_putB (asr8_eq _ _) _,
    complete_putB (lsr8_eq _ _) _, complete_putB (rol8_eq _ _) _, complete_putB (ror8_eq _ _) _,
    complete_putD (asl16_eq _ _) _, complete_putD (asl16_eq _ _) _, complete_putD (lsr16_eq _ _) _⟩

/-! ### Words -/

theorem word_pred_eq_zero (w : Word) : decide (w - 1 = 0) = decide (w.toNat = 1) := by
  rw [decide_eq_decide]
  constructor <;> intro h <;> bv_omega

theorem word_succ_eq_zero (w : Word) : decide (w + 1 = 0) = decide (w.toNat = 65535) := by
  rw [decide_eq_decide]
  constructor <;> intro h <;> bv_omega

/-- Settles O29: `add16_eq` and `sub16_eq` say the flags by exact ranges; a count is 0 from one value only. -/
theorem arithmeticOfWords : Obligations.ArithmeticOfWords := by
  refine ⟨fun m s h => ⟨?_, ?_⟩, fun s => ⟨?_, ?_, ?_, ?_⟩⟩
  case refine_1 | refine_2 =>
    refine (complete_withOperand16 h).trans ?_
    simp only [State.putD, State.withD, add16_eq, sub16_eq, after16_d, after16_ccr]
  · rw [← word_pred_eq_zero]; rfl
  · rw [← word_pred_eq_zero]; rfl
  · rw [← word_succ_eq_zero]; rfl
  · rw [← word_succ_eq_zero]; rfl

end Sys2Proof.Machine
end

section
/-!
PROOF. The condition codes as a byte, the product and the quotients, and decimal addition
(10_state.md R27, 40_arithmetic.md R139 to R154, 44_bit_ccr.md R264 to R270).
-/

namespace Sys2Proof.Machine

/-! ### The condition codes as a byte -/

/-- The bits of the byte of the condition codes are the flags, in their places. -/
theorem Ccr.ofByte_toByte : ∀ f : Ccr, Ccr.ofByte f.toByte = f := by
  rintro ⟨s, x, h, i, n, z, v, c⟩
  revert s x h i n z v c
  decide

/-- Loading the byte of the condition codes back changes nothing: X is its own bit 6. -/
theorem Ccr.load_toByte (f : Ccr) : Ccr.load f.toByte f = f := by
  have bitX : f.toByte.getLsbD 6 = f.x := congrArg Ccr.x f.ofByte_toByte
  rw [Ccr.load, Ccr.ofByte_toByte, bitX, Bool.and_self]

/-- The bit of the mask does not fall when the byte of the condition codes is loaded back. -/
theorem Ccr.i_and_not_toByte (f : Ccr) : (f.i && !f.toByte.getLsbD 4) = false := by
  have bitI : f.toByte.getLsbD 4 = f.i := congrArg Ccr.i f.ofByte_toByte
  rw [bitI, Bool.and_not_self]

/-- Settles O32: the byte of the condition codes holds each flag in its place. -/
theorem statusTransfersAndCli : Obligations.StatusTransfersAndCli := by
  intro s
  have bits := s.ccr.ofByte_toByte
  refine ⟨⟨s.ccr.toByte, rfl, congrArg Ccr.s bits, congrArg Ccr.x bits, congrArg Ccr.h bits, congrArg Ccr.i bits,
    congrArg Ccr.n bits, congrArg Ccr.z bits, congrArg Ccr.v bits, congrArg Ccr.c bits⟩, rfl, rfl, ?_⟩
  intro t u ht hu
  obtain rfl : { s with a := s.ccr.toByte, pc := s.pc + 1 } = t := Host.Outcome.next.inj ht
  obtain rfl := Host.Outcome.next.inj hu
  refine ⟨s.ccr.load_toByte, ?_⟩
  show (s.iDelay || (s.ccr.i && !s.ccr.toByte.getLsbD 4)) = s.iDelay
  rw [Ccr.i_and_not_toByte, Bool.or_false]

/-! ### The product and the quotients -/

/-- The product of two bytes fits in a word. -/
theorem mul8_exact (a b : Byte) (f : Ccr) : (mul8 a b f).1.toNat = a.toNat * b.toNat := by
  have fits : a.toNat * b.toNat < 256 * 256 := Nat.mul_lt_mul'' a.isLt b.isLt
  exact Nat.mod_eq_of_lt fits

/-- The division identity of IDIV. -/
theorem idiv16_identity {n d : Word} (o : Word) (f : Ccr) (h : d ≠ 0) :
    (idiv16 n d o f).1.toNat * d.toNat + (idiv16 n d o f).2.1.toNat = n.toNat
      ∧ (idiv16 n d o f).2.1.toNat < d.toNat := by
  have pos : 0 < d.toNat := Nat.pos_of_ne_zero fun e => h (BitVec.eq_of_toNat_eq e)
  have quotient : n.toNat / d.toNat < 65536 := (Nat.div_le_self ..).trans_lt n.isLt
  have remainder : n.toNat % d.toNat < 65536 := (Nat.mod_lt _ pos).trans d.isLt
  simp only [idiv16, if_neg h, BitVec.toNat_ofNat, Nat.mod_eq_of_lt quotient, Nat.mod_eq_of_lt remainder]
  exact ⟨Nat.div_add_mod' .., Nat.mod_lt _ pos⟩

/-- The division identity of FDIV, whose quotient is a fraction. -/
theorem fdiv16_identity {n d : Word} (o : Word) (f : Ccr) (h : n.toNat < d.toNat) :
    (fdiv16 n d o f).1.toNat * d.toNat + (fdiv16 n d o f).2.1.toNat = 65536 * n.toNat
      ∧ (fdiv16 n d o f).2.1.toNat < d.toNat := by
  have pos : 0 < d.toNat := Nat.zero_lt_of_lt h
  have quotient : n.toNat * 65536 / d.toNat < 65536 := Nat.div_lt_of_lt_mul (Nat.mul_lt_mul_of_pos_right h (by decide))
  have remainder : n.toNat * 65536 % d.toNat < 65536 := (Nat.mod_lt _ pos).trans d.isLt
  have small : decide (d.toNat ≤ n.toNat) = false := decide_eq_false (Nat.not_le_of_lt h)
  simp only [fdiv16, small, Bool.false_eq_true, if_false, BitVec.toNat_ofNat, Nat.mod_eq_of_lt quotient,
    Nat.mod_eq_of_lt remainder]
  exact ⟨(Nat.div_add_mod' ..).trans (Nat.mul_comm ..), Nat.mod_lt _ pos⟩

/-- Settles O33: the product fits, and the division identities determine quotient and remainder. -/
theorem productAndDivisions : Obligations.ProductAndDivisions := by
  intro s
  let free := Config.freeWord s.draws
  refine ⟨(mul8 s.a s.b s.ccr).1, (idiv16 s.d s.ix free s.ccr).1, (idiv16 s.d s.ix free s.ccr).2.1,
    (fdiv16 s.d s.ix free s.ccr).1, (fdiv16 s.d s.ix free s.ccr).2.1, rfl, mul8_exact _ _ _, rfl,
    idiv16_identity free _, ?_, rfl, fdiv16_identity free _, ?_⟩
  · exact fun zero => if_pos zero
  · exact fun large => if_pos (decide_eq_true large)

/-! ### Decimal addition -/

/-- The correction of DAA as a sum of numbers, its flags in the form of `logicFlags8`. -/
theorem daa8_eq (a : Byte) (v : Bool) (f : Ccr) :
    let high := f.c || decide (0x99 < a.toNat)
    let r := BitVec.ofNat 8 (a.toNat + (if f.h ∨ 9 < a.toNat % 16 then 6 else 0) + (if high then 96 else 0))
    daa8 a v f = (r, { f with n := r.msb, z := r == 0, v := v, c := high }) := by
  intro high r
  have sum : a + ((if f.h || decide (a.toNat % 16 > 9) then 0x06 else 0x00) + if high then 0x60 else 0x00) = r := by
    apply BitVec.eq_of_toNat_eq
    simp only [r, Bool.or_eq_true, decide_eq_true_eq, gt_iff_lt, BitVec.toNat_add, BitVec.toNat_ofNat]
    split <;> split <;> simp
  have flags : nz8 r f = { f with n := r.msb, z := r == 0 } := by
    rw [nz8, msb_eq_getLsbD_byte, beq_zero_eq]
  show (_, _) = _
  simp only [gt_iff_lt] at sum ⊢
  rw [sum, flags]

/-- Decimal addition on numbers: the low digits want the correction by 6 exactly where their sum `l` is above 9, and
the number wants the correction by 96 exactly where the whole sum is above 99. -/
theorem decimal_correction {x y c : Nat} (hx : x / 16 ≤ 9 ∧ x % 16 ≤ 9) (hy : y / 16 ≤ 9 ∧ y % 16 ≤ 9) (hc : c ≤ 1) :
    let b := (x + y + c) % 256
    let low := if x % 16 + y % 16 + c > 15 ∨ 9 < b % 16 then 6 else 0
    let high := x + y + c > 255 ∨ 0x99 < b
    let r := (b + low + if high then 96 else 0) % 256
    (r / 16 ≤ 9 ∧ r % 16 ≤ 9)
      ∧ r / 16 * 10 + r % 16 + 100 * (decide high).toNat = x / 16 * 10 + x % 16 + (y / 16 * 10 + y % 16) + c := by
  intro b low high r
  by_cases lowCarry : 9 < x % 16 + y % 16 + c
  · have hl : low = 6 := if_pos (by omega)
    by_cases highCarry : high
    · simp only [r, hl, highCarry, if_true, decide_true, Bool.toNat_true]
      omega
    · simp only [r, hl, highCarry, if_false, decide_false, Bool.toNat_false]
      omega
  · have hl : low = 0 := if_neg (by omega)
    by_cases highCarry : high
    · simp only [r, hl, highCarry, if_true, decide_true, Bool.toNat_true]
      omega
    · simp only [r, hl, highCarry, if_false, decide_false, Bool.toNat_false]
      omega

/-- Adding two decimal bytes and then correcting the sum gives their decimal sum. -/
theorem decimal_sum {a m : Byte} (c : Bool) (v : Bool) (f : Ccr) (ha : isDecimal a = true) (hm : isDecimal m = true) :
    let t := add8 a m c f
    let u := daa8 t.1 v t.2
    isDecimal u.1 = true ∧ decimalValue u.1 + 100 * u.2.c.toNat = decimalValue a + decimalValue m + c.toNat := by
  intro t u
  have byte : t.1.toNat = (a.toNat + m.toNat + c.toNat) % 256 := rfl
  have half : t.2.h = decide (a.toNat % 16 + m.toNat % 16 + c.toNat > 15) := rfl
  have full : t.2.c = decide (a.toNat + m.toNat + c.toNat > 255) := rfl
  obtain ⟨digits, value⟩ := decimal_correction (of_decide_eq_true ha) (of_decide_eq_true hm) c.toNat_le
  simp only [u, daa8_eq, isDecimal, decimalValue, decide_eq_true_eq, half, full, byte, BitVec.toNat_ofNat,
    ← Bool.decide_or]
  exact ⟨digits, value⟩

/-- What an instruction over an 8-bit operand answers where it completes. -/
theorem next_of_withOperand8 {m : Operand8} {f : Byte → State → State} {s t : State} {pc : Word}
    (h : complete pc (withOperand8 m f s) = .next t) : t = { f (value8 m s) (after8 m s) with pc := pc } := by
  obtain ⟨u, hu, rfl⟩ := complete_eq_next.mp h
  rw [(withOperand8_eq_ok.mp hu).2]

/-- What an instruction over a 16-bit operand answers where it completes. -/
theorem next_of_withOperand16 {m : Operand16} {f : Word → State → State} {s t : State} {pc : Word}
    (h : complete pc (withOperand16 m f s) = .next t) : t = { f (value16 m s) (after16 m s) with pc := pc } := by
  obtain ⟨u, hu, rfl⟩ := complete_eq_next.mp h
  rw [(withOperand16_eq_ok.mp hu).2]

/-- Settles O34: DAA is `daa8_eq`, and after ADCA it corrects the decimal sum. -/
theorem decimalAdditionIsExact : Obligations.DecimalAdditionIsExact := by
  refine ⟨fun s => ⟨freeBit s.draws, ?_⟩, fun m s t u ha hm ht hu => ?_⟩
  · intro high r
    show complete (next .daa s) (.ok { s.putA (daa8 s.a (freeBit s.draws) s.ccr) with draws := s.draws + 1 }) = _
    rw [daa8_eq]
    rfl
  · obtain rfl := next_of_withOperand8 ht
    obtain rfl := Host.Outcome.next.inj hu
    rw [← after8_a m s] at ha ⊢
    rw [← after8_ccr m s]
    exact decimal_sum _ _ _ ha hm

end Sys2Proof.Machine
end

section
/-!
PROOF. Jumps, calls and returns, the branches after a compare, and the instruction after CLI
(43_branch_jump.md R230 to R255, 60_exceptions.md R406).
-/

namespace Sys2Proof.Machine

/-! ### Calls and returns -/

/-- A call whose return address can be pushed completes. -/
theorem complete_push16 {pc ret : Word} {s : State} (h : canPush s.cfg (wordBytes ret) s.sp = true) :
    complete pc (push16 ret s) = .next { pushed (wordBytes ret) s with pc := pc } :=
  complete_eq_next.mpr ⟨_, push16_eq_ok.mpr ⟨h, rfl⟩, rfl⟩

/-- RTS completes where its two bytes can be pulled. -/
theorem execRts_eq_next {s : State} (h : canPull s.cfg 2 s.sp = true) :
    exec .rts s = .next { pulled 2 s with pc := joinBytes (pulledByte 0 s) (pulledByte 1 s) } := by
  refine finish_eq_next.mpr (bind_eq_ok.mpr ⟨_, pull16_eq_ok.mpr ⟨h, rfl, rfl⟩, rfl⟩)

/-- Settles O37: the laws of a word push and a word pull, and the target of a relative branch as a signed sum. -/
theorem jumpsCallsAndReturns : Obligations.JumpsCallsAndReturns := by
  refine fun s => ⟨fun ea => rfl, fun ea h => complete_push16 h, fun rr h => ?_, execRts_eq_next⟩
  rw [← branchTarget_eq]
  exact complete_push16 h

/-- What a call does on a stack in RAM: it completes, SP falls by two, and the return address is on the stack. -/
theorem call_on_ram {i : Instr} {s : State} (call : (∃ ea, i = .jsr ea) ∨ ∃ rr, i = .bsr rr)
    (can : canPush s.cfg (wordBytes (next i s)) s.sp = true) :
    ∃ pc, exec i s = .next { pushed (wordBytes (next i s)) s with pc := pc } := by
  obtain ⟨ea, rfl⟩ | ⟨rr, rfl⟩ := call
  · exact ⟨_, complete_push16 can⟩
  · exact ⟨_, complete_push16 can⟩

/-- The two bytes a call pushes lie in RAM. -/
theorem callStack_ram {s : State} {l : List Byte} (two : l.length = 2) (ram : ramFrom s.cfg 2 (s.sp - 1) = true) :
    ∀ k, k < l.length → kindOf s.cfg (s.sp - BitVec.ofNat 16 k) = .ram := by
  rw [ramFrom_iff] at ram
  intro k hk
  have address : s.sp - 1 + BitVec.ofNat 16 (1 - k) = s.sp - BitVec.ofNat 16 k := by
    apply BitVec.eq_of_toNat_eq
    simp [BitVec.toNat_sub, BitVec.toNat_add]
    omega
  exact address ▸ ram (1 - k) (by omega)

/-- RTS from a stack in RAM that holds the two bytes of `ret`. -/
theorem rts_on_ram {u : State} {ret : Word} (ram : ∀ k, 1 ≤ k → k ≤ 2 → kindOf u.cfg (u.sp + BitVec.ofNat 16 k) = .ram)
    (high : u.mem.get (u.sp + 1).toNat = highByte ret) (low : u.mem.get (u.sp + 2).toNat = lowByte ret) :
    exec .rts u = .next { u with sp := u.sp + 2, pc := ret } := by
  obtain ⟨after, can⟩ := pulled_of_ram ram
  have high' : pulledByte 0 u = highByte ret := (pulledByte_of_ram (n := 2) (by decide) ram).trans high
  have low' : pulledByte 1 u = lowByte ret := (pulledByte_of_ram (n := 2) (by decide) ram).trans low
  rw [execRts_eq_next can, after, high', low', joinBytes_highByte_lowByte]
  rfl

/-- Settles O44: what RTS pulls are the two bytes the call left in RAM. -/
theorem subroutineReturnsToItsCall : Obligations.SubroutineReturnsToItsCall := by
  intro i s call wf ram
  have ram' := callStack_ram (l := wordBytes (next i s)) rfl ram
  obtain ⟨pc, called⟩ := call_on_ram call (canPush_of_ram ram')
  have sp : (pushed (wordBytes (next i s)) s).sp = s.sp - 2 := by simp [wordBytes]
  have up1 : s.sp - 2 + 1 = s.sp - 1 := by bv_omega
  have up2 : s.sp - 2 + 2 = s.sp := by bv_omega
  refine ⟨_, called, sp, fun u hsp hcfg low high => ?_⟩
  have hsp : u.sp = s.sp - 2 := hsp.trans sp
  have hcfg : u.cfg = s.cfg := hcfg.trans (pushed_cfg _ _)
  have stored := pushed_get wf (by simp [wordBytes]) ram'
  have rts := rts_on_ram (u := u) (ret := next i s) ?_ ?_ ?_
  · rwa [hsp, up2] at rts
  · rw [ramFrom_iff] at ram
    intro k h1 h2
    have address : s.sp - 2 + BitVec.ofNat 16 k = s.sp - 1 + BitVec.ofNat 16 (k - 1) := by
      apply BitVec.eq_of_toNat_eq
      simp [BitVec.toNat_sub, BitVec.toNat_add]
      omega
    rw [hcfg, hsp, address]
    exact ram (k - 1) (by omega)
  · rw [hsp, up1]
    exact high.trans (stored 1 (by simp [wordBytes]))
  · rw [hsp, up2]
    have first := stored 0 (by simp [wordBytes])
    rw [BitVec.sub_zero] at first
    exact low.trans first

/-! ### Branches after a compare -/

/-- The flags say how `a` compares with `m`: C the unsigned order, Z equality, N exclusive-or V the signed order
(43_branch_jump.md R231). -/
structure Compared {w : Nat} (a m : BitVec w) (f : Ccr) : Prop where
  below : f.c = decide (a.toNat < m.toNat)
  same : f.z = decide (a = m)
  less : (f.n ^^ f.v) = decide (a.toInt < m.toInt)

/-- The sign of a difference, corrected by the signed overflow, is the signed order. -/
theorem sign_xor_overflow {w : Nat} (a m : BitVec w) :
    ((a - m).msb ^^ decide (a.msb ≠ m.msb ∧ (a - m).msb ≠ a.msb)) = decide (a.toInt < m.toInt) := by
  obtain _ | w := w
  · simp [BitVec.of_length_zero]
  have half : 2 ^ (w + 1) = 2 * 2 ^ w := by rw [Nat.pow_succ, Nat.mul_comm]
  have difference : ((a - m).toNat = a.toNat - m.toNat ∧ m.toNat ≤ a.toNat)
      ∨ ((a - m).toNat = 2 ^ (w + 1) - (m.toNat - a.toNat) ∧ a.toNat < m.toNat) := by
    rcases Nat.lt_or_ge a.toNat m.toNat with lt | le
    · exact .inr ⟨BitVec.toNat_sub_of_lt (BitVec.lt_def.mpr lt), lt⟩
    · exact .inl ⟨BitVec.toNat_sub_of_le (BitVec.le_def.mpr le), le⟩
  have ha := a.isLt
  have hm := m.isLt
  simp only [BitVec.toInt_eq_msb_cond, BitVec.msb_eq_decide, Nat.add_sub_cancel, half] at ha hm difference ⊢
  generalize (a - m).toNat = d, a.toNat = x, m.toNat = y, 2 ^ w = n at ha hm difference ⊢
  by_cases sx : n ≤ x <;> by_cases sy : n ≤ y <;> by_cases sd : n ≤ d <;> simp [sx, sy, sd] <;> omega

/-- A byte subtraction leaves the flags of a compare. -/
theorem sub8_compared (a m : Byte) (f : Ccr) : Compared a m (sub8 a m false f).2 := by
  have result : (sub8 a m false f).1 = a - m := by rw [sub8_eq, bitByte_false, sub_zero]
  refine ⟨?_, ?_, ?_⟩
  · show decide ((a.toNat : Int) - m.toNat - (false.toNat : Nat) < 0) = _
    simp
  · show decide ((sub8 a m false f).1 = 0) = _
    rw [result, decide_eq_decide, sub_eq_zero]
  · show ((sub8 a m false f).1.getLsbD 7 ^^
      decide (a.getLsbD 7 ≠ m.getLsbD 7 ∧ (sub8 a m false f).1.getLsbD 7 ≠ a.getLsbD 7)) = _
    rw [result, ← sign_xor_overflow]
    simp only [msb_eq_getLsbD_byte]

/-- A word subtraction leaves the flags of a compare. -/
theorem sub16_compared (a m : Word) (f : Ccr) : Compared a m (sub16 a m f).2 := by
  have result : (sub16 a m f).1 = a - m := by rw [sub16_eq]
  refine ⟨?_, ?_, ?_⟩
  · show decide ((a.toNat : Int) - m.toNat < 0) = _
    simp
  · show decide ((sub16 a m f).1 = 0) = _
    rw [result, decide_eq_decide, sub_eq_zero]
  · show ((sub16 a m f).1.getLsbD 15 ^^
      decide (a.getLsbD 15 ≠ m.getLsbD 15 ∧ (sub16 a m f).1.getLsbD 15 ≠ a.getLsbD 15)) = _
    rw [result, ← sign_xor_overflow]
    simp only [msb_eq_getLsbD]

/-- A branch that the model takes under a condition on the flags. -/
theorem branchIf_eq_branched {taken taken' : Bool} (h : taken = taken') (rr : Byte) (s : State) :
    Host.Outcome.next (branchIf taken (s.pc + 2) rr s) = (.next (branched taken' rr s) : StepOutcome) := by
  rw [branchIf, branchTarget_eq, h, branched]

/-- The branches read the flags of a compare as the orders. -/
theorem branchesAgree_of_compared {w : Nat} {a m : BitVec w} {t : State} (h : Compared a m t.ccr) :
    BranchesAgree (decide (a.toNat < m.toNat)) (decide (a = m)) (decide (a.toInt < m.toInt)) t := by
  intro rr
  rw [← h.below, ← h.same, ← h.less]
  exact ⟨branchIf_eq_branched (Bool.not_or ..) rr t, branchIf_eq_branched rfl rr t, branchIf_eq_branched rfl rr t,
    branchIf_eq_branched rfl rr t, branchIf_eq_branched rfl rr t, branchIf_eq_branched rfl rr t,
    branchIf_eq_branched ((Bool.not_or ..).trans (Bool.and_comm ..)) rr t, branchIf_eq_branched rfl rr t,
    branchIf_eq_branched (Bool.or_comm ..) rr t, branchIf_eq_branched rfl rr t, branchIf_eq_branched rfl rr t,
    branchIf_eq_branched rfl rr t⟩

/-- Settles O43: every compare and subtraction leaves the flags of `sub8` or `sub16`. -/
theorem branchesAfterACompareAreTheOrders : Obligations.BranchesAfterACompareAreTheOrders := by
  intro s t
  refine ⟨?_, fun m => ?_, fun m => ?_, fun m => ?_, fun m h => ?_, fun m h => ?_⟩
  · rintro (h | h) <;> obtain rfl := Host.Outcome.next.inj h
    · exact branchesAgree_of_compared (sub8_compared s.a s.b s.ccr)
    · exact branchesAgree_of_compared (sub8_compared s.a s.b s.ccr)
  · rintro (h | h) <;> obtain rfl := next_of_withOperand8 h <;> rw [← after8_a m s]
    · exact branchesAgree_of_compared (sub8_compared _ _ _)
    · exact branchesAgree_of_compared (sub8_compared _ _ _)
  · rintro (h | h) <;> obtain rfl := next_of_withOperand8 h <;> rw [← after8_b m s]
    · exact branchesAgree_of_compared (sub8_compared _ _ _)
    · exact branchesAgree_of_compared (sub8_compared _ _ _)
  · rintro (h | h) <;> obtain rfl := next_of_withOperand16 h <;> rw [← after16_d m s]
    · exact branchesAgree_of_compared (sub16_compared _ _ _)
    · exact branchesAgree_of_compared (sub16_compared _ _ _)
  · obtain rfl := next_of_withOperand16 h
    rw [← after16_ix m s]
    exact branchesAgree_of_compared (sub16_compared _ _ _)
  · obtain rfl := next_of_withOperand16 h
    rw [← after16_iy m s]
    exact branchesAgree_of_compared (sub16_compared _ _ _)

/-! ### The instruction after CLI -/

/-- While the delay is set, only an XIRQ that would be recognised without it is. -/
theorem recognised_of_delayed {s t : State} (quiet : recognised s = none) (pins : t.pins = s.pins)
    (x : t.ccr.x = s.ccr.x) (delay : t.iDelay = true) : recognised t = none := by
  have noXirq : (s.pins.xirq && !s.ccr.x) = false := by
    unfold recognised at quiet
    split at quiet
    · cases quiet
    · exact Bool.eq_false_iff.mpr ‹_›
  simp [recognised, pins, x, delay, noXirq]

/-- A step that begins with the delay set runs the instruction and clears the delay. -/
theorem step_of_delayed {t u : State} {i : Instr} {rest : List Byte} (running : t.Running) (quiet : recognised t = none)
    (delay : t.iDelay = true) (code : decode (fetchWindow t) = .instr i rest) (run : exec i t = .next u) :
    step t = .next { u with iDelay := false } := by
  rw [step_of_instr running.run running.reset quiet code (.inl ⟨running.turns, rfl⟩), run, settle_next, delay]
  rfl

/-- Settles O48: CLI sets the delay, and the delay keeps back every maskable interrupt for one instruction. -/
theorem instructionAfterCliRunsFirst : Obligations.InstructionAfterCliRunsFirst := by
  intro s rest running quiet code masked delay
  have first : step s = .next { s with ccr := { s.ccr with i := false }, iDelay := true, pc := s.pc + 1 } := by
    have cli : exec .cli s = .next
      { s with ccr := { s.ccr with i := false }, iDelay := s.iDelay || s.ccr.i, pc := s.pc + 1 } := rfl
    rw [step_of_instr running.run running.reset quiet code (.inl ⟨running.turns, rfl⟩), cli, delay, masked, settle_next]
    rfl
  exact ⟨_, first, rfl, rfl, rfl, fun i rest' u code' run =>
    step_of_delayed ⟨running.turns, running.run, running.reset⟩ (recognised_of_delayed quiet rfl rfl rfl) rfl code' run⟩

end Sys2Proof.Machine
end

section
/-!
PROOF. Second names, the length of every encoding, and the state after reset
(30_encoding.md R90, R99, 70_reset_and_hazards.md R461 to R465).
-/

namespace Sys2Proof.Machine

/-- A second name has the encoding and the effect of the first name (30_encoding.md R99). -/
theorem canonical_same (i : Instr) (s : State) : encode i.canonical = encode i ∧ exec i.canonical s = exec i s := by
  unfold Instr.canonical
  split <;> exact ⟨rfl, rfl⟩

open Laws.EncodedSize in
/-- Every encoding has one to five bytes, by the shape of its operands (30_encoding.md R90). -/
theorem encodedSize (i : Instr) : Laws.EncodedSize.Statement i := by
  cases i with
  | aba | abx | asla | aslb | asld | asra | asrb | cba | clc | cli | clra | clrb | clv | coma | comb | daa | deca
  | decb | des | dex | fdiv | idiv | inca | incb | ins | inx | lsla | lslb | lsld | lsra | lsrb | lsrd | mul | nega
  | negb | nop | psha | pshb | pshx | pula | pulb | pulx | rola | rolb | rora | rorb | rti | rts | sba | sec | sei
  | sev | stop | swi | tab | tap | tba | test | tpa | tsta | tstb | tsx | txs | wai | xgdx =>
    exact of_one _
  | aby | bcc rr | bcs rr | beq rr | bge rr | bgt rr | bhi rr | bhs rr | ble rr | blo rr | bls rr | blt rr | bmi rr
  | bne rr | bpl rr | bra rr | brn rr | bsr rr | bvc rr | bvs rr | dey | iny | pshy | puly | tsy | tys | xgdy =>
    exact of_two _ _
  | adca m | adcb m | adda m | addb m | anda m | andb m | bita m | bitb m | cmpa m | cmpb m | eora m | eorb m
  | ldaa m | ldab m | oraa m | orab m | sbca m | sbcb m | suba m | subb m =>
    exact of_encode8 _ m
  | addd m | cpd m | cpx m | cpy m | ldd m | lds m | ldx m | ldy m | subd m =>
    exact of_encode16 _ _ _ _ m (by simp) (by simp) (by simp)
  | asl ea | asr ea | clr ea | com ea | dec ea | inc ea | jmp ea | lsl ea | lsr ea | neg ea | rol ea | ror ea
  | tst ea =>
    exact of_encodeExt _ ea
  | bclr ea mm | brclr ea mm rr | brset ea mm rr | bset ea mm =>
    exact of_encodeBit _ _ _ ea (by simp)
  | jsr ea | staa ea | stab ea | std ea | sts ea | stx ea | sty ea =>
    exact of_encodeFull _ _ _ _ ea (by simp) (by simp) (by simp)

/-- Settles O5: second names are `canonical_same`, and NEXT is defined by the length of the encoding. -/
theorem secondNamesAndLengthsOfEncodings : Obligations.SecondNamesAndLengthsOfEncodings := by
  intro i s
  obtain ⟨code, effect⟩ := canonical_same i s
  obtain ⟨least, most⟩ := encodedSize i
  exact ⟨code, effect, rfl, least, most⟩

/-! ### After reset -/

/-- Settles O9: memory lists nothing after reset, and no latch is set. -/
theorem resetMeetsTheMachineInvariant : Obligations.ResetMeetsTheMachineInvariant where
  mem := rfl
  written := rfl
  listed _ differs := absurd rfl differs
  option := rfl
  adctl := rfl
  baud := rfl
  sccr1 := rfl
  scsr := rfl
  sciArmed := rfl
  spsr := rfl
  spiArmed := rfl
  ddr := rfl

/-- After reset both masks are set and no device requests, so nothing is recognised. -/
theorem recognised_reset (p : Pins) : recognised { State.reset with pins := p } = none := by
  simp [recognised, State.reset]

/-- Settles O51: the values are those written in `State.reset`. -/
theorem resetStateHoldsTheStatedValues : Obligations.ResetStateHoldsTheStatedValues := by
  rintro t rfl
  exact ⟨rfl, rfl, rfl, rfl, rfl, rfl, rfl, rfl, rfl, rfl, rfl, rfl, rfl, rfl, rfl, rfl, rfl, rfl, rfl, rfl, rfl, rfl,
    rfl, rfl, rfl, rfl, recognised_reset⟩

end Sys2Proof.Machine
end

section
/-!
PROOF. The registers of the SCI, of the SPI and of port D as the CPU reads and writes them, and the turns of the SPI
(10_state.md R40 to R48, 60_exceptions.md R437 to R452).
-/

namespace Sys2Proof.Machine

/-! ### Bits of a register -/

/-- The flags that an acknowledgement of a mask leaves: those it does not name, and those whose latch is not set. -/
theorem getLsbD_acknowledged (flags armed mask : Byte) {f : Nat} (hf : f < 8) :
    (flags &&& ~~~(armed &&& mask)).getLsbD f = (flags.getLsbD f && !(mask.getLsbD f && armed.getLsbD f)) := by
  simp [hf, Bool.or_comm]

/-- The latches that an acknowledgement of a mask leaves. -/
theorem getLsbD_disarmed (armed mask : Byte) {f : Nat} (hf : f < 8) :
    (armed &&& ~~~mask).getLsbD f = (armed.getLsbD f && !mask.getLsbD f) := by
  simp [hf]

/-- The latches after a read that arms the flags of a mask. -/
theorem getLsbD_armed (armed flags mask : Byte) (f : Nat) :
    (armed ||| (flags &&& mask)).getLsbD f = (armed.getLsbD f || (mask.getLsbD f && flags.getLsbD f)) := by
  simp [Bool.and_comm]

theorem mask_7_6 : ∀ f < 8, (0xC0 : Byte).getLsbD f = decide (f = 7 ∨ f = 6) := by decide

theorem mask_5_to_1 : ∀ f < 8, (0x3E : Byte).getLsbD f = decide (1 ≤ f ∧ f ≤ 5) := by decide

theorem mask_7_to_1 : ∀ f < 8, (0xFE : Byte).getLsbD f = decide (f ≠ 0) := by decide

theorem mask_7_6_4 : ∀ f < 8, (0xD0 : Byte).getLsbD f = decide (f = 7 ∨ f = 6 ∨ f = 4) := by decide

theorem mask_4 : ∀ f < 8, (0x10 : Byte).getLsbD f = decide (f = 4) := by decide

theorem mask_6 : ∀ f < 8, (0x40 : Byte).getLsbD f = decide (f = 6) := by decide

/-! ### The SCI -/

/-- Settles O56: each access is the read or the write of its register, bit by bit through the masks. -/
theorem sciRegisterAccesses : Obligations.SciRegisterAccesses := by
  intro s v f hf sr dr br c1 c2
  have armSr : touch sr s = { s with sci := s.sci.arm } := touch_register s 0x2E (by decide)
  have writeDr : poke dr v s = { s with sci := s.sci.writeData v } := poke_register s 0x2F (by decide) v
  have readDr : touch dr s = { s with sci := s.sci.acknowledge 0x3E } := touch_register s 0x2F (by decide)
  have meaning : canWrite s.cfg br v = !(v.getLsbD 7 || v.getLsbD 3) := canWrite_register s 0x2B (by decide) v
  refine ⟨meaning.trans (Bool.not_or ..), fun _ => poke_register s 0x2B (by decide) v,
    poke_register s 0x2C (by decide) v, poke_register s 0x2D (by decide) v, peek_register s 0x2B (by decide), touch_register s 0x2B (by decide),
    peek_register s 0x2C (by decide), touch_register s 0x2C (by decide), peek_register s 0x2D (by decide),
    touch_register s 0x2D (by decide), peek_register s 0x2E (by decide), ?_, ?_, poke_register s 0x2E (by decide) v,
    ?_, ?_, ?_, ?_, ?_, peek_register s 0x2F (by decide), ?_, ?_, ?_, ?_⟩
  · rw [armSr]; rfl
  · rw [armSr, ← mask_7_to_1 f hf]; exact getLsbD_armed ..
  · rw [writeDr]; rfl
  · rw [writeDr]; rfl
  · rw [writeDr]
    show (s.sci.scsr &&& ~~~(s.sci.armed &&& 0xC0)).getLsbD 7 = (s.sci.scsr.getLsbD 7 && !s.sci.armed.getLsbD 7)
    exact getLsbD_acknowledged _ _ _ (by decide)
  · rw [writeDr, ← mask_7_6 f hf]; exact getLsbD_acknowledged _ _ _ hf
  · rw [writeDr, ← mask_7_6 f hf]; exact getLsbD_disarmed _ _ hf
  · rw [readDr]; rfl
  · rw [readDr]; rfl
  · rw [readDr, ← mask_5_to_1 f hf]; exact getLsbD_acknowledged _ _ _ hf
  · rw [readDr, ← mask_5_to_1 f hf]; exact getLsbD_disarmed _ _ hf

/-! ### The SPI -/

/-- A write to SPDR while a transfer is in progress collides. -/
theorem Spi.writeData_busy {d : Spi} (v : Byte) (h : d.busy = true) :
    d.writeData v = { d.acknowledge 0xC0 with spsr := (d.acknowledge 0xC0).spsr ||| 0x40 } :=
  if_pos h

/-- A write to SPDR while no transfer is in progress loads the shifter. -/
theorem Spi.writeData_free {d : Spi} (v : Byte) (h : d.busy = false) :
    d.writeData v = { d.acknowledge 0xC0 with shift := v, busy := d.spe && d.mstr } :=
  if_neg (Bool.eq_false_iff.mp h)

/-- A write to SPDR clears both latches it acknowledges, collision or not. -/
theorem Spi.writeData_armed (d : Spi) (v : Byte) : (d.writeData v).armed = d.armed &&& ~~~0xC0 := by
  cases h : d.busy
  · rw [Spi.writeData_free v h]; rfl
  · rw [Spi.writeData_busy v h]; rfl

/-- Settles O59: each access is the read or the write of its register, bit by bit through the masks. -/
theorem spiRegisterAccesses : Obligations.SpiRegisterAccesses := by
  intro s v f hf cr sr dr cleared disarmed
  have armSr : touch sr s = { s with spi := s.spi.arm } := touch_register s 0x29 (by decide)
  have readDr : touch dr s = { s with spi := s.spi.acknowledge 0xC0 } := touch_register s 0x2A (by decide)
  have writeDr : poke dr v s = { s with spi := s.spi.writeData v } := poke_register s 0x2A (by decide) v
  have writeCr : poke cr v s = { s with spi := s.spi.writeControl v } := poke_register s 0x28 (by decide) v
  have clears : (s.spi.acknowledge 0xC0).spsr.getLsbD f = cleared :=
    (getLsbD_acknowledged _ _ _ hf).trans (by rw [mask_7_6 f hf])
  have disarms : (s.spi.armed &&& ~~~0xC0).getLsbD f = disarmed :=
    (getLsbD_disarmed _ _ hf).trans (by rw [mask_7_6 f hf])
  refine ⟨peek_register s 0x28 (by decide), touch_register s 0x28 (by decide), peek_register s 0x29 (by decide), ?_, ?_,
    poke_register s 0x29 (by decide) v, peek_register s 0x2A (by decide), ?_, ?_, ?_, ?_, ?_, fun busy => ?_,
    fun free => ?_, ?_, ?_⟩
  · rw [armSr]; rfl
  · rw [armSr, ← mask_7_6_4 f hf]; exact getLsbD_armed ..
  · rw [readDr]; rfl
  · rw [readDr]; exact clears
  · rw [readDr]; exact disarms
  · rw [writeDr, Spi.writeData_armed]; exact disarms
  · rw [writeCr, ← mask_4 f hf]; exact getLsbD_disarmed _ _ hf
  · rw [writeDr, Spi.writeData_busy v busy, ← mask_6 f hf, ← clears]
    exact ⟨BitVec.getLsbD_or .., rfl, busy⟩
  · rw [writeDr, Spi.writeData_free v free]
    exact ⟨clears, rfl, rfl⟩
  · rw [writeCr]; rfl
  · rw [writeCr, ← mask_4 f hf]; exact getLsbD_acknowledged _ _ _ hf

/-! ### The turns of the SPI -/

/-- The turn is a device's: neither the CPU's nor the pins' (60_exceptions.md R429). -/
def Turn.isDevice : Turn → Bool
  | .cpu => false
  | .pins _ => false
  | _ => true

/-- A turn of a device while the clocks run. -/
theorem step_of_deviceTurn {s : State} {x : Turn} {ts : List Turn} (turns : s.turns = x :: ts)
    (device : x.isDevice = true) (clocks : s.runState ≠ .stop) :
    step s = .next (deviceStep x { s with turns := ts }) := by
  cases x with
  | cpu => cases device
  | pins p => cases device
  | _ => simp [step, turns, agentStep, clocks]

/-- The read buffer after a transfer: the byte received, or the byte before where it was unread. -/
theorem Spi.received_rbuf (v : Byte) (old : Bool) (d : Spi) :
    (d.received v old).rbuf = v ∨ (d.spif = true ∧ (d.received v old).rbuf = d.rbuf) := by
  show (if d.spif && old then d.rbuf else v) = v ∨ (d.spif = true ∧ (if d.spif && old then d.rbuf else v) = d.rbuf)
  split
  next keeps => exact .inr ⟨(Bool.and_eq_true_iff.mp keeps).1, rfl⟩
  next => exact .inl rfl

/-- Where its guard fails, the end of a master's transfer changes nothing. -/
theorem spiMasterDone_idle {s : State} {v : Byte} (h : s.spi.busy = false ∨ s.spi.mstr = false ∨ s.spi.spe = false) :
    spiMasterDone v s = s :=
  if_neg (by rcases h with h | h | h <;> simp [h])

theorem spiSlaveBegin_idle {s : State}
    (h : s.spi.spe = false ∨ s.spi.mstr = true ∨ s.spi.busy = true ∨ s.pins.ss = false) : spiSlaveBegin s = s :=
  if_neg (by rcases h with h | h | h | h <;> simp [h])

theorem spiSlaveDone_idle {s : State} {v : Byte} (h : s.spi.busy = false ∨ s.spi.mstr = true ∨ s.spi.spe = false) :
    spiSlaveDone v s = s :=
  if_neg (by rcases h with h | h | h <;> simp [h])

theorem spiModeFault_idle {s : State}
    (h : s.spi.spe = false ∨ s.spi.mstr = false ∨ s.portD.ddr.getLsbD 5 = true ∨ s.pins.ss = false) :
    spiModeFault s = s :=
  if_neg (by rcases h with h | h | h | h <;> simp only [h] <;> simp)

/-- Settles O60: each turn is its guard and, where the guard holds, the one update it makes. -/
theorem spiTransferAndModeFaultSteps : Obligations.SpiTransferAndModeFaultSteps := by
  intro s ts d
  refine ⟨⟨poke_register s 0x09 (by decide) d, poke_register s 0x08 (by decide) d, peek_register s 0x09 (by decide),
    touch_register s 0x09 (by decide), touch_register s 0x08 (by decide)⟩, fun clocks => ⟨?_, ?_, ?_, ?_, ?_⟩⟩
  · intro turns busy mstr spe
    have moves : spiMasterDone d { s with turns := ts } = _ := if_pos (by simp [busy, mstr, spe])
    refine ⟨_, (step_of_deviceTurn turns rfl clocks).trans (congrArg _ moves), rfl, ?_, rfl, rfl, rfl, rfl, rfl⟩
    exact s.spi.received_rbuf d (freeBit s.draws)
  · intro turns spe mstr busy ss
    have moves : spiSlaveBegin { s with turns := ts } = _ := if_pos (by simp [busy, mstr, spe, ss])
    exact (step_of_deviceTurn turns rfl clocks).trans (congrArg _ moves)
  · intro turns busy mstr spe
    have moves : spiSlaveDone d { s with turns := ts } = _ := if_pos (by simp [busy, mstr, spe])
    refine ⟨_, (step_of_deviceTurn turns rfl clocks).trans (congrArg _ moves), rfl, ?_, rfl, rfl, rfl, rfl, rfl⟩
    exact s.spi.received_rbuf d (freeBit s.draws)
  · intro turns spe mstr ddr ss
    have moves : spiModeFault { s with turns := ts } = _ := if_pos (by simp only [mstr, spe, ss, ddr]; rfl)
    exact (step_of_deviceTurn turns rfl clocks).trans (congrArg _ moves)
  · rintro (⟨turns, h⟩ | ⟨turns, h⟩ | ⟨turns, h⟩ | ⟨turns, h⟩) <;> refine (step_of_deviceTurn turns rfl clocks).trans ?_
    · exact congrArg _ (spiMasterDone_idle h)
    · exact congrArg _ (spiSlaveBegin_idle h)
    · exact congrArg _ (spiSlaveDone_idle h)
    · exact congrArg _ (spiModeFault_idle h)

end Sys2Proof.Machine
end

section
/-!
PROOF. The A/D registers as the CPU reads and writes them, and the conversions of a cycle
(10_state.md R36 to R39, 60_exceptions.md R430 to R434).
-/

namespace Sys2Proof.Machine

/-- The input of the k-th conversion as a number: the one chosen, or the k-th of its group (60_exceptions.md R431). -/
theorem Adc.channel_eq (d : Adc) : d.channel =
    BitVec.ofNat 4 (if d.mult then d.adctl.toNat / 4 % 4 * 4 + d.k.toNat else d.adctl.toNat % 16) := by
  have group : ∀ (v : Byte) (k : BitVec 2),
      v.extractLsb' 2 2 ++ k = BitVec.ofNat 4 (v.toNat / 4 % 4 * 4 + k.toNat) := by decide
  have single : ∀ v : Byte, v.extractLsb' 0 4 = BitVec.ofNat 4 (v.toNat % 16) := by decide
  unfold Adc.channel
  split
  · exact group _ _
  · exact single _

/-- The converter after a conversion whose result is `v`: the result in the register in hand, and after the fourth CCF
and then the next cycle or none (60_exceptions.md R433). -/
def Adc.converted (d : Adc) (v : Byte) : Adc :=
  { d with
    adctl := if d.k = 3 then d.adctl ||| 0x80 else d.adctl
    adr1 := if d.k = 0 then v else d.adr1
    adr2 := if d.k = 1 then v else d.adr2
    adr3 := if d.k = 2 then v else d.adr3
    adr4 := if d.k = 3 then v else d.adr4
    k := if d.k = 3 then (if d.scan then 0 else 3) else d.k + 1
    active := decide (d.k ≠ 3) || d.scan }

/-- `Adc.converted` is what the model makes of a conversion in a cycle. -/
theorem Adc.advance_storeResult {d : Adc} (active : d.active = true) (v : Byte) :
    (d.storeResult v).advance = d.converted v := by
  obtain ⟨option, adctl, adr1, adr2, adr3, adr4, k, _⟩ := d
  obtain rfl := active
  have values : ∀ k : BitVec 2, k = 0 ∨ k = 1 ∨ k = 2 ∨ k = 3 := by decide
  obtain rfl | rfl | rfl | rfl := values k
  case inr.inr.inr =>
    show (if adctl.getLsbD 5 then (⟨option, adctl ||| 0x80, adr1, adr2, adr3, v, 0, true⟩ : Adc)
      else ⟨option, adctl ||| 0x80, adr1, adr2, adr3, v, 3, false⟩) = ⟨option, adctl ||| 0x80, adr1, adr2, adr3, v,
        if adctl.getLsbD 5 then 0 else 3, adctl.getLsbD 5⟩
    cases adctl.getLsbD 5 <;> rfl
  all_goals rfl

/-! #### The four conversions of a cycle -/

theorem Adc.converted_first {d : Adc} {v : Byte} (active : d.active = true) (k : d.k = 0) :
    d.converted v = { d with adr1 := v, k := 1 } := by
  obtain ⟨⟩ := d
  cases active
  cases k
  rfl

theorem Adc.converted_second {d : Adc} {v : Byte} (active : d.active = true) (k : d.k = 1) :
    d.converted v = { d with adr2 := v, k := 2 } := by
  obtain ⟨⟩ := d
  cases active
  cases k
  rfl

theorem Adc.converted_third {d : Adc} {v : Byte} (active : d.active = true) (k : d.k = 2) :
    d.converted v = { d with adr3 := v, k := 3 } := by
  obtain ⟨⟩ := d
  cases active
  cases k
  rfl

theorem Adc.converted_fourth {d : Adc} {v : Byte} (k : d.k = 3) :
    d.converted v =
      { d with adctl := d.adctl ||| 0x80, adr4 := v, k := if d.scan then 0 else 3, active := d.scan } := by
  obtain ⟨⟩ := d
  cases k
  rfl

/-! #### The turns of the converter -/

/-- A turn of the converter that is on, with a cycle in progress. -/
theorem step_of_conversion {s : State} {v : Byte} {ts : List Turn} (turns : s.turns = .adcConvert v :: ts)
    (clocks : s.runState ≠ .stop) (on : s.adc.adpu = true) (active : s.adc.active = true) :
    step s = .next { s with turns := ts, adc := s.adc.converted (sample s.adc.channel v) } := by
  refine (step_of_deviceTurn turns rfl clocks).trans (congrArg _ ?_)
  exact ((if_pos active).trans (if_pos on)).trans (by rw [Adc.advance_storeResult active])

/-- A turn of the converter that is off, with a cycle in progress: the result is a free value. -/
theorem step_of_conversion_off {s : State} {v : Byte} {ts : List Turn} (turns : s.turns = .adcConvert v :: ts)
    (clocks : s.runState ≠ .stop) (off : s.adc.adpu = false) (active : s.adc.active = true) :
    step s = .next
      { s with turns := ts, draws := s.draws + 1, adc := s.adc.converted (freeByte s.draws) } := by
  refine (step_of_deviceTurn turns rfl clocks).trans (congrArg _ ?_)
  exact ((if_pos active).trans (if_neg (Bool.eq_false_iff.mp off))).trans (by rw [Adc.advance_storeResult active]; rfl)

/-- A run that begins with a turn of the converter that is on. -/
theorem run_of_conversion {n : Nat} {s : State} {v : Byte} {ts : List Turn} {d : Adc}
    (turns : s.turns = .adcConvert v :: ts) (clocks : s.runState ≠ .stop) (on : s.adc.adpu = true)
    (active : s.adc.active = true) (result : s.adc.converted (sample s.adc.channel v) = d) :
    Host.Core.run core (n + 1) s = Host.Core.run core n { s with turns := ts, adc := d } := by
  simp [Host.Core.run, core, step_of_conversion turns clocks on active, result]

/-- Settles O55: the four conversions of a cycle, each by `step_of_conversion`. -/
theorem adcCycleFillsTheFourRegisters : Obligations.AdcCycleFillsTheFourRegisters := by
  intro s v v1 v2 v3 v4 ts block
  refine ⟨poke_register s 0x39 (by decide) v, poke_register s 0x30 (by decide) v, peek_register s 0x39 (by decide),
    touch_register s 0x39 (by decide), peek_register s 0x30 (by decide), touch_register s 0x30 (by decide), ?_, ?_, ?_,
    ?_⟩
  · intro a ha
    simp only [List.mem_cons, List.not_mem_nil, or_false] at ha
    obtain rfl | rfl | rfl | rfl := ha
    · exact ⟨poke_register s 0x31 (by decide) v, touch_register s 0x31 (by decide)⟩
    · exact ⟨poke_register s 0x32 (by decide) v, touch_register s 0x32 (by decide)⟩
    · exact ⟨poke_register s 0x33 (by decide) v, touch_register s 0x33 (by decide)⟩
    · exact ⟨poke_register s 0x34 (by decide) v, touch_register s 0x34 (by decide)⟩
  · intro on
    exact ⟨(peek_register s 0x31 (by decide)).trans (if_pos on), (peek_register s 0x32 (by decide)).trans (if_pos on),
      (peek_register s 0x33 (by decide)).trans (if_pos on), (peek_register s 0x34 (by decide)).trans (if_pos on)⟩
  · intro turns clocks on active start input
    refine Eq.trans (run_of_conversion turns clocks on active (Adc.converted_first active start)) ?_
    refine Eq.trans (run_of_conversion rfl clocks on active (Adc.converted_second active rfl)) ?_
    refine Eq.trans (run_of_conversion rfl clocks on active (Adc.converted_third active rfl)) ?_
    refine Eq.trans (run_of_conversion rfl clocks on active (Adc.converted_fourth rfl)) ?_
    simp only [Adc.channel_eq, start]
    rfl
  · intro turns clocks
    refine ⟨fun idle => ?_, fun active off => ⟨freeByte s.draws, step_of_conversion_off turns clocks off active⟩⟩
    refine (step_of_deviceTurn turns rfl clocks).trans (congrArg _ ?_)
    exact if_neg (Bool.eq_false_iff.mp idle)

end Sys2Proof.Machine
end

section
/-!
PROOF. The kinds of address: what a read returns after a write, and which writes are dropped (20_memory.md R60, R64, R70,
R73).
-/

namespace Sys2Proof.Machine

/-- A write keeps the canonical form of memory. -/
theorem poke_mem_wf {s : State} (a : Word) (v : Byte) (wf : s.mem.wf = true) : (poke a v s).mem.wf = true := by
  rw [poke_mem]
  split
  · exact Memory.wf_set wf a.isLt
  · exact wf

/-- RAM returns the byte written to it (20_memory.md R73). -/
theorem peek_poke_self {s : State} {a : Word} (v : Byte) (wf : s.mem.wf = true) (ram : kindOf s.cfg a = .ram) :
    peek a (poke a v s) = v := by
  rw [peek_of_memory (by rw [poke_cfg]; exact .inl ram), poke_mem, if_pos ram, Memory.get_set wf, if_pos rfl]

/-- A write leaves what a read of another address of memory returns. -/
theorem peek_poke_of_ne {s : State} {a b : Word} (v : Byte) (ne : b ≠ a)
    (memory : kindOf s.cfg b = .ram ∨ kindOf s.cfg b = .rom) : peek b (poke a v s) = peek b s := by
  rw [peek_of_memory (by rwa [poke_cfg]), peek_of_memory memory]
  exact poke_mem_get_ne v s fun e => ne (BitVec.eq_of_toNat_eq e)

/-- ROM and NONE drop what is written to them (20_memory.md R70). -/
theorem poke_of_dropped {s : State} {a : Word} (v : Byte) (dropped : kindOf s.cfg a = .rom ∨ kindOf s.cfg a = .none) :
    poke a v s = s := by
  obtain h | h := dropped <;> simp [poke, h]

theorem initialised_of_rom {s : State} {a : Word} (rom : kindOf s.cfg a = .rom) : s.initialised a = true := by
  simp [State.initialised, rom]

theorem initialised_of_outside {s : State} {a : Word} (outside : kindOf s.cfg a = .device ∨ kindOf s.cfg a = .none) :
    s.initialised a = false := by
  obtain h | h := outside <;> simp [State.initialised, h]

/-- The device block wins over every region (20_memory.md R70). -/
theorem kindOf_register (s : State) {k : Nat} (hk : k < 64) :
    kindOf s.cfg (s.cfg.regBase + BitVec.ofNat 16 k) = .device := by
  rw [kindOf, blockOffset_register s k hk, if_pos hk]

/-- A word written to RAM has its high byte at the lower address (20_memory.md R60). -/
theorem peek_pokeWord {s : State} {a : Word} (w : Word) (wf : s.mem.wf = true) (high : kindOf s.cfg a = .ram)
    (low : kindOf s.cfg (a + 1) = .ram) :
    peek a (pokeWord a w s) = highByte w ∧ peek (a + 1) (pokeWord a w s) = lowByte w := by
  have other : a ≠ a + 1 := by bv_omega
  constructor
  · rw [pokeWord, peek_poke_of_ne _ other (by rw [poke_cfg]; exact .inl high)]
    exact peek_poke_self _ wf high
  · exact peek_poke_self _ (poke_mem_wf a _ wf) (by rwa [poke_cfg])

/-- A word written to RAM reads back. -/
theorem peekWord_pokeWord {s : State} {a : Word} (w : Word) (wf : s.mem.wf = true) (high : kindOf s.cfg a = .ram)
    (low : kindOf s.cfg (a + 1) = .ram) : peekWord a (pokeWord a w s) = w := by
  obtain ⟨readHigh, readLow⟩ := peek_pokeWord w wf high low
  have quiet : touch a (pokeWord a w s) = pokeWord a w s :=
    touch_of_memory (by rw [pokeWord, poke_cfg, poke_cfg]; exact .inl high)
  rw [peekWord, quiet, readHigh, readLow, joinBytes_highByte_lowByte]

/-- Settles O53: the rules of a read after a write, kind by kind. -/
theorem memoryKindsReadAndWrite : Obligations.MemoryKindsReadAndWrite := by
  intro s a v wf
  refine ⟨fun ram => ⟨peek_poke_self v wf ram, fun b => peek_poke_of_ne v⟩, fun b => ?_, initialised_of_rom,
    initialised_of_outside, poke_of_dropped v, touch_of_memory, fun high low w => ?_, fun k => kindOf_register s⟩
  · rw [poke_initialised, Bool.or_eq_true, decide_eq_true_eq]
  · obtain ⟨readHigh, readLow⟩ := peek_pokeWord w wf high low
    exact ⟨readHigh, readLow, peekWord_pokeWord w wf high low⟩

end Sys2Proof.Machine
end

section
/-!
PROOF. The instructions that store or modify memory, or branch on a byte of it, each by the law of its access and the law
of its flags (20_memory.md R65, 45_load_store_stack.md, 40_arithmetic.md, 41_logic_compare.md, 43_branch_jump.md,
44_bit_ccr.md).
-/

namespace Sys2Proof.Machine

/-- A store of a byte completes where the byte can be written. -/
theorem complete_storeByte {a : Word} {v : Byte} {s : State} {pc : Word} (write : canWrite s.cfg a v = true) :
    complete pc (storeByte a v (logic8 v s.ccr) s) = .next { poke a v s with ccr := logicFlags8 v s.ccr, pc := pc } :=
  complete_eq_next.mpr ⟨_, storeByte_eq_ok.mpr ⟨write, rfl⟩, by rw [logic8_eq]⟩

/-- A store of a word completes where both bytes can be written. -/
theorem complete_storeWord {a v : Word} {s : State} {pc : Word} (write : canWriteWord s.cfg a v = true) :
    complete pc (storeWord a v (logic16 v s.ccr) s) =
      .next { pokeWord a v s with ccr := logicFlags16 v s.ccr, pc := pc } :=
  complete_eq_next.mpr ⟨_, storeWord_eq_ok.mpr ⟨write, rfl⟩, by rw [logic16_eq]⟩

/-- Settles O23: the laws of a byte store and a word store. -/
theorem storesOfBytesAndWords : Obligations.StoresOfBytesAndWords :=
  fun _ _ => ⟨complete_storeByte, complete_storeByte, complete_storeWord, complete_storeWord, complete_storeWord,
    complete_storeWord⟩

/-- A read-modify-write completes, and stores and flags what the law of its operation says. -/
theorem complete_modifyByte_of_law {a : Word} {f : Byte → Ccr → Byte × Ccr} {r : Byte} {g : Ccr} {s : State} {pc : Word}
    (law : f (peek a s) s.ccr = (r, g)) (read : canRead s.cfg a = true) (write : canWrite s.cfg a r = true) :
    complete pc (modifyByte a f s) = .next { poke a r (touch a s) with ccr := g, pc := pc } := by
  have done := complete_modifyByte (f := f) (pc := pc) read (by rwa [law])
  rwa [law] at done

/-- TST completes where its byte can be read: one read, and no write (41_logic_compare.md R191). -/
theorem execTst_eq_next {ea : EaExt} {s : State} (read : canRead s.cfg (addressExt ea s) = true) :
    exec (.tst ea) s = .next
      { touch (addressExt ea s) s with
        ccr := tst8 (peek (addressExt ea s) s) s.ccr, pc := next (.tst ea) s } :=
  complete_eq_next.mpr ⟨_, bind_eq_ok.mpr ⟨_, readByte_eq_ok.mpr ⟨read, rfl, rfl⟩, rfl⟩, rfl⟩

/-- Settles O24: the laws of the operations on one byte, at the byte that was read. -/
theorem memoryIncrementAndComplement : Obligations.MemoryIncrementAndComplement := by
  rintro ea s _ _ rfl rfl read
  refine ⟨complete_modifyByte_of_law (inc8_eq _ _) read, complete_modifyByte_of_law (dec8_eq _ _) read,
    complete_modifyByte_of_law (neg8_eq _ _) read, complete_modifyByte_of_law (com8_eq _ _) read,
    complete_modifyByte_of_law (clr8_eq _) read, ?_⟩
  rw [execTst_eq_next read, tst8_eq]

/-! ### The bits of a mask -/

/-- The masked bits are all 1 exactly where none of their complements is (43_branch_jump.md R249). -/
theorem not_and_eq_zero_iff {w : Nat} {v m : BitVec w} : ~~~v &&& m = 0 ↔ v &&& m = m := by
  simp only [BitVec.eq_of_getLsbD_eq_iff, BitVec.getLsbD_and, BitVec.getLsbD_not]
  refine forall₂_congr fun i hi => ?_
  cases v.getLsbD i <;> cases m.getLsbD i <;> simp [hi]

/-- A branch on a byte completes where the byte can be read. -/
theorem finish_branchOnByte {a n : Word} {taken : Byte → Bool} {p : Prop} [Decidable p] {rr : Byte} {s : State}
    (read : canRead s.cfg a = true) (condition : taken (peek a s) = decide p) :
    finish (readByte a s >>= fun b => .ok (branchIf (taken b.1) n rr b.2)) =
      .next { touch a s with pc := if p then relativeTarget n rr else n } := by
  refine finish_eq_next.mpr (bind_eq_ok.mpr ⟨_, readByte_eq_ok.mpr ⟨read, rfl, rfl⟩, ?_⟩)
  simp [branchIf, branchTarget_eq, condition]

/-- Settles O36: each branch tests the byte it has read once. -/
theorem bitBranchesReadTheByteOnce : Obligations.BitBranchesReadTheByteOnce := by
  rintro ea mm rr s _ rfl read
  exact ⟨finish_branchOnByte (taken := fun v => decide (v &&& mm = 0)) read rfl,
    finish_branchOnByte (taken := fun v => decide (~~~v &&& mm = 0)) read (decide_eq_decide.mpr not_and_eq_zero_iff)⟩

/-- Settles O38: the bits given determine the result, which `logic8_eq` gives its flags. -/
theorem bitClearAndBitSetInMemory : Obligations.BitClearAndBitSetInMemory := by
  rintro ea mm s _ rfl read r
  refine ⟨fun bits write => ?_, fun bits write => ?_⟩
  · have result : peek (addressBit ea s) s &&& ~~~mm = r :=
      BitVec.eq_of_getLsbD_eq fun k hk => by
        rw [bits k hk, BitVec.getLsbD_and, BitVec.getLsbD_not, decide_eq_true hk, Bool.true_and]
    exact complete_modifyByte_of_law (by rw [result, logic8_eq]) read write
  · have result : peek (addressBit ea s) s ||| mm = r :=
      BitVec.eq_of_getLsbD_eq fun k hk => by rw [bits k hk, BitVec.getLsbD_or]
    exact complete_modifyByte_of_law (by rw [result, logic8_eq]) read write

end Sys2Proof.Machine
end

section
/-!
PROOF. What an instruction leaves of the devices and of the count of free values (20_memory.md R65, R71), and what a turn
of another agent leaves of the CPU and memory (20_memory.md R77, 60_exceptions.md R420, R429).
-/

namespace Sys2Proof.Machine

/-! ### The devices after accesses -/

/-- Accesses that write no device register leave the converter and port D alone. -/
theorem afterAccesses_adc_portD {l : List Access} {s : State}
    (h : ∀ a v, Access.write a v ∈ l → kindOf s.cfg a ≠ .device) :
    (afterAccesses l s).adc = s.adc ∧ (afterAccesses l s).portD = s.portD := by
  induction l generalizing s with
  | nil => exact ⟨rfl, rfl⟩
  | cons x l ih =>
    cases x with
    | read a =>
      obtain ⟨adc, portD⟩ := ih (s := touch a s) fun b v hb => by
        rw [touch_cfg]; exact h b v (List.mem_cons_of_mem _ hb)
      exact ⟨adc.trans (touch_adc a s), portD.trans (touch_portD a s)⟩
    | write a v =>
      obtain ⟨adc', -, -, portD'⟩ := poke_devices (v := v) (h a v List.mem_cons_self)
      obtain ⟨adc, portD⟩ := ih (s := poke a v s) fun b w hb => by
        rw [poke_cfg]; exact h b w (List.mem_cons_of_mem _ hb)
      exact ⟨adc.trans adc', portD.trans portD'⟩

/-- The address of an access. -/
def Access.address : Access → Word
  | .read a => a
  | .write a _ => a

/-- Accesses outside the device block leave the SCI and the SPI alone. -/
theorem afterAccesses_sci_spi {l : List Access} {s : State} (h : ∀ x ∈ l, kindOf s.cfg x.address ≠ .device) :
    (afterAccesses l s).sci = s.sci ∧ (afterAccesses l s).spi = s.spi := by
  induction l generalizing s with
  | nil => exact ⟨rfl, rfl⟩
  | cons x l ih =>
    have first := h x List.mem_cons_self
    have cfg : (x.after s).cfg = s.cfg := by rw [x.after_eq_withOutside s]; rfl
    have one : (x.after s).sci = s.sci ∧ (x.after s).spi = s.spi := by
      cases x with
      | read a => exact touch_devices first
      | write a v =>
        obtain ⟨-, sci, spi, -⟩ := poke_devices (v := v) first
        exact ⟨sci, spi⟩
    obtain ⟨sci, spi⟩ := ih (s := x.after s) fun y hy => by rw [cfg]; exact h y (List.mem_cons_of_mem x hy)
    exact ⟨sci.trans one.1, spi.trans one.2⟩

/-- Accesses that read memory only draw no free value: a write draws none. -/
theorem afterAccesses_draws {l : List Access} {s : State}
    (h : ∀ a, Access.read a ∈ l → kindOf s.cfg a = .ram ∨ kindOf s.cfg a = .rom) :
    (afterAccesses l s).draws = s.draws := by
  induction l generalizing s with
  | nil => rfl
  | cons x l ih =>
    cases x with
    | read a =>
      rw [afterAccesses, Access.after, touch_of_memory (h a List.mem_cons_self)]
      exact ih fun b hb => h b (List.mem_cons_of_mem _ hb)
    | write a v =>
      have tail := ih (s := poke a v s) fun b hb => by rw [poke_cfg]; exact h b (List.mem_cons_of_mem _ hb)
      exact tail.trans (poke_draws a v s)

/-! ### The free values an instruction draws -/

/-- The outcome draws the free values its instruction's accesses draw, and no other. -/
def DrawsByAccess (i : Instr) (s : State) (o : StepOutcome) : Prop :=
  ∀ t, o = .next t → t.draws = (afterAccesses (accesses i s) s).draws

section Forms

variable {i : Instr} {s : State}

theorem drawsByAccess_next {t : State} (ha : accesses i s = []) (draws : t.draws = s.draws) :
    DrawsByAccess i s (.next t) := by
  rintro _ ⟨⟩
  rw [ha]
  exact draws

theorem drawsByAccess_finish {l : List Access} {x : Except Refusal State} {t : State} (ha : accesses i s = l)
    (hx : Makes s.cfg l x t) (draws : t.draws = (afterAccesses l s).draws) : DrawsByAccess i s (finish x) := by
  intro u hu
  obtain ⟨-, rfl⟩ | ⟨y, -, r, -, rfl⟩ := hx
  · obtain rfl := Host.Outcome.next.inj hu
    rw [ha]
    exact draws
  · cases hu

/-- Writing PC draws nothing. -/
theorem DrawsByAccess.complete {x : Except Refusal State} {pc : Word} (h : DrawsByAccess i s (finish x)) :
    DrawsByAccess i s (complete pc x) := by
  intro u hu
  obtain ⟨v, hv, rfl⟩ := complete_eq_next.mp hu
  exact h v (finish_eq_next.mpr hv)

theorem drawsByAccess_operand8 {m : Operand8} {f : Byte → State → State}
    (ha : accesses i s = readsOf (operandAddress8 m s).toList ++ []) (hf : ∀ v u, (f v u).draws = u.draws) :
    DrawsByAccess i s (finish (withOperand8 m f s)) :=
  drawsByAccess_finish (ha.trans (List.append_nil _)) (withOperand8_makes m f s) (by rw [hf, after8_eq])

theorem drawsByAccess_operand16 {m : Operand16} {f : Word → State → State}
    (ha : accesses i s = readsOf ((operandAddress16 m s).toList.flatMap wordAddresses) ++ [])
    (hf : ∀ v u, (f v u).draws = u.draws) : DrawsByAccess i s (finish (withOperand16 m f s)) :=
  drawsByAccess_finish (ha.trans (List.append_nil _)) (withOperand16_makes m f s) (by rw [hf, after16_eq])

theorem drawsByAccess_readByte {a : Word} {f : Byte → State → State} (ha : accesses i s = [.read a])
    (hf : ∀ v u, (f v u).draws = u.draws) :
    DrawsByAccess i s (finish (readByte a s >>= fun p => .ok (f p.1 p.2))) :=
  drawsByAccess_finish ha ((readByte_makes a s).map fun p => f p.1 p.2) (hf _ _)

theorem drawsByAccess_modify {a : Word} {f : Byte → Ccr → Byte × Ccr}
    (ha : accesses i s = [.read a, .write a (f (peek a s) s.ccr).1]) :
    DrawsByAccess i s (finish (modifyByte a f s)) :=
  drawsByAccess_finish ha (modifyByte_makes a f s) rfl

theorem drawsByAccess_storeByte {a : Word} {v : Byte} {f : Ccr} (ha : accesses i s = [.write a v]) :
    DrawsByAccess i s (finish (storeByte a v f s)) :=
  drawsByAccess_finish ha (storeByte_makes a v f s) rfl

theorem drawsByAccess_storeWord {a v : Word} {f : Ccr} (ha : accesses i s = writesOf (wordCells a v)) :
    DrawsByAccess i s (finish (storeWord a v f s)) :=
  drawsByAccess_finish ha (storeWord_makes a v f s) rfl

theorem drawsByAccess_push {l : List Byte} {x : Except Refusal State} {f : State → State}
    (ha : accesses i s = writesOf (pushedCells l s.sp))
    (hx : Makes s.cfg (writesOf (pushedCells l s.sp)) x (f (pushed l s))) (hf : ∀ u, (f u).draws = u.draws) :
    DrawsByAccess i s (finish x) :=
  drawsByAccess_finish ha hx (by rw [hf, pushed_eq])

theorem drawsByAccess_pull {n : Nat} {x : Except Refusal State} {f : State → State}
    (ha : accesses i s = readsOf (pullAddresses n s.sp))
    (hx : Makes s.cfg (readsOf (pullAddresses n s.sp)) x (f (pulled n s))) (hf : ∀ u, (f u).draws = u.draws) :
    DrawsByAccess i s (finish x) :=
  drawsByAccess_finish ha hx (by rw [hf, pulled_eq])

theorem drawsByAccess_enter {name : TrapName} {ret : Word} (ha : accesses i s = enterAccesses name ret s) :
    DrawsByAccess i s (finish (enter name ret s)) := by
  refine drawsByAccess_finish ha (enter_makes name ret s) ?_
  obtain ⟨pc, e⟩ := entered_eq name ret s
  rw [e]
  rfl

end Forms

theorem drawsByAccess_stop (s : State) : DrawsByAccess .stop s (exec .stop s) := by
  show DrawsByAccess .stop s (execStop s)
  unfold execStop
  split <;> exact drawsByAccess_next rfl rfl

theorem drawsByAccess_test (s : State) : DrawsByAccess .test s (exec .test s) := by
  show DrawsByAccess .test s (illegalOpcode s)
  unfold illegalOpcode
  split
  · exact drawsByAccess_enter rfl
  · exact fun _ e => (nomatch e)

/-- DAA, IDIV and FDIV draw the values their rules leave undefined; every other instruction draws by its accesses
(40_arithmetic.md R139, R146, R147; 20_memory.md R70, R71). -/
theorem exec_drawsByAccess {i : Instr} (s : State) (notDaa : i ≠ .daa) (notIdiv : i ≠ .idiv) (notFdiv : i ≠ .fdiv) :
    DrawsByAccess i s (exec i s) := by
  cases i
  case daa | idiv | fdiv => contradiction
  case adca m | adcb m | adda m | addb m | anda m | andb m | bita m | bitb m | cmpa m | cmpb m | eora m | eorb m
      | ldaa m | ldab m | oraa m | orab m | sbca m | sbcb m | suba m | subb m =>
    exact .complete (drawsByAccess_operand8 rfl fun _ _ => rfl)
  case addd m | cpd m | cpx m | cpy m | ldd m | lds m | ldx m | ldy m | subd m =>
    exact .complete (drawsByAccess_operand16 rfl fun _ _ => rfl)
  case asl ea | asr ea | com ea | dec ea | inc ea | lsl ea | lsr ea | neg ea | rol ea | ror ea | clr ea =>
    exact .complete (drawsByAccess_modify rfl)
  case bclr ea mm | bset ea mm => exact .complete (drawsByAccess_modify rfl)
  case staa ea | stab ea => exact .complete (drawsByAccess_storeByte rfl)
  case std ea | sts ea | stx ea | sty ea => exact .complete (drawsByAccess_storeWord rfl)
  case tst ea =>
    exact .complete (drawsByAccess_readByte (f := fun v u => { u with ccr := tst8 v s.ccr }) rfl fun _ _ => rfl)
  case brclr ea mm rr =>
    exact drawsByAccess_readByte (f := fun v u => branchIf (decide (v &&& mm = 0)) (next (.brclr ea mm rr) s) rr u) rfl
      fun _ _ => rfl
  case brset ea mm rr =>
    exact drawsByAccess_readByte (f := fun v u => branchIf (decide (~~~v &&& mm = 0)) (next (.brset ea mm rr) s) rr u)
      rfl fun _ _ => rfl
  case bsr rr => exact .complete (drawsByAccess_push (f := id) rfl (push16_makes _ s) fun _ => rfl)
  case jsr ea => exact .complete (drawsByAccess_push (f := id) rfl (push16_makes _ s) fun _ => rfl)
  case pshx | pshy => exact .complete (drawsByAccess_push (f := id) rfl (push16_makes _ s) fun _ => rfl)
  case psha | pshb => exact .complete (drawsByAccess_push (f := id) rfl (push8_makes _ s) fun _ => rfl)
  case wai =>
    exact .complete (drawsByAccess_push (f := fun u => { u with runState := .wait }) rfl ((pushFrame_makes _ s).map _)
      fun _ => rfl)
  case pula =>
    exact .complete (drawsByAccess_pull (f := fun u => { u with a := pulledByte 0 s }) rfl ((pull8_makes s).map _)
      fun _ => rfl)
  case pulb =>
    exact .complete (drawsByAccess_pull (f := fun u => { u with b := pulledByte 0 s }) rfl ((pull8_makes s).map _)
      fun _ => rfl)
  case pulx =>
    exact .complete (drawsByAccess_pull (f := fun u => { u with ix := joinBytes (pulledByte 0 s) (pulledByte 1 s) }) rfl
      ((pull16_makes s).map _) fun _ => rfl)
  case puly =>
    exact .complete (drawsByAccess_pull (f := fun u => { u with iy := joinBytes (pulledByte 0 s) (pulledByte 1 s) }) rfl
      ((pull16_makes s).map _) fun _ => rfl)
  case rts =>
    exact drawsByAccess_pull (f := fun u => { u with pc := joinBytes (pulledByte 0 s) (pulledByte 1 s) }) rfl
      ((pull16_makes s).map _) fun _ => rfl
  case rti =>
    exact drawsByAccess_pull (f := fun u =>
      { u with
        ccr := s.ccr.load (pulledByte 0 s), b := pulledByte 1 s, a := pulledByte 2 s
        ix := joinBytes (pulledByte 3 s) (pulledByte 4 s), iy := joinBytes (pulledByte 5 s) (pulledByte 6 s)
        pc := joinBytes (pulledByte 7 s) (pulledByte 8 s) }) rfl (returnFromTrap_makes s) fun _ => rfl
  case swi => exact drawsByAccess_enter rfl
  case test => exact drawsByAccess_test s
  case stop => exact drawsByAccess_stop s
  all_goals exact drawsByAccess_next rfl rfl

/-- Settles O15: the devices and the count of free values are what the accesses of the instruction leave. -/
theorem devicesFrameOfEveryInstruction : Obligations.DevicesFrameOfEveryInstruction := by
  intro i s t h
  have left := exec_leaves h
  have still (stored : ∀ a ∈ storedAddresses i s, kindOf s.cfg a ≠ .device) : t.adc = s.adc ∧ t.portD = s.portD := by
    obtain ⟨adc, portD⟩ := afterAccesses_adc_portD fun a v hx => stored a (mem_storedAddresses.mpr ⟨v, hx⟩)
    exact ⟨left.adc.trans adc, left.portD.trans portD⟩
  refine ⟨fun outside => ?_, still, fun memory notDaa notIdiv notFdiv => ?_⟩
  · have both : ∀ x ∈ accesses i s, kindOf s.cfg x.address ≠ .device := by
      intro x hx
      obtain ⟨a, ha, rfl⟩ | ⟨c, hc, rfl⟩ := mem_accesses.mp hx
      · exact outside a (List.mem_append_left _ ha)
      · exact outside c.1 (List.mem_append_right _ (List.mem_map_of_mem hc))
    obtain ⟨sci, spi⟩ := afterAccesses_sci_spi both
    obtain ⟨adc, portD⟩ := still fun a ha => outside a (List.mem_append_right _ ha)
    exact ⟨adc, left.sci.trans sci, left.spi.trans spi, portD⟩
  · refine (exec_drawsByAccess s notDaa notIdiv notFdiv t h).trans (afterAccesses_draws fun a ha => ?_)
    simp only [mem_accesses, Access.read.injEq, reduceCtorEq, and_false, exists_false, or_false, exists_eq_right'] at ha
    exact memory a ha

/-! ### The turns of the other agents -/

theorem step_of_turn {s : State} {x : Turn} {ts : List Turn} (turns : s.turns = x :: ts) (notCpu : x ≠ .cpu) :
    step s = .next (agentStep x { s with turns := ts }) := by
  cases x with
  | cpu => contradiction
  | _ => simp [step, turns]

/-- The turn of a device moves only the devices, port D and the count of free values, in every run state. -/
theorem agentStep_of_device {x : Turn} (device : ∀ p, x ≠ .pins p) (s : State) :
    ∃ adc sci spi portD draws,
      agentStep x s = { s with adc := adc, sci := sci, spi := spi, portD := portD, draws := draws } := by
  unfold agentStep
  split
  next p => exact absurd rfl (device p)
  next =>
    split
    · exact ⟨_, _, _, _, _, rfl⟩
    · exact deviceStep_eq x s

/-- Settles O54: the turn of the pins writes the pins, and that of a device what `agentStep_of_device` says. -/
theorem deviceTurnsTouchOnlyTheDevices : Obligations.DeviceTurnsTouchOnlyTheDevices := by
  intro s x ts turns notCpu
  refine ⟨_, step_of_turn turns notCpu, ?_⟩
  by_cases pins : ∃ p, x = .pins p
  · obtain ⟨p, rfl⟩ := pins
    refine ⟨rfl, rfl, rfl, rfl, rfl, rfl, rfl, rfl, rfl, rfl, rfl, rfl, rfl, rfl, ?_, fun device => ?_⟩
    · rintro _ ⟨⟩
      rfl
    · exact absurd rfl (device p)
  · have device : ∀ p, x ≠ .pins p := not_exists.mp pins
    obtain ⟨_, _, _, _, _, e⟩ := agentStep_of_device device { s with turns := ts }
    rw [e]
    exact ⟨rfl, rfl, rfl, rfl, rfl, rfl, rfl, rfl, rfl, rfl, rfl, rfl, rfl, rfl, fun p hp => absurd hp (device p),
      fun _ => rfl⟩

end Sys2Proof.Machine
end

section
/-!
PROOF. The fetch that gives no instruction: an illegal encoding, and bytes that run out of memory (20_memory.md R76,
30_encoding.md R98, 60_exceptions.md R415).
-/

namespace Sys2Proof.Machine

/-! ### The bytes that can be fetched -/

theorem fetchable_of_memory {cfg : Config} {a : Word} (h : kindOf cfg a = .ram ∨ kindOf cfg a = .rom) :
    fetchable cfg a = true := by
  obtain h | h := h <;> simp [fetchable, h]

theorem fetchable_of_outside {cfg : Config} {a : Word} (h : kindOf cfg a = .device ∨ kindOf cfg a = .none) :
    fetchable cfg a = false := by
  obtain h | h := h <;> simp [fetchable, h]

/-- The address `k` bytes after the next one. -/
theorem address_succ (a : Word) (k : Nat) : a + 1 + BitVec.ofNat 16 k = a + BitVec.ofNat 16 (k + 1) := by
  rw [BitVec.add_assoc, BitVec.add_comm 1, BitVec.ofNat_add]
  rfl

/-- Where the first byte that cannot be fetched is the one at `n`, a longer fetch gives the `n` bytes before it. -/
theorem fetchBytes_of_stop {cfg : Config} {mem : Memory} {m n : Nat} {a : Word} (le : n ≤ m)
    (before : ∀ k, k < n → fetchable cfg (a + BitVec.ofNat 16 k) = true)
    (stop : fetchable cfg (a + BitVec.ofNat 16 n) = false) :
    fetchBytes cfg mem m a = fetchBytes cfg mem n a ∧ (fetchBytes cfg mem n a).length = n := by
  induction n generalizing m a with
  | zero =>
    have stop : fetchable cfg a = false := by simpa using stop
    cases m <;> simp [fetchBytes, stop]
  | succ n ih =>
    obtain ⟨m, rfl⟩ : ∃ k, m = k + 1 := ⟨m - 1, by omega⟩
    have first : fetchable cfg a = true := by simpa using before 0 (Nat.succ_pos n)
    obtain ⟨same, length⟩ := ih (m := m) (a := a + 1) (by omega)
      (fun k hk => by rw [address_succ]; exact before (k + 1) (by omega)) (by rwa [address_succ])
    simp only [fetchBytes, if_pos first, same, List.length_cons, length, and_self]

/-! ### The step -/

/-- A step at which the decoder needs a byte that cannot be fetched is refused for the kind of its address
(20_memory.md R76). -/
theorem step_of_truncated {s : State} (running : s.Running) (quiet : recognised s = none)
    (code : decode (fetchWindow s) = .truncated) : step s = .refused (fetchRefusal s) := by
  simp [step_of_running running, quiet, execute, code]

/-- The refusals of a fetch whose first `n` bytes only begin an instruction. -/
theorem step_of_cutFetch {s : State} {n : Nat} (running : s.Running) (quiet : recognised s = none) (short : n < 5)
    (memory : ∀ k, k < n →
      kindOf s.cfg (s.pc + BitVec.ofNat 16 k) = .ram ∨ kindOf s.cfg (s.pc + BitVec.ofNat 16 k) = .rom)
    (code : decode (fetchBytes s.cfg s.mem n s.pc) = .truncated) :
    (kindOf s.cfg (s.pc + BitVec.ofNat 16 n) = .device → step s = .refused .fetchFromDevice)
      ∧ (kindOf s.cfg (s.pc + BitVec.ofNat 16 n) = .none → step s = .refused .fetchFromNone) := by
  have cut (outside : kindOf s.cfg (s.pc + BitVec.ofNat 16 n) = .device
      ∨ kindOf s.cfg (s.pc + BitVec.ofNat 16 n) = .none) :
      step s = .refused (fetchRefusal s) ∧ (fetchWindow s).length = n := by
    obtain ⟨window, length⟩ := fetchBytes_of_stop (mem := s.mem) short.le
      (fun k hk => fetchable_of_memory (memory k hk)) (fetchable_of_outside outside)
    rw [← window] at code length
    exact ⟨step_of_truncated running quiet code, length⟩
  constructor
  · intro device
    obtain ⟨refused, length⟩ := cut (.inl device)
    rw [refused, fetchRefusal, length, device]
  · intro none
    obtain ⟨refused, length⟩ := cut (.inr none)
    rw [refused, fetchRefusal, length, none]

/-- An illegal encoding is what ILLEGAL_OPCODE makes of it (60_exceptions.md R415). -/
theorem step_of_illegal {s : State} (running : s.Running) (quiet : recognised s = none)
    (code : decode (fetchWindow s) = .illegal) : step s = settle s.iDelay (illegalOpcode s) := by
  simp [step_of_running running, quiet, execute, code]

/-- Trap entry leaves I_DELAY clear, so settling it changes nothing (60_exceptions.md R410). -/
theorem settle_enter {name : TrapName} {ret : Word} {s : State} (delayed : Bool) (can : canEnter name ret s = true) :
    settle delayed (finish (enter name ret s)) = .next (entered name ret s) := by
  rw [enter_eq can, finish_ok, settle_next]
  simp [entered]

/-- Settles O7: the trap or the fault of an illegal encoding, and the refusals of a fetch that runs out of memory; a
first byte that cannot be fetched is the case of no byte before it. -/
theorem bytesThatAreNoInstruction : Obligations.BytesThatAreNoInstruction := by
  intro s running quiet
  have cut {n : Nat} := step_of_cutFetch (n := n) running quiet
  obtain ⟨device, none⟩ := cut (n := 0) (by decide) (by simp) rfl
  rw [show s.pc + BitVec.ofNat 16 0 = s.pc from BitVec.add_zero s.pc] at device none
  refine ⟨fun code => ⟨fun trap => ⟨?_, fun can => ?_⟩, fun fault => ?_⟩, device, none, fun n => cut⟩
  · simp [usableVectors, trap]
  · rw [step_of_illegal running quiet code, illegalOpcode, trap]
    exact settle_enter s.iDelay can
  · rw [step_of_illegal running quiet code, illegalOpcode, fault]
    rfl

end Sys2Proof.Machine
end

section
/-!
PROOF. The decoder and the encoder agree: the opcode map, read byte by byte (30_encoding.md R94, R95, R97), holds the
words that the regularities of the table give (R96), and what it leaves out are the illegal encodings (R98).
-/

namespace Sys2Proof

/-! ### The entry that an opcode selects -/

/-- After the bytes `head`, a prebyte if any and the opcode, the decoder reads the operand bytes `p` asks for
(30_encoding.md R94). -/
def Selects (head : List Byte) (p : Shape) : Prop :=
  ∀ operands : List Byte, decode (head ++ operands) = p.complete operands

/-- The shape of an opcode whose operand is one word, its high byte first (30_encoding.md R91). -/
abbrev Shape.word (f : Word → Instr) : Shape := .two fun h l => f (joinBytes h l)

namespace Selects

variable {head : List Byte}

theorem decode_inh {i : Instr} (h : Selects head (.inh i)) (rest : List Byte) :
    decode (head ++ rest) = .instr i rest := h rest

theorem decode_one {f : Byte → Instr} (h : Selects head (.one f)) (b : Byte) (rest : List Byte) :
    decode (head ++ b :: rest) = .instr (f b) rest := h (b :: rest)

/-- A word written high byte first is read back whole (20_memory.md R60). -/
theorem decode_word {f : Word → Instr} (h : Selects head (.word f)) (w : Word) (rest : List Byte) :
    decode (head ++ highByte w :: lowByte w :: rest) = .instr (f w) rest := by
  rw [h, Shape.complete, joinBytes_highByte_lowByte]

end Selects

/-! ### Decoding an encoding, by the form of its operand

The hypotheses of each lemma are the entries of the map at the opcodes the regularities give (30_encoding.md R96). -/

theorem decode_encode8 {op : Byte} {f : Operand8 → Instr}
    (imm : Selects [op] (.one fun ii => f (.imm ii)))
    (dir : Selects [op + 0x10] (.one fun dd => f (.dir dd)))
    (indX : Selects [op + 0x20] (.one fun ff => f (.indX ff)))
    (indY : Selects [0x18, op + 0x20] (.one fun ff => f (.indY ff)))
    (ext : Selects [op + 0x30] (.word fun hhll => f (.ext hhll))) (m : Operand8) (rest : List Byte) :
    decode (encode8 op m ++ rest) = .instr (f m) rest := by
  cases m with
  | imm ii => exact imm.decode_one ii rest
  | dir dd => exact dir.decode_one dd rest
  | indX ff => exact indX.decode_one ff rest
  | indY ff => exact indY.decode_one ff rest
  | ext hhll => exact ext.decode_word hhll rest

theorem decode_encode16 {pre preX preY : List Byte} {op : Byte} {f : Operand16 → Instr}
    (imm : Selects (pre ++ [op]) (.word fun jjkk => f (.imm jjkk)))
    (dir : Selects (pre ++ [op + 0x10]) (.one fun dd => f (.dir dd)))
    (indX : Selects (preX ++ [op + 0x20]) (.one fun ff => f (.indX ff)))
    (indY : Selects (preY ++ [op + 0x20]) (.one fun ff => f (.indY ff)))
    (ext : Selects (pre ++ [op + 0x30]) (.word fun hhll => f (.ext hhll))) (m : Operand16) (rest : List Byte) :
    decode (encode16 pre preX preY op m ++ rest) = .instr (f m) rest := by
  cases m with
  | imm jjkk => simpa [encode16] using imm.decode_word jjkk rest
  | dir dd => simpa [encode16] using dir.decode_one dd rest
  | indX ff => simpa [encode16] using indX.decode_one ff rest
  | indY ff => simpa [encode16] using indY.decode_one ff rest
  | ext hhll => simpa [encode16] using ext.decode_word hhll rest

theorem decode_encodeFull {pre preX preY : List Byte} {op : Byte} {f : EaFull → Instr}
    (dir : Selects (pre ++ [op]) (.one fun dd => f (.dir dd)))
    (indX : Selects (preX ++ [op + 0x10]) (.one fun ff => f (.indX ff)))
    (indY : Selects (preY ++ [op + 0x10]) (.one fun ff => f (.indY ff)))
    (ext : Selects (pre ++ [op + 0x20]) (.word fun hhll => f (.ext hhll))) (ea : EaFull) (rest : List Byte) :
    decode (encodeFull pre preX preY op ea ++ rest) = .instr (f ea) rest := by
  cases ea with
  | dir dd => simpa [encodeFull] using dir.decode_one dd rest
  | indX ff => simpa [encodeFull] using indX.decode_one ff rest
  | indY ff => simpa [encodeFull] using indY.decode_one ff rest
  | ext hhll => simpa [encodeFull] using ext.decode_word hhll rest

theorem decode_encodeExt {op : Byte} {f : EaExt → Instr}
    (indX : Selects [op] (.one fun ff => f (.indX ff)))
    (indY : Selects [0x18, op] (.one fun ff => f (.indY ff)))
    (ext : Selects [op + 0x10] (.word fun hhll => f (.ext hhll))) (ea : EaExt) (rest : List Byte) :
    decode (encodeExt op ea ++ rest) = .instr (f ea) rest := by
  cases ea with
  | indX ff => exact indX.decode_one ff rest
  | indY ff => exact indY.decode_one ff rest
  | ext hhll => exact ext.decode_word hhll rest

/-- BCLR and BSET: the mask follows the address byte (30_encoding.md R91). -/
theorem decode_encodeBit_mask {opDir opInd mm : Byte} {f : EaBit → Byte → Instr}
    (dir : Selects [opDir] (.two fun dd mm => f (.dir dd) mm))
    (indX : Selects [opInd] (.two fun ff mm => f (.indX ff) mm))
    (indY : Selects [0x18, opInd] (.two fun ff mm => f (.indY ff) mm)) (ea : EaBit) (rest : List Byte) :
    decode (encodeBit opDir opInd [mm] ea ++ rest) = .instr (f ea mm) rest := by
  cases ea with
  | dir dd => exact dir (dd :: mm :: rest)
  | indX ff => exact indX (ff :: mm :: rest)
  | indY ff => exact indY (ff :: mm :: rest)

/-- BRCLR and BRSET: the mask and the offset follow the address byte (30_encoding.md R91). -/
theorem decode_encodeBit_branch {opDir opInd mm rr : Byte} {f : EaBit → Byte → Byte → Instr}
    (dir : Selects [opDir] (.three fun dd mm rr => f (.dir dd) mm rr))
    (indX : Selects [opInd] (.three fun ff mm rr => f (.indX ff) mm rr))
    (indY : Selects [0x18, opInd] (.three fun ff mm rr => f (.indY ff) mm rr)) (ea : EaBit) (rest : List Byte) :
    decode (encodeBit opDir opInd [mm, rr] ea ++ rest) = .instr (f ea mm rr) rest := by
  cases ea with
  | dir dd => exact dir (dd :: mm :: rr :: rest)
  | indX ff => exact indX (ff :: mm :: rr :: rest)
  | indY ff => exact indY (ff :: mm :: rr :: rest)

/-- Settles O1, by the form of the operand: every case names the entries of the map that its encodings select, and a
second name is not well formed (30_encoding.md R99). -/
theorem decodeUndoesEncode : Obligations.DecodeUndoesEncode := by
  intro i rest wf
  cases i with
  | lsl | lsla | lslb | lsld | bhs | blo => cases wf
  | aba | abx | aby | asla | aslb | asld | asra | asrb | cba | clc | cli | clra | clrb | clv | coma | comb | daa | deca
  | decb | des | dex | dey | fdiv | idiv | inca | incb | ins | inx | iny | lsra | lsrb | lsrd | mul | nega | negb | nop
  | psha | pshb | pshx | pshy | pula | pulb | pulx | puly | rola | rolb | rora | rorb | rti | rts | sba | sec | sei
  | sev | stop | swi | tab | tap | tba | test | tpa | tsta | tstb | tsx | tsy | txs | tys | wai | xgdx | xgdy =>
    exact Selects.decode_inh (fun _ => rfl) rest
  | bcc rr | bcs rr | beq rr | bge rr | bgt rr | bhi rr | ble rr | bls rr | blt rr | bmi rr | bne rr | bpl rr | bra rr
  | brn rr | bsr rr | bvc rr | bvs rr =>
    exact Selects.decode_one (head := [_]) (fun _ => rfl) rr rest
  | adca m | adcb m | adda m | addb m | anda m | andb m | bita m | bitb m | cmpa m | cmpb m | eora m | eorb m
  | ldaa m | ldab m | oraa m | orab m | sbca m | sbcb m | suba m | subb m =>
    exact decode_encode8 (fun _ => rfl) (fun _ => rfl) (fun _ => rfl) (fun _ => rfl) (fun _ => rfl) m rest
  | addd m | cpd m | cpx m | cpy m | ldd m | lds m | ldx m | ldy m | subd m =>
    exact decode_encode16 (fun _ => rfl) (fun _ => rfl) (fun _ => rfl) (fun _ => rfl) (fun _ => rfl) m rest
  | jsr ea | staa ea | stab ea | std ea | sts ea | stx ea | sty ea =>
    exact decode_encodeFull (fun _ => rfl) (fun _ => rfl) (fun _ => rfl) (fun _ => rfl) ea rest
  | asl ea | asr ea | clr ea | com ea | dec ea | inc ea | jmp ea | lsr ea | neg ea | rol ea | ror ea | tst ea =>
    exact decode_encodeExt (fun _ => rfl) (fun _ => rfl) (fun _ => rfl) ea rest
  | bclr ea mm | bset ea mm =>
    exact decode_encodeBit_mask (fun _ => rfl) (fun _ => rfl) (fun _ => rfl) ea rest
  | brclr ea mm rr | brset ea mm rr =>
    exact decode_encodeBit_branch (fun _ => rfl) (fun _ => rfl) (fun _ => rfl) ea rest

/-- Settles O4: the decoder runs on each word. -/
theorem sampleEncodingsDecode : Obligations.SampleEncodingsDecode := ⟨rfl, rfl, rfl, rfl, rfl, rfl, rfl, rfl⟩

/-! ### The opcode map -/

/-- `p` is the entry of the opcode map at the bytes `head`: an opcode of page 1, or a prebyte and an opcode of its page
(30_encoding.md R92, R94). -/
inductive Entry : List Byte → Shape → Prop
  | page1 {op : Byte} (h : prebytePage op = none) : Entry [op] (page1 op.toNat)
  | prebyte {pre op : Byte} {page : Nat → Shape} (h : prebytePage pre = some page) : Entry [pre, op] (page op.toNat)

theorem Entry.selects {head : List Byte} {p : Shape} (e : Entry head p) : Selects head p := by
  intro operands
  cases e with
  | page1 h => simp [decode, h]
  | prebyte h => simp [decode, h]

/-- Bytes that the decoder does not find cut off begin with an entry of the map. -/
theorem exists_entry_of_decode {bytes : List Byte} (h : decode bytes ≠ .truncated) :
    ∃ head p operands, Entry head p ∧ bytes = head ++ operands := by
  cases bytes with
  | nil => exact (h rfl).elim
  | cons b rest =>
    cases page : prebytePage b with
    | none => exact ⟨[b], _, rest, .page1 page, rfl⟩
    | some => cases rest with
      | nil => exact (h (by simp [decode, page])).elim
      | cons c rest => exact ⟨[b, c], _, rest, .prebyte page, rfl⟩

/-- The three prebytes and their pages (30_encoding.md R92). -/
theorem prebytePage_eq_some {b : Byte} {page : Nat → Shape} (h : prebytePage b = some page) :
    b = 0x18 ∧ page = page18 ∨ b = 0x1A ∧ page = page1A ∨ b = 0xCD ∧ page = pageCD := by
  unfold prebytePage at h
  split_ifs at h with h18 h1A hCD <;> cases h
  · exact .inl ⟨h18, rfl⟩
  · exact .inr (.inl ⟨h1A, rfl⟩)
  · exact .inr (.inr ⟨hCD, rfl⟩)

/-! ### The encoding at an entry -/

/-- Every instruction the shape can complete is encoded as `head` and the operand bytes it is completed from. -/
def Shape.EncodedAfter (head : List Byte) : Shape → Prop
  | .illegal => True
  | .inh i => encode i = head
  | .one f => ∀ b, encode (f b) = head ++ [b]
  | .two f => ∀ b c, encode (f b c) = head ++ [b, c]
  | .three f => ∀ b c d, encode (f b c d) = head ++ [b, c, d]

theorem Shape.EncodedAfter.append_eq {head operands rest : List Byte} {p : Shape} {i : Instr}
    (hp : p.EncodedAfter head) (h : p.complete operands = .instr i rest) : head ++ operands = encode i ++ rest := by
  unfold Shape.complete at h
  split at h <;> cases h
  case h_2 => rw [show encode i = head from hp]
  case h_3 f b => simp [show encode (f b) = _ from hp b]
  case h_4 f b c => simp [show encode (f b c) = _ from hp b c]
  case h_5 f b c d => simp [show encode (f b c d) = _ from hp b c d]

/-- The regularities of the table give page 1 as the map has it, by the two digits of the opcode
(30_encoding.md R95, R96). -/
theorem page1_encodedAfter (op : Nat) : (page1 op).EncodedAfter [BitVec.ofNat 8 op] := by
  suffices h : (page1 op).EncodedAfter [BitVec.ofNat 8 (16 * (op / 16) + op % 16)] by rwa [Nat.div_add_mod] at h
  unfold page1 page1Row0 page1Row1 page1Row2 page1Row3 page1Row4 page1Row5 page1Row6 page1Row7 page1Row8 page1Row9
    page1RowA page1RowB page1RowC page1RowD page1RowE page1RowF
  generalize op / 16 = hi
  generalize op % 16 = lo
  repeat' split
  all_goals simp [Shape.EncodedAfter, encode, encode8, encode16, encodeFull, encodeExt, encodeBit]

theorem page18_encodedAfter (op : Nat) : (page18 op).EncodedAfter [0x18, BitVec.ofNat 8 op] := by
  unfold page18
  split <;> simp [Shape.EncodedAfter, encode, encode8, encode16, encodeFull, encodeExt, encodeBit]

theorem page1A_encodedAfter (op : Nat) : (page1A op).EncodedAfter [0x1A, BitVec.ofNat 8 op] := by
  unfold page1A
  split <;> simp [Shape.EncodedAfter, encode, encode16, encodeFull]

theorem pageCD_encodedAfter (op : Nat) : (pageCD op).EncodedAfter [0xCD, BitVec.ofNat 8 op] := by
  unfold pageCD
  split <;> simp [Shape.EncodedAfter, encode, encode16, encodeFull]

theorem Entry.encodedAfter {head : List Byte} {p : Shape} (e : Entry head p) : p.EncodedAfter head := by
  cases e with
  | @page1 op _ => simpa using page1_encodedAfter op.toNat
  | @prebyte pre op page h =>
    obtain ⟨rfl, rfl⟩ | ⟨rfl, rfl⟩ | ⟨rfl, rfl⟩ := prebytePage_eq_some h
    · simpa using page18_encodedAfter op.toNat
    · simpa using page1A_encodedAfter op.toNat
    · simpa using pageCD_encodedAfter op.toNat

/-- Settles O2: the bytes begin with an entry of the map, and every entry agrees with the encoder. -/
theorem encodeUndoesDecode : Obligations.EncodeUndoesDecode := by
  intro bytes rest i h
  obtain ⟨head, p, operands, entry, rfl⟩ := exists_entry_of_decode (h ▸ nofun : decode bytes ≠ .truncated)
  have shape : p.complete operands = .instr i rest := (entry.selects operands).symm.trans h
  exact ⟨wellFormed_of_decode h, entry.encodedAfter.append_eq shape⟩

/-! ### Illegal encodings -/

theorem Shape.complete_eq_illegal {p : Shape} {operands : List Byte} :
    p.complete operands = .illegal ↔ p = .illegal := by
  constructor
  · intro h
    unfold Shape.complete at h
    split at h <;> cases h
    rfl
  · rintro rfl
    rfl

/-- An illegal encoding is illegal whatever bytes follow (30_encoding.md R98). -/
theorem Entry.decode_eq_illegal {head operands : List Byte} {p : Shape} (e : Entry head p) :
    decode (head ++ operands) = .illegal ↔ p = .illegal := by
  rw [e.selects, Shape.complete_eq_illegal]

/-- The shape is the illegal one, as a test that runs. -/
def Shape.isIllegal : Shape → Bool
  | .illegal => true
  | _ => false

@[simp] theorem Shape.isIllegal_iff {p : Shape} : p.isIllegal = true ↔ p = .illegal := by
  cases p <;> simp [Shape.isIllegal]

/-- The 256 values of a byte, in their order. -/
def everyByte : List Byte := (List.finRange 256).map BitVec.ofFin

@[simp] theorem mem_everyByte (b : Byte) : b ∈ everyByte := List.mem_map.2 ⟨b.toFin, List.mem_finRange _, rfl⟩

/-! Each list, in its order, is what running the map over every byte finds (30_encoding.md R97, R98). -/

theorem filter_page1_isIllegal :
    everyByte.filter (fun b => (prebytePage b).isNone && (page1 b.toNat).isIllegal) = Machine.unassigned1 := by decide

theorem filter_page18_assigned : everyByte.filter (fun b => !(page18 b.toNat).isIllegal) = Machine.assigned18 := by
  decide

theorem filter_page1A_assigned : everyByte.filter (fun b => !(page1A b.toNat).isIllegal) = Machine.assigned1A := by
  decide

theorem filter_pageCD_assigned : everyByte.filter (fun b => !(pageCD b.toNat).isIllegal) = Machine.assignedCD := by
  decide

theorem mem_unassigned1 {b : Byte} :
    b ∈ Machine.unassigned1 ↔ prebytePage b = none ∧ page1 b.toNat = .illegal := by
  simp [← filter_page1_isIllegal]

theorem notMem_assigned18 {b : Byte} : b ∉ Machine.assigned18 ↔ page18 b.toNat = .illegal := by
  simp [← filter_page18_assigned]

theorem notMem_assigned1A {b : Byte} : b ∉ Machine.assigned1A ↔ page1A b.toNat = .illegal := by
  simp [← filter_page1A_assigned]

theorem notMem_assignedCD {b : Byte} : b ∉ Machine.assignedCD ↔ pageCD b.toNat = .illegal := by
  simp [← filter_pageCD_assigned]

/-- Settles O3: the bytes are illegal where the entry they begin with is, and the lists are the illegal entries of
page 1 and the legal ones of the other pages. -/
theorem illegalEncodingsAreExactlyTheListed : Obligations.IllegalEncodingsAreExactlyTheListed := by
  intro bytes
  constructor
  · intro h
    obtain ⟨head, p, operands, entry, rfl⟩ := exists_entry_of_decode (h ▸ nofun : decode bytes ≠ .truncated)
    have illegal : p = .illegal := entry.decode_eq_illegal.1 h
    cases entry with
    | @page1 op notPrebyte => exact ⟨op, operands, .inl ⟨rfl, mem_unassigned1.2 ⟨notPrebyte, illegal⟩⟩⟩
    | @prebyte pre op page selected =>
      refine ⟨op, operands, .inr ?_⟩
      obtain ⟨rfl, rfl⟩ | ⟨rfl, rfl⟩ | ⟨rfl, rfl⟩ := prebytePage_eq_some selected
      · exact .inl ⟨rfl, notMem_assigned18.2 illegal⟩
      · exact .inr (.inl ⟨rfl, notMem_assigned1A.2 illegal⟩)
      · exact .inr (.inr ⟨rfl, notMem_assignedCD.2 illegal⟩)
  · rintro ⟨b, rest, ⟨rfl, h⟩ | ⟨rfl, h⟩ | ⟨rfl, h⟩ | ⟨rfl, h⟩⟩
    · obtain ⟨notPrebyte, illegal⟩ := mem_unassigned1.1 h
      exact (Entry.page1 notPrebyte).decode_eq_illegal.2 illegal
    · exact (Entry.prebyte rfl).decode_eq_illegal.2 (notMem_assigned18.1 h)
    · exact (Entry.prebyte rfl).decode_eq_illegal.2 (notMem_assigned1A.1 h)
    · exact (Entry.prebyte rfl).decode_eq_illegal.2 (notMem_assignedCD.1 h)

end Sys2Proof
end

section
/-!
PROOF. The operations on an accumulator alone, the transfers between A and B, and the pointer arithmetic that writes
no flag (40_arithmetic.md, 41_logic_compare.md, 45_load_store_stack.md R296, R297).
-/

namespace Sys2Proof.Machine

/-! ### Accumulators -/

/-- A test completes with the flags its law says, and writes no register (41_logic_compare.md R192, R193). -/
theorem complete_withCcr {f g : Ccr} (law : f = g) (s : State) (pc : Word) :
    complete pc (.ok { s with ccr := f }) = .next { s with ccr := g, pc := pc } := by
  rw [law]
  rfl

/-- Settles O25: the laws of the operations on one byte, at the accumulator. -/
theorem accumulatorIncrementAndComplement : Obligations.AccumulatorIncrementAndComplement := by
  intro s
  exact ⟨complete_putA (inc8_eq _ _) _, complete_putA (dec8_eq _ _) _, complete_putA (neg8_eq _ _) _,
    complete_putA (com8_eq _ _) _, complete_putA (f := fun _ => clr8) (clr8_eq _) _, complete_withCcr (tst8_eq _ _) _ _,
    complete_putB (inc8_eq _ _) _, complete_putB (dec8_eq _ _) _, complete_putB (neg8_eq _ _) _,
    complete_putB (com8_eq _ _) _, complete_putB (f := fun _ => clr8) (clr8_eq _) _, complete_withCcr (tst8_eq _ _) _ _,
    complete_putB (f := fun _ g => (s.a, logic8 s.a g)) (congrArg (Prod.mk _) (logic8_eq _ _)) _,
    complete_putA (f := fun _ g => (s.b, logic8 s.b g)) (congrArg (Prod.mk _) (logic8_eq _ _)) _⟩

/-! ### Pointers -/

/-- The wrapped sum of a word and an unsigned byte adds the byte zero-extended (40_arithmetic.md R132). -/
theorem ofNat_word_add_byte (w : Word) (b : Byte) : BitVec.ofNat 16 (w.toNat + b.toNat) = w + b.zeroExtend 16 := by
  rw [BitVec.ofNat_add, BitVec.ofNat_toNat, BitVec.ofNat_toNat, BitVec.setWidth_eq]

theorem ofNat_word_succ (w : Word) : BitVec.ofNat 16 (w.toNat + 1) = w + 1 := by
  rw [BitVec.ofNat_add, BitVec.ofNat_toNat, BitVec.setWidth_eq]
  rfl

theorem ofInt_word_pred (w : Word) : BitVec.ofInt 16 (w.toNat - 1) = w - 1 := by
  rw [Int.sub_eq_add_neg, BitVec.ofInt_add, BitVec.ofInt_natCast, BitVec.ofNat_toNat, BitVec.setWidth_eq]
  exact (BitVec.sub_eq_add_neg w 1).symm

/-- Settles O28: the sums and the difference, taken modulo 2^16, are those of words. -/
theorem pointerArithmeticWithoutFlags : Obligations.PointerArithmeticWithoutFlags := by
  refine ⟨⟨rfl, rfl, rfl, rfl⟩, fun s => ⟨?_, ?_, ?_, ?_⟩⟩
  · rw [ofNat_word_add_byte]; rfl
  · rw [ofNat_word_add_byte]; rfl
  · rw [ofInt_word_pred]; rfl
  · rw [ofNat_word_succ]; rfl

end Sys2Proof.Machine
end

section
/-!
PROOF. The two-byte branches (43_branch_jump.md R230, R232 to R246, R248, R251, R252).
-/

namespace Sys2Proof.Machine

/-- Settles O35: each branch is `branchIf` on its condition. The model writes the conditions of BGE, BGT and BHI as a
negated sum of flags: De Morgan, and `^^` as the negation of `==`, give those of the statement. -/
theorem conditionalBranchesGoToTheSignedOffset : Obligations.ConditionalBranchesGoToTheSignedOffset := by
  intro rr s
  have onCondition (c : Bool) := branchIf_eq_branched (rfl : c = c) rr s
  have bge : (!(s.ccr.n ^^ s.ccr.v)) = (s.ccr.n == s.ccr.v) := Bool.not_not _
  have bgt : (!(s.ccr.z || (s.ccr.n ^^ s.ccr.v))) = (!s.ccr.z && s.ccr.n == s.ccr.v) := by rw [Bool.not_or, bge]
  have bhi : (!(s.ccr.c || s.ccr.z)) = (!s.ccr.c && !s.ccr.z) := Bool.not_or ..
  exact ⟨onCondition _, onCondition _, onCondition _, onCondition _, onCondition _, onCondition _, onCondition _,
    onCondition _, onCondition _, onCondition _,
    branchIf_eq_branched bge rr s, onCondition _, branchIf_eq_branched bgt rr s, onCondition _,
    branchIf_eq_branched bhi rr s, onCondition _, onCondition _, onCondition _⟩

end Sys2Proof.Machine
end

section
/-!
PROOF. The instructions that write one flag, and the mask I (44_bit_ccr.md R263, R265 to R268, 60_exceptions.md R402).
-/

namespace Sys2Proof.Machine

/-- While I is set, only XIRQ can be recognised, and X alone masks it (60_exceptions.md R402). -/
theorem recognised_of_masked {s : State} (masked : s.ccr.i = true) :
    recognised s = if s.pins.xirq && !s.ccr.x then some .xirq else none := by
  simp [recognised, masked]

/-- Settles O31: each instruction completes one byte further with its flag written, and SEI masks by
`recognised_of_masked`. -/
theorem flagInstructionsWriteOneFlag : Obligations.FlagInstructionsWriteOneFlag := by
  refine ⟨⟨rfl, rfl, rfl, rfl, rfl⟩, fun s => ⟨complete_withCcr rfl s _, complete_withCcr rfl s _,
    complete_withCcr rfl s _, complete_withCcr rfl s _, complete_withCcr rfl s _, fun masked => ?_⟩⟩
  rw [recognised_of_masked masked]
  split
  · exact .inr rfl
  · exact .inl rfl

end Sys2Proof.Machine
end

section
/-!
PROOF. The pushes, the pulls, and the transfers and exchanges of SP, IX, IY and D, none of which writes a flag
(45_load_store_stack.md R282 to R289, R298 to R303; 10_state.md R25).
-/

namespace Sys2Proof.Machine

/-! ### Pushes -/

/-- A byte push that can be written completes: the byte is at the old SP. -/
theorem complete_push8_of_canWrite {v : Byte} {s : State} (write : canWrite s.cfg s.sp v = true) (pc : Word) :
    complete pc (push8 v s) = .next { poke s.sp v s with sp := s.sp - 1, pc := pc } :=
  complete_eq_next.mpr ⟨_, push8_eq_ok.mpr ⟨by simp only [canPush, write, Bool.and_true], rfl⟩, rfl⟩

/-- A word push whose two bytes can be written completes: the low byte is at the old SP, the high byte one below. -/
theorem complete_push16_of_canWrite {v : Word} {s : State} (low : canWrite s.cfg s.sp (lowByte v) = true)
    (high : canWrite s.cfg (s.sp - 1) (highByte v) = true) (pc : Word) :
    complete pc (push16 v s) = .next
      { poke (s.sp - 1) (highByte v) (poke s.sp (lowByte v) s) with sp := s.sp - 2, pc := pc } := by
  have can : canPush s.cfg (wordBytes v) s.sp = true := by simp only [wordBytes, canPush, low, high, Bool.and_true]
  rw [complete_push16 can, wordBytes, pushed_two]

/-- Settles O39: each push is one byte or one word at the old SP. -/
theorem pushesStoreAtTheOldStackPointer : Obligations.PushesStoreAtTheOldStackPointer :=
  ⟨⟨rfl, rfl, rfl, rfl⟩, fun _ => ⟨
    fun write => complete_push8_of_canWrite write _, fun write => complete_push8_of_canWrite write _,
    fun low high => complete_push16_of_canWrite low high _, fun low high => complete_push16_of_canWrite low high _⟩⟩

/-! ### Pulls -/

theorem pulled_one (s : State) : pulled 1 s = { touch (s.sp + 1) s with sp := s.sp + 1 } :=
  touch_withSp (s.sp + 1) s (s.sp + 1)

/-- A byte pull that can be read answers the byte at the new SP. -/
theorem pull8_of_canRead {s : State} (read : canRead s.cfg (s.sp + 1) = true) :
    pull8 s = .ok (peek (s.sp + 1) s, { touch (s.sp + 1) s with sp := s.sp + 1 }) :=
  pull8_eq_ok.mpr ⟨by simp only [canPull, read, Bool.and_true], (pulledByte_zero s).symm, (pulled_one s).symm⟩

/-- A word pull whose two bytes can be read answers the high byte from one above SP, and the low byte, read after it,
from two above. -/
theorem pull16_of_canRead {s : State} (high : canRead s.cfg (s.sp + 1) = true) (low : canRead s.cfg (s.sp + 2) = true) :
    pull16 s = .ok (joinBytes (peek (s.sp + 1) s) (peek (s.sp + 2) (touch (s.sp + 1) s)),
      { touch (s.sp + 2) (touch (s.sp + 1) s) with sp := s.sp + 2 }) := by
  have up2 : s.sp + 1 + 1 = s.sp + 2 := by bv_omega
  have can : canPull s.cfg 2 s.sp = true := by simp only [canPull, up2, high, low, Bool.and_true]
  rw [← pulledByte_zero, ← pulledByte_one, ← pulled_two]
  exact pull16_eq_ok.mpr ⟨can, rfl, rfl⟩

/-- What an instruction does after an access that answers, it does with that answer. -/
theorem complete_bind {α : Type} {x : Except Refusal α} {a : α} (access : x = .ok a)
    (f : α → Except Refusal State) (pc : Word) : complete pc (x >>= f) = complete pc (f a) := by
  rw [access]
  rfl

/-- Settles O40: each pull answers as a byte or word pull does, and writes its register. -/
theorem pullsReadAtTheNewStackPointer : Obligations.PullsReadAtTheNewStackPointer := by
  refine ⟨⟨rfl, rfl, rfl, rfl⟩, fun s => ⟨fun read => ?pula, fun read => ?pulb, fun high low => ?pulx,
    fun high low => ?puly⟩⟩
  case pula => exact (complete_bind (pull8_of_canRead read) _ _).trans rfl
  case pulb => exact (complete_bind (pull8_of_canRead read) _ _).trans rfl
  case pulx => exact (complete_bind (pull16_of_canRead high low) _ _).trans rfl
  case puly => exact (complete_bind (pull16_of_canRead high low) _ _).trans rfl

/-! ### Transfers and exchanges -/

/-- Settles O30: the sum and the difference, taken modulo 2^16, are those of words, and D is the word of A and B. -/
theorem stackPointerTransfersAndExchanges : Obligations.StackPointerTransfersAndExchanges := by
  refine ⟨⟨rfl, rfl, rfl, rfl, rfl, rfl⟩, fun s => ?_⟩
  rw [ofNat_word_succ, ofInt_word_pred, ofInt_word_pred]
  exact ⟨rfl, rfl, ⟨true, rfl⟩, ⟨true, rfl⟩, rfl, rfl⟩

end Sys2Proof.Machine
end

section
/-!
PROOF. The system instructions (46_system.md R311 to R316).
-/

namespace Sys2Proof.Machine

/-! ### NOP, STOP and WAI -/

/-- STOP where S = 1 is a NOP (46_system.md R313). -/
theorem execStop_of_disabled {s : State} (disabled : s.ccr.s = true) :
    execStop s = .next { s with pc := next .stop s } := by
  rw [execStop, if_pos disabled, complete_ok]

/-- STOP where S = 0 leaves the CPU in the STOP state at the next instruction (46_system.md R313). -/
theorem execStop_of_enabled {s : State} (enabled : s.ccr.s = false) :
    execStop s = .next { s with pc := next .stop s, runState := .stop } := by
  rw [execStop, if_neg (Bool.not_eq_true _ ▸ enabled), complete_ok]

/-- WAI goes from its pushed frame to the WAIT state at the next instruction (46_system.md R316). -/
theorem execWai_of_pushFrame {s u : State} (frame : pushFrame (next .wai s) s = .ok u) :
    execWai s = .next { u with pc := next .wai s, runState := .wait } :=
  complete_bind frame _ _

/-- Settles O41: NOP by definition, STOP by the S bit, and WAI by what the nine pushes answer. -/
theorem nopStopAndWai : Obligations.NopStopAndWai :=
  fun _ => ⟨rfl, execStop_of_disabled, execStop_of_enabled,
    fun can => execWai_of_pushFrame (pushFrame_eq_ok.mpr ⟨can, rfl⟩)⟩

/-! ### SWI, TEST and RTI -/

/-- Where an illegal opcode traps, it is the entry to ILLOP with its own address (60_exceptions.md R415). -/
theorem illegalOpcode_of_trap {s : State} (trap : s.cfg.illegalOpcode = .trap) (can : canEnter .illop s.pc s = true) :
    illegalOpcode s = .next (entered .illop s.pc s) := by
  rw [illegalOpcode, trap]
  exact finish_eq_next.mpr (enter_eq can)

theorem illegalOpcode_of_fault {s : State} (fault : s.cfg.illegalOpcode = .fault) :
    illegalOpcode s = .fault .illegalOpcode := by
  rw [illegalOpcode, fault]

/-- RTI raises SP by the nine bytes it pulls (60_exceptions.md R412). -/
theorem returned_sp (s : State) : (returned s).sp = s.sp + 9 := by
  simp [returned]

theorem atSwi_of_decode {s : State} {rest : List Byte} (code : decode (fetchWindow s) = .instr .swi rest) :
    atSwi s = true := by
  rw [atSwi, code]
  rfl

theorem swi_mem_usableVectors {s : State} (swi : atSwi s = true) : vectorOf s.cfg .swi ∈ usableVectors s := by
  simp [usableVectors, swi]

theorem illop_mem_usableVectors {s : State} (trap : s.cfg.illegalOpcode = .trap) :
    vectorOf s.cfg .illop ∈ usableVectors s := by
  simp [usableVectors, trap]

/-- Settles O42: SWI and a trapping TEST are trap entries, RTI is the return from one, and the list of usable vectors
counts SWI where it stands at PC and ILLOP wherever the parameter is the trap. -/
theorem softwareTrapsAndTrapReturn : Obligations.SoftwareTrapsAndTrapReturn := by
  refine fun s => ⟨fun can => ?swi, illegalOpcode_of_trap, illegalOpcode_of_fault, fun can => ⟨?rti, returned_sp s⟩,
    fun _ code => swi_mem_usableVectors (atSwi_of_decode code), fun _ _ trap => illop_mem_usableVectors trap⟩
  case swi => exact finish_eq_next.mpr (enter_eq can)
  case rti => exact finish_eq_next.mpr (returnFromTrap_eq_ok.mpr ⟨can, rfl⟩)

end Sys2Proof.Machine
end

section
/-!
PROOF. The nine bytes of a trap frame, from the entry that stacks them to the return that pulls them
(60_exceptions.md R404, R410 to R412, R418).
-/

namespace Sys2Proof.Machine

/-! ### The frame in memory -/

/-- The nine bytes above `sp` hold the registers of `s` and the return address, as trap entry stacks them
(60_exceptions.md R410, R411). -/
structure FrameAt (m : Memory) (sp : Word) (s : State) (ret : Word) : Prop where
  ccr : m.get (sp + 1).toNat = s.ccr.toByte
  b : m.get (sp + 2).toNat = s.b
  a : m.get (sp + 3).toNat = s.a
  ix : wordAt m (sp + 4) = s.ix
  iy : wordAt m (sp + 6) = s.iy
  ret : wordAt m (sp + 8) = ret

theorem wordAt_add (m : Memory) (a : Word) (k : Nat) : wordAt m (a + BitVec.ofNat 16 k) =
    joinBytes (m.get (a + BitVec.ofNat 16 k).toNat) (m.get (a + BitVec.ofNat 16 (k + 1)).toNat) := by
  rw [wordAt, add_right_comm, address_succ]

/-- Trap entry on a stack in RAM leaves its frame above the new SP. -/
theorem entered_frameAt {s : State} (wf : s.mem.wf = true) (ram : ramFrom s.cfg 9 (s.sp - 8) = true) (name : TrapName)
    (ret : Word) : FrameAt (entered name ret s).mem (s.sp - 9) s ret := by
  have byte := frame_get (ret := ret) wf ram name
  refine ⟨byte 8 (by decide), byte 7 (by decide), byte 6 (by decide), ?ix, ?iy, ?ret⟩
  case ix =>
    exact (wordAt_add _ _ 4).trans
      ((congrArg₂ joinBytes (byte 5 (by decide)) (byte 4 (by decide))).trans (joinBytes_highByte_lowByte s.ix))
  case iy =>
    exact (wordAt_add _ _ 6).trans
      ((congrArg₂ joinBytes (byte 3 (by decide)) (byte 2 (by decide))).trans (joinBytes_highByte_lowByte s.iy))
  case ret =>
    exact (wordAt_add _ _ 8).trans
      ((congrArg₂ joinBytes (byte 1 (by decide)) (byte 0 (by decide))).trans (joinBytes_highByte_lowByte ret))

/-- A memory with the same nine bytes holds the same frame. -/
theorem FrameAt.of_same {m m' : Memory} {sp : Word} {s : State} {ret : Word} (frame : FrameAt m sp s ret)
    (same : ∀ k, 1 ≤ k → k ≤ 9 →
      m'.get (sp + BitVec.ofNat 16 k).toNat = m.get (sp + BitVec.ofNat 16 k).toNat) : FrameAt m' sp s ret := by
  have word (k : Nat) (h : 1 ≤ k) (h' : k < 9) :
      wordAt m' (sp + BitVec.ofNat 16 k) = wordAt m (sp + BitVec.ofNat 16 k) := by
    rw [wordAt_add, wordAt_add, same k h (by omega), same (k + 1) (by omega) (by omega)]
  exact ⟨(same 1 (by decide) (by decide)).trans frame.ccr, (same 2 (by decide) (by decide)).trans frame.b,
    (same 3 (by decide) (by decide)).trans frame.a, (word 4 (by decide) (by decide)).trans frame.ix,
    (word 6 (by decide) (by decide)).trans frame.iy, (word 8 (by decide) (by decide)).trans frame.ret⟩

/-! ### The state the handler starts in -/

theorem maskFor_eq (name : TrapName) (f : Ccr) :
    maskFor name f = { f with i := true, x := decide (name = .xirq) || f.x } := by
  rw [maskFor, Bool.or_comm]

/-- Trap entry keeps the registers and the run state, and clears I_DELAY. -/
theorem entered_kept (name : TrapName) (ret : Word) (s : State) :
    (entered name ret s).a = s.a ∧ (entered name ret s).b = s.b ∧ (entered name ret s).ix = s.ix
      ∧ (entered name ret s).iy = s.iy ∧ (entered name ret s).iDelay = false
      ∧ (entered name ret s).runState = s.runState := by
  obtain ⟨pc, e⟩ := entered_eq name ret s
  rw [e]
  exact ⟨rfl, rfl, rfl, rfl, rfl, rfl⟩

/-- The handler starts at the word in memory at the vector, as it is after the frame is stacked. -/
theorem entered_pc {name : TrapName} {s : State} (ret : Word)
    (memory : wordInMemory s.cfg (vectorOf s.cfg name) = true) :
    (entered name ret s).pc = wordAt (entered name ret s).mem (vectorOf s.cfg name) := by
  rw [← pushed_cfg (frameBytes ret s) s] at memory
  have read := (wordInMemory_touch (s := { pushed (frameBytes ret s) s with ccr := maskFor name s.ccr }) memory).2
  rw [entered_mem]
  simpa only [entered, pushed_cfg] using read

theorem memory_of_initialised {s : State} {a : Word} (h : s.initialised a = true) :
    kindOf s.cfg a = .ram ∨ kindOf s.cfg a = .rom := by
  cases kind : kindOf s.cfg a with
  | ram => exact .inl rfl
  | rom => exact .inr rfl
  | device => exact absurd ((initialised_of_outside (.inl kind)).symm.trans h) nofun
  | none => exact absurd ((initialised_of_outside (.inr kind)).symm.trans h) nofun

/-- An initialised vector lies in memory (60_exceptions.md R418). -/
theorem wordInMemory_of_initialised {s : State} {v : Word} (h : vectorInitialised s v = true) :
    wordInMemory s.cfg v = true := by
  rw [vectorInitialised, Bool.and_eq_true] at h
  rw [wordInMemory, Bool.and_eq_true, decide_eq_true_eq, decide_eq_true_eq]
  exact h.imp memory_of_initialised memory_of_initialised

theorem KeepsMap.vectorInitialised {s t : State} (keeps : KeepsMap s t) {v : Word}
    (h : Machine.vectorInitialised s v = true) : Machine.vectorInitialised t v = true := by
  rw [Machine.vectorInitialised, Bool.and_eq_true] at h ⊢
  exact h.imp (keeps.initialised v) (keeps.initialised (v + 1))

/-- Settles O45: the frame by `entered_frameAt`, the registers by `entered_kept`, the vector by `entered_pc`. -/
theorem trapFrameLayout : Obligations.TrapFrameLayout := by
  refine ⟨rfl, ?_⟩
  rintro name ret s _ wf ram rfl
  obtain ⟨a, b, ix, iy, iDelay, runState⟩ := entered_kept name ret s
  have frame := entered_frameAt wf ram name ret
  rw [← entered_sp name ret s] at frame
  refine ⟨entered_sp name ret s, frame.ccr, frame.b, frame.a, frame.ix, frame.iy, frame.ret, a, b, ix, iy,
    (entered_ccr name ret s).trans (maskFor_eq name s.ccr), iDelay, runState, ?_⟩
  intro vector
  have table : vector = vectorOf s.cfg name := by
    cases name
    case sci | spi => rfl
    all_goals rw [vectorOf, vectorTable_eq]
  rw [table]
  exact ⟨entered_pc ret, fun ready =>
    ⟨entered_pc ret (wordInMemory_of_initialised ready), (entered_keepsMap name ret s).vectorInitialised ready⟩⟩

/-! ### The return -/

/-- Two bytes pulled one after the other from RAM are the word there. -/
theorem pulledWord_of_ram {k n : Nat} {s : State} (hk : k + 1 < n)
    (ram : ∀ k, 1 ≤ k → k ≤ n → kindOf s.cfg (s.sp + BitVec.ofNat 16 k) = .ram) :
    joinBytes (pulledByte k s) (pulledByte (k + 1) s) = wordAt s.mem (s.sp + BitVec.ofNat 16 (k + 1)) := by
  rw [pulledByte_of_ram (by omega) ram, pulledByte_of_ram hk ram, wordAt_add]

/-- RTI from a frame in RAM restores what the frame holds; X is set only where it was. -/
theorem rti_of_frameAt {u s : State} {ret : Word}
    (ram : ∀ k, 1 ≤ k → k ≤ 9 → kindOf u.cfg (u.sp + BitVec.ofNat 16 k) = .ram) (frame : FrameAt u.mem u.sp s ret) :
    exec .rti u = .next
      { u with
        a := s.a, b := s.b, ix := s.ix, iy := s.iy, sp := u.sp + 9, pc := ret
        ccr := { s.ccr with x := u.ccr.x && s.ccr.x } } := by
  obtain ⟨after, can⟩ := pulled_of_ram ram
  have byte {k : Nat} (hk : k < 9) := pulledByte_of_ram hk ram
  have word {k : Nat} (hk : k + 1 < 9) := pulledWord_of_ram hk ram
  have ccr : u.ccr.load (pulledByte 0 u) = { s.ccr with x := u.ccr.x && s.ccr.x } := by
    have bitX : s.ccr.toByte.getLsbD 6 = s.ccr.x := congrArg Ccr.x s.ccr.ofByte_toByte
    rw [show pulledByte 0 u = _ from (byte (by decide)).trans frame.ccr, Ccr.load, Ccr.ofByte_toByte, bitX]
  have b : pulledByte 1 u = s.b := (byte (by decide)).trans frame.b
  have a : pulledByte 2 u = s.a := (byte (by decide)).trans frame.a
  have ix : joinBytes (pulledByte 3 u) (pulledByte 4 u) = s.ix := (word (by decide)).trans frame.ix
  have iy : joinBytes (pulledByte 5 u) (pulledByte 6 u) = s.iy := (word (by decide)).trans frame.iy
  have pc : joinBytes (pulledByte 7 u) (pulledByte 8 u) = ret := (word (by decide)).trans frame.ret
  refine (finish_eq_next.mpr (returnFromTrap_eq_ok.mpr ⟨can, rfl⟩)).trans ?_
  rw [returned, after, ccr, b, a, ix, iy, pc]
  rfl

/-- The nine bytes above the SP of a trap entry lie in RAM. -/
theorem frame_ram_up {cfg : Config} {sp : Word} (ram : ramFrom cfg 9 (sp - 8) = true) :
    ∀ k, 1 ≤ k → k ≤ 9 → kindOf cfg (sp - 9 + BitVec.ofNat 16 k) = .ram := by
  intro k h1 h9
  have address : sp - 8 + BitVec.ofNat 16 (k - 1) = sp - 9 + BitVec.ofNat 16 k := by
    apply BitVec.eq_of_toNat_eq
    simp [BitVec.toNat_sub, BitVec.toNat_add]
    omega
  exact address ▸ ramFrom_iff.mp ram (k - 1) (by omega)

/-- Settles O46: the bytes RTI pulls are the frame that trap entry left. -/
theorem trapReturnUndoesTheTrap : Obligations.TrapReturnUndoesTheTrap := by
  intro name ret s u wf ram sp cfg same
  have frame : FrameAt u.mem u.sp s ret := by
    rw [sp] at same ⊢
    exact (entered_frameAt wf ram name ret).of_same same
  have back : u.sp + 9 = s.sp := by
    rw [sp]
    exact BitVec.sub_add_cancel s.sp 9
  have rti := rti_of_frameAt (by rw [cfg, sp]; exact frame_ram_up ram) frame
  rwa [back] at rti

end Sys2Proof.Machine
end

section
/-!
PROOF. Which interrupt is recognised, which vectors it can use, and how WAIT and STOP end
(60_exceptions.md R402 to R406, R420 to R422, 70_reset_and_hazards.md R466).
-/

namespace Sys2Proof.Machine

/-! ### Requests -/

theorem maskableRequest_irq {s : State} (irq : s.pins.irq = true) : maskableRequest s = some .irq :=
  if_pos irq

theorem maskableRequest_spi {s : State} (irq : s.pins.irq = false) (spi : s.spi.request = true) :
    maskableRequest s = some .spi := by
  simp [maskableRequest, irq, spi]

theorem maskableRequest_sci {s : State} (irq : s.pins.irq = false) (spi : s.spi.request = false)
    (sci : s.sci.request = true) : maskableRequest s = some .sci := by
  simp [maskableRequest, irq, spi, sci]

theorem maskableRequest_none {s : State} (irq : s.pins.irq = false) (spi : s.spi.request = false)
    (sci : s.sci.request = false) : maskableRequest s = none := by
  simp [maskableRequest, irq, spi, sci]

/-- What a maskable request needs (60_exceptions.md R403). -/
theorem request_of_maskableRequest {s : State} {name : TrapName} (h : maskableRequest s = some name) :
    name = .irq ∨ (name = .spi ∧ s.spi.request = true) ∨ (name = .sci ∧ s.sci.request = true) := by
  unfold maskableRequest at h
  split_ifs at h with irq spi sci <;> obtain rfl := Option.some.inj h
  · exact .inl rfl
  · exact .inr (.inl ⟨rfl, spi⟩)
  · exact .inr (.inr ⟨rfl, sci⟩)

/-- An unmasked XIRQ comes before every maskable request. -/
theorem recognised_xirq {s : State} (xirq : (s.pins.xirq && !s.ccr.x) = true) : recognised s = some .xirq :=
  if_pos xirq

theorem recognised_open {s : State} (noXirq : (s.pins.xirq && !s.ccr.x) = false) (i : s.ccr.i = false)
    (delay : s.iDelay = false) : recognised s = maskableRequest s := by
  simp [recognised, noXirq, i, delay]

theorem recognised_closed {s : State} (noXirq : (s.pins.xirq && !s.ccr.x) = false)
    (closed : (!s.ccr.i && !s.iDelay) = false) : recognised s = none := by
  simp only [recognised, noXirq, closed, Bool.false_eq_true, if_false]

/-- The interrupt is not masked: XIRQ with X clear, or a maskable request with I clear (60_exceptions.md R402). -/
def Unmasked (s : State) (name : TrapName) : Prop :=
  (name = .xirq ∧ s.ccr.x = false) ∨ (s.ccr.i = false ∧ maskableRequest s = some name)

theorem unmasked_of_recognised {s : State} {name : TrapName} (h : recognised s = some name) : Unmasked s name := by
  unfold recognised at h
  split_ifs at h with xirq unmasked
  · rw [Bool.and_eq_true, Bool.not_eq_true'] at xirq
    exact .inl ⟨(Option.some.inj h).symm, xirq.2⟩
  · rw [Bool.and_eq_true, Bool.not_eq_true', Bool.not_eq_true'] at unmasked
    exact .inr ⟨unmasked.1, h⟩

/-- The end of a wait looks at the same masks, but not at I_DELAY (60_exceptions.md R421). -/
theorem unmasked_of_awakens {s : State} {name : TrapName} (h : awakens s = some name) : Unmasked s name := by
  unfold awakens at h
  split_ifs at h with xirq unmasked
  · rw [Bool.and_eq_true, Bool.not_eq_true'] at xirq
    exact .inl ⟨(Option.some.inj h).symm, xirq.2⟩
  · rw [Bool.not_eq_true'] at unmasked
    exact .inr ⟨unmasked, h⟩

/-! ### Usable vectors -/

theorem xirq_mem_usableVectors {s : State} (x : s.ccr.x = false) : vectorOf s.cfg .xirq ∈ usableVectors s := by
  simp [usableVectors, x]

theorem irq_mem_usableVectors {s : State} (i : s.ccr.i = false) : vectorOf s.cfg .irq ∈ usableVectors s := by
  simp [usableVectors, i]

/-- The SPI requests only where its enable bit is set. -/
theorem spi_mem_usableVectors {s : State} (i : s.ccr.i = false) (request : s.spi.request = true) :
    vectorOf s.cfg .spi ∈ usableVectors s := by
  have enabled : s.spi.spie = true := (Bool.and_eq_true_iff.mp request).1
  simp [usableVectors, i, enabled]

/-- The SCI requests only where one of its four enable bits is set. -/
theorem sci_mem_usableVectors {s : State} (i : s.ccr.i = false) (request : s.sci.request = true) :
    vectorOf s.cfg .sci ∈ usableVectors s := by
  have enabled : (s.sci.tie || s.sci.tcie || s.sci.rie || s.sci.ilie) = true := by
    simp only [Sci.request, Bool.or_eq_true, Bool.and_eq_true] at request ⊢
    exact request.imp (Or.imp (Or.imp And.left And.left) And.left) And.left
  simp [usableVectors, i, enabled]

/-- The vector of an interrupt that is not masked is one of those that can be used. -/
theorem mem_usableVectors_of_unmasked {s : State} {name : TrapName} (h : Unmasked s name) :
    vectorOf s.cfg name ∈ usableVectors s := by
  obtain ⟨rfl, x⟩ | ⟨i, request⟩ := h
  · exact xirq_mem_usableVectors x
  obtain rfl | ⟨rfl, spi⟩ | ⟨rfl, sci⟩ := request_of_maskableRequest request
  · exact irq_mem_usableVectors i
  · exact spi_mem_usableVectors i spi
  · exact sci_mem_usableVectors i sci

/-! ### While the CPU runs -/

theorem step_of_recognised {s : State} {name : TrapName} (running : s.Running) (h : recognised s = some name)
    (can : canEnter name s.pc s = true) : step s = .next (entered name s.pc s) := by
  rw [step_of_running running, h]
  exact finish_enter_eq_next.mpr ⟨can, rfl⟩

/-- Settles O47: the chain of `recognised` and of `maskableRequest`, one branch for each clause. -/
theorem interruptsAreTakenInTheirOrder : Obligations.InterruptsAreTakenInTheirOrder := by
  intro s running spi sci xirq open_
  have opens (h : open_ = true) : recognised s = maskableRequest s := by
    simp only [open_, Bool.and_eq_true, Bool.not_eq_true'] at h
    exact recognised_open h.1.1 h.1.2 h.2
  refine ⟨fun h => ?xirq, fun h => ?irq, fun h => ?spi, fun h => ?sci, fun h => ?none, fun n h => ?vector⟩
  case xirq => exact step_of_recognised running (recognised_xirq h)
  case irq =>
    obtain ⟨o, irq⟩ := Bool.and_eq_true_iff.mp h
    exact step_of_recognised running ((opens o).trans (maskableRequest_irq irq))
  case spi =>
    simp only [Bool.and_eq_true, Bool.not_eq_true'] at h
    obtain ⟨⟨o, irq⟩, spi⟩ := h
    exact step_of_recognised running ((opens o).trans (maskableRequest_spi irq spi))
  case sci =>
    simp only [Bool.and_eq_true, Bool.not_eq_true'] at h
    obtain ⟨⟨⟨o, irq⟩, spi⟩, sci⟩ := h
    exact step_of_recognised running ((opens o).trans (maskableRequest_sci irq spi sci))
  case none =>
    simp only [Bool.and_eq_true, Bool.not_eq_true'] at h
    obtain ⟨noXirq, quiet⟩ := h
    cases o : open_
    · have closed : (!s.ccr.i && !s.iDelay) = false := by
        simpa only [open_, noXirq, Bool.not_false, Bool.true_and] using o
      exact recognised_closed noXirq closed
    · rw [o, Bool.true_and, Bool.or_eq_false_iff, Bool.or_eq_false_iff] at quiet
      obtain ⟨⟨irq, spi⟩, sci⟩ := quiet
      exact (opens o).trans (maskableRequest_none irq spi sci)
  case vector => exact mem_usableVectors_of_unmasked (unmasked_of_recognised h)

/-! ### The end of a wait -/

/-- A read does not look at the condition codes. -/
theorem touch_withCcr (a : Word) (s : State) (f : Ccr) : touch a { s with ccr := f } = { touch a s with ccr := f } := by
  unfold touch
  simp only
  split
  case h_4 =>
    split
    next r _ =>
      cases r
      case adr1 | adr2 | adr3 | adr4 =>
        simp only [regAfterRead, afterAdr]
        split <;> rfl
      all_goals rfl
    next => rfl
  all_goals rfl

theorem peek_withCcr (a : Word) (s : State) (f : Ccr) : peek a { s with ccr := f } = peek a s := rfl

theorem peekWord_withCcr (a : Word) (s : State) (f : Ccr) : peekWord a { s with ccr := f } = peekWord a s := by
  rw [peekWord, peek_withCcr, touch_withCcr]
  exact congrArg _ (peek_withCcr ..)

theorem step_of_wait {s : State} (turns : s.turns = []) (wait : s.runState = .wait) : step s = waitStep s := by
  rw [step_of_cpuTurn (.inl ⟨turns, rfl⟩), cpuStep, wait]

theorem waitStep_of_awakens {s : State} {name : TrapName} (pin : s.pins.reset = false) (h : awakens s = some name)
    (can : canReadWord s.cfg (vectorOf s.cfg name) = true) : waitStep s = .next (resumed name s) := by
  simp only [waitStep, pin, h]
  exact finish_eq_next.mpr (resume_eq_ok.mpr ⟨can, rfl⟩)

theorem waitStep_of_quiet {s : State} (pin : s.pins.reset = false) (h : awakens s = none) : waitStep s = .next s := by
  simp [waitStep, pin, h]

theorem resumed_kept (name : TrapName) (s : State) :
    (resumed name s).mem = s.mem ∧ (resumed name s).written = s.written ∧ (resumed name s).sp = s.sp
      ∧ (resumed name s).spWritten = s.spWritten ∧ (resumed name s).a = s.a ∧ (resumed name s).b = s.b
      ∧ (resumed name s).ix = s.ix ∧ (resumed name s).iy = s.iy := by
  simp [resumed, touchWord]

theorem resumed_pc (name : TrapName) (s : State) : (resumed name s).pc = peekWord (vectorOf s.cfg name) s :=
  peekWord_withCcr ..

/-- The chain of requests that end a wait, written out (60_exceptions.md R421). -/
theorem awakens_eq (s : State) : awakens s =
    if s.pins.xirq && !s.ccr.x then some .xirq
    else if !(s.pins.xirq && !s.ccr.x) && !s.ccr.i && s.pins.irq then some .irq
    else if !(s.pins.xirq && !s.ccr.x) && !s.ccr.i && s.spi.request then some .spi
    else if !(s.pins.xirq && !s.ccr.x) && !s.ccr.i && s.sci.request then some .sci
    else none := by
  unfold awakens maskableRequest
  cases s.pins.xirq && !s.ccr.x <;> cases s.ccr.i <;> rfl

/-- Settles O49: the chain is `awakens`, and the end of a wait is `resumed`. -/
theorem waitEndsWithoutStackingAgain : Obligations.WaitEndsWithoutStackingAgain := by
  intro s turns wait pin xirq open_ name
  have chain : name = awakens s := (awakens_eq s).symm
  rw [chain, step_of_wait turns wait]
  refine ⟨waitStep_of_quiet pin, fun n h => ⟨mem_usableVectors_of_unmasked (unmasked_of_awakens h), fun can => ?_⟩⟩
  obtain ⟨mem, written, sp, spWritten, a, b, ix, iy⟩ := resumed_kept n s
  exact ⟨resumed n s, waitStep_of_awakens pin h can, rfl, (resumed_ccr n s).trans (maskFor_eq n s.ccr), mem, written,
    sp, spWritten, a, b, ix, iy, resumed_pc n s⟩

/-! ### The end of a stop -/

theorem step_of_stop {s : State} (turns : s.turns = []) (stop : s.runState = .stop) : step s = stopStep s := by
  rw [step_of_cpuTurn (.inl ⟨turns, rfl⟩), cpuStep, stop]

/-- Whether a trap can be entered does not depend on the run state. -/
theorem finish_enter_awake {name : TrapName} {s : State} (can : canEnter name s.pc s = true) :
    finish (enter name s.pc { s with runState := .run }) = .next (entered name s.pc { s with runState := .run }) :=
  finish_enter_eq_next.mpr ⟨can, rfl⟩

theorem agentStep_of_stop {x : Turn} {s : State} (device : ∀ p, x ≠ .pins p) (stop : s.runState = .stop) :
    agentStep x s = s := by
  unfold agentStep
  split
  next p => exact absurd rfl (device p)
  next => exact if_pos stop

/-- Settles O50: the branches of `stopStep`, and the stopped clocks of the devices. -/
theorem stopEndsOnPinsOnly : Obligations.StopEndsOnPinsOnly := by
  intro s stop
  refine ⟨fun turns pin => ?_, fun x ts turns notCpu device => ?_⟩
  · rw [step_of_stop turns stop]
    refine ⟨xirq_mem_usableVectors, irq_mem_usableVectors, fun xirq x can => ?_, fun xirq x => ?_,
      fun xirq irq i can => ?_, fun xirq masked => ?_⟩
    · rw [← finish_enter_awake can]
      simp [stopStep, pin, xirq, x]
    · simp [stopStep, pin, xirq, x]
    · rw [← finish_enter_awake can]
      simp [stopStep, pin, xirq, irq, i]
    · obtain h | h := masked <;> simp [stopStep, pin, xirq, h]
  · rw [step_of_turn turns notCpu, agentStep_of_stop (s := { s with turns := ts }) device stop]

end Sys2Proof.Machine
end

section
/-!
PROOF. The turns of the SCI's transmitter and receiver (60_exceptions.md R439, R441 to R443).
-/

namespace Sys2Proof.Machine

/-! ### The transmitter -/

/-- Where its guard holds, the load takes the waiting character and sets TDRE. -/
theorem Sci.txLoad_ready {d : Sci} (te : d.te = true) (full : d.tdre = false) (free : d.txBusy = false) :
    d.txLoad = { d with txShift := d.waiting, txBusy := true, scsr := d.scsr ||| 0x80, tdrLoose := false } :=
  if_pos (by simp [te, full, free])

theorem Sci.txLoad_idle {d : Sci} (h : d.te = false ∨ d.tdre = true ∨ d.txBusy = true) : d.txLoad = d :=
  if_neg (by rcases h with h | h | h <;> simp [h])

/-- A character whose write had not armed TDRE goes out without a change of a flag (93 U14). -/
theorem Sci.txLoadLoose_ready {d : Sci} (te : d.te = true) (loose : d.tdrLoose = true) (free : d.txBusy = false) :
    d.txLoadLoose = { d with txShift := d.waiting, txBusy := true, tdrLoose := false } :=
  if_pos (by simp [te, loose, free])

theorem Sci.txLoadLoose_idle {d : Sci} (h : d.te = false ∨ d.tdrLoose = false ∨ d.txBusy = true) :
    d.txLoadLoose = d :=
  if_neg (by rcases h with h | h | h <;> simp [h])

/-- The character in the shifter leaves, and TC is set where no other waits. -/
theorem Sci.txDone_busy {d : Sci} (busy : d.txBusy = true) :
    d.txDone =
      { d with
        out := d.out ++ [.frame d.txShift], txBusy := false
        scsr := d.scsr ||| (if d.tdre then 0x40 else 0x00) } := by
  have flags : (if d.tdre then d.scsr ||| 0x40 else d.scsr) = d.scsr ||| (if d.tdre then 0x40 else 0x00) := by
    cases d.tdre
    · exact (BitVec.or_zero (x := d.scsr)).symm
    · rfl
  rw [← flags]
  exact if_pos busy

theorem Sci.txDone_idle {d : Sci} (free : d.txBusy = false) : d.txDone = d :=
  if_neg (Bool.eq_false_iff.mp free)

theorem Sci.sendBreak_ready {d : Sci} (te : d.te = true) (sbk : d.sbk = true) (free : d.txBusy = false) :
    d.sendBreak = { d with out := d.out ++ [.brk] } :=
  if_pos (by simp [te, sbk, free])

theorem Sci.sendBreak_idle {d : Sci} (h : d.te = false ∨ d.sbk = false ∨ d.txBusy = true) : d.sendBreak = d :=
  if_neg (by rcases h with h | h | h <;> simp [h])

/-- Settles O57: each turn is its guard and, where the guard holds, the one update it makes. -/
theorem sciTransmitterSteps : Obligations.SciTransmitterSteps := by
  intro s ts clocks
  refine ⟨fun turns => ?load, fun turns => ?done, fun turns => ?loose, fun turns => ?brk⟩
  case load =>
    have moved : step s = .next { s with turns := ts, sci := s.sci.txLoad } := step_of_deviceTurn turns rfl clocks
    rw [moved]
    exact ⟨fun te full free => by rw [Sci.txLoad_ready te full free]; rfl, fun idle => by rw [Sci.txLoad_idle idle]⟩
  case done =>
    have moved : step s = .next { s with turns := ts, sci := s.sci.txDone } := step_of_deviceTurn turns rfl clocks
    rw [moved]
    exact ⟨fun busy => by rw [Sci.txDone_busy busy], fun free => by rw [Sci.txDone_idle free]⟩
  case loose =>
    have moved : step s = .next { s with turns := ts, sci := s.sci.txLoadLoose } :=
      step_of_deviceTurn turns rfl clocks
    rw [moved]
    exact ⟨fun te loose free => by rw [Sci.txLoadLoose_ready te loose free]; rfl,
      fun idle => by rw [Sci.txLoadLoose_idle idle]⟩
  case brk =>
    have moved : step s = .next { s with turns := ts, sci := s.sci.sendBreak } := step_of_deviceTurn turns rfl clocks
    rw [moved]
    exact ⟨fun te sbk free => by rw [Sci.sendBreak_ready te sbk free], fun idle => by rw [Sci.sendBreak_idle idle]⟩

/-! ### The receiver -/

/-- The receiver hears a character: it is awake, or the top bit of the character wakes it (60_exceptions.md R442). -/
def Sci.hears (c : Byte) (b8 : Bool) (d : Sci) : Bool := !d.rwu || (d.wake && (if d.m then b8 else c.msb))

/-- The receiver with the character in its shift register, and RWU cleared where the character wakes it. -/
def Sci.caught (c : Byte) (b8 wakes : Bool) (d : Sci) : Sci :=
  { d with
    rxShift := { ninth := if d.m then some b8 else none, data := c }, idleDone := false
    sccr2 := if wakes then d.sccr2 &&& 0xFD else d.sccr2 }

/-- A receiver that is off does not move. -/
theorem Sci.rxChar_off {c : Byte} {b8 noisy badstop : Bool} {d : Sci} (off : d.re = false) :
    d.rxChar c b8 noisy badstop = d :=
  if_neg (Bool.eq_false_iff.mp off)

theorem Sci.rxIdle_off {d : Sci} (off : d.re = false) : d.rxIdle = d :=
  if_neg (Bool.eq_false_iff.mp off)

/-- A character that is not heard stays in the shift register. -/
theorem Sci.rxChar_unheard {c : Byte} {b8 noisy badstop : Bool} {d : Sci} (on : d.re = true)
    (h : d.hears c b8 = false) : d.rxChar c b8 noisy badstop = d.caught c b8 false := by
  rw [Sci.hears, msb_eq_getLsbD_byte, Bool.or_eq_false_iff, Bool.not_eq_false'] at h
  obtain ⟨asleep, deaf⟩ := h
  simp only [Sci.rxChar, on, asleep, deaf]
  rfl

/-- A character that is heard is accepted, by a receiver that is awake from then on. -/
theorem Sci.rxChar_heard {c : Byte} {b8 noisy badstop : Bool} {d : Sci} (on : d.re = true)
    (h : d.hears c b8 = true) :
    d.rxChar c b8 noisy badstop = Sci.accept c b8 noisy badstop (d.caught c b8 d.rwu) := by
  rw [Sci.hears, msb_eq_getLsbD_byte, Bool.or_eq_true, Bool.not_eq_true'] at h
  cases asleep : d.rwu
  case false =>
    simp only [Sci.rxChar, on, asleep]
    rfl
  case true =>
    have woken := h.resolve_left (by simp [asleep])
    simp only [Sci.rxChar, on, asleep, woken]
    rfl

/-- The mask that wakes the receiver clears RWU. -/
theorem Sci.rwu_woken (d : Sci) : (d.sccr2 &&& 0xFD).getLsbD 1 = false := by simp

theorem Sci.caught_rwu (c : Byte) (b8 : Bool) (d : Sci) : (d.caught c b8 d.rwu).rwu = false := by
  cases asleep : d.rwu
  · exact asleep
  · exact Sci.rwu_woken d

/-- RDR takes the character unless the one before is unread. -/
theorem Sci.accept_rdr (c : Byte) (b8 noisy badstop : Bool) (d : Sci) :
    (Sci.accept c b8 noisy badstop d).rdr = if !d.rdrf then c else d.rdr := by
  unfold Sci.accept
  cases d.rdrf <;> rfl

theorem Sci.accept_scsr (c : Byte) (b8 noisy badstop : Bool) (d : Sci) :
    (Sci.accept c b8 noisy badstop d).scsr =
      if d.rdrf then d.scsr ||| 0x08
      else d.scsr ||| 0x20 ||| (if noisy then 0x04 else 0x00) ||| (if badstop then 0x02 else 0x00) := by
  unfold Sci.accept
  split <;> rfl

/-- R8 takes the ninth bit with the character. -/
theorem Sci.accept_r8 (c : Byte) (b8 noisy badstop : Bool) (d : Sci) :
    (Sci.accept c b8 noisy badstop d).sccr1.getLsbD 7 = if !d.rdrf && d.m then b8 else d.sccr1.getLsbD 7 := by
  have ninth : ((d.sccr1 &&& 0x7F) ||| (if b8 then 0x80 else 0x00)).getLsbD 7 = b8 := by cases b8 <;> simp
  unfold Sci.accept
  cases full : d.rdrf
  · cases nine : d.m
    · rfl
    · exact ninth
  · rfl

/-- What an accepted character leaves alone. -/
theorem Sci.accept_kept (c : Byte) (b8 noisy badstop : Bool) (d : Sci) :
    (Sci.accept c b8 noisy badstop d).rwu = d.rwu ∧ (Sci.accept c b8 noisy badstop d).idleDone = d.idleDone
      ∧ (Sci.accept c b8 noisy badstop d).rxShift = d.rxShift ∧ (Sci.accept c b8 noisy badstop d).armed = d.armed
      ∧ (Sci.accept c b8 noisy badstop d).tdr = d.tdr := by
  unfold Sci.accept
  split <;> exact ⟨rfl, rfl, rfl, rfl, rfl⟩

/-- A sleeping receiver is woken by an idle line where WAKE = 0. -/
theorem Sci.rxIdle_asleep {d : Sci} (on : d.re = true) (asleep : d.rwu = true) :
    d.rxIdle = if d.wake then d else { d with sccr2 := d.sccr2 &&& 0xFD, idleDone := true } :=
  (if_pos on).trans (if_pos asleep)

/-- A receiver that is awake reports an idle line once per gap. -/
theorem Sci.rxIdle_awake {d : Sci} (on : d.re = true) (awake : d.rwu = false) :
    d.rxIdle = if d.idleDone then d else { d with scsr := d.scsr ||| 0x10, idleDone := true } :=
  (if_pos on).trans (if_neg (Bool.eq_false_iff.mp awake))

/-- What an idle line does to a receiver that is on (60_exceptions.md R443). -/
theorem Sci.rxIdle_on {d : Sci} (on : d.re = true) :
    d.rxIdle.rwu = (d.rwu && d.wake)
      ∧ d.rxIdle.scsr = (if d.rwu || d.idleDone then d.scsr else d.scsr ||| 0x10)
      ∧ d.rxIdle.idleDone = (d.idleDone || !(d.rwu && d.wake)) ∧ d.rxIdle.rdr = d.rdr
      ∧ d.rxIdle.armed = d.armed := by
  cases sleeps : d.rwu
  case true =>
    rw [Sci.rxIdle_asleep on sleeps]
    cases marks : d.wake
    · exact ⟨Sci.rwu_woken d, rfl, (Bool.or_true _).symm, rfl, rfl⟩
    · exact ⟨sleeps, rfl, (Bool.or_false _).symm, rfl, rfl⟩
  case false =>
    rw [Sci.rxIdle_awake on sleeps]
    cases reported : d.idleDone
    · exact ⟨sleeps, rfl, rfl, rfl, rfl⟩
    · exact ⟨sleeps, rfl, reported, rfl, rfl⟩

/-- Settles O58: a character that is heard is accepted, one that is not is only caught in the shift register, and an
idle line is `Sci.rxIdle_on`. -/
theorem sciReceiverSteps : Obligations.SciReceiverSteps := by
  intro s ts c b8 noisy badstop clocks
  refine ⟨fun turns => ?char, fun turns => ?idle⟩
  case char =>
    have moved : step s = .next { s with turns := ts, sci := s.sci.rxChar c b8 noisy badstop } :=
      step_of_deviceTurn turns rfl clocks
    refine ⟨fun off => by rw [moved, Sci.rxChar_off off], fun on => ?_⟩
    intro heard
    refine ⟨_, moved, ?_⟩
    cases h : heard
    case false =>
      rw [Sci.rxChar_unheard on h]
      exact ⟨rfl, rfl, rfl, (Bool.and_true _).symm, rfl, rfl, rfl, rfl⟩
    case true =>
      rw [Sci.rxChar_heard on h]
      obtain ⟨rwu, idleDone, rxShift, armed, tdr⟩ := Sci.accept_kept c b8 noisy badstop (s.sci.caught c b8 s.sci.rwu)
      refine ⟨Sci.accept_rdr .., Sci.accept_scsr .., Sci.accept_r8 .., ?_, idleDone, rxShift, armed, tdr⟩
      exact rwu.trans ((Sci.caught_rwu ..).trans (Bool.and_false _).symm)
  case idle =>
    have moved : step s = .next { s with turns := ts, sci := s.sci.rxIdle } := step_of_deviceTurn turns rfl clocks
    exact ⟨fun off => by rw [moved, Sci.rxIdle_off off], fun on => ⟨_, moved, Sci.rxIdle_on on⟩⟩

end Sys2Proof.Machine
end

section
/-!
PROOF. Reset as an event of the running machine (70_reset_and_hazards.md R460 to R466).
-/

namespace Sys2Proof.Machine

/-! ### A read of memory is never refused -/

theorem canRead_of_memory {cfg : Config} {a : Word} (h : kindOf cfg a = .ram ∨ kindOf cfg a = .rom) :
    canRead cfg a = true := by
  have notDevice : kindOf cfg a ≠ .device := by
    obtain h | h := h <;> rw [h] <;> nofun
  exact canRead_iff.mpr (if_neg fun device => notDevice device.1)

theorem canReadWord_of_wordInMemory {cfg : Config} {a : Word} (h : wordInMemory cfg a = true) :
    canReadWord cfg a = true := by
  rw [wordInMemory, Bool.and_eq_true, decide_eq_true_eq, decide_eq_true_eq] at h
  rw [canReadWord, Bool.and_eq_true]
  exact h.imp canRead_of_memory canRead_of_memory

/-! ### The event -/

/-- With its vector in memory reset answers, and reading the vector has no effect (70_reset_and_hazards.md R461). -/
theorem resetMachine_of_memory {s : State} (memory : wordInMemory s.cfg (resetVector s.cfg) = true) :
    resetMachine s = .ok { afterReset s with pc := wordAt s.mem (resetVector s.cfg) } := by
  obtain ⟨touched, word⟩ := wordInMemory_touch (s := afterReset s) memory
  have read : readWord (resetVector s.cfg) (afterReset s) = .ok (wordAt s.mem (resetVector s.cfg), afterReset s) :=
    readWord_eq_ok.mpr ⟨canReadWord_of_wordInMemory memory, word.symm, touched.symm⟩
  exact bind_eq_ok.mpr ⟨_, read, rfl⟩

/-- The reset pin comes first in each of the three run states (60_exceptions.md R406, R421, R422). -/
theorem cpuStep_of_resetPin {s : State} (pin : s.pins.reset = true) : cpuStep s = finish (resetMachine s) := by
  unfold cpuStep
  cases s.runState
  case run => exact if_pos pin
  case wait => exact if_pos pin
  case stop => exact if_pos pin

theorem step_of_resetPin {s : State} (turns : s.turns = []) (pin : s.pins.reset = true)
    (memory : wordInMemory s.cfg (resetVector s.cfg) = true) :
    step s = .next { afterReset s with pc := wordAt s.mem (resetVector s.cfg) } := by
  rw [step_of_cpuTurn (.inl ⟨turns, rfl⟩), cpuStep_of_resetPin pin]
  exact finish_eq_next.mpr (resetMachine_of_memory memory)

/-! ### The values -/

/-- Reset can always come (70_reset_and_hazards.md R466). -/
theorem resetVector_mem_usableVectors (s : State) : resetVector s.cfg ∈ usableVectors s := by
  simp [usableVectors]

/-- CCF and the blank bit 6 are clear; the rest of ADCTL is free (10_state.md R51). -/
theorem Adc.afterReset_adctl (free : Nat → Byte) : (Adc.afterReset free).adctl &&& 0xC0 = 0 :=
  disjoint_and_right (by decide)

/-- The bits of BAUD outside the rate select are clear. -/
theorem Sci.afterReset_baud (rwu : Bool) (free : Nat → Byte) (d : Sci) :
    (d.afterReset rwu free).baud &&& 0xF8 = 0x00 :=
  disjoint_and_right (by decide)

/-- Of SCCR1 only R8 and T8 are free. -/
theorem Sci.afterReset_sccr1 (rwu : Bool) (free : Nat → Byte) (d : Sci) :
    (d.afterReset rwu free).sccr1 &&& 0x3F = 0x00 :=
  disjoint_and_right (by decide)

/-- Of SPCR the two bits of the rate are free, and of the others only CPHA is set. -/
theorem Spi.afterReset_spcr (free : Nat → Byte) (d : Spi) : (d.afterReset free).spcr &&& 0xFC = 0x04 := by
  show (0x04 ||| (free 0 &&& 0x03)) &&& 0xFC = 0x04
  have rate : free 0 &&& 0x03 &&& 0xFC = 0 := disjoint_and_right (by decide)
  rw [BitVec.and_or_distrib_right, rate]
  decide

/-- Settles O52: the step answers `afterReset` with PC from the vector, where only the four registers with free bits
need a lemma. -/
theorem resetPinRestartsTheMachine : Obligations.ResetPinRestartsTheMachine := by
  intro s turns pin memory
  rw [← vectorTable_eq s.cfg] at memory ⊢
  exact ⟨_, step_of_resetPin turns pin memory, rfl, rfl, rfl, rfl, resetVector_mem_usableVectors s,
    rfl, rfl, rfl, rfl, rfl, rfl, Adc.afterReset_adctl _, rfl, rfl, Spi.afterReset_spcr _ _, rfl, rfl, rfl,
    Sci.afterReset_baud _ _ _, Sci.afterReset_sccr1 _ _ _, rfl, rfl, rfl, rfl, rfl, rfl⟩

end Sys2Proof.Machine
end
